-- ==== Sys2Proof/Word.lean ====
section
/-! DEFINITION. The words of the link and card line frames, and the sixteen-member sets the spec codes as one word. -/

namespace Sys2Proof

/-- A character of a card line frame, and a code, subject or index byte of a link frame (R200, R30). -/
abbrev Byte := BitVec 8

/-- A value of a link frame and a word of a read item (R200, R206). -/
abbrev Word16 := BitVec 16

/-- A set of groups, stages or inputs: bit k−1 stands for member k (R207, R210). -/
abbrev Set16 := BitVec 16

end Sys2Proof
end

