-- ==== Sys2Proof/Syntax.lean ====
section
/-! DEFINITION. The commands of the block: one constructor per row of spec/opcode_table.json, with the row's operands. -/

namespace Sys2Proof

/-- Signal group G(n+1) (00_scope.md section 4). -/
abbrev GroupId := Fin 16
/-- Stage S(n+1). -/
abbrev StageId := Fin 16
/-- Contact input I(n+1). -/
abbrev InputId := Fin 16
/-- Output O(n+1), core n mod 8 + 1 of card n / 8 + 1. -/
abbrev OutputId := Fin 64
/-- Lamp card n+1. -/
abbrev CardId := Fin 8
/-- Plan P(n+1). -/
abbrev PlanId := Fin 16
/-- Step n+1 of a plan. -/
abbrev StepNo := Fin 32
/-- Slot n of the fault table. -/
abbrev SlotId := Fin 48
/-- Slot n of the investigation table. -/
abbrev InvSlot := Fin 4
/-- The number of a mains cycle (R25). -/
abbrev CycleNo := Fin 16

/-- The two link ports (R199). -/
inductive Link where
  | plan
  | check
  deriving DecidableEq, Repr

/-- The two card lines (R30). -/
inductive LineId where
  | a
  | b
  deriving DecidableEq, Repr

/-- A contact's level, in the order of R172: OPEN, CLOSED. -/
inductive Level where
  | opened
  | closed
  deriving DecidableEq, Repr

/-- The fields of a good link frame after its code (R200). -/
structure Fields where
  subject : Byte
  index : Byte
  value : Word16
  deriving DecidableEq, Repr

/-- A frame a card line's receiver has collected, taken whole: its characters in order, and whether it was received
with no framing error, no gap and no character within 4 character times of its last (R30). -/
structure RxFrame where
  chars : List Byte
  sound : Bool
  deriving DecidableEq, Repr

/-- The commands. Each names its row of spec/opcode_table.json and the rule the row names. A request carries the link
it comes over and its frame's fields. -/
inductive Instr where
  /-- POWER_ON_RESET (R153). Bit k−1 of contacts: input k conducts at the first sample (R172). -/
  | powerOnReset (contacts : Set16)
  /-- NOP (R200). -/
  | nop (l : Link) (f : Fields)
  /-- DISCARDED_FRAME (R201): the clocks counted, any number but 40. -/
  | discardedFrame (l : Link) (clocks : Nat)
  /-- UNKNOWN_REQUEST (R203): a code the link has no right to. -/
  | unknownRequest (l : Link) (code : Byte) (f : Fields)
  /-- SAFETY_WRITE (R7). -/
  | safetyWrite (l : Link) (f : Fields)
  /-- ACTIVATE (R9). -/
  | activate (l : Link) (f : Fields)
  /-- STAGE_WRITE (R23). -/
  | stageWrite (l : Link) (f : Fields)
  /-- CARD_SET (R46). -/
  | cardSet (l : Link) (f : Fields)
  /-- INPUT_SET (R180). reading: what a sample of that input reads at the request (R181); ms: whole ms of its running sample
interval (log entry 7). -/
  | inputSet (l : Link) (f : Fields) (reading : Level) (ms : Nat)
  /-- SET_LAYOUT (R115). -/
  | setLayout (l : Link) (f : Fields)
  /-- PLAN_WRITE (R108). -/
  | planWrite (l : Link) (f : Fields)
  /-- PLAN_CLOSE (R109). -/
  | planClose (l : Link) (f : Fields)
  /-- PLAN_ERASE (R110). -/
  | planErase (l : Link) (f : Fields)
  /-- START_PLAN (R112). -/
  | startPlan (l : Link) (f : Fields)
  /-- SELECT_PLAN (R116). -/
  | selectPlan (l : Link) (f : Fields)
  /-- DEMAND (R139). -/
  | demand (l : Link) (f : Fields)
  /-- EXTEND (R140). -/
  | extend (l : Link) (f : Fields)
  /-- PRIORITY_CALL (R141). -/
  | priorityCall (l : Link) (f : Fields)
  /-- CANCEL_PRIORITY (R142). -/
  | cancelPriority (l : Link) (f : Fields)
  /-- ALL_RED (R144). -/
  | allRed (l : Link) (f : Fields)
  /-- SET_CLOCK (R124). -/
  | setClock (l : Link) (f : Fields)
  /-- RESTORE_OFFER (R161). -/
  | restoreOffer (l : Link) (f : Fields)
  /-- RESTORE (R163). -/
  | restore (l : Link) (f : Fields)
  /-- HANDOVER (R157). -/
  | handover (l : Link) (f : Fields)
  /-- VOUCH (R167). -/
  | vouch (l : Link) (f : Fields)
  /-- SERVICE_RESTART (R170). -/
  | serviceRestart (l : Link) (f : Fields)
  /-- RELEARN (R62). -/
  | relearn (l : Link) (f : Fields)
  /-- CLEAR_RECORD (R190). -/
  | clearRecord (l : Link) (f : Fields)
  /-- SET_ATTENTION (R196). -/
  | setAttention (l : Link) (f : Fields)
  /-- SAFETY_STATUS (R21). -/
  | safetyStatus (l : Link) (f : Fields)
  /-- READ_GROUP (R83). -/
  | readGroup (l : Link) (f : Fields)
  /-- READ_OUTPUT (R83). -/
  | readOutput (l : Link) (f : Fields)
  /-- READ_CARD (R47). -/
  | readCard (l : Link) (f : Fields)
  /-- READ_LINE (R47). -/
  | readLine (l : Link) (f : Fields)
  /-- READ_STAGE (R22). -/
  | readStage (l : Link) (f : Fields)
  /-- READ_PLAN (R121). -/
  | readPlan (l : Link) (f : Fields)
  /-- READ_SEQUENCER (R152). -/
  | readSequencer (l : Link) (f : Fields)
  /-- READ_INPUT (R183). ms: whole ms of the running sample interval of the input it names (log entry 7). -/
  | readInput (l : Link) (f : Fields) (ms : Nat)
  /-- READ_NEXT_NOTICE (R192). -/
  | readNextNotice (l : Link) (f : Fields)
  /-- READ_RECORD (R194). -/
  | readRecord (l : Link) (f : Fields)
  /-- READ_CLOCK (R124). -/
  | readClock (l : Link) (f : Fields)
  /-- READ_INVESTIGATION (R104). -/
  | readInvestigation (l : Link) (f : Fields)
  /-- MAINS_CROSSING (R26). period: ticks since the last recognised crossing; since: ticks since the last cycle start. -/
  | mainsCrossing (period since : Nat)
  /-- MAINS_TIMEOUT (R28). -/
  | mainsTimeout
  /-- PACE_TIMER_EXPIRY (R29). -/
  | paceTimerExpiry
  /-- SWITCH (R33). -/
  | switch
  /-- POLL (R35). -/
  | poll
  /-- WINDOW (R36): a frame received on a line. -/
  | window (line : LineId) (rx : RxFrame)
  /-- REPLY_ALLOWANCE_END (R36): no start bit on the line within 30 µs of the POLL. -/
  | replyAllowanceEnd (line : LineId)
  /-- POLL_SLOT_CLOSE (R35). -/
  | pollSlotClose
  /-- FRAME_STOP (R32): a frame sent on the line was stopped. -/
  | frameStop (line : LineId)
  /-- LINE_JAM (R44): the line was active for more than 2 ms. -/
  | lineJam (line : LineId)
  /-- TIMING_UNIT (R124). -/
  | timingUnit
  /-- ENDING_PERIOD_END (R129). -/
  | endingPeriodEnd (g : GroupId)
  /-- RED_AMBER_TIME (R130). -/
  | redAmberTime (g : GroupId)
  /-- GREEN_TIME (R131). -/
  | greenTime (g : GroupId)
  /-- GATING_DEADLINE_EXPIRY (R131). -/
  | gatingDeadlineExpiry (g : GroupId)
  /-- EXTENSION_HOLD_EXPIRY (R140). -/
  | extensionHoldExpiry (g : GroupId)
  /-- PRIORITY_EXPIRED (R142). -/
  | priorityExpired (stage : StageId)
  /-- CALL_SERVICE_EXPIRY (R143). -/
  | callServiceExpiry
  /-- RETRY_TIMER_EXPIRY (R92). -/
  | retryTimerExpiry (card : CardId)
  /-- WATCH_TIMER_EXPIRY (R93). -/
  | watchTimerExpiry (card : CardId)
  /-- RESTORE_OFFER_EXPIRY (R162). -/
  | restoreOfferExpiry
  /-- START_TIMER_EXPIRY (R165). -/
  | startTimerExpiry
  /-- VOUCH_TIMER_EXPIRY (R168). -/
  | vouchTimerExpiry
  /-- CHANGEOVER_TIMER_EXPIRY (R160). -/
  | changeoverTimerExpiry
  /-- TWO_KEY_TIMER_EXPIRY (R169). -/
  | twoKeyTimerExpiry
  /-- INPUT_SAMPLE (R173). -/
  | inputSample (i : InputId) (reading : Level)
  /-- CLEANING_TIMER_EXPIRY (R175). -/
  | cleaningTimerExpiry (i : InputId)
  /-- ATTENTION_RELEASE_END (R195). -/
  | attentionReleaseEnd (l : Link)
  deriving DecidableEq, Repr

end Sys2Proof
end

