-- ==== Sys2Proof/Decode.lean ====
section
/-! DEFINITION. The request catalogue (R203), the decoding of a good link frame's 40 bits (R200) and its encoder, and
decodeTableWord over the rows of spec/opcode_table.json that give bits (none does). -/

namespace Sys2Proof

/-- One row of the catalogue of R203: a code, and whether each link has the right to it. -/
structure CatalogueRow where
  code : Byte
  plan : Bool
  check : Bool
  deriving DecidableEq, Repr

/-- The catalogue of R203, in its order. -/
def catalogue : List CatalogueRow :=
  [⟨0x00, true, true⟩, ⟨0x10, true, true⟩, ⟨0x11, true, true⟩, ⟨0x12, true, false⟩, ⟨0x18, true, false⟩,
   ⟨0x19, true, false⟩, ⟨0x20, true, false⟩, ⟨0x21, true, false⟩, ⟨0x22, true, false⟩, ⟨0x23, true, false⟩,
   ⟨0x24, true, false⟩, ⟨0x25, true, false⟩, ⟨0x30, true, false⟩, ⟨0x31, true, false⟩, ⟨0x32, true, false⟩,
   ⟨0x33, true, false⟩, ⟨0x34, true, false⟩, ⟨0x35, true, false⟩, ⟨0x40, false, true⟩, ⟨0x41, true, false⟩] ++
  [⟨0x42, true, true⟩, ⟨0x43, false, true⟩, ⟨0x44, false, true⟩, ⟨0x48, true, true⟩, ⟨0x50, true, true⟩,
   ⟨0x51, true, true⟩, ⟨0x80, true, true⟩, ⟨0x81, true, true⟩, ⟨0x82, true, true⟩, ⟨0x83, true, true⟩,
   ⟨0x84, true, true⟩, ⟨0x85, true, true⟩, ⟨0x86, true, true⟩, ⟨0x87, true, true⟩, ⟨0x88, true, true⟩,
   ⟨0x89, true, true⟩, ⟨0x8A, true, true⟩, ⟨0x8B, true, true⟩, ⟨0x8C, true, true⟩]

/-- Whether a link has the right to a code (R203). -/
def granted (l : Link) (code : Byte) : Bool :=
  catalogue.any fun r => r.code == code && (match l with | .plan => r.plan | .check => r.check)

/-- The code of a frame: its first 8 bits (R200). -/
def frameCode (w : BitVec 40) : Byte := w.extractLsb' 32 8

/-- The fields of a frame: subject, index and value, in order after the code (R200). -/
def frameFields (w : BitVec 40) : Fields :=
  { subject := w.extractLsb' 24 8, index := w.extractLsb' 16 8, value := w.extractLsb' 0 16 }

/-- The request a code names (R203), for a link that has the right to it. reading and ms stand for what happens on the
contact inputs while the frame is taken (they are no part of the frame). -/
def requestNamed (l : Link) (code : Byte) (f : Fields) (reading : Level) (ms : Nat) : Instr :=
  match code.toNat with
  | 0x00 => .nop l f
  | 0x10 => .safetyWrite l f
  | 0x11 => .activate l f
  | 0x12 => .stageWrite l f
  | 0x18 => .cardSet l f
  | 0x19 => .inputSet l f reading ms
  | 0x20 => .setLayout l f
  | 0x21 => .planWrite l f
  | 0x22 => .planClose l f
  | 0x23 => .planErase l f
  | 0x24 => .startPlan l f
  | 0x25 => .selectPlan l f
  | 0x30 => .demand l f
  | 0x31 => .extend l f
  | 0x32 => .priorityCall l f
  | 0x33 => .cancelPriority l f
  | 0x34 => .allRed l f
  | 0x35 => .setClock l f
  | 0x40 => .restoreOffer l f
  | 0x41 => .restore l f
  | 0x42 => .handover l f
  | 0x43 => .vouch l f
  | 0x44 => .serviceRestart l f
  | 0x48 => .relearn l f
  | 0x50 => .clearRecord l f
  | 0x51 => .setAttention l f
  | 0x80 => .safetyStatus l f
  | 0x81 => .readGroup l f
  | 0x82 => .readOutput l f
  | 0x83 => .readCard l f
  | 0x84 => .readLine l f
  | 0x85 => .readStage l f
  | 0x86 => .readPlan l f
  | 0x87 => .readSequencer l f
  | 0x88 => .readInput l f ms
  | 0x89 => .readNextNotice l f
  | 0x8A => .readRecord l f
  | 0x8B => .readClock l f
  | 0x8C => .readInvestigation l f
  | _ => .unknownRequest l code f

/-- The command a good frame on a link is (R200, R203): the request its code names, or UNKNOWN_REQUEST where the link
has no right to it. -/
def decodeFrame (l : Link) (w : BitVec 40) (reading : Level) (ms : Nat) : Instr :=
  if granted l (frameCode w) then requestNamed l (frameCode w) (frameFields w) reading ms
  else .unknownRequest l (frameCode w) (frameFields w)

/-- The 40 bits of a frame: code, subject, index, value, most significant bit first (R200). -/
def frameBits (code : Byte) (f : Fields) : BitVec 40 := code ++ f.subject ++ f.index ++ f.value

/-- The link, code and fields of a command that is a good link frame (R203); none for every other command. -/
def requestParts (i : Instr) : Option (Link × Byte × Fields) :=
  match i with
  | .nop l f => some (l, 0x00, f)
  | .unknownRequest l code f => some (l, code, f)
  | .safetyWrite l f => some (l, 0x10, f)
  | .activate l f => some (l, 0x11, f)
  | .stageWrite l f => some (l, 0x12, f)
  | .cardSet l f => some (l, 0x18, f)
  | .inputSet l f _ _ => some (l, 0x19, f)
  | .setLayout l f => some (l, 0x20, f)
  | .planWrite l f => some (l, 0x21, f)
  | .planClose l f => some (l, 0x22, f)
  | .planErase l f => some (l, 0x23, f)
  | .startPlan l f => some (l, 0x24, f)
  | .selectPlan l f => some (l, 0x25, f)
  | .demand l f => some (l, 0x30, f)
  | .extend l f => some (l, 0x31, f)
  | .priorityCall l f => some (l, 0x32, f)
  | .cancelPriority l f => some (l, 0x33, f)
  | .allRed l f => some (l, 0x34, f)
  | .setClock l f => some (l, 0x35, f)
  | .restoreOffer l f => some (l, 0x40, f)
  | .restore l f => some (l, 0x41, f)
  | .handover l f => some (l, 0x42, f)
  | .vouch l f => some (l, 0x43, f)
  | .serviceRestart l f => some (l, 0x44, f)
  | .relearn l f => some (l, 0x48, f)
  | .clearRecord l f => some (l, 0x50, f)
  | .setAttention l f => some (l, 0x51, f)
  | .safetyStatus l f => some (l, 0x80, f)
  | .readGroup l f => some (l, 0x81, f)
  | .readOutput l f => some (l, 0x82, f)
  | .readCard l f => some (l, 0x83, f)
  | .readLine l f => some (l, 0x84, f)
  | .readStage l f => some (l, 0x85, f)
  | .readPlan l f => some (l, 0x86, f)
  | .readSequencer l f => some (l, 0x87, f)
  | .readInput l f _ => some (l, 0x88, f)
  | .readNextNotice l f => some (l, 0x89, f)
  | .readRecord l f => some (l, 0x8A, f)
  | .readClock l f => some (l, 0x8B, f)
  | .readInvestigation l f => some (l, 0x8C, f)
  | .powerOnReset _ | .discardedFrame _ _ | .mainsCrossing _ _ | .mainsTimeout | .paceTimerExpiry | .switch | .poll
  | .window _ _ | .replyAllowanceEnd _ | .pollSlotClose | .frameStop _ | .lineJam _ | .timingUnit | .endingPeriodEnd _
  | .redAmberTime _ | .greenTime _ | .gatingDeadlineExpiry _ | .extensionHoldExpiry _ | .priorityExpired _
  | .callServiceExpiry | .retryTimerExpiry _ | .watchTimerExpiry _ | .restoreOfferExpiry | .startTimerExpiry
  | .vouchTimerExpiry | .changeoverTimerExpiry | .twoKeyTimerExpiry | .inputSample _ _ | .cleaningTimerExpiry _
  | .attentionReleaseEnd _ => none

/-- The link and the 40 bits of a command that is a good frame (R200). -/
def encodeFrame (i : Instr) : Option (Link × BitVec 40) :=
  (requestParts i).map fun p => (p.1, frameBits p.2.1 p.2.2)

/-- The contact's level a command carries beside its frame (INPUT_SET, R181); OPEN where it carries none. -/
def sideReading (i : Instr) : Level :=
  match i with
  | .inputSet _ _ reading _ => reading
  | _ => .opened

/-- The milliseconds a command carries beside its frame (INPUT_SET, READ_INPUT); 0 where it carries none. -/
def sideMs (i : Instr) : Nat :=
  match i with
  | .inputSet _ _ _ ms => ms
  | .readInput _ _ ms => ms
  | _ => 0

/-- No row of spec/opcode_table.json gives bits, so no word of the table spells a command. -/
def decodeTableWord (_nbits _w : Nat) : Option Instr := none

end Sys2Proof
end

