-- ==== Sys2Proof/Config.lean ====
section
/-! DEFINITION. What the manual fixes for the part as numbers. The spec leaves no result of a command open, so there is no free value here. -/

namespace Sys2Proof.Config

/-- 8 ms in ticks of the 8.000 MHz reference clock: the blind time after a crossing (R26) and the least time between cycle starts (R27). -/
abbrev blindTicks : Nat := 64000

/-- The shortest period in range, in ticks (R26: 65 Hz). -/
abbrev periodMin : Nat := 123077

/-- The longest period in range, in ticks (R26: 45 Hz). -/
abbrev periodMax : Nat := 177777

/-- Units of the restore offer (R161). -/
abbrev offerUnits : Nat := 100

/-- Units of a trip's automatic retry (R90). -/
abbrev retryUnits : Nat := 600

/-- Units of the watch after a trip has cleared (R92, R94). -/
abbrev watchUnits : Nat := 6000

/-- Units from a group's GREEN time to its gating deadline (R130). -/
abbrev gatingUnits : Nat := 20

/-- Units for which the changeover feedback may disagree (R160). -/
abbrev changeoverUnits : Nat := 5

/-- Units for which the panel keys must be held (R169). -/
abbrev twoKeyUnits : Nat := 10

/-- The wait count at which a listed priority call expires (R142). -/
abbrev callWaitUnits : Nat := 1200

/-- Units of the junction clock in a day (R124). -/
abbrev dayUnits : Nat := 864000

/-- Milliseconds of the cleaning pulse (R175). -/
abbrev cleaningMs : Nat := 20

/-- Microseconds of the wetting pulse that ends at a sample (R173). -/
abbrev wettingPulseUs : Nat := 250

end Sys2Proof.Config
end

