-- ==== Sys2Proof/Machine/State.lean ====
section
/-! DEFINITION. The state of the part: every holding the spec names, block by block, as plain data, with the queue of
waiting commands; the faults and refusals; and the state right after power-on reset. -/

namespace Sys2Proof.Machine

/-- A holding kept once for each link. -/
structure PerLink (α : Type) where
  plan : α
  check : α
  deriving DecidableEq, Repr

/-- A holding kept once for each card line. -/
structure PerLine (α : Type) where
  a : α
  b : α
  deriving DecidableEq, Repr

/-! ### Safety table unit and stage table (chapter 1) -/

/-- The kinds of group (R3), in the order of their codes (R210). -/
inductive GroupKind where
  | vehicle
  | crossing
  deriving DecidableEq, Repr

/-- The handover aspects (R2), in the order of their codes (R210). -/
inductive HandAspect where
  | dark
  | flash
  deriving DecidableEq, Repr

/-- The colours of an output (R6), in the order of their codes (R210). -/
inductive Colour where
  | red
  | amber
  | green
  deriving DecidableEq, Repr

/-- A group record (R3). -/
structure GroupRec where
  defined : Bool
  kind : GroupKind
  amber : Nat
  redAmber : Nat
  blackout : Nat
  minGreenFloor : Nat
  deriving DecidableEq, Repr

/-- An output map record (R6). -/
structure OutputRec where
  used : Bool
  group : GroupId
  colour : Colour
  minOn : Nat
  offLimit : Nat
  failNum : Nat
  dimNum : Nat
  openNum : Nat
  deriving DecidableEq, Repr

/-- A safety table: the global record, the group records, the conflict rows, the intergreen rows and the output map. -/
structure SafetyTable where
  startPeriod : Nat
  aspect : HandAspect
  groups : Vector GroupRec 16
  conflicts : Vector Set16 16
  intergreens : Vector (Vector Nat 16) 16
  outputs : Vector OutputRec 64
  deriving DecidableEq, Repr

/-- The validation checks with their reason codes 1 to 14 (R11). -/
inductive CheckFail where
  | noGroup
  | selfConflict
  | conflictUndefined
  | asymmetric
  | igTooShort
  | igNotZero
  | outputGroupUndefined
  | amberOnCrossing
  | dimNotAboveFail
  | tooManyReds
  | noRed
  | noGreen
  | stageMemberUndefined
  | stageConflict
  deriving DecidableEq, Repr

/-- The element a failing check reports (R11). -/
inductive Element where
  | none
  | group (g : GroupId)
  | pair (l g : GroupId)
  | output (o : OutputId)
  | stage (s : StageId)
  deriving DecidableEq, Repr

/-- The last activation outcome (R1). -/
inductive ActOutcome where
  | none
  | activated
  | mismatch
  | invalid (reason : CheckFail) (element : Element)
  deriving DecidableEq, Repr

/-- The safety table unit (R1). -/
structure SafetyUnit where
  copies : PerLink SafetyTable
  marks : PerLink Bool
  active : Option SafetyTable
  signature : Word16
  outcome : ActOutcome
  deriving DecidableEq, Repr

/-- A stage record (R22). -/
structure StageRec where
  defined : Bool
  members : Set16
  deriving DecidableEq, Repr

/-! ### Fault table (chapter 10) -/

/-- The handover causes, in the order of the cause table (R155, R207). -/
inductive Cause where
  | conflict
  | redLossNoStage
  | greenNotOff
  | crossConflict
  | checkSilent
  | signatureMismatch
  | panelKeys
  | mainsLost
  | changeoverFault
  | startFailed
  | planRequest
  | checkRequest
  deriving DecidableEq, Repr

/-- The fault kinds, in the order of the kind table of section 10.2 (R207). -/
inductive FaultKind where
  | lampDark
  | lampDim
  | unwantedCurrent
  | switchEcho
  | senseReversed
  | currentOverrange
  | redDegraded
  | redLoss
  | feederOpen
  | earthLeak
  | cardTrip
  | cross
  | stuckSwitch
  | crossUnresolved
  | currentTransient
  | cardSilent
  | addressMismatch
  | lineDegraded
  | lineJammed
  | matrixMismatch
  | priorityExpired
  | planResync
  | cycleOverrun
  | doorOpen
  | handover
  | handoverUnproven
  deriving DecidableEq, Repr

/-- The subject of a record (R184). -/
inductive Subject where
  | none
  | output (o : OutputId)
  | card (c : CardId)
  | line (l : LineId)
  | group (g : GroupId)
  | stage (s : StageId)
  | plan (p : PlanId)
  | input (i : InputId)
  | cause (c : Cause)
  deriving DecidableEq, Repr

/-- A fault record (R184). active: its state is ACTIVE, else CLEARED. detail: the items of its detail, coded (R207);
an absent detail has no items. -/
structure Record where
  kind : FaultKind
  subject : Subject
  level : Nat
  active : Bool
  ended : Bool
  latched : Bool
  count : Nat
  firstTime : Nat
  lastTime : Nat
  detail : List Word16
  seen : PerLink Bool
  clear : PerLink Bool
  deriving DecidableEq, Repr

/-- A link's attention threshold and line (R184), and whether the 50 µs release of R195 is running. -/
structure Attention where
  threshold : Nat
  line : Bool
  released : Bool
  deriving DecidableEq, Repr

/-- The fault table (R184). order: the change order, oldest change first. -/
structure FaultTable where
  slots : Vector (Option Record) 48
  order : List SlotId
  overflow : Bool
  attention : PerLink Attention
  deriving DecidableEq, Repr

/-! ### Card line controller (chapter 2) -/

/-- The mains states (R25). -/
inductive MainsState where
  | valid
  | lost
  deriving DecidableEq, Repr

/-- The mains holdings (R25). pace: the pace timer runs. crossed: a crossing has been recognised since reset (R26). -/
structure Mains where
  c : CycleNo
  state : MainsState
  lastPeriod : Nat
  outRun : Nat
  inRun : Nat
  pace : Bool
  crossed : Bool
  deriving DecidableEq, Repr

/-- A card record (R38). lastSlotTook: the card's most recent poll slot took a window (R48). -/
structure CardRec where
  configured : Bool
  coreCount : Nat
  online : Bool
  lastCycle : Option CycleNo
  missing : Nat
  goodRun : Nat
  mismatch : Bool
  faulted : PerLine Nat
  leakAlarm : Nat
  leakTrip : Nat
  retryEnable : Bool
  senseTimeout : Nat
  lastSlotTook : Bool
  deriving DecidableEq, Repr

/-- The line states (R41). -/
inductive LineState where
  | good
  | degraded
  | jammed
  deriving DecidableEq, Repr

/-- A card line (R41). sent: the last frame the part has sent on it. -/
structure LineRec where
  state : LineState
  errors : Nat
  goodRun : Nat
  sent : List Byte
  deriving DecidableEq, Repr

/-- A sent switch pattern with the cycle number it carried (R33). -/
structure Pattern where
  cycle : CycleNo
  states : Vector Bool 64
  deriving DecidableEq, Repr

/-- The verdicts on a copy (R36); a mismatch holds the address it named. -/
inductive Verdict where
  | good
  | mismatch (address : Byte)
  | bad
  | missing
  deriving DecidableEq, Repr

/-- An open poll slot (R35): its card, the cycle number its window must carry, the verdict each line's copy has
reached, which JAMMED lines have brought a copy that would have been good (R44), whether a window was taken, and whether
it belongs to the cycle before the running one (R45). -/
structure Slot where
  card : CardId
  expect : CycleNo
  verdict : PerLine (Option Verdict)
  recovered : PerLine Bool
  took : Bool
  old : Bool
  deriving DecidableEq, Repr

/-- A completed core measurement (R57), with the QREF its open feeder test was taken against (R87). -/
structure CoreMeas where
  output : OutputId
  applied : Bool
  ip : Int
  qf : Int
  overrange : Bool
  cycles : List CycleNo
  fail : Bool
  dim : Bool
  unwanted : Bool
  openFeeder : Bool
  reversed : Bool
  qref : Option Int
  deriving DecidableEq, Repr

/-- A completed residual measurement (R58). -/
structure ResMeas where
  card : CardId
  leak : Nat
  deriving DecidableEq, Repr

/-- The exchange of the running cycle (R33 to R35) and the measurements completed in it (R57). -/
structure Exchange where
  running : Bool
  switchSent : Bool
  toPoll : List CardId
  slot : Option Slot
  cores : List CoreMeas
  residuals : List ResMeas
  deriving DecidableEq, Repr

/-- The card line controller. patterns: the sent patterns, newest first, three at most (R33). -/
structure CardLine where
  mains : Mains
  cards : Vector CardRec 8
  lines : PerLine LineRec
  patterns : List Pattern
  exchange : Exchange
  deriving DecidableEq, Repr

/-! ### Lamp measurement engine (chapter 3) -/

/-- An accumulation (R49); held: the held applied state. -/
structure Accum (α : Type) where
  settling : Bool
  count : Nat
  sumA : Int
  sumB : Int
  overrange : Bool
  held : Option α
  lastCycle : Option CycleNo
  deriving DecidableEq, Repr

/-- The last figures of a core or residual channel (R49). -/
structure Figures where
  ip : Int
  qf : Int
  deriving DecidableEq, Repr

/-- What the engine holds for a core (R49). history: one entry per cycle number, ON, OFF or unknown (R57). -/
structure CoreRec where
  acc : Accum Bool
  figures : Option Figures
  ref : Option Int
  qref : Option Int
  history : Vector (Option Bool) 16
  deriving DecidableEq, Repr

/-- What the engine holds for a residual channel (R49, R58). -/
structure ResRec where
  acc : Accum (List Bool)
  figures : Option Figures
  deriving DecidableEq, Repr

/-- The lamp measurement engine. -/
structure Engine where
  cores : Vector CoreRec 64
  residuals : Vector ResRec 8
  deriving DecidableEq, Repr

/-! ### Proving unit (chapter 4) -/

/-- The proving states, in the order of R65. -/
inductive ProvingState where
  | unproved
  | provedOn
  | provedOff
  | failedDark
  | litUnwanted
  | senseLost
  | isolated
  deriving DecidableEq, Repr

/-- The red statuses, in the order of R65. -/
inductive RedStatus where
  | untested
  | ok
  | degraded
  | loss
  deriving DecidableEq, Repr

/-- What the unit holds for an output (R65). entryIp: the IP of the measurement by which it last entered
LIT_UNWANTED (R159). -/
structure OutputProof where
  commanded : Bool
  applied : Option Bool
  state : ProvingState
  failing : Nat
  echo : Bool
  sense : Nat
  entryIp : Int
  deriving DecidableEq, Repr

/-- What the unit holds for a group (R65). -/
structure GroupProof where
  red : RedStatus
  exposed : Bool
  deriving DecidableEq, Repr

/-- The proving unit. -/
structure Proving where
  outputs : Vector OutputProof 64
  groups : Vector GroupProof 16
  deriving DecidableEq, Repr

/-! ### Cable supervisor (chapter 5) -/

/-- The trip and leakage fields of a card (R84). alarm: the leak state is ALARM. -/
structure CableCard where
  tripped : Bool
  latched : Bool
  retryTimer : Option Nat
  watchTimer : Option Nat
  alarm : Bool
  alarmRun : Nat
  clearRun : Nat
  tripRun : Nat
  lastL : Option Nat
  deriving DecidableEq, Repr

/-- The feeder fields of an output (R85). opened: the feeder state is OPEN. -/
structure Feeder where
  count : Nat
  opened : Bool
  deriving DecidableEq, Repr

/-- An investigation record (R85). -/
structure Investigation where
  x : OutputId
  openTime : Nat
  firstPending : Bool
  meas : Nat
  lit : Nat
  dark : Nat
  consecutive : Nat
  candidates : List OutputId
  deriving DecidableEq, Repr

/-- The cable supervisor. A FREE investigation slot is none. -/
structure Cable where
  cards : Vector CableCard 8
  feeders : Vector Feeder 64
  investigations : Vector (Option Investigation) 4
  deriving DecidableEq, Repr

/-! ### Plan memory (chapter 6) -/

/-- The layouts, in the order of R105. -/
inductive Layout where
  | l16x8
  | l8x16
  | l4x32
  deriving DecidableEq, Repr

/-- The plan states, in the order of R106. -/
inductive PlanState where
  | empty
  | opened
  | ready
  deriving DecidableEq, Repr

/-- The plan modes, in the order of R106. -/
inductive PlanMode where
  | isolated
  | linked
  deriving DecidableEq, Repr

/-- The close reasons 1 to 7 of R109. -/
inductive CloseReason where
  | emptyPlan
  | offsetRange
  | stepNoStage
  | stageUndefined
  | maxBelowMin
  | forceOffIsolated
  | forceOffRange
  deriving DecidableEq, Repr

/-- A step record (R107). -/
structure Step where
  stage : Option StageId
  minGreen : Nat
  maxGreen : Nat
  demandDependent : Bool
  forceOff : Option Nat
  deriving DecidableEq, Repr

/-- A plan record (R106). The layout says how many of the steps exist. closeReason: the reason with its step. -/
structure Plan where
  state : PlanState
  mode : PlanMode
  cycle : Nat
  offset : Nat
  stepCount : Nat
  closeReason : Option (CloseReason × Option StepNo)
  steps : Vector Step 32
  deriving DecidableEq, Repr

/-- The pending plan with its wrap flag (R105). -/
structure PendingPlan where
  plan : PlanId
  wrap : Bool
  deriving DecidableEq, Repr

/-- The plan memory (R105). The layout says how many of the plans exist. -/
structure PlanMemory where
  layout : Layout
  plans : Vector Plan 16
  start : Option PlanId
  active : Option PlanId
  pending : Option PendingPlan
  deriving DecidableEq, Repr

/-! ### Stage sequencer (chapter 7) -/

/-- The phases, in the order of R123. -/
inductive Phase where
  | stopped
  | startRed
  | interstage
  | stage
  deriving DecidableEq, Repr

/-- The designations of phase STAGE, in the order of R123; STEP s runs the step of the step index. -/
inductive Designation where
  | step
  | call
  | s0
  | residual
  deriving DecidableEq, Repr

/-- The target of an interstage (R123): S0, or a stage with the plan step or the priority call it serves. -/
inductive Target where
  | s0
  | step (n : StepNo) (stage : StageId)
  | call (stage : StageId)
  deriving DecidableEq, Repr

/-- The force-off states (R123); REACHED holds the unit count at which the point was reached. -/
inductive ForceOff where
  | none
  | waiting
  | reached (at_ : Nat)
  deriving DecidableEq, Repr

/-- The aspects, in the order of R207. -/
inductive Aspect where
  | red
  | redAmber
  | green
  | amber
  | blackout
  deriving DecidableEq, Repr

/-- What the sequencer holds for a group (R123); times are values of the unit count (R122), and an absent green start
or last green end is "never". -/
structure GroupSeq where
  aspect : Aspect
  redAmberAt : Option Nat
  greenAt : Option Nat
  endAt : Option Nat
  deadline : Option Nat
  greenStart : Option Nat
  lastEnd : Option Nat
  hold : Nat
  deriving DecidableEq, Repr

/-- An entry of the priority-call list (R141). -/
structure Call where
  stage : StageId
  duration : Nat
  wait : Nat
  deriving DecidableEq, Repr

/-- The call service (R143). -/
structure CallService where
  stage : StageId
  units : Nat
  deriving DecidableEq, Repr

/-- The stage sequencer (R122, R123). -/
structure Sequencer where
  phase : Phase
  designation : Option Designation
  current : Set16
  target : Option Target
  stepIndex : Option StepNo
  resume : Option StepNo
  minCount : Nat
  maxCount : Nat
  forceOff : ForceOff
  overrun : Bool
  groups : Vector GroupSeq 16
  latches : Set16
  calls : List Call
  service : Option CallService
  allRed : Bool
  bars : Set16
  clock : Nat
  units : Nat
  position : Option Nat
  deriving DecidableEq, Repr

/-! ### Service controller (chapter 8) -/

/-- The service states, in the order of R153. -/
inductive ServiceState where
  | handedOver
  | starting
  | service
  deriving DecidableEq, Repr

/-- The service controller (R153). hold: HOLD is held. A timer at 0 has reached its expiry, which is taken by its own
command. -/
structure Service where
  state : ServiceState
  hold : Bool
  flsel : HandAspect
  offer : Option Nat
  checkPeriod : Nat
  start : Option Nat
  vouch : Option Nat
  changeover : Option Nat
  twoKey : Option Nat
  deriving DecidableEq, Repr

/-! ### Contact input unit (chapter 9) -/

/-- The functions of an input, in the order of R172. -/
inductive InputFunction where
  | none
  | plain
  | demand
  | allRed
  | panelKey
  | door
  | changeover
  deriving DecidableEq, Repr

/-- The wetting states, in the order of R172. -/
inductive Wetting where
  | openSense
  | cleaning
  | holding
  deriving DecidableEq, Repr

/-- A contact input (R172). edge: the level an edge must lead to for its selection (CLOSING: CLOSED). -/
structure Input where
  function : InputFunction
  stage : StageId
  edge : Level
  interval : Nat
  filter : Nat
  lastSample : Option Level
  sampleCount : Nat
  level : Level
  wetting : Wetting
  cleaning : Option Nat
  edgeCount : Nat
  deriving DecidableEq, Repr

/-! ### Link ports (chapter 11) -/

/-- The result codes (R204). -/
inductive Result where
  | done
  | refusedState
  | refusedRight
  | badSubject
  | badValue
  | planActive
  | noOffer
  | conflict
  | full
  | mismatch
  | frameError
  | noTable
  | startPlanNotReady
  | latchedRecord
  | mainsInvalid
  | cardNotOnline
  | changeoverHeld
  deriving DecidableEq, Repr

/-- A response (R202): 8 bits of result, 8 of summary, 8 of echoed code and 16 of value. -/
structure Response where
  result : Result
  summary : Byte
  code : Byte
  value : Word16
  deriving DecidableEq, Repr

/-- A read snapshot (R199, R206). -/
structure Snapshot where
  code : Byte
  subject : Byte
  index : Byte
  words : List Word16
  deriving DecidableEq, Repr

/-- A frame receiver (R199): the clocks counted in a frame and the 40 request bits of a good one. -/
structure Receiver where
  clocks : Nat
  bits : BitVec 40
  deriving DecidableEq, Repr

/-- A link port (R199). -/
structure Port where
  receiver : Receiver
  response : Response
  frameError : Bool
  snapshot : Option Snapshot
  deriving DecidableEq, Repr

/-- The whole part, and the queue of commands waiting to be taken, the first at the front. -/
structure State where
  pending : List Instr
  ports : PerLink Port
  safety : SafetyUnit
  stages : Vector StageRec 16
  line : CardLine
  engine : Engine
  proving : Proving
  cable : Cable
  plans : PlanMemory
  seq : Sequencer
  service : Service
  inputs : Vector Input 16
  faults : FaultTable
  deriving DecidableEq, Repr

/-- Why the machine could stop with a fault. No event of the spec stops the part (what it calls faults are records of
its fault table), so there is no constructor: nothing raises one. Safe. -/
inductive Fault where
  deriving DecidableEq, Repr

/-- Why a command is refused. -/
inductive Refusal where
  /-- Raised by exec's arm of a command that has no meaning yet. Safe. -/
  | notModelled (mnemonic : String)
  /-- Raised by UNKNOWN_REQUEST with a code its link has the right to, and by DISCARDED_FRAME with 40 clocks: such a
  frame is another row's command, and WellFormed refuses the term. Safe: no frame is left without its command. -/
  | notThisRow
  deriving DecidableEq, Repr

/-! ### The state right after power-on reset -/

/-- The empty contents of a safety table (R2 to R6). -/
def SafetyTable.empty : SafetyTable :=
  { startPeriod := 50
    aspect := .dark
    groups := Vector.replicate 16
      { defined := false, kind := .vehicle, amber := 30, redAmber := 20, blackout := 0, minGreenFloor := 60 }
    conflicts := Vector.replicate 16 0
    intergreens := Vector.replicate 16 (Vector.replicate 16 0)
    outputs := Vector.replicate 64
      { used := false, group := 0, colour := .red, minOn := 40, offLimit := 24, failNum := 10, dimNum := 13, openNum := 8 } }

/-- The empty contents of a step (R107). -/
def Step.empty : Step :=
  { stage := none, minGreen := 50, maxGreen := 300, demandDependent := false, forceOff := none }

/-- The empty contents of a plan (R106). -/
def Plan.empty : Plan :=
  { state := .empty, mode := .isolated, cycle := 60, offset := 0, stepCount := 1, closeReason := none,
    steps := Vector.replicate 32 Step.empty }

/-- A restarted accumulation with nothing held (R49). -/
def Accum.initial {α : Type} : Accum α :=
  { settling := true, count := 0, sumA := 0, sumB := 0, overrange := false, held := none, lastCycle := none }

/-- A card record at power-on (R46, R48). -/
def CardRec.initial : CardRec :=
  { configured := false, coreCount := 8, online := false, lastCycle := none, missing := 0, goodRun := 0,
    mismatch := false, faulted := ⟨0, 0⟩, leakAlarm := 60, leakTrip := 250, retryEnable := true, senseTimeout := 12,
    lastSlotTook := false }

/-- A card's trip and leakage fields at power-on (R84). -/
def CableCard.initial : CableCard :=
  { tripped := false, latched := false, retryTimer := none, watchTimer := none, alarm := false, alarmRun := 0,
    clearRun := 0, tripRun := 0, lastL := none }

/-- A contact input at power-on, before its first sample (R172). -/
def Input.initial : Input :=
  { function := .none, stage := 0, edge := .closed, interval := 4, filter := 3, lastSample := none, sampleCount := 0,
    level := .opened, wetting := .openSense, cleaning := none, edgeCount := 0 }

/-- A link port at power-on (R199); the summary is as it stands at the reset: HANDED_OVER, nothing pending. -/
def Port.initial : Port :=
  { receiver := { clocks := 0, bits := 0 }
    response := { result := .done, summary := 0, code := 0, value := 0 }
    frameError := false
    snapshot := none }

/-- The part right after power-on reset (R1, R22, R29, R48, R49, R65, R84, R85, R105, R123, R153, R172, R184, R199). -/
def State.reset : State :=
  { pending := []
    ports := ⟨Port.initial, Port.initial⟩
    safety :=
      { copies := ⟨SafetyTable.empty, SafetyTable.empty⟩, marks := ⟨false, false⟩, active := none, signature := 0,
        outcome := .none }
    stages := Vector.replicate 16 { defined := false, members := 0 }
    line :=
      { mains := { c := 0, state := .lost, lastPeriod := 0, outRun := 0, inRun := 0, pace := true, crossed := false }
        cards := Vector.replicate 8 CardRec.initial
        lines :=
          ⟨{ state := .good, errors := 0, goodRun := 0, sent := [] },
           { state := .good, errors := 0, goodRun := 0, sent := [] }⟩
        patterns := []
        exchange :=
          { running := false, switchSent := false, toPoll := [], slot := none, cores := [], residuals := [] } }
    engine :=
      { cores := Vector.replicate 64
          { acc := Accum.initial, figures := none, ref := none, qref := none, history := Vector.replicate 16 none }
        residuals := Vector.replicate 8 { acc := Accum.initial, figures := none } }
    proving :=
      { outputs := Vector.replicate 64
          { commanded := false, applied := none, state := .senseLost, failing := 0, echo := false, sense := 0,
            entryIp := 0 }
        groups := Vector.replicate 16 { red := .untested, exposed := false } }
    cable :=
      { cards := Vector.replicate 8 CableCard.initial
        feeders := Vector.replicate 64 { count := 0, opened := false }
        investigations := Vector.replicate 4 none }
    plans :=
      { layout := .l8x16, plans := Vector.replicate 16 Plan.empty, start := none, active := none, pending := none }
    seq :=
      { phase := .stopped, designation := none, current := 0, target := none, stepIndex := none, resume := none,
        minCount := 0, maxCount := 0, forceOff := .none, overrun := false,
        groups := Vector.replicate 16
          { aspect := .red, redAmberAt := none, greenAt := none, endAt := none, deadline := none, greenStart := none,
            lastEnd := none, hold := 0 }
        latches := 0, calls := [], service := none, allRed := false, bars := 0, clock := 0, units := 0,
        position := none }
    service :=
      { state := .handedOver, hold := false, flsel := .dark, offer := none, checkPeriod := 10, start := none,
        vouch := none, changeover := none, twoKey := none }
    inputs := Vector.replicate 16 Input.initial
    faults :=
      { slots := Vector.replicate 48 none, order := [], overflow := false,
        attention :=
          ⟨{ threshold := 0, line := false, released := false }, { threshold := 0, line := false, released := false }⟩ } }

end Sys2Proof.Machine
end

