-- ==== Sys2Proof/Machine/Ops.lean ====
section
/-! DEFINITION. The named operations over the state's holdings: vectors by number, pairs by link and line, sixteen-member
sets, and one update per block's records. -/

namespace Sys2Proof.Machine

/-- The vector whose entry i is f i. -/
def vgen {α : Type} {n : Nat} (f : Fin n → α) : Vector α n := ⟨⟨(List.finRange n).map f⟩, by simp⟩

/-- A vector with entry i changed by f. -/
def vmod {α : Type} {n : Nat} (v : Vector α n) (i : Fin n) (f : α → α) : Vector α n := v.set i (f v[i])

/-- A link's own holding. -/
def PerLink.get {α : Type} (p : PerLink α) (l : Link) : α :=
  match l with
  | .plan => p.plan
  | .check => p.check

/-- A link's own holding replaced. -/
def PerLink.set {α : Type} (p : PerLink α) (l : Link) (a : α) : PerLink α :=
  match l with
  | .plan => { p with plan := a }
  | .check => { p with check := a }

/-- The other link. -/
def otherLink (l : Link) : Link :=
  match l with
  | .plan => .check
  | .check => .plan

/-- A line's own holding. -/
def PerLine.get {α : Type} (p : PerLine α) (l : LineId) : α :=
  match l with
  | .a => p.a
  | .b => p.b

/-- A line's own holding replaced. -/
def PerLine.set {α : Type} (p : PerLine α) (l : LineId) (x : α) : PerLine α :=
  match l with
  | .a => { p with a := x }
  | .b => { p with b := x }

/-- The other line. -/
def otherLine (l : LineId) : LineId :=
  match l with
  | .a => .b
  | .b => .a

/-! ### Numbers in order -/

/-- G1 to G16 in ascending order; also S1 to S16 and I1 to I16. -/
def all16 : List (Fin 16) := List.finRange 16

/-- O1 to O64 in ascending order. -/
def allOutputs : List OutputId := List.finRange 64

/-- Card 1 to card 8 in ascending order. -/
def allCards : List CardId := List.finRange 8

/-- Slot 0 to slot 47 in ascending order. -/
def allSlots : List SlotId := List.finRange 48

/-- Investigation slot 0 to slot 3 in ascending order. -/
def allInvSlots : List InvSlot := List.finRange 4

/-- An operation done for each number of a list in turn. -/
def eachOf {α : Type} (xs : List α) (f : α → State → State) (s : State) : State := xs.foldl (fun t x => f x t) s

/-! ### Sets of sixteen -/

/-- Whether member i+1 is in a set. -/
def has (x : Set16) (i : Fin 16) : Bool := x.getLsbD i

/-- The set of the members that meet a test. -/
def setOf (p : Fin 16 → Bool) : Set16 := BitVec.ofFnLE p

/-- A set with a member added. -/
def setAdd (x : Set16) (i : Fin 16) : Set16 := setOf fun j => j == i || has x j

/-- A set with a member removed. -/
def setDrop (x : Set16) (i : Fin 16) : Set16 := setOf fun j => j != i && has x j

/-! ### Cards and cores (00_scope.md section 4) -/

/-- The card of an output. -/
def cardOf (o : OutputId) : CardId := ⟨o.val / 8, by omega⟩

/-- The place of an output on its card, from 0. -/
def placeOf (o : OutputId) : Nat := o.val % 8

/-- The output of a card's core, the core from 0. -/
def outputAt (c : CardId) (core : Fin 8) : OutputId := ⟨8 * c.val + core.val, by omega⟩

/-- The outputs of a card in ascending order. -/
def outputsOf (c : CardId) : List OutputId := (List.finRange 8).map (outputAt c)

/-- The cycle number d cycles before n (R25: modulo 16). -/
def cycleBack (n : CycleNo) (d : Nat) : CycleNo := ⟨(n.val + 16 - d % 16) % 16, by omega⟩

/-- The next cycle number (R25). -/
def cycleNext (n : CycleNo) : CycleNo := ⟨(n.val + 1) % 16, by omega⟩

/-! ### Updates of one block's records -/

/-- The record of a core in the measurement engine, changed. -/
def modCore (s : State) (o : OutputId) (f : CoreRec → CoreRec) : State :=
  { s with engine := { s.engine with cores := vmod s.engine.cores o f } }

/-- The record of a residual channel, changed. -/
def modRes (s : State) (c : CardId) (f : ResRec → ResRec) : State :=
  { s with engine := { s.engine with residuals := vmod s.engine.residuals c f } }

/-- The proving fields of an output, changed. -/
def modProof (s : State) (o : OutputId) (f : OutputProof → OutputProof) : State :=
  { s with proving := { s.proving with outputs := vmod s.proving.outputs o f } }

/-- The proving fields of a group, changed. -/
def modGroupProof (s : State) (g : GroupId) (f : GroupProof → GroupProof) : State :=
  { s with proving := { s.proving with groups := vmod s.proving.groups g f } }

/-- A card record of the card line controller, changed. -/
def modCard (s : State) (c : CardId) (f : CardRec → CardRec) : State :=
  { s with line := { s.line with cards := vmod s.line.cards c f } }

/-- A card line, changed. -/
def modLine (s : State) (l : LineId) (f : LineRec → LineRec) : State :=
  { s with line := { s.line with lines := s.line.lines.set l (f (s.line.lines.get l)) } }

/-- The mains holdings, changed. -/
def modMains (s : State) (f : Mains → Mains) : State :=
  { s with line := { s.line with mains := f s.line.mains } }

/-- The exchange, changed. -/
def modExchange (s : State) (f : Exchange → Exchange) : State :=
  { s with line := { s.line with exchange := f s.line.exchange } }

/-- A card's trip and leakage fields, changed. -/
def modCable (s : State) (c : CardId) (f : CableCard → CableCard) : State :=
  { s with cable := { s.cable with cards := vmod s.cable.cards c f } }

/-- An output's feeder fields, changed. -/
def modFeeder (s : State) (o : OutputId) (f : Feeder → Feeder) : State :=
  { s with cable := { s.cable with feeders := vmod s.cable.feeders o f } }

/-- An investigation slot, written. -/
def setInvestigation (s : State) (i : InvSlot) (v : Option Investigation) : State :=
  { s with cable := { s.cable with investigations := s.cable.investigations.set i v } }

/-- The sequencer, changed. -/
def modSeq (s : State) (f : Sequencer → Sequencer) : State := { s with seq := f s.seq }

/-- A group's fields in the sequencer, changed. -/
def modGroup (s : State) (g : GroupId) (f : GroupSeq → GroupSeq) : State :=
  { s with seq := { s.seq with groups := vmod s.seq.groups g f } }

/-- The plan memory, changed. -/
def modPlans (s : State) (f : PlanMemory → PlanMemory) : State := { s with plans := f s.plans }

/-- The record of a plan, changed. -/
def modPlan (s : State) (p : PlanId) (f : Plan → Plan) : State :=
  { s with plans := { s.plans with plans := vmod s.plans.plans p f } }

/-- The service controller, changed. -/
def modService (s : State) (f : Service → Service) : State := { s with service := f s.service }

/-- A contact input, changed. -/
def modInput (s : State) (i : InputId) (f : Input → Input) : State :=
  { s with inputs := vmod s.inputs i f }

/-- A link port, changed. -/
def modPort (s : State) (l : Link) (f : Port → Port) : State :=
  { s with ports := s.ports.set l (f (s.ports.get l)) }

end Sys2Proof.Machine
end

