-- ==== Sys2Proof/Machine/Crc.lean ====
section
/-! DEFINITION. The CRC-16 of the card line frames and of the safety table's signature (R17, R31), and the canonical order
of the safety table (R210). -/

namespace Sys2Proof.Machine

/-- A continuation given a number, by cases on it: what is computed first is the number. It equals k n. -/
def force {α : Type} (n : Nat) (k : Nat → α) : α :=
  match n with
  | 0 => k 0
  | m + 1 => k (m + 1)

/-- One bit shifted through the generator x^16 + x^12 + x^5 + 1 (R31). -/
def crcBit (c : Nat) : Nat := if c < 32768 then 2 * c else Nat.xor (2 * c - 65536) 0x1021

/-- n bits shifted through (R31). -/
def crcBits (n c : Nat) : Nat :=
  match n with
  | 0 => c
  | m + 1 => force (crcBit c) (crcBits m)

/-- The CRC register after some bytes, each most significant bit first (R17, R31). -/
def crcRun (bytes : List Nat) (c : Nat) : Nat :=
  match bytes with
  | [] => c
  | b :: rest => force (crcBits 8 (Nat.xor c (256 * b))) (crcRun rest)

/-- The CRC of some bytes: initial value 0xFFFF, no final inversion (R17, R31). -/
def crcOf (bytes : List Nat) : Word16 := BitVec.ofNat 16 (crcRun bytes 0xFFFF)

/-- A list of characters closed by its CRC, most significant byte first (R31, R208). -/
def withCrc (chars : List Byte) : List Byte :=
  let c := crcOf (chars.map (·.toNat))
  chars ++ [c.extractLsb' 8 8, c.extractLsb' 0 8]

/-- The CRC test of a received frame: computed over all its characters it is 0 (R31). -/
def crcHolds (chars : List Byte) : Bool := crcOf (chars.map (·.toNat)) == 0

/-! ### The canonical order (R210) -/

/-- A two-byte field, most significant byte first (R210). -/
def twoBytes (n : Nat) : List Nat := [n / 256 % 256, n % 256]

/-- A group kind's code (R210). -/
def kindByte (k : GroupKind) : Nat :=
  match k with
  | .vehicle => 0
  | .crossing => 1

/-- A handover aspect's code (R210). -/
def aspectByte (a : HandAspect) : Nat :=
  match a with
  | .dark => 0
  | .flash => 1

/-- A colour's code (R210). -/
def colourByte (c : Colour) : Nat :=
  match c with
  | .red => 0
  | .amber => 1
  | .green => 2

/-- The bytes of a group record (R210). -/
def groupBytes (r : GroupRec) : List Nat :=
  [r.defined.toNat, kindByte r.kind, r.amber, r.redAmber, r.blackout] ++ twoBytes r.minGreenFloor

/-- The bytes of an output map record (R210). -/
def outputBytes (r : OutputRec) : List Nat :=
  [r.used.toNat, r.group.val + 1, colourByte r.colour] ++ twoBytes r.minOn ++ [r.offLimit, r.failNum, r.dimNum, r.openNum]

/-- A safety table laid out in the canonical order (R210). -/
def canonical (t : SafetyTable) : List Nat :=
  [t.startPeriod, aspectByte t.aspect] ++ t.groups.toList.flatMap groupBytes ++
    t.conflicts.toList.flatMap (fun x => twoBytes x.toNat) ++ t.intergreens.toList.flatMap (·.toList) ++
    t.outputs.toList.flatMap outputBytes

/-- The signature of a table's contents (R17). -/
def signatureOf (t : SafetyTable) : Word16 := crcOf (canonical t)

end Sys2Proof.Machine
end

