-- ==== Sys2Proof/Machine/Operands.lean ====
section
/-! DEFINITION. The operand forms of a link request (R205, R210) and the coding of the words of read items (R207). -/

namespace Sys2Proof.Machine

/-! ### Operands of a request -/

/-- A number in 1 to n, as the member it names (R205). -/
def oneBased (n k : Nat) : Option (Fin n) := if h : 1 ≤ k ∧ k ≤ n then some ⟨k - 1, by omega⟩ else none

/-- A number in 0 to n − 1, as the slot it names (R205). -/
def zeroBased (n k : Nat) : Option (Fin n) := if h : k < n then some ⟨k, h⟩ else none

/-- A group, stage or input in a subject byte (R205: 1 to 16). -/
def subject16 (b : Byte) : Option (Fin 16) := oneBased 16 b.toNat

/-- An output in a subject byte (R205: 1 to 64). -/
def subjectOutput (b : Byte) : Option OutputId := oneBased 64 b.toNat

/-- A card in a subject byte (R205: 1 to 8). -/
def subjectCard (b : Byte) : Option CardId := oneBased 8 b.toNat

/-- The subject of READ OUTPUT: an output, or a card's residual channel (R205: 0x81 to 0x88). -/
def subjectResidual (b : Byte) : Option CardId := oneBased 8 (b.toNat - 0x80)

/-- A slot in a subject byte (R205: 0 to 47). -/
def subjectSlot (b : Byte) : Option SlotId := zeroBased 48 b.toNat

/-- A value of two values: no, clear or off 0; yes, set or on 1 (R207, R210). -/
def valueBool (v : Word16) : Option Bool :=
  match v.toNat with
  | 0 => some false
  | 1 => some true
  | _ => none

/-- A value in a range (R7, R46, R108, R180). -/
def valueIn (lo hi : Nat) (v : Word16) : Option Nat := if lo ≤ v.toNat ∧ v.toNat ≤ hi then some v.toNat else none

/-- A group kind (R210: VEHICLE 0, CROSSING 1). -/
def valueKind (v : Word16) : Option GroupKind :=
  match v.toNat with
  | 0 => some .vehicle
  | 1 => some .crossing
  | _ => none

/-- A handover aspect (R210: DARK 0, FLASH 1). -/
def valueAspect (v : Word16) : Option HandAspect :=
  match v.toNat with
  | 0 => some .dark
  | 1 => some .flash
  | _ => none

/-- A colour (R210: RED 0, AMBER 1, GREEN 2). -/
def valueColour (v : Word16) : Option Colour :=
  match v.toNat with
  | 0 => some .red
  | 1 => some .amber
  | 2 => some .green
  | _ => none

/-- A layout (R205: 16 × 8 0, 8 × 16 1, 4 × 32 2). -/
def valueLayout (v : Word16) : Option Layout :=
  match v.toNat with
  | 0 => some .l16x8
  | 1 => some .l8x16
  | 2 => some .l4x32
  | _ => none

/-- A plan mode (R106, R207: ISOLATED 0, LINKED 1). -/
def valueMode (v : Word16) : Option PlanMode :=
  match v.toNat with
  | 0 => some .isolated
  | 1 => some .linked
  | _ => none

/-- An input function (R205: NONE 0 to CHANGEOVER_FEEDBACK 6). -/
def valueFunction (v : Word16) : Option InputFunction :=
  match v.toNat with
  | 0 => some .none
  | 1 => some .plain
  | 2 => some .demand
  | 3 => some .allRed
  | 4 => some .panelKey
  | 5 => some .door
  | 6 => some .changeover
  | _ => none

/-- An edge selection (R205: CLOSING 0, OPENING 1), as the level the edge leads to. -/
def valueEdge (v : Word16) : Option Level :=
  match v.toNat with
  | 0 => some .closed
  | 1 => some .opened
  | _ => none

/-! ### Words of an item -/

/-- A count, a time or a number as a word (R207). -/
def word (n : Nat) : Word16 := BitVec.ofNat 16 n

/-- A signed figure as a word, two's complement (R207). -/
def wordInt (n : Int) : Word16 := BitVec.ofInt 16 n

/-- A field of two values as a word (R207). -/
def wordBool (b : Bool) : Word16 := if b then 1 else 0

/-- The word of an absent field (R207). -/
def wordAbsent : Word16 := 0xFFFF

/-- A field that may be absent (R207). -/
def wordOpt (o : Option Nat) : Word16 :=
  match o with
  | none => wordAbsent
  | some n => word n

/-- A figure that may be absent: a flag word, then the figure, 0 while absent (R207; log entry 11). -/
def wordsFlagged (o : Option Int) : List Word16 :=
  match o with
  | none => [0, 0]
  | some n => [1, wordInt n]

/-- A time that may be absent, with its flag word first (R207; log entry 11). -/
def wordsFlaggedNat (o : Option Nat) : List Word16 :=
  match o with
  | none => [0, 0]
  | some n => [1, word n]

/-- A junction-clock time: its quotient by 65,536, then the remainder (R207). -/
def wordsTime (t : Nat) : List Word16 := [word (t / 65536), word (t % 65536)]

/-- A member of G, S, I, O, P or card numbers, as its number (R205, R207). -/
def number {n : Nat} (i : Fin n) : Nat := i.val + 1

/-- A set of outputs: four words, O1 to O16 first (R207). -/
def wordsOutputs (p : OutputId → Bool) : List Word16 :=
  (List.finRange 4).map fun q => setOf fun j => p ⟨16 * q.val + j.val, by omega⟩

/-- A fault kind by its row in the kind table, counting from 1 (R207). -/
def kindCode (k : FaultKind) : Nat := k.ctorIdx + 1

/-- A handover cause by its row in the cause table, counting from 1 (R207). -/
def causeCode (c : Cause) : Nat := c.ctorIdx + 1

/-- A subject inside a word: its kind in the high byte, its number in the low byte (R207). -/
def subjectWord (x : Subject) : Word16 :=
  match x with
  | .none => 0
  | .output o => word (0x100 + number o)
  | .card c => word (0x200 + number c)
  | .line .a => word (0x300 + 1)
  | .line .b => word (0x300 + 2)
  | .group g => word (0x400 + number g)
  | .stage n => word (0x500 + number n)
  | .plan p => word (0x600 + number p)
  | .input i => word (0x700 + number i)
  | .cause c => word (0x800 + causeCode c)

/-- A service state by its place (R202, R207). -/
def stateCode (s : ServiceState) : Nat :=
  match s with
  | .handedOver => 0
  | .starting => 1
  | .service => 2

/-- A result's code (R204). -/
def resultCode (r : Result) : Byte :=
  match r with
  | .done => 0x00
  | .refusedState => 0x01
  | .refusedRight => 0x02
  | .badSubject => 0x03
  | .badValue => 0x04
  | .planActive => 0x05
  | .noOffer => 0x06
  | .conflict => 0x07
  | .full => 0x08
  | .mismatch => 0x09
  | .frameError => 0x0A
  | .noTable => 0x10
  | .startPlanNotReady => 0x11
  | .latchedRecord => 0x12
  | .mainsInvalid => 0x13
  | .cardNotOnline => 0x14
  | .changeoverHeld => 0x15

/-- The 40 bits a response shifts out (R199, R202): result, summary, echoed code, value. -/
def responseBits (r : Response) : BitVec 40 := resultCode r.result ++ r.summary ++ r.code ++ r.value

end Sys2Proof.Machine
end

