-- ==== Sys2Proof/Machine/FaultTable.lean ====
section
/-! DEFINITION. The fault table's operations (chapter 10): posting, the end of a condition, clearing, reading a notice,
and the attention lines. -/

namespace Sys2Proof.Machine

/-- The level of a record (section 10.2): fixed by the kind; for HANDOVER, by the cause. -/
def levelOf (k : FaultKind) (x : Subject) : Nat :=
  match k with
  | .lampDark | .unwantedCurrent | .switchEcho | .senseReversed | .currentOverrange | .feederOpen => 4
  | .lampDim | .lineDegraded | .matrixMismatch => 2
  | .redDegraded | .cross | .stuckSwitch | .cardSilent => 5
  | .redLoss | .cardTrip => 6
  | .earthLeak | .crossUnresolved | .addressMismatch | .lineJammed => 3
  | .currentTransient | .priorityExpired | .planResync | .cycleOverrun | .doorOpen => 1
  | .handover =>
    match x with
    | .cause .planRequest | .cause .checkRequest => 6
    | _ => 7
  | .handoverUnproven => 7

/-- The kinds whose condition ends in the event that posts the record (section 10.2). -/
def endsAtPosting (k : FaultKind) : Bool :=
  match k with
  | .cross | .stuckSwitch | .crossUnresolved | .currentTransient | .priorityExpired | .planResync | .cycleOverrun
  | .handover | .handoverUnproven => true
  | _ => false

/-- The slot that holds the record of a kind and subject (R184: there is at most one). -/
def findRecord (t : FaultTable) (k : FaultKind) (x : Subject) : Option SlotId :=
  allSlots.find? fun i =>
    match t.slots[i] with
    | some r => r.kind == k && r.subject == x
    | none => false

/-- The lowest-numbered FREE slot (R186). -/
def freeSlot (t : FaultTable) : Option SlotId := allSlots.find? fun i => t.slots[i].isNone

/-- A slot moved to the end of the change order, as the newest (R185). -/
def asNewest (order : List SlotId) (i : SlotId) : List SlotId := order.filter (· != i) ++ [i]

/-- The record of a slot replaced where there is one; its place in the change order is kept. -/
def modRecord (t : FaultTable) (i : SlotId) (f : Record → Record) : FaultTable :=
  { t with slots := vmod t.slots i (Option.map f) }

/-! ### Attention (R195) -/

/-- The attention condition of a link: an unseen record at or above its threshold (R195). -/
def attentionDue (t : FaultTable) (l : Link) : Bool :=
  allSlots.any fun i =>
    match t.slots[i] with
    | some r => !(r.seen.get l) && decide ((t.attention.get l).threshold ≤ r.level)
    | none => false

/-- A link's line following the condition, but released while the 50 µs of READ NEXT NOTICE run (R195). -/
def judgeLine (t : FaultTable) (l : Link) : FaultTable :=
  { t with
    attention := t.attention.set l
      { t.attention.get l with line := attentionDue t l && !(t.attention.get l).released } }

/-- Both lines judged (R195). -/
def judgeLines (t : FaultTable) : FaultTable := judgeLine (judgeLine t .plan) .check

/-! ### Becoming CLEARED (R188, R189) -/

/-- Whether an ACTIVE record becomes CLEARED: unlatched by the end of its condition, latched by that and both clear
marks (R188, R189). -/
def clearsNow (r : Record) : Bool := r.active && r.ended && (!r.latched || (r.clear.plan && r.clear.check))

/-- The record of a slot becoming CLEARED where R188 or R189 makes it so: newest in the change order, its last-change
time set, both seen marks cleared. -/
def settleRecord (clock : Nat) (i : SlotId) (t : FaultTable) : FaultTable :=
  match t.slots[i] with
  | none => t
  | some r =>
    if clearsNow r then
      { modRecord t i (fun r => { r with active := false, lastTime := clock, seen := ⟨false, false⟩ }) with
        order := asNewest t.order i }
    else t

/-- The end of the condition of a slot's record (R188). For a record already CLEARED it changes nothing. -/
def endSlot (clock : Nat) (i : SlotId) (t : FaultTable) : FaultTable :=
  settleRecord clock i (modRecord t i fun r => if r.active then { r with ended := true } else r)

/-! ### A full table (R191) -/

/-- The oldest CLEARED record (R191, choice 1). -/
def oldestCleared (t : FaultTable) : Option SlotId :=
  t.order.find? fun i =>
    match t.slots[i] with
    | some r => !r.active
    | none => false

/-- The oldest of the ACTIVE unlatched records of the lowest level, with its level (R191, choice 2). -/
def lightestActive (t : FaultTable) : Option (SlotId × Nat) :=
  t.order.foldl
    (fun best i =>
      match t.slots[i] with
      | some r =>
        if r.active && !r.latched then
          match best with
          | some (_, n) => if r.level < n then some (i, r.level) else best
          | none => some (i, r.level)
        else best
      | none => best)
    none

/-- The slot for a new record: the lowest FREE one, or the one freed by R191. -/
def slotForNew (t : FaultTable) (level : Nat) : Option SlotId :=
  match freeSlot t with
  | some i => some i
  | none =>
    match oldestCleared t with
    | some i => some i
    | none =>
      match lightestActive t with
      | some (i, n) => if n < level then some i else none
      | none => none

/-! ### Posting (R186, R187) -/

/-- A record at its creation (R186). -/
def newRecord (clock : Nat) (k : FaultKind) (x : Subject) (latched : Bool) (detail : List Word16) : Record :=
  { kind := k, subject := x, level := levelOf k x, active := true, ended := false, latched := latched, count := 1,
    firstTime := clock, lastTime := clock, detail := detail, seen := ⟨false, false⟩, clear := ⟨false, false⟩ }

/-- A record at its reoccurrence (R187). -/
def reoccurred (clock : Nat) (latched : Bool) (detail : Option (List Word16)) (r : Record) : Record :=
  { r with
    active := true
    ended := false
    count := min 255 (r.count + 1)
    lastTime := clock
    detail := detail.getD r.detail
    seen := ⟨false, false⟩
    clear := if r.active then r.clear else ⟨false, false⟩
    latched := if r.active then r.latched || latched else latched }

/-- A posting (R186, R187, R191): a reoccurrence, a new record, or a drop that sets the overflow flag. Where the kind's
condition ends at posting, R188 and R189 apply within the same event. -/
def postRecord (clock : Nat) (k : FaultKind) (x : Subject) (latched : Bool) (detail : Option (List Word16))
    (t : FaultTable) : FaultTable :=
  let ending (i : SlotId) (u : FaultTable) : FaultTable := if endsAtPosting k then endSlot clock i u else u
  match findRecord t k x with
  | some i =>
    judgeLines (ending i
      { modRecord t i (reoccurred clock latched detail) with order := asNewest t.order i })
  | none =>
    match slotForNew t (levelOf k x) with
    | some i =>
      judgeLines (ending i
        { t with
          slots := t.slots.set i (some (newRecord clock k x latched (detail.getD [])))
          order := asNewest t.order i })
    | none => { t with overflow := true }

/-- The end of a condition, as the block that owns it reports it (R188); with no such record, nothing (R191). -/
def endRecord (clock : Nat) (k : FaultKind) (x : Subject) (t : FaultTable) : FaultTable :=
  match findRecord t k x with
  | some i => judgeLines (endSlot clock i t)
  | none => t

/-- A detail replaced without a reoccurrence (R188). -/
def redetailRecord (k : FaultKind) (x : Subject) (detail : List Word16) (t : FaultTable) : FaultTable :=
  match findRecord t k x with
  | some i => modRecord t i fun r => { r with detail := detail }
  | none => t

/-- A record posted, time-stamped with the junction clock (R186). -/
def post (k : FaultKind) (x : Subject) (latched : Bool) (detail : Option (List Word16)) (s : State) : State :=
  { s with faults := postRecord s.seq.clock k x latched detail s.faults }

/-- A condition ended (R188). -/
def endFault (k : FaultKind) (x : Subject) (s : State) : State :=
  { s with faults := endRecord s.seq.clock k x s.faults }

/-- A detail replaced (R188). -/
def redetail (k : FaultKind) (x : Subject) (detail : List Word16) (s : State) : State :=
  { s with faults := redetailRecord k x detail s.faults }

/-- Whether a record of a kind and subject is held ACTIVE (R69, R70). -/
def faultActive (s : State) (k : FaultKind) (x : Subject) : Bool :=
  match findRecord s.faults k x with
  | some i =>
    match s.faults.slots[i] with
    | some r => r.active
    | none => false
  | none => false

/-! ### Clearing and reading -/

/-- A link's clear mark set on a slot's record, with R189 applied (R190). -/
def clearSlot (clock : Nat) (l : Link) (i : SlotId) (t : FaultTable) : FaultTable :=
  judgeLines (settleRecord clock i (modRecord t i fun r => { r with clear := r.clear.set l true }))

/-- The slot of the record a link has not seen, of the highest level and, among those, the oldest (R192). -/
def nextNotice (t : FaultTable) (l : Link) : Option (SlotId × Record) :=
  t.order.foldl
    (fun best i =>
      match t.slots[i] with
      | some r =>
        if r.seen.get l then best
        else
          match best with
          | some (_, b) => if b.level < r.level then some (i, r) else best
          | none => some (i, r)
      | none => best)
    none

/-- A slot made FREE and taken out of the change order (R193). -/
def removeSlot (i : SlotId) (t : FaultTable) : FaultTable :=
  { t with slots := t.slots.set i none, order := t.order.filter (· != i) }

/-- A link's seen mark set on a slot's record, which is removed when it is CLEARED and both links have seen it
(R192, R193). -/
def seeSlot (l : Link) (i : SlotId) (t : FaultTable) : FaultTable :=
  let u := modRecord t i fun r => { r with seen := r.seen.set l true }
  match u.slots[i] with
  | some r => if !r.active && r.seen.plan && r.seen.check then removeSlot i u else u
  | none => u

/-- A link's line released for the 50 µs that follow the taking of a READ NEXT NOTICE (R195). -/
def releaseLine (l : Link) (t : FaultTable) : FaultTable :=
  judgeLines { t with attention := t.attention.set l { t.attention.get l with released := true } }

/-- The end of the 50 µs: the line takes the level of the condition (R195). -/
def endRelease (l : Link) (t : FaultTable) : FaultTable :=
  judgeLine { t with attention := t.attention.set l { t.attention.get l with released := false } } l

/-- The table emptied by SERVICE RESTART; the thresholds are kept (R197). -/
def emptyTable (t : FaultTable) : FaultTable :=
  judgeLines { t with slots := Vector.replicate 48 none, order := [], overflow := false }

/-- The lowest slot that holds a latched record that is not CLEARED (R163, R189). -/
def latchedSlot (t : FaultTable) : Option SlotId :=
  allSlots.find? fun i =>
    match t.slots[i] with
    | some r => r.latched && r.active
    | none => false

end Sys2Proof.Machine
end

