-- ==== Sys2Proof/Machine/Flags.lean ====
section
/-! DEFINITION. What the spec derives from the holdings: commanded states, exposures, red counts, bars, the all-red hold,
the changeover feedback, the panel keys, cycle positions and due transfers. -/

namespace Sys2Proof.Machine

/-! ### The active table -/

/-- The active table; while it is absent its empty contents stand for it: no group defined, no output used. -/
def activeTable (s : State) : SafetyTable :=
  match s.safety.active with
  | some t => t
  | none => SafetyTable.empty

/-- An output's record in the active table (R6). -/
def outRec (s : State) (o : OutputId) : OutputRec := (activeTable s).outputs[o]

/-- A group's record in the active table (R3). -/
def groupRec (s : State) (g : GroupId) : GroupRec := (activeTable s).groups[g]

/-- Two groups conflict when each names the other in its conflict row (R4). -/
def conflictIn (t : SafetyTable) (l g : GroupId) : Bool := has t.conflicts[l] g && has t.conflicts[g] l

/-- Two groups conflict in the active table. -/
def conflict (s : State) (l g : GroupId) : Bool := conflictIn (activeTable s) l g

/-- A group's ending period (R3). -/
def endingPeriod (r : GroupRec) : Nat :=
  match r.kind with
  | .vehicle => r.amber
  | .crossing => r.blackout

/-- A group's red-amber time as the sequencer counts it (R127: 0 for a CROSSING group). -/
def redAmberTimeOf (r : GroupRec) : Nat :=
  match r.kind with
  | .vehicle => r.redAmber
  | .crossing => 0

/-- Whether an output is a used one of a group and colour. -/
def serves (s : State) (o : OutputId) (g : GroupId) (c : Colour) : Bool :=
  (outRec s o).used && (outRec s o).group == g && (outRec s o).colour == c

/-! ### Commanded state (R66) -/

/-- The table of R66: whether an aspect lights a colour. -/
def lights (a : Aspect) (c : Colour) : Bool :=
  match a, c with
  | .red, .red | .redAmber, .red | .redAmber, .amber | .green, .green | .amber, .amber => true
  | _, _ => false

/-- The commanded state composed from its four inputs in their order (R66). -/
def commandOf (s : State) (o : OutputId) : Bool :=
  s.service.state != .handedOver && !s.cable.cards[cardOf o].tripped && (outRec s o).used &&
    lights s.seq.groups[(outRec s o).group].aspect (outRec s o).colour

/-! ### Green exposure (R79) -/

/-- The proving states in which a used GREEN output exposes its group (R79). -/
def exposing (p : ProvingState) : Bool :=
  match p with
  | .unproved | .provedOn | .litUnwanted | .senseLost => true
  | _ => false

/-- A group's green exposure as R79 gives it. -/
def exposedNow (s : State) (g : GroupId) : Bool :=
  (s.seq.groups[g].aspect == .green && s.service.state != .handedOver) ||
    allOutputs.any fun o => serves s o g .green && exposing s.proving.outputs[o].state

/-- Whether every group that conflicts with g has its green exposure false (R131). -/
def conflictsDark (s : State) (g : GroupId) : Bool :=
  all16.all fun l => !(conflict s l g && s.proving.groups[l].exposed)

/-- The first pair of conflicting groups that are both exposed (R80), the lower-numbered group of the pair first
(log entry 31). -/
def exposedPair (s : State) : Option (GroupId × GroupId) :=
  (all16.flatMap fun l => all16.map fun g => (l, g)).find? fun p =>
    decide (p.1 < p.2) && conflict s p.1 p.2 && s.proving.groups[p.1].exposed && s.proving.groups[p.2].exposed

/-! ### Red status (R76) -/

/-- A group's used RED outputs in ascending order. -/
def redOutputs (s : State) (g : GroupId) : List OutputId := allOutputs.filter fun o => serves s o g .red

/-- Whether a red counts as dark (R76). -/
def isDark (s : State) (o : OutputId) : Bool :=
  match s.proving.outputs[o].state with
  | .failedDark | .senseLost | .isolated => true
  | .provedOff => s.proving.outputs[o].echo
  | _ => false

/-- n of R76. -/
def redCount (s : State) (g : GroupId) : Nat := (redOutputs s g).length

/-- The dark reds of a group in ascending order, which is also their order in a record's detail (log entry 77). -/
def darkReds (s : State) (g : GroupId) : List OutputId := (redOutputs s g).filter (isDark s)

/-- d of R76. -/
def redDark (s : State) (g : GroupId) : Nat := (darkReds s g).length

/-- p of R76. -/
def redProved (s : State) (g : GroupId) : Nat :=
  ((redOutputs s g).filter fun o => s.proving.outputs[o].state == .provedOn).length

/-- The outcome of an evaluation (R76); a group with no used red is never evaluated. -/
def redOutcome (s : State) (g : GroupId) : RedStatus :=
  if redCount s g = 0 then s.proving.groups[g].red
  else if redDark s g = redCount s g then .loss
  else if 0 < redDark s g then .degraded
  else if redProved s g = redCount s g then .ok
  else s.proving.groups[g].red

/-- Whether a completed measurement evaluates a group: commanded RED or RED_AMBER, in STARTING or SERVICE (R76). -/
def redJudged (s : State) (g : GroupId) : Bool :=
  (s.seq.groups[g].aspect == .red || s.seq.groups[g].aspect == .redAmber) && s.service.state != .handedOver

/-! ### Bars (R145) -/

/-- Whether a group conflicts with a group in RED_LOSS. -/
def facesLoss (s : State) (g : GroupId) : Bool :=
  all16.any fun l => conflict s l g && s.proving.groups[l].red == .loss

/-- Whether a set holds a group that conflicts with a group in RED_LOSS (R136, R145). -/
def barredSet (s : State) (x : Set16) : Bool := all16.any fun g => has x g && facesLoss s g

/-- The bar set as R145 gives it. -/
def barsNow (s : State) : Set16 := setOf fun n => s.stages[n].defined && barredSet s s.stages[n].members

/-! ### Holds, feedback and keys -/

/-- Whether an ALL_RED input is filtered closed (R144, R178). -/
def allRedInput (s : State) : Bool := all16.any fun i => s.inputs[i].function == .allRed && s.inputs[i].level == .closed

/-- The all-red hold (R144). -/
def holdActive (s : State) : Bool := s.seq.allRed || allRedInput s

/-- The input with function CHANGEOVER_FEEDBACK (R160: at most one). -/
def feedbackInput (s : State) : Option InputId := all16.find? fun i => s.inputs[i].function == .changeover

/-- Whether an input's filtered level agrees with HOLD (R160). -/
def agrees (s : State) (i : InputId) : Bool := (s.inputs[i].level == .closed) == s.service.hold

/-- The inputs with function PANEL_KEY. -/
def panelKeys (s : State) : List InputId := all16.filter fun i => s.inputs[i].function == .panelKey

/-- The panel-key combination is armed and every key is closed (R169). -/
def keysClosed (s : State) : Bool :=
  decide (2 ≤ (panelKeys s).length) && (panelKeys s).all fun i => s.inputs[i].level == .closed

/-! ### Plans -/

/-- How many plans a layout provides (R105). -/
def planCount (l : Layout) : Nat :=
  match l with
  | .l16x8 => 16
  | .l8x16 => 8
  | .l4x32 => 4

/-- A layout's slot size (R105). -/
def slotSize (l : Layout) : Nat :=
  match l with
  | .l16x8 => 8
  | .l8x16 => 16
  | .l4x32 => 32

/-- The record of the active plan. -/
def activePlan (s : State) : Option Plan := s.plans.active.map fun p => s.plans.plans[p]

/-- The position of a clock value in a LINKED plan's cycle (R149). -/
def positionIn (p : Plan) (clock : Nat) : Nat := (((clock : Int) - 10 * p.offset) % (10 * p.cycle)).toNat

/-- The cycle position that the clock gives: absent unless the active plan is LINKED (R149). -/
def positionNow (s : State) : Option Nat :=
  match activePlan s with
  | some p => if p.mode == .linked then some (positionIn p s.seq.clock) else none
  | none => none

/-- Whether the pending plan's transfer is due (R117). -/
def transferDue (s : State) : Bool :=
  match activePlan s, s.plans.pending with
  | some p, some q => p.mode == .isolated || q.wrap
  | _, _ => false

/-! ### The running stage -/

/-- The record of the running step, from the active plan (R133). -/
def runningStep (s : State) : Option Step :=
  match s.seq.designation, activePlan s, s.seq.stepIndex with
  | some .step, some p, some n => some p.steps[n]
  | _, _, _ => none

/-- The running stage: the stage of STEP s or of CALL (R139). -/
def runningStage (s : State) : Option StageId :=
  match s.seq.designation with
  | some .step => (runningStep s).bind (·.stage)
  | some .call => s.seq.service.map (·.stage)
  | _ => none

/-- Whether the min green floor of every group of a set has elapsed since its green start (R133). -/
def floorsElapsed (s : State) (x : Set16) : Bool :=
  all16.all fun g =>
    !has x g ||
      match s.seq.groups[g].greenStart with
      | some t => decide (t + (groupRec s g).minGreenFloor ≤ s.seq.units)
      | none => true

/-- Whether the running step's min green has elapsed; a min green of 0 elapses with the first unit counted (R133). -/
def minElapsed (s : State) (r : Step) : Bool := decide (max 1 r.minGreen ≤ s.seq.minCount)

/-- Whether the running step's max green has elapsed (R133). -/
def maxElapsed (s : State) (r : Step) : Bool := decide (r.maxGreen ≤ s.seq.maxCount)

end Sys2Proof.Machine
end

