-- ==== Sys2Proof/Machine/Handover.lean ====
section
/-! DEFINITION. Recomposing commanded states and exposures (R66, R79), HOLD and the timers that follow it (R154, R160,
R169), the handover (R155, R156, R126, R120, R102, R159) and the conflict check (R80). -/

namespace Sys2Proof.Machine

/-- The commanded states of the outputs that meet a test, composed afresh (R66). -/
def recompose (p : OutputId → Bool) (s : State) : State :=
  { s with
    proving :=
      { s.proving with
        outputs := vgen fun o =>
          if p o then { s.proving.outputs[o] with commanded := commandOf s o } else s.proving.outputs[o] } }

/-- Every commanded state composed afresh (R66). -/
def recomposeAll (s : State) : State := recompose (fun _ => true) s

/-- A group's exposure recomputed (R79). -/
def reexpose (g : GroupId) (s : State) : State := modGroupProof s g fun r => { r with exposed := exposedNow s g }

/-- Every exposure recomputed (R79). -/
def reexposeAll (s : State) : State :=
  { s with
    proving :=
      { s.proving with groups := vgen fun g => { s.proving.groups[g] with exposed := exposedNow s g } } }

/-! ### Timers that follow HOLD and the inputs -/

/-- The changeover timer set at an event that changes HOLD, the feedback input's level or the function (R160): 5 units
where the feedback disagrees, absent where it agrees or no input has the function. -/
def judgeFeedback (s : State) : State :=
  modService s fun r =>
    { r with
      changeover :=
        match feedbackInput s with
        | some i => if agrees s i then none else some Config.changeoverUnits
        | none => none }

/-- HOLD driven, with the changeover timer set as R160 gives for a change of HOLD (R154). -/
def driveHold (b : Bool) (s : State) : State := judgeFeedback (modService s fun r => { r with hold := b })

/-- The two-key timer judged (R169): started at 10 units when every key becomes closed in STARTING or SERVICE, running on
while they stay closed (log entry 35), absent otherwise. -/
def judgeKeys (s : State) : State :=
  modService s fun r =>
    { r with
      twoKey :=
        if s.service.state != .handedOver && keysClosed s then
          match r.twoKey with
          | some n => some n
          | none => some Config.twoKeyUnits
        else none }

/-! ### What a handover does to the other blocks -/

/-- A group returned to RED outside its sequence, with its times removed (R126, R127). A change out of GREEN sets its
last green end (log entry 39). -/
def groupStopped (units : Nat) (r : GroupSeq) : GroupSeq :=
  { r with
    aspect := .red
    redAmberAt := none
    greenAt := none
    endAt := none
    deadline := none
    lastEnd := if r.aspect == .green then some units else r.lastEnd }

/-- The sequencer at a handover (R126); bars, clock, unit count, green starts and last green ends are kept. -/
def sequencerStopped (q : Sequencer) : Sequencer :=
  { q with
    phase := .stopped
    designation := none
    current := 0
    target := none
    stepIndex := none
    resume := none
    minCount := 0
    maxCount := 0
    forceOff := .none
    overrun := false
    groups := vgen fun g => { groupStopped q.units q.groups[g] with hold := 0 }
    latches := 0
    calls := []
    service := none
    allRed := false
    position := none }

/-- The sequencer at the entry to START_RED (R125). -/
def sequencerStartRed (q : Sequencer) : Sequencer :=
  { q with
    phase := .startRed
    designation := none
    target := none
    stepIndex := none
    resume := none
    groups := vgen fun g => groupStopped q.units q.groups[g]
    service := none }

/-- One open investigation abandoned: its slot FREE, and the condition of its X's UNWANTED_CURRENT ended (R102). -/
def abandonSlot (i : InvSlot) (s : State) : State :=
  match s.cable.investigations[i] with
  | some v => setInvestigation (endFault .unwantedCurrent (.output v.x) s) i none
  | none => s

/-- Every open investigation abandoned (R102), by ascending slot (log entry 58). -/
def abandonAll (s : State) : State := eachOf allInvSlots abandonSlot s

/-- HANDOVER_UNPROVEN for one output, with the IP of its entering measurement (R159; log entry 14). -/
def postUnproven (o : OutputId) (s : State) : State :=
  post .handoverUnproven (.output o) true (some [wordInt s.proving.outputs[o].entryIp]) s

/-- HANDOVER_UNPROVEN for every output in LIT_UNWANTED, in ascending order (R156, R159). -/
def postAllUnproven (s : State) : State :=
  eachOf allOutputs (fun o t => if t.proving.outputs[o].state == .litUnwanted then postUnproven o t else t) s

/-- Whether a cause's HANDOVER record is latched (R155). -/
def causeLatched (c : Cause) : Bool :=
  match c with
  | .planRequest | .checkRequest => false
  | _ => true

/-- The state a handover leaves before its records are posted: service state, HOLD and timers, sequencer, plan roles,
commanded states and exposures (R156). -/
def handoverBlocks (s : State) : State :=
  let s := modService s fun r => { r with state := .handedOver, start := none, vouch := none, twoKey := none }
  let s := driveHold false s
  let s := modSeq s sequencerStopped
  let s := modPlans s fun p => { p with active := none, pending := none }
  reexposeAll (recomposeAll s)

/-- A handover cause (R155, R156): taken in STARTING and SERVICE; in HANDED_OVER it is not taken and posts nothing. The
detail holds the cause's items, then the service state handed over from (R207). -/
def handover (c : Cause) (detail : List Word16) (s : State) : State :=
  if s.service.state == .handedOver then s
  else
    postAllUnproven
      (post .handover (.cause c) (causeLatched c) (some (detail ++ [word (stateCode s.service.state)]))
        (abandonAll (handoverBlocks s)))

/-- The conflict check (R80): it runs in STARTING and SERVICE, and hands over with CONFLICT on a pair of conflicting
exposed groups. With no active table no two groups conflict. -/
def conflictCheck (s : State) : State :=
  if s.service.state == .handedOver then s
  else
    match exposedPair s with
    | some p => handover .conflict [word (number p.1), word (number p.2)] s
    | none => s

end Sys2Proof.Machine
end

