-- ==== Sys2Proof/Machine/Sequencer.lean ====
section
/-! DEFINITION. The stage sequencer's operations (chapter 7): aspects, interstages, gating, completion, decisions and the
effect of a change of bars. -/

namespace Sys2Proof.Machine

/-! ### Aspects (R127) -/

/-- A change of a group's commanded aspect (R127), with its outputs recomposed (R66) and its exposure recomputed (R79). -/
def setAspect (g : GroupId) (a : Aspect) (s : State) : State :=
  let s := modGroup s g fun r =>
    { r with
      aspect := a
      greenStart := if a == .green && r.aspect != .green then some s.seq.units else r.greenStart
      lastEnd := if r.aspect == .green && a != .green then some s.seq.units else r.lastEnd }
  reexpose g (recompose (fun o => (outRec s o).group == g) s)

/-- A group's green ended (R129): its ending period begins, or it goes straight to RED where it has none. -/
def endGreen (g : GroupId) (s : State) : State :=
  let r := groupRec s g
  let until_ := some (s.seq.units + endingPeriod r)
  match r.kind with
  | .vehicle => modGroup (setAspect g .amber s) g fun q => { q with endAt := until_ }
  | .crossing =>
    if r.blackout = 0 then modGroup (setAspect g .red s) g fun q => { q with endAt := none }
    else modGroup (setAspect g .blackout s) g fun q => { q with endAt := until_ }

/-! ### Scheduling and gating (R130, R131) -/

/-- The delay of a gaining group in units (R130): the largest of its red-amber time and, for each conflicting group, what
remains of the intergreen from its last green end; a term below 0 counts as 0. -/
def delayOf (s : State) (g : GroupId) : Nat :=
  all16.foldl
    (fun d l =>
      if conflict s l g then
        match s.seq.groups[l].lastEnd with
        | some e => max d (e + (activeTable s).intergreens[l][g] - s.seq.units)
        | none => d
      else d)
    (redAmberTimeOf (groupRec s g))

/-- A gaining group scheduled at the unit count of the termination (R130). -/
def schedule (g : GroupId) (s : State) : State :=
  let due := s.seq.units + delayOf s g
  let early := redAmberTimeOf (groupRec s g)
  modGroup s g fun r =>
    { r with
      redAmberAt := if early = 0 then none else some (due - early)
      greenAt := some due
      deadline := some (due + Config.gatingUnits) }

/-- Whether a scheduled time has come. -/
def reached (t : Option Nat) (units : Nat) : Bool :=
  match t with
  | some n => decide (n ≤ units)
  | none => false

/-- A group taken to RED_AMBER once its time has come, whatever the exposures (R130). -/
def tryRedAmber (g : GroupId) (s : State) : State :=
  if reached s.seq.groups[g].redAmberAt s.seq.units then
    modGroup (setAspect g .redAmber s) g fun r => { r with redAmberAt := none }
  else s

/-- A gaining group taken to GREEN at or after its GREEN time once every conflicting exposure is false (R131); its
exposure then rises, and the conflict check is made (R80). Where its RED_AMBER time has not been taken by then, that time
is dropped and the group goes from RED to GREEN (log entry 68). -/
def tryGreen (g : GroupId) (s : State) : State :=
  if reached s.seq.groups[g].greenAt s.seq.units && conflictsDark s g then
    conflictCheck
      (modGroup (setAspect g .green s) g fun r => { r with redAmberAt := none, greenAt := none, deadline := none })
  else s

/-- Every waiting group tried, in ascending order (R131; log entry 18). -/
def tryGreens (s : State) : State := eachOf all16 tryGreen s

/-! ### Steps and plans -/

/-- The step after n in a plan, cyclically (R134). -/
def stepAfter (p : Plan) (n : StepNo) : StepNo := ⟨(n.val + 1) % (max 1 p.stepCount) % 32, by omega⟩

/-- The force-off state of a step that starts, with its overrun flag (R138, R149): WAITING where the step has a force-off
in a LINKED plan, REACHED at once, before any min green, where the position stands at its point. -/
def forceOffAtStart (p : Plan) (r : Step) (position : Option Nat) (units : Nat) : ForceOff × Bool :=
  match p.mode, r.forceOff with
  | .linked, some f => if position == some (10 * f) then (.reached units, true) else (.waiting, false)
  | _, _ => (.none, false)

/-- The step timers of a step that starts, its index and the resume point (R132, R133, R138). -/
def startStep (n : StepNo) (s : State) : State :=
  match activePlan s with
  | some p =>
    let f := forceOffAtStart p p.steps[n] s.seq.position s.seq.units
    modSeq s fun q =>
      { q with
        designation := some .step, stepIndex := some n, resume := none, minCount := 0, maxCount := 0,
        forceOff := f.1, overrun := f.2 }
  | none => s

/-- A listed call for a stage that starts running, or is the running stage of a step, taken into service (R143). -/
def callIntoService (n : StageId) (s : State) : State :=
  match s.seq.calls.find? (·.stage == n) with
  | some c =>
    modSeq s fun q =>
      { q with
        calls := q.calls.filter (·.stage != n)
        service := some { stage := n, units := c.duration } }
  | none => s

/-- A due transfer taken: the pending plan becomes the active plan (R118), and the cycle position is that of its own
cycle and offset (R149). -/
def takeTransfer (s : State) : State :=
  match s.plans.pending with
  | some q =>
    let s := modPlans s fun m => { m with active := some q.plan, pending := none }
    modSeq s fun r => { r with position := positionNow s }
  | none => s

/-! ### Choice of a target (R134, R135) -/

/-- Whether a step of the plan being scanned qualifies (R134). -/
def qualifies (s : State) (r : Step) : Bool :=
  match r.stage with
  | some n => !has s.seq.bars n && (!r.demandDependent || has s.seq.latches n)
  | none => false

/-- The steps of a plan in cyclic order from a start, count of them (R134). -/
def cyclicSteps (p : Plan) (start count : Nat) : List StepNo :=
  (List.range count).map fun i => ⟨(start + i) % (max 1 p.stepCount) % 32, by omega⟩

/-- The steps a scan covers, in order, with the plan scanned (R134, R118): the pending plan from step 1 where a transfer
is due; else the active plan, after the running step, or from the resume point (log entry 23). -/
def scanOrder (s : State) : Option (Plan × List StepNo) :=
  if transferDue s then
    s.plans.pending.map fun q => (s.plans.plans[q.plan], cyclicSteps s.plans.plans[q.plan] 0 s.plans.plans[q.plan].stepCount)
  else
    (activePlan s).map fun p =>
      match s.seq.designation, s.seq.stepIndex with
      | some .step, some n => (p, cyclicSteps p (n.val + 1) (p.stepCount - 1))
      | _, _ =>
        match s.seq.resume with
        | some n => (p, cyclicSteps p n.val p.stepCount)
        | none => (p, cyclicSteps p 0 p.stepCount)

/-- The first step of the scan that qualifies, with its stage (R134). -/
def scan (s : State) : Option Target :=
  match scanOrder s with
  | some (p, order) =>
    match order.find? fun n => qualifies s p.steps[n] with
    | some n => p.steps[n].stage.map fun g => .step n g
    | none => none
  | none => none

/-- The head unbarred call (R135): the first listed call whose stage is neither barred nor running. -/
def headCall (s : State) : Option StageId :=
  (s.seq.calls.find? fun c => !has s.seq.bars c.stage && runningStage s != some c.stage).map (·.stage)

/-- The target of a decision: the first of the all-red hold, the head unbarred call and the scan that applies (R135). -/
def choose (s : State) : Option Target :=
  if holdActive s then
    if s.seq.designation == some .s0 then none else some .s0
  else
    match headCall s with
    | some n => some (.call n)
    | none => scan s

/-- The set of a target: its stage's members, nothing for S0 (R128). -/
def targetSet (s : State) (t : Target) : Set16 :=
  match t with
  | .s0 => 0
  | .step _ n => s.stages[n].members
  | .call n => s.stages[n].members

/-- The stage of a target; none for S0. -/
def targetStage (t : Target) : Option StageId :=
  match t with
  | .s0 => none
  | .step _ n => some n
  | .call n => some n

/-! ### Conditions of a termination (R136) -/

/-- Whether a call held in service over a running step makes its conditions wait (R136, R143). -/
def callHolds (s : State) : Bool :=
  match s.seq.service with
  | some c => decide (0 < c.units)
  | none => false

/-- Whether a group of the current set holds an extension above 0 (R136). -/
def extended (s : State) : Bool := all16.any fun g => has s.seq.current g && decide (0 < s.seq.groups[g].hold)

/-- Condition (d) of STEP toward a plan step (R136): in a LINKED plan, force-off REACHED, min green and the floors of the
losing groups elapsed, and no call in service over the step. -/
def forcedOff (s : State) (losing : Set16) : Bool :=
  match runningStep s, activePlan s, s.seq.forceOff with
  | some r, some p, .reached _ => p.mode == .linked && minElapsed s r && floorsElapsed s losing && !callHolds s
  | _, _, _ => false

/-- The designation's condition toward a target, but for condition (a) (R136). -/
def mayEnd (s : State) (t : Target) (losing : Set16) : Bool :=
  match s.seq.designation with
  | some .step =>
    match runningStep s with
    | some r =>
      !callHolds s && floorsElapsed s losing &&
        match t with
        | .step _ _ => (minElapsed s r && !extended s) || maxElapsed s r || forcedOff s losing
        | _ => minElapsed s r
    | none => false
  | some .call => !callHolds s && floorsElapsed s losing
  | some .s0 => true
  | some .residual => floorsElapsed s losing
  | none => false

/-! ### Interstages (R128, R129) -/

/-- CYCLE_OVERRUN posted where condition (d) holds with the overrun flag set at a termination toward a plan step (R138):
its detail is the step number and the units since the force-off point (log entry 15), the low 16 bits of them (log entry
78). It precedes what the termination brings (log entry 59). -/
def postOverrun (t : Target) (losing : Set16) (s : State) : State :=
  match t, s.plans.active, s.seq.stepIndex, s.seq.forceOff with
  | .step _ _, some p, some n, .reached at_ =>
    if s.seq.overrun && forcedOff s losing then
      post .cycleOverrun (.plan p) false (some [word (number n), word (s.seq.units - at_)]) s
    else s
  | _, _, _, _ => s

/-- Phase INTERSTAGE entered toward a target: what the current set ran under becomes absent, and the step timers return
to their power-on values (R129). -/
def enterInterstage (t : Target) (q : Sequencer) : Sequencer :=
  { q with
    phase := .interstage, target := some t, designation := none, stepIndex := none, service := none, minCount := 0,
    maxCount := 0, forceOff := .none, overrun := false }

/-- A call or S0 target, and any target of a barred set, from STEP s holds step s+1 as the resume point where none is
held (R135, R146). -/
def holdResume (t : Target) (barred : Bool) (s : State) : State :=
  match s.seq.designation, activePlan s, s.seq.stepIndex with
  | some .step, some p, some n =>
    match t with
    | .step _ _ =>
      if barred then modSeq s fun q => { q with resume := q.resume.orElse fun _ => some (stepAfter p n) } else s
    | _ => modSeq s fun q => { q with resume := q.resume.orElse fun _ => some (stepAfter p n) }
  | _, _, _ => s

/-- The interstage toward a target set at the present unit count (R129, R130): the losing groups end their green, the
gaining groups are scheduled, and those whose times are already here change. -/
def runInterstage (t : Target) (s : State) : State :=
  let current := s.seq.current
  let goal := targetSet s t
  let s := modSeq s (enterInterstage t)
  let s := eachOf all16 (fun g u => if has current g && !has goal g then endGreen g u else u) s
  let s := eachOf all16 (fun g u => if has goal g && !has current g then schedule g u else u) s
  tryGreens (eachOf all16 tryRedAmber s)

/-! ### Completion (R132, R147) -/

/-- Whether no group waits for a green or in an ending period. -/
def allSettled (q : Sequencer) : Bool := all16.all fun g => q.groups[g].greenAt.isNone && q.groups[g].endAt.isNone

/-- Whether no group is in an ending period. -/
def noneEnding (q : Sequencer) : Bool := all16.all fun g => q.groups[g].endAt.isNone

/-- An interstage complete (R132): phase STAGE with the target's designation, the stage's demand latch cleared, and a
listed call for it taken into service. A call that was the target and was cancelled or has expired leaves no units (log
entry 22). -/
def complete (t : Target) (s : State) : State :=
  let s := modSeq s fun q => { q with phase := .stage, current := targetSet s t, target := none }
  match t with
  | .s0 => modSeq s fun q => { q with designation := some .s0 }
  | .step n g => callIntoService g (modSeq (startStep n s) fun q => { q with latches := setDrop q.latches g })
  | .call g =>
    callIntoService g
      (modSeq s fun q =>
        { q with
          designation := some .call
          service := some { stage := g, units := 0 }
          latches := setDrop q.latches g })

/-- A withdrawn interstage at rest: phase STAGE, designation RESIDUAL, the current set every group then GREEN (R147). -/
def completeResidual (s : State) : State :=
  modSeq s fun q =>
    { q with
      phase := .stage
      designation := some .residual
      current := setOf fun g => q.groups[g].aspect == .green }

/-- Whether an event changed what brings a decision: a demand latch, the call list, the call service or the force-off
state (R137). -/
def decisionDue (a b : Sequencer) : Bool :=
  a.latches != b.latches || a.calls != b.calls || a.service != b.service || a.forceOff != b.forceOff

/-- An interstage completed in the event that leaves nothing of it (R132), with a decision where the completion changed
what brings one (R137); a withdrawn one goes to RESIDUAL, with a decision at once (R147). decide: the decision. -/
def settle (decide : State → State) (s : State) : State :=
  if s.seq.phase == .interstage then
    match s.seq.target with
    | some t =>
      if allSettled s.seq then
        let u := complete t s
        if decisionDue s.seq u.seq then decide u else u
      else s
    | none => if noneEnding s.seq then decide (completeResidual s) else s
  else s

/-! ### Decisions (R133 to R137, R146, R148) -/

/-- A step of the same stage taken without interstage (R133): its timers start afresh and its latch is clear
(R139; log entry 21); the call service stays with a stage that runs on (R143). -/
def takeStep (n : StepNo) (g : StageId) (s : State) : State :=
  let s := if transferDue s then takeTransfer s else s
  let s := startStep n s
  callIntoService g
    (modSeq s fun q =>
      { q with
        latches := setDrop q.latches g
        service := q.service.filter (·.stage == g) })

/-- A termination toward a target (R129, R118): a due transfer is taken with a plan step. CYCLE_OVERRUN's subject is the
plan active before it (log entry 59). -/
def terminate (t : Target) (losing : Set16) (s : State) : State :=
  let s := postOverrun t losing s
  let s :=
    match t with
    | .step _ _ => if transferDue s then takeTransfer s else s
    | _ => s
  runInterstage t s

/-- One decision (R135 to R137, R146, R148). next: what follows an interstage that completes in the same event. -/
def decideOnce (next : State → State) (s : State) : State :=
  if s.seq.phase == .stage then
    let barred := barredSet s s.seq.current
    match choose s with
    | none => if barred then handover .redLossNoStage [s.seq.current] s else s
    | some t =>
      let s := holdResume t barred s
      let goal := targetSet s t
      let losing := setOf fun g => has s.seq.current g && !has goal g
      if goal == s.seq.current then
        match t with
        | .step n g => if mayEnd s t losing then takeStep n g s else s
        | _ => s
      else if barred || mayEnd s t losing then settle next (terminate t losing s)
      else s
  else s

/-- A decision, and those of the interstages that start and complete within it; n bounds how many. -/
def decideUpTo (n : Nat) (s : State) : State :=
  match n with
  | 0 => s
  | k + 1 => decideOnce (decideUpTo k) s

/-- A decision (R137). Each interstage that completes within its own event ends at a step whose min green has not begun,
at S0, or at one of four calls at most, so eight decisions are never used up. -/
def decision (s : State) : State := decideUpTo 8 s

/-- The sequencer after an event that may complete an interstage. -/
def settled (s : State) : State := settle decision s

/-- A change of exposures handed to the conflict check (R80) and to green-off gating (R131). -/
def exposureChanged (s : State) : State := settled (tryGreens (conflictCheck s))

/-! ### Bars (R145 to R148) -/

/-- The resume point after a barred target: the step after its step where it was a plan step and none is held (R147). -/
def resumeAfterBar (t : Target) (s : State) : State :=
  match t, activePlan s with
  | .step n _, some p => modSeq s fun q => { q with resume := q.resume.orElse fun _ => some (stepAfter p n) }
  | _, _ => s

/-- A gaining group withdrawn before its green: back to RED, its times and deadline removed (R147). -/
def withdrawGroup (g : GroupId) (s : State) : State :=
  if s.seq.groups[g].greenAt.isSome then
    modGroup (setAspect g .red s) g fun r => { r with redAmberAt := none, greenAt := none, deadline := none }
  else s

/-- Every GREEN group that conflicts with a group in RED_LOSS begins its ending period (R145, R147). -/
def endFacing (s : State) : State :=
  eachOf all16 (fun g u => if u.seq.groups[g].aspect == .green && facesLoss u g then endGreen g u else u) s

/-- An interstage withdrawn because its target is barred (R147). -/
def withdraw (t : Target) (s : State) : State :=
  let s := endFacing (eachOf all16 withdrawGroup s)
  modSeq (resumeAfterBar t s) fun q => { q with target := none }

/-- The bar set recomputed (R145). -/
def recomputeBars (s : State) : State := modSeq s fun q => { q with bars := barsNow s }

/-- Whether a target's stage is in the bar set (R147); S0 never is. -/
def targetBarred (s : State) (t : Target) : Bool :=
  match targetStage t with
  | some n => has s.seq.bars n
  | none => false

/-- A change of red status handed to the sequencer (R145): the bars are recomputed; in phase STAGE a change of them, or a
barred current set, brings a decision (R137, R146); in phase INTERSTAGE a barred target is withdrawn and every GREEN
group that faces a RED_LOSS ends (R147). -/
def redStatusChanged (s : State) : State :=
  let u := recomputeBars s
  match u.seq.phase with
  | .stage => if s.seq.bars != u.seq.bars || barredSet u u.seq.current then decision u else u
  | .interstage =>
    match u.seq.target with
    | some t => settled (if targetBarred u t then withdraw t u else endFacing u)
    | none => settled (endFacing u)
  | _ => u

end Sys2Proof.Machine
end

