-- ==== Sys2Proof/Machine/Proving.lean ====
section
/-! DEFINITION. The proving unit's operations (chapter 4): red status, the transitions of proving states with what follows
them, echoes, measurements, sense loss and isolation; and the opening of an investigation (R95). -/

namespace Sys2Proof.Machine

/-! ### Red status (R76 to R78) -/

/-- The dark reds of a group as the detail of its records (R78). -/
def darkDetail (s : State) (g : GroupId) : List Word16 := (darkReds s g).map fun o => word (number o)

/-- The records of a change of red status (R78). -/
def redRecords (g : GroupId) (old new : RedStatus) (s : State) : State :=
  match new with
  | .degraded =>
    let s := post .redDegraded (.group g) false (some (darkDetail s g)) s
    if old == .loss then endFault .redLoss (.group g) s else s
  | .loss =>
    let s := post .redLoss (.group g) false (some (darkDetail s g)) s
    if old == .degraded then endFault .redDegraded (.group g) s else s
  | .ok | .untested => endFault .redLoss (.group g) (endFault .redDegraded (.group g) s)

/-- A group's red status set (R78): the status already held changes nothing; a change posts and ends its records and is
handed to the sequencer. -/
def setRed (g : GroupId) (r : RedStatus) (s : State) : State :=
  if s.proving.groups[g].red == r then s
  else
    redStatusChanged
      (redRecords g s.proving.groups[g].red r (modGroupProof s g fun q => { q with red := r }))

/-- A group's red status evaluated (R76, R77). -/
def evalRed (g : GroupId) (s : State) : State := setRed g (redOutcome s g) s

/-! ### What follows a change of proving state -/

/-- Whether a proving state is one whose entry evaluates a red at once (R77). -/
def redFails (p : ProvingState) : Bool :=
  match p with
  | .isolated | .senseLost => true
  | _ => false

/-- What a used GREEN's change of proving state brings: its group's exposure recomputed, and a change of it goes on
(R79, R80, R131). -/
def greenChanged (o : OutputId) (s : State) : State :=
  let r := outRec s o
  if r.used && r.colour == .green then
    let t := reexpose r.group s
    if t.proving.groups[r.group].exposed == s.proving.groups[r.group].exposed then t else exposureChanged t
  else s

/-- What follows the proving state of an output having changed from old: greenChanged for a GREEN; a used RED that
enters ISOLATED or SENSE_LOST evaluates its group (R77). -/
def stateChanged (o : OutputId) (old : ProvingState) (s : State) : State :=
  let r := outRec s o
  let new := s.proving.outputs[o].state
  if r.used && r.colour == .red then
    if redFails new && new != old then evalRed r.group s else s
  else greenChanged o s

/-- An output's proving fields changed, with what follows from its proving state. -/
def setProving (o : OutputId) (f : OutputProof → OutputProof) (s : State) : State :=
  stateChanged o s.proving.outputs[o].state (modProof s o f)

/-- UNPROVED with both counts at 0 (R68, R74). -/
def unproved (r : OutputProof) : OutputProof := { r with state := .unproved, failing := 0, sense := 0 }

/-- Whether an output's proving state takes no transition from its card's windows: ISOLATED, or SENSE_LOST on a card that
is not ONLINE (R68, R74, R75). -/
def unmeasured (s : State) (o : OutputId) : Bool :=
  match s.proving.outputs[o].state with
  | .isolated => true
  | .senseLost => !s.line.cards[cardOf o].online
  | _ => false

/-! ### Echo (R67, R68) -/

/-- The echo check of a delivered core against the commanded state of the sent pattern, which may be missing (R67). -/
def checkEcho (o : OutputId) (applied : Bool) (sent : Option Bool) (s : State) : State :=
  match sent with
  | none => s
  | some c =>
    let was := s.proving.outputs[o].echo
    let s := modProof s o fun r => { r with echo := c != applied }
    if c != applied then
      if was then s else post .switchEcho (.output o) false (some [wordBool c, wordBool applied]) s
    else if was then endFault .switchEcho (.output o) s
    else s

/-- Whether a window changes an output's applied state: it was present and differs (R68). -/
def appliedChanges (s : State) (o : OutputId) (applied : Bool) : Bool :=
  match s.proving.outputs[o].applied with
  | some a => a != applied
  | none => false

/-- The window's applied state stored (R68). A change of it takes the output to UNPROVED, but an ISOLATED output stays,
and one in SENSE_LOST on a SILENT card stays with its sense count at 0. -/
def storeApplied (o : OutputId) (applied : Bool) (s : State) : State :=
  if appliedChanges s o applied then
    match s.proving.outputs[o].state with
    | .isolated => modProof s o fun r => { r with applied := some applied }
    | .senseLost =>
      if s.line.cards[cardOf o].online then setProving o (fun r => { unproved r with applied := some applied }) s
      else modProof s o fun r => { r with applied := some applied, sense := 0 }
    | _ => setProving o (fun r => { unproved r with applied := some applied }) s
  else modProof s o fun r => { r with applied := some applied }

/-! ### Sense count (R73) -/

/-- The sense count of an output at a window or missing-window notice of its card (R73): 0 where its measurement
completed or its applied state changed there, else one more up to 50; at sense_timeout the output goes to SENSE_LOST.
The count of an ISOLATED output stays at 0. -/
def countSense (o : OutputId) (restart : Bool) (s : State) : State :=
  match s.proving.outputs[o].state with
  | .isolated => s
  | .senseLost => modProof s o fun r => { r with sense := if restart then 0 else min 50 (r.sense + 1) }
  | _ =>
    let n := if restart then 0 else min 50 (s.proving.outputs[o].sense + 1)
    if s.line.cards[cardOf o].senseTimeout ≤ n then
      setProving o (fun r => { r with sense := n, state := .senseLost }) s
    else modProof s o fun r => { r with sense := n }

/-! ### Cards (R74, R75) -/

/-- A card become SILENT: each of its outputs that is not ISOLATED goes to SENSE_LOST (R74), one after another in ascending
order, with the evaluation of a red's group at each (log entry 64). -/
def senseLoseCard (c : CardId) (s : State) : State :=
  eachOf (outputsOf c)
    (fun o t =>
      if t.proving.outputs[o].state == .isolated then t else setProving o (fun r => { r with state := .senseLost }) t)
    s

/-- A card no longer configured: each of its outputs goes to SENSE_LOST under R74 (R82), those its cancelled trip had
ISOLATED among them (log entry 48). -/
def senseLoseRemoved (c : CardId) (s : State) : State :=
  eachOf (outputsOf c) (fun o t => setProving o (fun r => { r with state := .senseLost }) t) s

/-- A configured card become ONLINE: each of its outputs in SENSE_LOST goes to UNPROVED (R74). -/
def senseRegainCard (c : CardId) (s : State) : State :=
  eachOf (outputsOf c) (fun o t => if t.proving.outputs[o].state == .senseLost then setProving o unproved t else t) s

/-- A card that has entered TRIPPED: each of its outputs, in ascending order, goes to ISOLATED with its counts at 0 and is
recomposed as OFF (R75). -/
def isolateCard (c : CardId) (s : State) : State :=
  eachOf (outputsOf c)
    (fun o t =>
      stateChanged o t.proving.outputs[o].state
        (recompose (· == o) (modProof t o fun r => { r with state := .isolated, failing := 0, sense := 0 })))
    s

/-- A card that has left TRIPPED: each of its outputs goes to UNPROVED where the card is ONLINE, to SENSE_LOST where it is
SILENT; then they are recomposed from their group aspects (R75). A red that leaves ISOLATED so does not evaluate its
group, SENSE_LOST included: R77 evaluates at an entry to it by R73 or R74 alone. They leave in ascending order, with the
exposure and the conflict check at each, which decides the pair that CONFLICT names (log entry 70). -/
def releaseCard (c : CardId) (s : State) : State :=
  let s := eachOf (outputsOf c)
    (fun o t =>
      greenChanged o
        (modProof t o fun r => if t.line.cards[c].online then unproved r else { r with state := .senseLost }))
    s
  recompose (fun o => cardOf o == c) s

/-! ### The opening of an investigation (R95) -/

/-- The slot of the open investigation of an output. -/
def investigationOf (s : State) (o : OutputId) : Option InvSlot :=
  allInvSlots.find? fun i =>
    match s.cable.investigations[i] with
    | some v => v.x == o
    | none => false

/-- An investigation opened for an output that has entered LIT_UNWANTED (R95): in the lowest FREE slot; with all four
OPEN the detail of its UNWANTED_CURRENT record becomes not investigated; with one open already, nothing. -/
def openInvestigation (o : OutputId) (s : State) : State :=
  match investigationOf s o with
  | some _ => s
  | none =>
    match allInvSlots.find? fun i => s.cable.investigations[i].isNone with
    | some i =>
      setInvestigation s i
        (some
          { x := o, openTime := s.seq.clock, firstPending := true, meas := 0, lit := 0, dark := 0, consecutive := 0,
            candidates := [] })
    | none => redetail .unwantedCurrent (.output o) [0x8000] s

/-! ### Measurements (R69 to R72, R76) -/

/-- The lamp records of a used output at a PROVED_ON (R69). -/
def settleLampRecords (m : CoreMeas) (s : State) : State :=
  let x := Subject.output m.output
  let s := endFault .lampDark x s
  if m.dim then
    if faultActive s .lampDim x then s
    else
      post .lampDim x false
        (some (wordInt m.ip :: match s.engine.cores[m.output].ref with | some r => [wordInt r] | none => [])) s
  else endFault .lampDim x s

/-- The cable note of LAMP_DARK (R70, R207); behind open feeder before unmonitored where both hold (log entry 57). -/
def cableNote (m : CoreMeas) (s : State) : Word16 :=
  if m.openFeeder || s.cable.feeders[m.output].opened then 0
  else if m.qref.isSome then 1
  else 2

/-- An ON measurement with fail false (R69): the change of state with the exposure it brings, then the lamp records (log
entry 65). -/
def measuredLit (m : CoreMeas) (s : State) : State :=
  let s := setProving m.output (fun r => { r with state := .provedOn, failing := 0 }) s
  if (outRec s m.output).used then settleLampRecords m s else s

/-- An ON measurement with fail true (R70): the change of state with the exposure it brings, then the lamp record (log
entry 65). -/
def measuredDark (m : CoreMeas) (s : State) : State :=
  let r := s.proving.outputs[m.output]
  if r.failing + 1 < 2 then
    setProving m.output
      (fun r => { r with failing := r.failing + 1, state := if r.state == .failedDark then .failedDark else .unproved }) s
  else
    let s := setProving m.output (fun r => { r with failing := 2, state := .failedDark }) s
    if r.state != .failedDark && (outRec s m.output).used then
      post .lampDark (.output m.output) false (some [wordInt m.ip, cableNote m s]) s
    else s

/-- An OFF measurement with unwanted false (R71); with no investigation open for the output the condition of its
UNWANTED_CURRENT ends (log entry 20), before the change of state (log entry 65). -/
def measuredOff (m : CoreMeas) (s : State) : State :=
  let s := if (investigationOf s m.output).isNone then endFault .unwantedCurrent (.output m.output) s else s
  setProving m.output (fun r => { r with state := .provedOff, failing := 0 }) s

/-- An OFF measurement with unwanted true (R72): on entry UNWANTED_CURRENT is posted, an investigation opened, and the
entry reported, which in HANDED_OVER posts HANDOVER_UNPROVEN (R159); then the exposure follows (log entry 65). -/
def measuredUnwanted (m : CoreMeas) (s : State) : State :=
  let old := s.proving.outputs[m.output].state
  if old == .litUnwanted then modProof s m.output fun r => { r with failing := 0 }
  else
    let s := modProof s m.output fun r => { r with state := .litUnwanted, failing := 0, entryIp := m.ip }
    let s := openInvestigation m.output (post .unwantedCurrent (.output m.output) false (some [wordInt m.ip]) s)
    let s := if s.service.state == .handedOver then postUnproven m.output s else s
    stateChanged m.output old s

/-- The transition of a completed core measurement (R69 to R72) and the evaluation of its group (R76). An output that is
not in a measured state takes none (R74, R75; log entry 34). -/
def prove (m : CoreMeas) (s : State) : State :=
  if unmeasured s m.output then s
  else
    let s :=
      if m.applied then if m.fail then measuredDark m s else measuredLit m s
      else if m.unwanted then measuredUnwanted m s
      else measuredOff m s
    let r := outRec s m.output
    if r.used && r.colour == .red && redJudged s r.group then evalRed r.group s else s

end Sys2Proof.Machine
end

