-- ==== Sys2Proof/Machine/Cable.lean ====
section
/-! DEFINITION. The cable supervisor's operations (chapter 5): feeders, earth leakage, trips and their release, and cross
investigations. -/

namespace Sys2Proof.Machine

/-! ### Open feeders (R87, R88) -/

/-- An ON measurement taken by the feeder test (R87, R88). -/
def feederTest (m : CoreMeas) (s : State) : State :=
  let r := s.cable.feeders[m.output]
  if m.openFeeder then
    let n := min 2 (r.count + 1)
    if n = 2 && !r.opened then
      post .feederOpen (.output m.output) false
        (some (wordInt m.qf :: match m.qref with | some q => [wordInt q] | none => []))
        (modFeeder s m.output fun _ => { count := n, opened := true })
    else modFeeder s m.output fun r => { r with count := n }
  else
    let s := modFeeder s m.output fun _ => { count := 0, opened := false }
    if r.opened then endFault .feederOpen (.output m.output) s else s

/-! ### Earth leakage (R89) -/

/-- The alarm part of a leakage evaluation (R89). -/
def leakAlarmTest (c : CardId) (leak : Nat) (s : State) : State :=
  let r := s.cable.cards[c]
  let high := decide (s.line.cards[c].leakAlarm ≤ leak)
  if r.alarm then
    if high then modCable s c fun r => { r with clearRun := 0 }
    else if r.clearRun + 1 < 4 then modCable s c fun r => { r with clearRun := r.clearRun + 1 }
    else endFault .earthLeak (.card c) (modCable s c fun r => { r with alarm := false, clearRun := 0 })
  else if high then
    if r.alarmRun + 1 < 2 then modCable s c fun r => { r with alarmRun := r.alarmRun + 1 }
    else
      post .earthLeak (.card c) false (some [word leak])
        (modCable s c fun r => { r with alarm := true, alarmRun := 0, clearRun := 0 })
  else modCable s c fun r => { r with alarmRun := 0 }

/-! ### Trips (R90 to R94) -/

/-- Whether a trip taken now latches (R90): retry enable is no, or the watch timer is present. -/
def tripLatches (s : State) (c : CardId) : Bool := !s.line.cards[c].retryEnable || s.cable.cards[c].watchTimer.isSome

/-- A card trips (R90, R91). CARD_TRIP is posted before the outputs are isolated, with what that brings (log entry 71). -/
def trip (c : CardId) (leak : Nat) (s : State) : State :=
  let latch := tripLatches s c
  let s := modCable s c fun r =>
    { r with
      tripped := true
      tripRun := 0
      latched := latch
      retryTimer := if latch then none else some Config.retryUnits
      watchTimer := none }
  isolateCard c (post .cardTrip (.card c) latch (some [word leak, wordBool latch]) s)

/-- The trip part of a leakage evaluation (R90). -/
def leakTripTest (c : CardId) (leak : Nat) (s : State) : State :=
  let r := s.cable.cards[c]
  if r.tripped then s
  else if s.line.cards[c].leakTrip ≤ leak then
    if r.tripRun + 1 < 3 then modCable s c fun r => { r with tripRun := r.tripRun + 1 } else trip c leak s
  else modCable s c fun r => { r with tripRun := 0 }

/-- A residual measurement's leakage figure evaluated: L stored, the alarm first, then the trip (R89, R90). -/
def evaluateLeak (m : ResMeas) (s : State) : State :=
  leakTripTest m.card m.leak (leakAlarmTest m.card m.leak (modCable s m.card fun r => { r with lastL := some m.leak }))

/-- A trip ended by its retry or its release (R92, R94): CLEAR, the condition of CARD_TRIP ended, the watch timer started,
and the card's outputs leaving ISOLATED, last (log entry 70). -/
def endTrip (c : CardId) (s : State) : State :=
  let s := modCable s c fun r =>
    { r with tripped := false, latched := false, retryTimer := none, watchTimer := some Config.watchUnits }
  releaseCard c (endFault .cardTrip (.card c) s)

/-! ### Investigations (R96 to R102) -/

/-- The classes of another output in a window (R96). -/
inductive WindowClass where
  | onThroughout
  | offThroughout
  | mixed
  deriving DecidableEq, Repr

/-- An output's class from its applied-state history at a measurement's cycle numbers (R96). -/
def classOf (s : State) (cycles : List CycleNo) (o : OutputId) : WindowClass :=
  if cycles.all fun n => s.engine.cores[o].history[n] == some true then .onThroughout
  else if cycles.all fun n => s.engine.cores[o].history[n] == some false then .offThroughout
  else .mixed

/-- The other outputs of a window: those of every configured card, up to its configured core count, except X (R96). -/
def others (s : State) (x : OutputId) : List OutputId :=
  allOutputs.filter fun o =>
    o != x && s.line.cards[cardOf o].configured && decide (placeOf o < s.line.cards[cardOf o].coreCount)

/-- The verdicts of an investigation (R99, R100). -/
inductive Finding where
  | cross (y : OutputId)
  | stuck
  | transient
  | unclassified
  | ambiguous
  deriving DecidableEq, Repr

/-- The update of an investigation's fields by a window (R97, R98). A first window counts as lit also where it is dark (log
entry 74). A candidate that a lowered core count has taken out of
the other outputs stays listed and is classed from its own history (log entry 66). -/
def updateInvestigation (s : State) (m : CoreMeas) (v : Investigation) : Investigation :=
  if v.firstPending then
    { v with
      firstPending := false
      candidates := (others s v.x).filter fun o => classOf s m.cycles o != .offThroughout
      meas := 1
      lit := 1 }
  else if m.unwanted then
    { v with
      meas := v.meas + 1
      candidates := v.candidates.filter fun o => classOf s m.cycles o != .offThroughout
      lit := v.lit + 1
      consecutive := 0 }
  else
    { v with
      meas := v.meas + 1
      candidates := v.candidates.filter fun o => classOf s m.cycles o != .onThroughout
      dark := v.dark + 1
      consecutive := v.consecutive + 1 }

/-- Whether a lit window, or the first one, found every other output off throughout: STUCK_SWITCH at once (R97, R98), also
where the first one is dark (log entry 74). -/
def stuckWindow (s : State) (m : CoreMeas) (v : Investigation) : Bool :=
  (v.firstPending || m.unwanted) && (others s v.x).all fun o => classOf s m.cycles o == .offThroughout

/-- The verdict tests in their order, on the updated fields (R99). -/
def verdictTests (v : Investigation) : Option Finding :=
  match v.candidates with
  | [] => some .unclassified
  | y :: rest =>
    if rest.isEmpty && decide (1 ≤ v.dark) then some (.cross y)
    else if 8 ≤ v.consecutive then some .transient
    else if 64 ≤ v.meas then some .ambiguous
    else none

/-- The verdict's record (R100). -/
def postFinding (x : OutputId) (ip : Int) (v : Investigation) (d : Finding) (s : State) : State :=
  match d with
  | .cross y => post .cross (.output x) true (some [word (number y)]) s
  | .stuck => post .stuckSwitch (.output x) true (some [wordInt ip]) s
  | .transient => post .currentTransient (.output x) false (some [word v.meas]) s
  | .unclassified => post .crossUnresolved (.output x) false (some [0]) s
  | .ambiguous =>
    post .crossUnresolved (.output x) false (some (1 :: (v.candidates.take 8).map fun o => word (number o))) s

/-- Whether a CROSS between X and Y is a cause of handover (R101): X a used GREEN, Y used, their groups in conflict. -/
def crossConflicts (s : State) (x y : OutputId) : Bool :=
  (outRec s x).used && (outRec s x).colour == .green && (outRec s y).used &&
    conflict s (outRec s x).group (outRec s y).group

/-- An investigation closed by a verdict: its record, the end of UNWANTED_CURRENT, the slot FREE (R100); a CROSS on a
conflicting green is reported, and taken in STARTING and SERVICE (R101). -/
def closeInvestigation (i : InvSlot) (ip : Int) (v : Investigation) (d : Finding) (s : State) : State :=
  let s := setInvestigation (endFault .unwantedCurrent (.output v.x) (postFinding v.x ip v d s)) i none
  match d with
  | .cross y =>
    if crossConflicts s v.x y then handover .crossConflict [word (number v.x), word (number y)] s else s
  | _ => s

/-- An OFF measurement handed to the open investigation of its output as a window (R96 to R100). -/
def investigate (m : CoreMeas) (s : State) : State :=
  match investigationOf s m.output with
  | some i =>
    match s.cable.investigations[i] with
    | some v =>
      let w := updateInvestigation s m v
      match if stuckWindow s m v then some .stuck else verdictTests w with
      | some d => closeInvestigation i m.ip w d s
      | none => setInvestigation s i (some w)
    | none => s
  | none => s

/-! ### Delivery (R86) -/

/-- One core measurement of a delivery (R86). -/
def deliverCore (m : CoreMeas) (s : State) : State := if m.applied then feederTest m s else investigate m s

/-- The delivery of an exchange's measurements (R86): the cores in ascending order, as the cards were polled, then the
residual channels. While the mains state is LOST it carries nothing (log entry 25). -/
def deliver (s : State) : State :=
  let e := s.line.exchange
  let s := modExchange s fun e => { e with cores := [], residuals := [] }
  if s.line.mains.state == .valid then eachOf e.residuals evaluateLeak (eachOf e.cores deliverCore s) else s

/-! ### SERVICE RESTART and CARD SET (R103) -/

/-- A card's trip and leakage fields as SERVICE RESTART sets them: last L is kept (R103). -/
def cableCancelled (r : CableCard) : CableCard := { CableCard.initial with lastL := r.lastL }

/-- The supervisor at SERVICE RESTART (R103). -/
def cancelAll (s : State) : State :=
  { s with
    cable :=
      { cards := vgen fun c => cableCancelled s.cable.cards[c]
        feeders := Vector.replicate 64 { count := 0, opened := false }
        investigations := Vector.replicate 4 none } }

/-- An open investigation whose X lies on a card abandoned, or the card's outputs taken off its candidates (R103). -/
def dropFromSlot (c : CardId) (i : InvSlot) (s : State) : State :=
  match s.cable.investigations[i] with
  | some v =>
    if cardOf v.x == c then abandonSlot i s
    else setInvestigation s i (some { v with candidates := v.candidates.filter fun o => cardOf o != c })
  | none => s

/-- The supervisor at CARD SET present = no (R103). -/
def dropCard (c : CardId) (s : State) : State :=
  let s := modCable s c cableCancelled
  let s := endFault .cardTrip (.card c) (endFault .earthLeak (.card c) s)
  let s := eachOf (outputsOf c)
    (fun o t => endFault .feederOpen (.output o) (modFeeder t o fun _ => { count := 0, opened := false })) s
  eachOf allInvSlots (dropFromSlot c) s

end Sys2Proof.Machine
end

