-- ==== Sys2Proof/Machine/Measure.lean ====
section
/-! DEFINITION. The lamp measurement engine's operations (chapter 3): accumulation, figures, tests, handing on, learning,
missing windows and the applied-state history. -/

namespace Sys2Proof.Machine

/-- A WINDOW's contents after its kind and address (R209): its cycle number, its core count, the applied states and the
samples s0 to s7 of cores 1 to 8, and those of the residual channel. -/
structure Window where
  cycle : CycleNo
  coreCount : Nat
  applied : List Bool
  samples : List (List Int)
  residual : List Int
  deriving DecidableEq, Repr

/-! ### Accumulation (R50 to R53) -/

/-- A restart: settling, the count, the sums and the overrange flag; what is held is left to the window that follows
(R49). -/
def restartAccum {α : Type} (a : Accum α) : Accum α :=
  { a with settling := true, count := 0, sumA := 0, sumB := 0, overrange := false }

/-- The in-phase weights ws (R52). -/
def weightsIn : List Int := [0, 45, 64, 45, 0, -45, -64, -45]

/-- The quadrature weights wc (R52). -/
def weightsQuad : List Int := [64, 45, 0, -45, -64, -45, 0, 45]

/-- The sum of the products of samples and weights (R52). -/
def weigh (samples weights : List Int) : Int := (List.zipWith (· * ·) samples weights).foldl (· + ·) 0

/-- Whether a window saturates a sample (R54). -/
def saturates (samples : List Int) : Bool := samples.any fun x => x == -2048 || x == 2047

/-- Whether a window's cycle number does not follow the last taken one (R51). -/
def gapAt {α : Type} (a : Accum α) (n : CycleNo) : Bool :=
  match a.lastCycle with
  | some k => cycleNext k != n
  | none => true

/-- Steps 2 to 4 of R50 for one accumulation: the restart causes (R51, R58), what is held, and the settling or summing of
the samples (R52). -/
def takeSamples {α : Type} [BEq α] (a : Accum α) (applied : α) (n : CycleNo) (samples : List Int) : Accum α :=
  let a := if a.held != some applied || gapAt a n then restartAccum a else a
  let a := { a with held := some applied, lastCycle := some n }
  if a.settling then { a with settling := false }
  else
    { a with
      count := a.count + 1
      sumA := a.sumA + weigh samples weightsIn
      sumB := a.sumB + weigh samples weightsQuad
      overrange := a.overrange || saturates samples }

/-- An accumulation after its completion: a fresh four-cycle sum with no settling cycle (R53). -/
def completedAccum {α : Type} (a : Accum α) : Accum α := { a with count := 0, sumA := 0, sumB := 0, overrange := false }

/-- The figures of a completed accumulation, truncated toward zero (R53). -/
def figuresOf {α : Type} (a : Accum α) : Figures := { ip := a.sumA.tdiv 1024, qf := a.sumB.tdiv 1024 }

/-! ### Tests (R55, R56) -/

/-- The measurement of an output from its figures, with its tests taken on the active table's record and the references
held (R55, R56). -/
def measurementOf (s : State) (o : OutputId) (applied overrange : Bool) (f : Figures) (n : CycleNo) : CoreMeas :=
  let r := outRec s o
  let c := s.engine.cores[o]
  let below (ref : Option Int) (x : Int) (num : Nat) : Bool :=
    match ref with
    | some q => decide (x * 16 < q * num)
    | none => false
  let fail := applied && (decide (f.ip < r.minOn) || below c.ref f.ip r.failNum)
  { output := o
    applied := applied
    ip := f.ip
    qf := f.qf
    overrange := overrange
    cycles := [cycleBack n 3, cycleBack n 2, cycleBack n 1, n]
    fail := fail
    dim := applied && !fail && below c.ref f.ip r.dimNum
    unwanted := !applied && decide ((r.offLimit : Int) < f.ip)
    openFeeder := applied && below c.qref f.qf r.openNum
    reversed := applied && decide (f.ip ≤ -64)
    qref := c.qref }

/-! ### Learning (R59 to R61) -/

/-- Whether learning is frozen for an output (R61; log entry 38). -/
def learningFrozen (s : State) (o : OutputId) : Bool :=
  faultActive s .lampDark (.output o) || s.cable.feeders[o].opened || (investigationOf s o).isSome

/-- A reference moved one sixteenth of the way to a figure, truncated toward zero, or set to it (R59, R60). -/
def learn (ref : Option Int) (x : Int) : Option Int :=
  match ref with
  | none => some x
  | some r => some (r + (x - r).tdiv 16)

/-- An output offered to learning (R59, R60): QREF needs a QF of 16 or more. -/
def learnFrom (m : CoreMeas) (s : State) : State :=
  modCore s m.output fun c =>
    { c with ref := learn c.ref m.ip, qref := if 16 ≤ m.qf then learn c.qref m.qf else c.qref }

/-! ### Completion (R53, R54, R56, R57) -/

/-- The CURRENT_OVERRANGE record at a completion (R54). -/
def settleOverrange (x : Subject) (overrange : Bool) (ip : Int) (s : State) : State :=
  if overrange then post .currentOverrange x false (some [wordInt ip]) s else endFault .currentOverrange x s

/-- The SENSE_REVERSED record at a completed core measurement (R56). -/
def settleReversed (m : CoreMeas) (s : State) : State :=
  if m.reversed then post .senseReversed (.output m.output) false (some [wordInt m.ip]) s
  else if m.applied then endFault .senseReversed (.output m.output) s
  else s

/-- A completed core measurement (R53): figures stored, records settled, the measurement handed to the proving unit, then
offered to learning, and kept for the delivery (R57). CURRENT_OVERRANGE is settled before SENSE_REVERSED, and both before
what the proving unit posts (log entry 54). -/
def completeCore (o : OutputId) (applied : Bool) (n : CycleNo) (s : State) : State :=
  let a := s.engine.cores[o].acc
  let f := figuresOf a
  let m := measurementOf s o applied a.overrange f n
  let s := modCore s o fun c => { c with acc := completedAccum c.acc, figures := some f }
  let s := settleReversed m (settleOverrange (.output o) a.overrange f.ip s)
  let mayLearn :=
    applied && !m.fail && (outRec s o).used && !learningFrozen s o && !unmeasured s o
  let s := prove m s
  let s := if mayLearn then learnFrom m s else s
  modExchange s fun e => { e with cores := e.cores ++ [m] }

/-- A completed residual measurement (R58). -/
def completeResidualMeas (c : CardId) (s : State) : State :=
  let a := s.engine.residuals[c].acc
  let f := figuresOf a
  let s := modRes s c fun r => { acc := completedAccum r.acc, figures := some f }
  let s := settleOverrange (.card c) a.overrange f.ip s
  modExchange s fun e => { e with residuals := e.residuals ++ [{ card := c, leak := f.ip.natAbs }] }

/-! ### Windows (R50, R57, R58) -/

/-- A core's history entry set (R57). -/
def setHistory (o : OutputId) (n : CycleNo) (v : Option Bool) (s : State) : State :=
  modCore s o fun c => { c with history := c.history.set n v }

/-- A delivered core of a taken window (R50), with its sense count (R73) last (log entry 65). -/
def deliveredCore (o : OutputId) (applied : Bool) (sent : Option Bool) (n : CycleNo) (samples : List Int) (s : State) :
    State :=
  let changed := appliedChanges s o applied
  let s := storeApplied o applied (checkEcho o applied sent s)
  let s := setHistory o n (some applied) s
  let s := modCore s o fun c => { c with acc := takeSamples c.acc applied n samples }
  let completes := s.engine.cores[o].acc.count == 4
  let s := if completes then completeCore o applied n s else s
  countSense o (completes || changed) s

/-- A core of a card with no samples for a cycle: restarted, its history entry unknown (R50), its sense count raised
(R73). -/
def missingCore (o : OutputId) (n : CycleNo) (s : State) : State :=
  countSense o false (modCore (setHistory o n none s) o fun c => { c with acc := restartAccum c.acc })

/-- A card's residual channel in a taken window (R58). -/
def residualWindow (c : CardId) (applied : List Bool) (n : CycleNo) (samples : List Int) (s : State) : State :=
  let s := modRes s c fun r => { r with acc := takeSamples r.acc applied n samples }
  if s.engine.residuals[c].acc.count == 4 then completeResidualMeas c s else s

/-- How many cores of a card a window delivers: the lesser of its core count and the configured one (R37, R50). -/
def deliveredCount (s : State) (c : CardId) (w : Window) : Nat := min w.coreCount s.line.cards[c].coreCount

/-- The commanded state of an output in the sent pattern of a cycle number, where the list holds one (R67). -/
def sentState (s : State) (n : CycleNo) (o : OutputId) : Option Bool :=
  (s.line.patterns.find? (·.cycle == n)).map fun p => p.states[o]

/-- A window taken, handed to the engine (R50): the card's cores in ascending order, then its residual channel. The cores
it does not deliver stand in the same order, before the residual channel (log entry 55). -/
def takeWindow (c : CardId) (w : Window) (s : State) : State :=
  let k := deliveredCount s c w
  let s := eachOf (outputsOf c)
    (fun o t =>
      if placeOf o < k then
        deliveredCore o (w.applied.getD (placeOf o) false) (sentState s w.cycle o) w.cycle
          (w.samples.getD (placeOf o) []) t
      else missingCore o w.cycle t)
    s
  residualWindow c (w.applied.take k) w.cycle w.residual s

/-- A card's window of a cycle reported missing (R37, R45, R50, R57), its outputs in ascending order, which orders what
their entries to SENSE_LOST bring (R73; log entry 76). -/
def missingWindow (c : CardId) (n : CycleNo) (s : State) : State :=
  modRes (eachOf (outputsOf c) (fun o t => missingCore o n t) s) c fun r => { r with acc := restartAccum r.acc }

/-- Every accumulation restarted (R64). -/
def restartAll (s : State) : State :=
  { s with
    engine :=
      { cores := vgen fun o => { s.engine.cores[o] with acc := restartAccum s.engine.cores[o].acc }
        residuals := vgen fun c => { s.engine.residuals[c] with acc := restartAccum s.engine.residuals[c].acc } } }

/-- The accumulations of one card restarted (R64). -/
def restartCard (c : CardId) (s : State) : State :=
  modRes (eachOf (outputsOf c) (fun o t => modCore t o fun r => { r with acc := restartAccum r.acc }) s) c
    fun r => { r with acc := restartAccum r.acc }

/-- Every core's history entry for a cycle number made unknown, at a cycle start (R57). -/
def ageHistory (n : CycleNo) (s : State) : State :=
  { s with
    engine :=
      { s.engine with
        cores := vgen fun o => { s.engine.cores[o] with history := s.engine.cores[o].history.set n none } } }

/-- REF and QREF made absent for the outputs that meet a test (R18, R62). -/
def forget (p : OutputId → Bool) (s : State) : State :=
  { s with
    engine :=
      { s.engine with
        cores := vgen fun o => if p o then { s.engine.cores[o] with ref := none, qref := none } else s.engine.cores[o] } }

end Sys2Proof.Machine
end

