-- ==== Sys2Proof/Machine/CardLine.lean ====
section
/-! DEFINITION. The card line controller (chapter 2): the frames it sends and judges, cards and lines, the exchange, mains
cycles; and the meanings of its commands. -/

namespace Sys2Proof.Machine

/-! ### Frames (R30, R208, R209) -/

/-- The kinds of frames (R208, R209). -/
def kindSwitch : Byte := 0x1E
def kindPoll : Byte := 0x2D
def kindWindow : Byte := 0x3C

/-- A card's eight commanded states as one character: bit k−1 is core k (R208). -/
def cardChar (states : Vector Bool 64) (c : CardId) : Byte := BitVec.ofFnLE fun k : Fin 8 => states[outputAt c k]

/-- A SWITCH frame (R208). -/
def switchFrame (n : CycleNo) (states : Vector Bool 64) : List Byte :=
  withCrc ([kindSwitch, BitVec.ofNat 8 n.val] ++ allCards.map (cardChar states))

/-- A POLL frame (R208). -/
def pollFrame (c : CardId) : List Byte := withCrc [kindPoll, BitVec.ofNat 8 (number c)]

/-- The length a frame's kind calls for, for a WINDOW with its core count (R30, R209); none where it gives no length. -/
def lengthOf (chars : List Byte) : Option Nat :=
  match chars with
  | k :: rest =>
    if k == kindSwitch then some 12
    else if k == kindPoll then some 4
    else if k == kindWindow then
      match rest.drop 2 with
      | n :: _ => if 1 ≤ n.toNat ∧ n.toNat ≤ 8 then some (19 + 12 * n.toNat) else none
      | [] => none
    else none
  | [] => none

/-- Whether a received frame is well formed (R30). -/
def wellFormedFrame (rx : RxFrame) : Bool := rx.sound && lengthOf rx.chars == some rx.chars.length

/-- A 12-bit sample code, two's complement (R209). -/
def sampleOf (hi lo : Nat) : Int := (BitVec.ofNat 12 (hi + lo)).toInt

/-- The samples of a channel's 12 characters, two in each three (R209). -/
def samplesOf (chars : List Byte) : List Int :=
  (List.range 4).flatMap fun p =>
    let a := (chars.getD (3 * p) 0).toNat
    let b := (chars.getD (3 * p + 1) 0).toNat
    let c := (chars.getD (3 * p + 2) 0).toNat
    [sampleOf (16 * a) (b / 16), sampleOf (256 * (b % 16)) c]

/-- The contents of a WINDOW (R209). -/
def windowOf (chars : List Byte) (n : CycleNo) : Window :=
  let k := (chars.getD 3 0).toNat
  let channel (j : Nat) : List Int := samplesOf ((chars.drop (5 + 12 * j)).take 12)
  { cycle := n
    coreCount := k
    applied := (List.range 8).map fun j => (chars.getD 4 0).getLsbD j
    samples := (List.range k).map channel
    residual := channel k }

/-- The verdict on a received frame in a card's slot (R36, R209): the whole third character is compared with the cycle
number. -/
def judgeFrame (c : CardId) (expect : CycleNo) (rx : RxFrame) : Verdict :=
  let chars := rx.chars
  if wellFormedFrame rx && crcHolds chars && chars.getD 0 0 == kindWindow then
    if (chars.getD 1 0).toNat != number c then .mismatch (chars.getD 1 0)
    else if (chars.getD 2 0).toNat == expect.val then .good
    else .bad
  else .bad

/-! ### Cards (R39, R40) -/

/-- A good reply (R39): the third in a row makes a SILENT card ONLINE. -/
def goodReply (c : CardId) (s : State) : State :=
  let r := s.line.cards[c]
  if r.online then modCard s c fun r => { r with missing := 0, goodRun := 0 }
  else if r.goodRun + 1 < 3 then modCard s c fun r => { r with missing := 0, goodRun := r.goodRun + 1 }
  else
    senseRegainCard c
      (endFault .cardSilent (.card c) (modCard s c fun r => { r with missing := 0, goodRun := 0, online := true }))

/-- A cycle without a good reply (R39): the tenth in a row posts CARD_SILENT, and an ONLINE card becomes SILENT, its
outputs after the record (log entry 71). -/
def noReply (c : CardId) (s : State) : State :=
  let r := s.line.cards[c]
  let s := modCard s c fun r => { r with missing := min 255 (r.missing + 1), goodRun := 0 }
  if r.missing + 1 = 10 then
    let s := post .cardSilent (.card c) false none s
    if r.online then senseLoseCard c (modCard s c fun r => { r with online := false }) else s
  else s

/-- The address a slot's mismatching copy named, line A first (R40). -/
def mismatchNamed (a b : Verdict) : Option Byte :=
  match a, b with
  | .mismatch x, _ => some x
  | _, .mismatch x => some x
  | _, _ => none

/-- The card's address-mismatch flag and its record at a slot's close (R40). A window without a mismatch ends the record's
condition also where the flag is clear, as on a card added again after the slot of its removal posted one (log entry
26). -/
def settleMismatch (c : CardId) (a b : Verdict) (took : Bool) (s : State) : State :=
  let was := s.line.cards[c].mismatch
  match mismatchNamed a b with
  | some x =>
    let s := modCard s c fun r => { r with mismatch := true }
    if was then s else post .addressMismatch (.card c) false (some [word x.toNat]) s
  | none =>
    if took then endFault .addressMismatch (.card c) (modCard s c fun r => { r with mismatch := false }) else s

/-! ### Lines (R42 to R44) -/

/-- The classes of a copy (R42). -/
inductive CopyClass where
  | good
  | faulted
  | unclassed
  deriving DecidableEq, Repr

/-- Every faulted run of a line set to 0 (R43, R44). -/
def clearFaultedRuns (l : LineId) (s : State) : State :=
  { s with
    line :=
      { s.line with cards := vgen fun c => { s.line.cards[c] with faulted := s.line.cards[c].faulted.set l 0 } } }

/-- A line become JAMMED (R44, R43): from GOOD or DEGRADED LINE_JAMMED is posted and its runs return to 0; a DEGRADED
line's record ends after it (log entry 53). A JAMMED line stays and posts nothing. -/
def jam (l : LineId) (s : State) : State :=
  let was := (s.line.lines.get l).state
  if was == .jammed then s
  else
    let s := clearFaultedRuns l (modLine s l fun r => { r with state := .jammed, goodRun := 0 })
    let s := post .lineJammed (.line l) false none s
    if was == .degraded then endFault .lineDegraded (.line l) s else s

/-- A line's counts for one classed copy (R42). -/
def countCopy (l : LineId) (c : CardId) (k : CopyClass) (s : State) : State :=
  match k with
  | .good =>
    modCard (modLine s l fun r => { r with goodRun := min 64 (r.goodRun + 1) }) c
      fun r => { r with faulted := r.faulted.set l 0 }
  | .faulted =>
    modCard (modLine s l fun r => { r with errors := min 65535 (r.errors + 1), goodRun := 0 }) c
      fun r => { r with faulted := r.faulted.set l (min 16 (r.faulted.get l + 1)) }
  | .unclassed => s

/-- A line's state after its counts (R43, R44); recovered: its copy would have been good while it was JAMMED. -/
def settleLine (l : LineId) (recovered : Bool) (s : State) : State :=
  let r := s.line.lines.get l
  match r.state with
  | .good =>
    if allCards.any fun c => s.line.cards[c].faulted.get l == 16 then
      post .lineDegraded (.line l) false none (modLine s l fun r => { r with state := .degraded, goodRun := 0 })
    else s
  | .degraded =>
    if r.goodRun == 64 then
      endFault .lineDegraded (.line l) (clearFaultedRuns l (modLine s l fun r => { r with state := .good }))
    else s
  | .jammed =>
    if recovered then
      endFault .lineJammed (.line l) (clearFaultedRuns l (modLine s l fun r => { r with state := .good }))
    else s

/-! ### Slots (R35 to R37, R44) -/

/-- The open slot, changed. -/
def modSlot (s : State) (f : Slot → Slot) : State := modExchange s fun e => { e with slot := e.slot.map f }

/-- A line's copy given a verdict where it has none yet. -/
def giveVerdict (l : LineId) (v : Verdict) (x : Slot) : Slot :=
  match x.verdict.get l with
  | some _ => x
  | none => { x with verdict := x.verdict.set l (some v) }

/-- A line's verdict at the close (R35, R36, R44): a copy still arriving is bad; on a JAMMED line every copy is missing. -/
def finalVerdict (s : State) (x : Slot) (l : LineId) : Verdict :=
  if (s.line.lines.get l).state == .jammed then .missing
  else
    match x.verdict.get l with
    | some v => v
    | none => .bad

/-- Whether a line's copy is classed good: its verdict is good, or it is the copy that returns a JAMMED line to GOOD
(R42, R44). -/
def classedGood (s : State) (x : Slot) (l : LineId) : Bool :=
  finalVerdict s x l == .good || ((s.line.lines.get l).state == .jammed && x.recovered.get l)

/-- A line's copy classed at the close (R42). -/
def classCopy (s : State) (x : Slot) (l : LineId) : CopyClass :=
  if classedGood s x l then .good
  else if classedGood s x (otherLine l) then .faulted
  else .unclassed

/-- A card's window reported missing to the engine in VALID (R37, R45). -/
def notifyMissing (c : CardId) (n : CycleNo) (s : State) : State :=
  if s.line.mains.state == .valid then missingWindow c n s else s

/-- A window taken from a good copy (R37): handed on in VALID, and the card's last cycle number set. -/
def acceptWindow (x : Slot) (w : Window) (s : State) : State :=
  let s := modSlot s fun x => { x with took := true }
  let s := if s.line.mains.state == .valid then takeWindow x.card w s else s
  modCard s x.card fun r => { r with lastCycle := some x.expect }

/-- The bookkeeping of a slot's close (R35): card state, mismatch flag, lines A then B, then a missing window's notice
(R37; log entry 28). Only here does a slot become the card's most recent one (R48; log entry 52). -/
def closeSlot (x : Slot) (s : State) : State :=
  let a := finalVerdict s x .a
  let b := finalVerdict s x .b
  let ka := classCopy s x .a
  let kb := classCopy s x .b
  let ra := (s.line.lines.get .a).state == .jammed && x.recovered.get .a
  let rb := (s.line.lines.get .b).state == .jammed && x.recovered.get .b
  let s := modCard s x.card fun r => { r with lastSlotTook := x.took }
  let s := if x.took then goodReply x.card s else noReply x.card s
  let s := settleMismatch x.card a b x.took s
  let s := settleLine .a ra (countCopy .a x.card ka s)
  let s := settleLine .b rb (countCopy .b x.card kb s)
  let s := if x.took then s else notifyMissing x.card x.expect s
  modExchange s fun e => { e with slot := none }

/-- The exchange ended, with its delivery (R35, R57). -/
def endExchange (s : State) : State := deliver (modExchange s fun e => { e with running := false })

/-- The exchange ended where its SWITCH is sent and no card is left to poll (R35). -/
def endIfDone (s : State) : State :=
  let e := s.line.exchange
  if e.running && e.switchSent && e.toPoll.isEmpty && e.slot.isNone then endExchange s else s

/-! ### Mains (R26 to R29) -/

/-- The mains state become LOST (R28): handover MAINS_LOST with the last measured period (log entry 13), accumulations
discarded (R64), sense counts 0 (R82), the in-range count 0, the pace timer started. -/
def loseMains (s : State) : State :=
  let s := modMains s fun m => { m with state := .lost, inRun := 0, pace := true }
  let s := handover .mainsLost [word (min 65535 (s.line.mains.lastPeriod / 8))] s
  let s := restartAll s
  { s with
    proving := { s.proving with outputs := vgen fun o => { s.proving.outputs[o] with sense := 0 } } }

/-- The mains state become VALID (R29). -/
def regainMains (s : State) : State := modMains s fun m => { m with state := .valid, pace := false, outRun := 0 }

/-- A cycle start that finds the old cycle's exchange running cuts it short (R45): the cards not yet polled have no good
reply and no window, card after card in ascending order, each card's reply counted before its missing-window notice (log
entry 62); an open slot runs on as a slot of the old cycle. -/
def cutShort (s : State) : State :=
  let e := s.line.exchange
  let old := cycleBack s.line.mains.c 1
  if e.running then
    let s := eachOf (e.toPoll.filter fun c => s.line.cards[c].configured)
      (fun c t => notifyMissing c old (noReply c t)) s
    let s := modSlot s fun x => { x with old := true }
    if s.line.exchange.slot.isNone then deliver s else s
  else s

/-- A cycle start (R27, R45, R57): the old exchange cut short, the counter advanced, the history aged, and the new
exchange begun over the configured cards. -/
def cycleStart (s : State) : State :=
  let s := cutShort s
  let s := modMains s fun m => { m with c := cycleNext m.c }
  let s := ageHistory (cycleBack s.line.mains.c 1) s
  modExchange s fun e =>
    { e with running := true, switchSent := false, toPoll := allCards.filter fun c => s.line.cards[c].configured }

/-! ### Commands -/

/-- A recognised crossing's period counted (R26, R28, R29): the counts, then the states they bring. -/
def countPeriod (period : Nat) (s : State) : State :=
  if Config.periodMin ≤ period ∧ period ≤ Config.periodMax then
    let s := modMains s fun m => { m with lastPeriod := period, outRun := 0, inRun := min 8 (m.inRun + 1) }
    if s.line.mains.state == .lost && s.line.mains.inRun == 8 then regainMains s else s
  else
    let s := modMains s fun m => { m with lastPeriod := period, outRun := min 3 (m.outRun + 1), inRun := 0 }
    if s.line.mains.state == .valid && s.line.mains.outRun == 3 then loseMains s else s

/-- A recognised crossing (R26 to R29): the first since reset measures no period; in VALID it is a cycle start where at
least 8 ms have passed since the previous one. -/
def crossing (period since : Nat) (s : State) : State :=
  if s.line.mains.crossed then
    if period < Config.blindTicks then s
    else
      let s := countPeriod period s
      if s.line.mains.state == .valid && decide (Config.blindTicks ≤ since) then cycleStart s else s
  else modMains s fun m => { m with crossed := true }

/-- MAINS_CROSSING (R26). -/
def execMainsCrossing (period since : Nat) (s : State) : Host.Outcome State Fault Refusal :=
  .next (crossing period since s)

/-- MAINS_TIMEOUT: 25 ms without a recognised crossing (R28); in LOST it changes nothing. -/
def execMainsTimeout (s : State) : Host.Outcome State Fault Refusal :=
  .next (if s.line.mains.state == .valid then loseMains s else s)

/-- PACE_TIMER_EXPIRY: a cycle start while the pace timer runs (R27, R29). -/
def execPaceTimerExpiry (s : State) : Host.Outcome State Fault Refusal :=
  .next (if s.line.mains.pace then cycleStart s else s)

/-- A frame put on every line that is not JAMMED (R32). -/
def sendFrame (chars : List Byte) (s : State) : State :=
  let put (l : LineId) (s : State) : State :=
    if (s.line.lines.get l).state == .jammed then s else modLine s l fun r => { r with sent := chars }
  put .b (put .a s)

/-- The states a SWITCH carries (R208): the commanded states, with every core of an unconfigured card OFF (log
entry 49). -/
def carriedStates (s : State) : Vector Bool 64 :=
  vgen fun o => s.line.cards[cardOf o].configured && s.proving.outputs[o].commanded

/-- The SWITCH of the running cycle sent (R33): the carried states of this moment with cycle number c+1, listed among the
three newest patterns. A cycle with no card to poll ends with it (R35). -/
def sendSwitch (s : State) : State :=
  let n := cycleNext s.line.mains.c
  let states := carriedStates s
  let s := sendFrame (switchFrame n states) s
  let s := { s with line := { s.line with patterns := { cycle := n, states := states } :: s.line.patterns.take 2 } }
  endIfDone (modExchange s fun e => { e with switchSent := true })

/-- SWITCH (R33): once in a running exchange, with no slot of the old cycle open. -/
def execSwitch (s : State) : Host.Outcome State Fault Refusal :=
  let e := s.line.exchange
  .next (if e.running && !e.switchSent && e.slot.isNone then sendSwitch s else s)

/-- A POLL sent and its slot opened (R35); on a JAMMED line the POLL is not sent and the copy is missing (R36). -/
def openSlot (c : CardId) (rest : List CardId) (s : State) : State :=
  let start (l : LineId) : Option Verdict := if (s.line.lines.get l).state == .jammed then some .missing else none
  let slot : Slot :=
    { card := c, expect := cycleBack s.line.mains.c 1, verdict := ⟨start .a, start .b⟩, recovered := ⟨false, false⟩,
      took := false, old := false }
  modExchange (sendFrame (pollFrame c) s) fun e => { e with toPoll := rest, slot := some slot }

/-- POLL: the next configured card's slot, after the SWITCH and the close of the slot before (R35). -/
def execPoll (s : State) : Host.Outcome State Fault Refusal :=
  let e := s.line.exchange
  .next
    (if e.running && e.switchSent && e.slot.isNone then
      match e.toPoll with
      | c :: rest => openSlot c rest s
      | [] => s
    else s)

/-- A frame received on a line in the open slot (R36, R37, R44). On a JAMMED line every frame of the slot is judged, and a
bad one keeps no later good one from returning the line to GOOD (log entry 63). -/
def receiveFrame (l : LineId) (rx : RxFrame) (x : Slot) (s : State) : State :=
  let v := judgeFrame x.card x.expect rx
  if (s.line.lines.get l).state == .jammed then
    if v == .good then modSlot s fun x => { x with recovered := x.recovered.set l true } else s
  else
    match x.verdict.get l with
    | some _ => s
    | none =>
      let s := modSlot s (giveVerdict l v)
      if v == .good && !x.took then acceptWindow x (windowOf rx.chars x.expect) s else s

/-- WINDOW: a frame received on a line, judged in the open slot; outside a slot it is discarded (R30, R36). -/
def execWindow (l : LineId) (rx : RxFrame) (s : State) : Host.Outcome State Fault Refusal :=
  .next
    (match s.line.exchange.slot with
    | some x => receiveFrame l rx x s
    | none => s)

/-- REPLY_ALLOWANCE_END: no start bit on a line within 30 µs of the POLL, so its copy is missing (R36). -/
def execReplyAllowanceEnd (l : LineId) (s : State) : Host.Outcome State Fault Refusal :=
  .next (modSlot s (giveVerdict l .missing))

/-- POLL_SLOT_CLOSE (R35): the slot's bookkeeping, then the end of the exchange where its last slot has closed; a slot of
the old cycle ends the old exchange (R45). -/
def execPollSlotClose (s : State) : Host.Outcome State Fault Refusal :=
  .next
    (match s.line.exchange.slot with
    | some x => if x.old then deliver (closeSlot x s) else endIfDone (closeSlot x s)
    | none => s)

/-- A line jammed, and the copy it was to bring in an open slot missing (R36, R44; log entry 27). The line's record keeps
the whole of its last frame, the stopped one included (log entry 33). -/
def jamLine (l : LineId) (s : State) : State := modSlot (jam l s) (giveVerdict l .missing)

/-- FRAME_STOP: a frame stopped 1.2 ms after its start makes its line JAMMED (R32, R44). -/
def execFrameStop (l : LineId) (s : State) : Host.Outcome State Fault Refusal := .next (jamLine l s)

/-- LINE_JAM: a line active for more than 2 ms becomes JAMMED (R44). -/
def execLineJam (l : LineId) (s : State) : Host.Outcome State Fault Refusal := .next (jamLine l s)

end Sys2Proof.Machine
end

