-- ==== Sys2Proof/Machine/Link.lean ====
section
/-! DEFINITION. The link ports (chapter 11): taking a good frame, composing the response, discarding a frame, and the
reads through the port's snapshot. -/

namespace Sys2Proof.Machine

/-- What an owning block answers a request with: a result, a value, and the state after its handling (R202). -/
structure Answer where
  result : Result
  value : Word16
  state : State
  deriving DecidableEq, Repr

/-- DONE with a value. -/
def done (v : Word16) (s : State) : Answer := { result := .done, value := v, state := s }

/-- A refusal with a value; nothing changes. -/
def refuse (r : Result) (v : Word16) (s : State) : Answer := { result := r, value := v, state := s }


/-- The summary byte of a link (R202); frameError: the flag it shows. -/
def summaryOf (l : Link) (frameError : Bool) (s : State) : Byte :=
  BitVec.ofNat 8
    (64 * stateCode s.service.state + 32 * (attentionDue s.faults l).toNat + 16 * s.faults.overflow.toNat +
      8 * frameError.toNat + 4 * s.service.offer.isSome.toNat)

/-- The frame taken into a port's receiver at the release of select (R199, R200). -/
def receive (l : Link) (code : Byte) (f : Fields) (s : State) : State :=
  modPort s l fun p => { p with receiver := { clocks := 40, bits := frameBits code f } }

/-- The response to a good frame composed as the new pending response, with the frame-error flag shown and then cleared
(R201, R202). -/
def compose (l : Link) (code : Byte) (a : Answer) : State :=
  modPort a.state l fun p =>
    { p with
      response := { result := a.result, summary := summaryOf l p.frameError a.state, code := code, value := a.value }
      frameError := false }

/-- A good frame: the link's right to the code, the owning block's handling, and the response (R200, R203). -/
def takeRequest (l : Link) (code : Byte) (f : Fields) (handle : State → Answer) (s : State) : State :=
  let s := receive l code f s
  compose l code (if granted l code then handle s else refuse .refusedRight 0 s)

/-- A frame of a clock count other than 40: its bits are not decoded, and FRAME_ERROR becomes pending (R201). -/
def discard (l : Link) (clocks : Nat) (s : State) : State :=
  modPort s l fun p =>
    { p with
      receiver := { p.receiver with clocks := clocks }
      response :=
        { result := .frameError, summary := summaryOf l true s, code := 0, value := word (min 65535 clocks) }
      frameError := true }

/-! ### Reads (R206) -/

/-- A port's read snapshot, replaced. -/
def setSnapshot (l : Link) (x : Option Snapshot) (s : State) : State := modPort s l fun p => { p with snapshot := x }

/-- A word above 0 of an item, from the snapshot if it holds the same code, subject and index (R206). -/
def snapshotWord (l : Link) (code : Byte) (f : Fields) (s : State) : Option Word16 :=
  match (s.ports.get l).snapshot with
  | some x =>
    if x.code == code && x.subject == f.subject && x.index == f.index then x.words[f.value.toNat]? else none
  | none => none

/-- A read request (R206): item answers the words of the item that subject and index name, none where they name none.
Word 0 takes the snapshot; a word above 0 comes from it. A word refused for want of a snapshot is BAD_SUBJECT where
the subject or index names no item, else BAD_VALUE (log entry 10). -/
def readItem (l : Link) (code : Byte) (f : Fields) (item : State → Option (List Word16)) (s : State) : Answer :=
  if f.value == 0 then
    match item s with
    | some words =>
      done (words.headD 0)
        (setSnapshot l (some { code := code, subject := f.subject, index := f.index, words := words }) s)
    | none => refuse .badSubject 0 s
  else
    match snapshotWord l code f s with
    | some w => done w s
    | none =>
      match item s with
      | some _ => refuse .badValue 0 s
      | none => refuse .badSubject 0 s

/-! ### Commands of the ports -/

/-- NOP: no action; DONE with value 0 (R200). -/
def execNop (l : Link) (f : Fields) (s : State) : Host.Outcome State Fault Refusal :=
  .next (takeRequest l 0x00 f (done 0) s)

/-- DISCARDED_FRAME (R201). A count of 40 is a good frame, which is another row's command (log entry 8). -/
def execDiscardedFrame (l : Link) (clocks : Nat) (s : State) : Host.Outcome State Fault Refusal :=
  if clocks = 40 then .refused .notThisRow else .next (discard l clocks s)

/-- UNKNOWN_REQUEST: REFUSED_RIGHT, and no block sees the request (R203). A code the link has the right to is another
row's command (log entry 8). -/
def execUnknownRequest (l : Link) (code : Byte) (f : Fields) (s : State) : Host.Outcome State Fault Refusal :=
  if granted l code then .refused .notThisRow else .next (takeRequest l code f (refuse .refusedRight 0) s)

end Sys2Proof.Machine
end

