-- ==== Sys2Proof/Machine/Lamps.lean ====
section
/-! DEFINITION. The commands of cards, lamps and cables: CARD SET, RELEARN, the retry and watch timers' expiries, READ CARD,
READ LINE, READ OUTPUT, READ GROUP and READ INVESTIGATION. -/

namespace Sys2Proof.Machine

/-! ### CARD SET (R46) -/

/-- present = yes on a card not configured: configured, SILENT, its counts, runs and flag at their power-on values (R46). Its
poll slots before a removal are forgotten, so none of them is its most recent one (log entry 52). -/
def addCard (c : CardId) (s : State) : State :=
  modCard s c fun r =>
    { r with
      configured := true, online := false, lastCycle := none, missing := 0, goodRun := 0, mismatch := false,
      faulted := ⟨0, 0⟩, lastSlotTook := false }

/-- present = no on a configured card: its record as at power-on but for what CARD SET writes, its conditions ended
(R46), its accumulations restarted (R64), its cable fields cancelled (R103), its outputs in SENSE_LOST (R82). The
conditions of the blocks end in the order written here, which the spec leaves open (log entry 56). -/
def removeCard (c : CardId) (s : State) : State :=
  let s := modCard s c fun r =>
    { r with
      configured := false, online := false, lastCycle := none, missing := 0, goodRun := 0, mismatch := false,
      faulted := ⟨0, 0⟩, lastSlotTook := false }
  let s := endFault .addressMismatch (.card c) (endFault .cardSilent (.card c) s)
  senseLoseRemoved c (dropCard c (restartCard c s))

/-- present written (R46): the value it already holds changes nothing. -/
def setPresent (c : CardId) (b : Bool) (s : State) : State :=
  if s.line.cards[c].configured == b then s
  else if b then addCard c s
  else removeCard c s

/-- A field of a card record changed where the value is in its range, else BAD_VALUE (R46). -/
def setCardField {α : Type} (c : CardId) (v : Option α) (f : α → CardRec → CardRec) (s : State) : Answer :=
  match v with
  | some a => done 0 (modCard s c (f a))
  | none => refuse .badValue 0 s

/-- CARD SET (R46, R205). -/
def cardSetOp (f : Fields) (s : State) : Answer :=
  if s.service.state != .handedOver then refuse .refusedState 0 s
  else
    match subjectCard f.subject with
    | none => refuse .badSubject 0 s
    | some c =>
      let r := s.line.cards[c]
      match f.index.toNat with
      | 0 =>
        match valueBool f.value with
        | some b => done 0 (setPresent c b s)
        | none => refuse .badValue 0 s
      | 1 => setCardField c (valueIn 1 8 f.value) (fun n r => { r with coreCount := n }) s
      | 2 => setCardField c (valueIn 8 (min 1000 (r.leakTrip - 1)) f.value) (fun n r => { r with leakAlarm := n }) s
      | 3 => setCardField c (valueIn (max 9 (r.leakAlarm + 1)) 2000 f.value) (fun n r => { r with leakTrip := n }) s
      | 4 => setCardField c (valueBool f.value) (fun b r => { r with retryEnable := b }) s
      | 5 => setCardField c (valueIn 10 50 f.value) (fun n r => { r with senseTimeout := n }) s
      | _ => refuse .badSubject 0 s

/-- CARD_SET (R46). -/
def execCardSet (l : Link) (f : Fields) (s : State) : Host.Outcome State Fault Refusal :=
  .next (takeRequest l 0x18 f (cardSetOp f) s)

/-! ### RELEARN (R62) and the trip timers (R92, R93) -/

/-- RELEARN (R62): REF and QREF of one output, or of all, absent. -/
def relearnOp (f : Fields) (s : State) : Answer :=
  if f.subject == 0xFF then done 0 (forget (fun _ => true) s)
  else
    match subjectOutput f.subject with
    | some o => done 0 (forget (· == o) s)
    | none => refuse .badSubject 0 s

/-- RELEARN (R62). -/
def execRelearn (l : Link) (f : Fields) (s : State) : Host.Outcome State Fault Refusal :=
  .next (takeRequest l 0x48 f (relearnOp f) s)

/-- RETRY_TIMER_EXPIRY (R92), taken once the card's retry timer stands at 0 (log entry 2). -/
def execRetryTimerExpiry (c : CardId) (s : State) : Host.Outcome State Fault Refusal :=
  .next (if s.cable.cards[c].retryTimer == some 0 then endTrip c s else s)

/-- WATCH_TIMER_EXPIRY (R93), taken once the card's watch timer stands at 0 (log entry 2). -/
def execWatchTimerExpiry (c : CardId) (s : State) : Host.Outcome State Fault Refusal :=
  .next (if s.cable.cards[c].watchTimer == some 0 then modCable s c fun r => { r with watchTimer := none } else s)

/-! ### Reading (R47, R63, R83, R104; log entry 11) -/

/-- The items of READ CARD (R47, R104). -/
def cardItem (f : Fields) (s : State) : Option (List Word16) :=
  match subjectCard f.subject with
  | none => none
  | some c =>
    let r := s.line.cards[c]
    let t := s.cable.cards[c]
    match f.index.toNat with
    | 0 =>
      some
        [wordBool r.configured, word r.coreCount, word r.leakAlarm, word r.leakTrip, wordBool r.retryEnable,
         word r.senseTimeout]
    | 1 =>
      some
        [wordBool (!r.online), wordBool r.mismatch, wordBool t.tripped, wordBool t.latched, wordOpt t.retryTimer,
         wordOpt t.watchTimer, wordBool t.alarm, word t.alarmRun, word t.clearRun, word t.tripRun, wordOpt t.lastL]
    | 2 => some [word r.missing, word r.goodRun, word r.faulted.a, word r.faulted.b]
    | 3 => some [wordOpt (r.lastCycle.map (·.val))]
    | _ => none

/-- READ_CARD (R47). -/
def execReadCard (l : Link) (f : Fields) (s : State) : Host.Outcome State Fault Refusal :=
  .next (takeRequest l 0x83 f (readItem l 0x83 f (cardItem f)) s)

/-- The words of a line (R47). -/
def lineWords (r : LineRec) : List Word16 :=
  [match r.state with | .good => 0 | .degraded => 1 | .jammed => 2, word r.errors, word r.goodRun]

/-- The items of READ LINE (R47): the mains period in whole microseconds, no higher than 65,535. -/
def lineItem (f : Fields) (s : State) : Option (List Word16) :=
  let m := s.line.mains
  match f.subject.toNat, f.index.toNat with
  | 1, 0 => some (lineWords s.line.lines.a)
  | 2, 0 => some (lineWords s.line.lines.b)
  | 3, 0 =>
    some
      [match m.state with | .valid => 0 | .lost => 1, word m.c.val, word m.outRun, word m.inRun,
       word (min 65535 (m.lastPeriod / 8))]
  | _, _ => none

/-- READ_LINE (R47). -/
def execReadLine (l : Link) (f : Fields) (s : State) : Host.Outcome State Fault Refusal :=
  .next (takeRequest l 0x84 f (readItem l 0x84 f (lineItem f)) s)

/-- The first six words of MEASUREMENT, for a core or a residual channel (R63): one flag word stands for the pair of the
last IP and QF, which are absent together (log entry 11). -/
def measurementWords {α : Type} (a : Accum α) (figures : Option Figures) : List Word16 :=
  (match figures with
    | some g => [1, wordInt g.ip, wordInt g.qf]
    | none => [0, 0, 0]) ++
    [wordBool a.settling, word a.count, wordBool a.overrange]

/-- A reference that may be absent, which is never 0xFFFF (R59, R60, R207). -/
def wordRef (r : Option Int) : Word16 :=
  match r with
  | some n => wordInt n
  | none => wordAbsent

/-- Continuity by its place in R63: monitored 0, unmonitored 1. -/
def wordContinuity (s : State) (o : OutputId) : Word16 := wordBool s.engine.cores[o].qref.isNone

/-- A proving state by its place in R65 (R207). -/
def provingCode (p : ProvingState) : Nat := p.ctorIdx

/-- A red status by its place in R65 (R207). -/
def redCode (r : RedStatus) : Nat := r.ctorIdx

/-- The items of READ OUTPUT for an output (R63, R83, R104). -/
def outputItem (o : OutputId) (index : Nat) (s : State) : Option (List Word16) :=
  let p := s.proving.outputs[o]
  let c := s.engine.cores[o]
  let r := outRec s o
  match index with
  | 0 => some [wordBool p.commanded, wordOpt (p.applied.map (·.toNat)), wordBool p.echo]
  | 1 =>
    some [word (provingCode p.state), word p.failing, word p.sense, word s.line.cards[cardOf o].senseTimeout]
  | 2 => some (measurementWords c.acc c.figures ++ [wordRef c.ref, wordRef c.qref, wordContinuity s o])
  | 3 =>
    let d := s.cable.feeders[o]
    some
      [wordBool d.opened, word d.count, wordContinuity s o,
       wordOpt ((investigationOf s o).map (·.val))]
  | 4 =>
    some
      [wordBool r.used, word (number r.group), word (colourByte r.colour), word r.minOn, word r.offLimit,
       word r.failNum, word r.dimNum, word r.openNum]
  | _ => none

/-- The items of READ OUTPUT: a residual channel has MEASUREMENT alone (R83). -/
def readOutputItem (f : Fields) (s : State) : Option (List Word16) :=
  match subjectOutput f.subject, subjectResidual f.subject with
  | some o, _ => outputItem o f.index.toNat s
  | none, some c =>
    if f.index == 2 then some (measurementWords s.engine.residuals[c].acc s.engine.residuals[c].figures) else none
  | none, none => none

/-- READ_OUTPUT (R63, R83, R104). -/
def execReadOutput (l : Link) (f : Fields) (s : State) : Host.Outcome State Fault Refusal :=
  .next (takeRequest l 0x82 f (readItem l 0x82 f (readOutputItem f)) s)

/-- The items of READ GROUP (R83). An exposure is coded true 1 and false 0 (log entry 11). -/
def groupItem (f : Fields) (s : State) : Option (List Word16) :=
  match subject16 f.subject with
  | none => none
  | some g =>
    let p := s.proving.groups[g]
    let r := groupRec s g
    match f.index.toNat with
    | 0 =>
      some
        [word (redCode p.red), wordBool p.exposed, word (redCount s g), word (redDark s g), word (redProved s g)]
    | 1 =>
      some
        [wordBool r.defined, word (kindByte r.kind), word r.amber, word r.redAmber, word r.blackout,
         word r.minGreenFloor]
    | 2 => some [(activeTable s).conflicts[g]]
    | 3 => some (all16.map fun h => word (activeTable s).intergreens[g][h])
    | _ => none

/-- READ_GROUP (R83). -/
def execReadGroup (l : Link) (f : Fields) (s : State) : Host.Outcome State Fault Refusal :=
  .next (takeRequest l 0x81 f (readItem l 0x81 f (groupItem f)) s)

/-- The items of READ INVESTIGATION for an OPEN slot (R104). -/
def openItem (v : Investigation) (index : Nat) : Option (List Word16) :=
  if index = 0 then
    some
      ([1, word (number v.x)] ++ wordsTime v.openTime ++
        [wordBool v.firstPending, word v.meas, word v.lit, word v.dark, word v.consecutive])
  else if index = 1 then some [word v.candidates.length]
  else if 0x20 < index then some [wordOpt (v.candidates[index - 0x21]?.map number)]
  else none

/-- The items of READ INVESTIGATION (R104): a FREE slot returns FREE with no other field. -/
def investigationItem (f : Fields) (s : State) : Option (List Word16) :=
  match zeroBased 4 f.subject.toNat with
  | none => none
  | some i =>
    match s.cable.investigations[i] with
    | some v => openItem v f.index.toNat
    | none => if f.index.toNat ≤ 1 ∨ 0x20 < f.index.toNat then some [0] else none

/-- READ_INVESTIGATION (R104). -/
def execReadInvestigation (l : Link) (f : Fields) (s : State) : Host.Outcome State Fault Refusal :=
  .next (takeRequest l 0x8C f (readItem l 0x8C f (investigationItem f)) s)

end Sys2Proof.Machine
end

