-- ==== Sys2Proof/Machine/Plans.lean ====
section
/-! DEFINITION. The plan memory (chapter 6): SET LAYOUT, PLAN WRITE, PLAN CLOSE, PLAN ERASE, START PLAN, SELECT PLAN and
READ PLAN. -/

namespace Sys2Proof.Machine

/-- The plan a number names under the layout's count (R105). -/
def planNamed (s : State) (n : Nat) : Option PlanId :=
  if n ≤ planCount s.plans.layout then oneBased 16 n else none

/-- Whether a plan is the active plan or the pending plan (R108, R111). -/
def planInUse (s : State) (p : PlanId) : Bool :=
  s.plans.active == some p || (match s.plans.pending with | some q => q.plan == p | none => false)

/-- A plan state by its place in R106 (R207). -/
def planStateCode (x : PlanState) : Nat :=
  match x with
  | .empty => 0
  | .opened => 1
  | .ready => 2

/-! ### SET LAYOUT (R115) -/

/-- SET LAYOUT (R115): every plan empty, no start plan. -/
def setLayoutOp (f : Fields) (s : State) : Answer :=
  if s.service.state != .handedOver then refuse .refusedState 0 s
  else
    match valueLayout f.value with
    | none => refuse .badValue 0 s
    | some x =>
      done 0 (modPlans s fun m => { m with layout := x, plans := Vector.replicate 16 Plan.empty, start := none })

/-- SET_LAYOUT (R115). -/
def execSetLayout (l : Link) (f : Fields) (s : State) : Host.Outcome State Fault Refusal :=
  .next (takeRequest l 0x20 f (setLayoutOp f) s)

/-! ### PLAN WRITE (R108) -/

/-- A stage field's value: absent 0, or S1 to S16 (R108, R205). -/
def valueStage (v : Word16) : Option (Option StageId) :=
  if v == 0 then some none else (oneBased 16 v.toNat).map some

/-- A force-off field's value: absent 0xFFFF, or a second 0 to 239 (R108, R205). -/
def valueForceOff (v : Word16) : Option (Option Nat) :=
  if v == 0xFFFF then some none else (valueIn 0 239 v).map some

/-- A plan field named by an index: a writer of it, or none (R106, R205). The writer answers none on a value outside the
field's range. -/
def planField (slot index : Nat) (v : Word16) (p : Plan) : Option (Option Plan) :=
  match index with
  | 0 => some ((valueMode v).map fun x => { p with mode := x })
  | 1 => some ((valueIn 20 240 v).map fun n => { p with cycle := n })
  | 2 => some ((valueIn 0 239 v).map fun n => { p with offset := n })
  | 3 => some ((valueIn 1 slot v).map fun n => { p with stepCount := n })
  | _ => none

/-- A step field named by bits 7 to 5 of an index (R107, R205). -/
def stepField (field : Nat) (v : Word16) (r : Step) : Option (Option Step) :=
  match field with
  | 0 => some ((valueStage v).map fun x => { r with stage := x })
  | 1 => some ((valueIn 0 1200 v).map fun n => { r with minGreen := n })
  | 2 => some ((valueIn 1 2400 v).map fun n => { r with maxGreen := n })
  | 3 => some ((valueBool v).map fun b => { r with demandDependent := b })
  | 4 => some ((valueForceOff v).map fun x => { r with forceOff := x })
  | _ => none

/-- The step a PLAN WRITE's index names: bits 4 to 0, from 0, within the slot size (R105, R205). -/
def stepNamed (s : State) (index : Byte) : Option StepNo :=
  if index.toNat % 32 < slotSize s.plans.layout then zeroBased 32 (index.toNat % 32) else none

/-- The field a PLAN WRITE names, with the plan after the write; the outer none is BAD_SUBJECT, the inner BAD_VALUE
(R108, R205). -/
def planWritten (s : State) (p : PlanId) (f : Fields) : Option (Option Plan) :=
  let r := s.plans.plans[p]
  if f.subject.getLsbD 7 then
    match stepNamed s f.index with
    | some k =>
      (stepField (f.index.toNat / 32) f.value r.steps[k]).map fun o => o.map fun x => { r with steps := r.steps.set k x }
    | none => none
  else planField (slotSize s.plans.layout) f.index.toNat f.value r

/-- PLAN WRITE (R108): subject, then the plan's role, then the value; an accepted write makes the plan OPEN. -/
def planWriteOp (f : Fields) (s : State) : Answer :=
  match planNamed s (f.subject.toNat % 32) with
  | none => refuse .badSubject 0 s
  | some p =>
    match planWritten s p f with
    | none => refuse .badSubject 0 s
    | some o =>
      if planInUse s p then refuse .planActive 0 s
      else
        match o with
        | none => refuse .badValue 0 s
        | some r => done 0 (modPlan s p fun _ => { r with state := .opened })

/-- PLAN_WRITE (R108). -/
def execPlanWrite (l : Link) (f : Fields) (s : State) : Host.Outcome State Fault Refusal :=
  .next (takeRequest l 0x21 f (planWriteOp f) s)

/-! ### PLAN CLOSE (R109) and PLAN ERASE (R110) -/

/-- The first failing check of a step, in the order 3 to 7 (R109). -/
def closeStep (s : State) (p : Plan) (r : Step) : Option CloseReason :=
  match r.stage with
  | none => some .stepNoStage
  | some n =>
    if !s.stages[n].defined then some .stageUndefined
    else if r.maxGreen < r.minGreen then some .maxBelowMin
    else
      match r.forceOff with
      | none => none
      | some x =>
        if p.mode == .isolated then some .forceOffIsolated
        else if p.cycle ≤ x then some .forceOffRange
        else none

/-- The first failing check of an OPEN plan: the plan-level check, then the steps from step 1 to the step count (R109). -/
def closePlan (s : State) (p : Plan) : Option (CloseReason × Option StepNo) :=
  if p.mode == .linked && decide (p.cycle ≤ p.offset) then some (.offsetRange, none)
  else
    ((List.finRange 32).filter fun k => decide (k.val < p.stepCount)).findSome? fun k =>
      (closeStep s p p.steps[k]).map fun c => (c, some k)

/-- A close reason's code (R109). -/
def closeCode (c : CloseReason) : Nat := c.ctorIdx + 1

/-- A close reason with its step as PLAN CLOSE's value carries it (R204). -/
def closeWord (c : CloseReason × Option StepNo) : Word16 :=
  word (256 * closeCode c.1 + match c.2 with | some k => number k | none => 0)

/-- PLAN CLOSE (R109). -/
def planCloseOp (f : Fields) (s : State) : Answer :=
  match planNamed s f.subject.toNat with
  | none => refuse .badSubject 0 s
  | some p =>
    if planInUse s p then refuse .planActive 0 s
    else
      match s.plans.plans[p].state with
      | .ready => done 0 s
      | .empty =>
        refuse .badValue (closeWord (.emptyPlan, none))
          (modPlan s p fun r => { r with closeReason := some (.emptyPlan, none) })
      | .opened =>
        match closePlan s s.plans.plans[p] with
        | some c => refuse .badValue (closeWord c) (modPlan s p fun r => { r with closeReason := some c })
        | none => done 0 (modPlan s p fun r => { r with state := .ready, closeReason := none })

/-- PLAN_CLOSE (R109). -/
def execPlanClose (l : Link) (f : Fields) (s : State) : Host.Outcome State Fault Refusal :=
  .next (takeRequest l 0x22 f (planCloseOp f) s)

/-- PLAN ERASE (R110). -/
def planEraseOp (f : Fields) (s : State) : Answer :=
  match planNamed s f.subject.toNat with
  | none => refuse .badSubject 0 s
  | some p => if planInUse s p then refuse .planActive 0 s else done 0 (modPlan s p fun _ => Plan.empty)

/-- PLAN_ERASE (R110). -/
def execPlanErase (l : Link) (f : Fields) (s : State) : Host.Outcome State Fault Refusal :=
  .next (takeRequest l 0x23 f (planEraseOp f) s)

/-! ### START PLAN (R112) and SELECT PLAN (R116) -/

/-- START PLAN (R112, R205): a plan, or 0 for none. -/
def startPlanOp (f : Fields) (s : State) : Answer :=
  if f.subject == 0 then done 0 (modPlans s fun m => { m with start := none })
  else
    match planNamed s f.subject.toNat with
    | none => refuse .badSubject 0 s
    | some p => done 0 (modPlans s fun m => { m with start := some p })

/-- START_PLAN (R112). -/
def execStartPlan (l : Link) (f : Fields) (s : State) : Host.Outcome State Fault Refusal :=
  .next (takeRequest l 0x24 f (startPlanOp f) s)

/-- A plan set as the pending plan, its wrap flag clear (R116); a transfer due from that moment brings a decision (R117,
R137). -/
def setPending (p : PlanId) (s : State) : State :=
  let s := modPlans s fun m => { m with pending := some { plan := p, wrap := false } }
  if transferDue s then decision s else s

/-- SELECT PLAN (R116). -/
def selectPlanOp (f : Fields) (s : State) : Answer :=
  if s.service.state != .service then refuse .refusedState 0 s
  else
    match planNamed s f.subject.toNat with
    | none => refuse .badSubject 0 s
    | some p =>
      if s.plans.active == some p then done 0 (modPlans s fun m => { m with pending := none })
      else if s.plans.plans[p].state != .ready then
        refuse .badValue (word (planStateCode s.plans.plans[p].state)) s
      else done 0 (setPending p s)

/-- SELECT_PLAN (R116). -/
def execSelectPlan (l : Link) (f : Fields) (s : State) : Host.Outcome State Fault Refusal :=
  .next (takeRequest l 0x25 f (selectPlanOp f) s)

/-! ### READ PLAN (R121; log entry 11) -/

/-- A layout by its place in R105 (R207). -/
def layoutCode (x : Layout) : Nat :=
  match x with
  | .l16x8 => 0
  | .l8x16 => 1
  | .l4x32 => 2

/-- The items of READ PLAN for MEMORY (R121). -/
def memoryItem (index : Nat) (s : State) : Option (List Word16) :=
  match index with
  | 0 =>
    some [word (layoutCode s.plans.layout), word (planCount s.plans.layout), word (slotSize s.plans.layout)]
  | 1 =>
    some
      [wordOpt (s.plans.start.map number), wordOpt (s.plans.active.map number),
       wordOpt (s.plans.pending.map fun q => number q.plan), wordOpt (s.plans.pending.map fun q => q.wrap.toNat),
       wordBool (transferDue s)]
  | _ => none

/-- A mode by its place in R106 (R207). -/
def wordMode (x : PlanMode) : Word16 :=
  match x with
  | .isolated => 0
  | .linked => 1

/-- The words of a step (R121). -/
def stepWords (r : Step) : List Word16 :=
  [wordOpt (r.stage.map number), word r.minGreen, word r.maxGreen, wordBool r.demandDependent, wordOpt r.forceOff]

/-- The items of READ PLAN for a plan (R121), numbered in the order of its one table (R206): SUMMARY follows MEMORY's
LAYOUT and ROLES; STEP k for k from 1 to the slot size. A close reason of none is 0 (log entry 11); a step that the close
reason does not have is an absent field (R207). -/
def planRecordItem (slot : Nat) (r : Plan) (index : Nat) : Option (List Word16) :=
  if index = 2 then
    some
      ([word (planStateCode r.state), wordMode r.mode, word r.cycle, word r.offset, word r.stepCount] ++
        match r.closeReason with
        | some (c, k) => [word (closeCode c), wordOpt (k.map number)]
        | none => [0, wordAbsent])
  else
    match oneBased 32 (index - 0x20) with
    | some k => if k.val < slot then some (stepWords r.steps[k]) else none
    | none => none

/-- The items of READ PLAN (R121). -/
def planItem (f : Fields) (s : State) : Option (List Word16) :=
  if f.subject == 0 then memoryItem f.index.toNat s
  else
    match planNamed s f.subject.toNat with
    | some p => planRecordItem (slotSize s.plans.layout) s.plans.plans[p] f.index.toNat
    | none => none

/-- READ_PLAN (R121). -/
def execReadPlan (l : Link) (f : Fields) (s : State) : Host.Outcome State Fault Refusal :=
  .next (takeRequest l 0x86 f (readItem l 0x86 f (planItem f)) s)

end Sys2Proof.Machine
end

