-- ==== Sys2Proof/Machine/Service.lean ====
section
/-! DEFINITION. The service controller's commands (chapter 8): offer, restore, start check, handover, vouching, the
expiries of its timers and SERVICE RESTART. -/

namespace Sys2Proof.Machine

/-! ### Restore (R161 to R164) -/

/-- RESTORE OFFER (R161): value 0 keeps the check period held. -/
def restoreOfferOp (f : Fields) (s : State) : Answer :=
  if s.service.state != .handedOver then refuse .refusedState 0 s
  else
    let offered (n : Nat) : Answer :=
      done (word n) (modService s fun r => { r with checkPeriod := n, offer := some Config.offerUnits })
    if f.value == 0 then offered s.service.checkPeriod
    else
      match valueIn 2 20 f.value with
      | some n => offered n
      | none => refuse .badValue 0 s

/-- RESTORE_OFFER (R161). -/
def execRestoreOffer (l : Link) (f : Fields) (s : State) : Host.Outcome State Fault Refusal :=
  .next (takeRequest l 0x40 f (restoreOfferOp f) s)

/-- RESTORE_OFFER_EXPIRY (R162), taken once the offer stands at 0 (log entry 2). -/
def execRestoreOfferExpiry (s : State) : Host.Outcome State Fault Refusal :=
  .next (if s.service.offer == some 0 then modService s fun r => { r with offer := none } else s)

/-- The start plan where it is present and READY (R163, condition 2). -/
def readyStart (s : State) : Option PlanId := s.plans.start.filter fun p => s.plans.plans[p].state == .ready

/-- The first condition of RESTORE that fails, as its result code and value (R163, R204). -/
def restoreFails (s : State) : Option (Result × Word16) :=
  if s.safety.active.isNone then some (.noTable, 0)
  else if (readyStart s).isNone then
    some
      (.startPlanNotReady,
        match s.plans.start with
        | some p => word (256 * number p + planStateCode s.plans.plans[p].state)
        | none => wordAbsent)
  else
    match latchedSlot s.faults with
    | some i => some (.latchedRecord, word i.val)
    | none =>
      if s.line.mains.state == .lost then some (.mainsInvalid, 0)
      else
        match allCards.find? fun c => s.line.cards[c].configured && !s.line.cards[c].online with
        | some c => some (.cardNotOnline, word (number c))
        | none =>
          match feedbackInput s with
          | some i => if agrees s i then none else some (.changeoverHeld, word (number i))
          | none => none

/-- The entry to STARTING at an accepted RESTORE (R164), before its conflict check. -/
def enterStarting (s : State) : State :=
  let s := modService s fun r =>
    { r with
      state := .starting
      offer := none
      start := some (activeTable s).startPeriod
      vouch := some r.checkPeriod }
  let s := driveHold true s
  let s := modPlans s fun m => { m with active := m.start }
  let s := modSeq s fun q => { sequencerStartRed q with position := positionNow s }
  judgeKeys (reexposeAll (recomposeAll s))

/-- RESTORE (R163, R164): the offer becomes absent whether the conditions hold or not. -/
def restoreOp (s : State) : Answer :=
  if s.service.state != .handedOver then refuse .refusedState 0 s
  else if s.service.offer.isNone then refuse .noOffer 0 s
  else
    match restoreFails s with
    | some (r, v) => refuse r v (modService s fun r => { r with offer := none })
    | none => done 0 (conflictCheck (enterStarting s))

/-- RESTORE (R163). -/
def execRestore (l : Link) (f : Fields) (s : State) : Host.Outcome State Fault Refusal :=
  .next (takeRequest l 0x41 f restoreOp s)

/-! ### STARTING (R165, R151) -/

/-- The first group with a used RED output that is not RED_OK (R165). -/
def startFails (s : State) : Option GroupId :=
  all16.find? fun g => decide (0 < redCount s g) && s.proving.groups[g].red != .ok

/-- The sequencer's start from an empty current set (R151). -/
def startService (s : State) : State :=
  let s := modSeq s fun q => { q with current := 0, resume := some 0 }
  match choose s with
  | some t => settled (runInterstage t s)
  | none => modSeq s fun q => { q with phase := .stage, designation := some .s0 }

/-- The start check (R165): SERVICE where every group with a used RED output is RED_OK, else a handover with
START_FAILED. -/
def startCheck (s : State) : State :=
  let s := modService s fun r => { r with start := none }
  match startFails s with
  | some g => handover .startFailed [word (number g), word (redCode s.proving.groups[g].red)] s
  | none => startService (reexposeAll (recomposeAll (modService s fun r => { r with state := .service })))

/-- START_TIMER_EXPIRY (R165), taken once the start timer stands at 0 (log entry 2). -/
def execStartTimerExpiry (s : State) : Host.Outcome State Fault Refusal :=
  .next (if s.service.state == .starting && s.service.start == some 0 then startCheck s else s)

/-! ### Handover and vouching (R157, R167, R168) -/

/-- The cause of a HANDOVER request (R157). -/
def requestCause (l : Link) : Cause :=
  match l with
  | .plan => .planRequest
  | .check => .checkRequest

/-- HANDOVER (R157): in HANDED_OVER it withdraws the offer. -/
def handoverOp (l : Link) (s : State) : Answer :=
  if s.service.state == .handedOver then done 0 (modService s fun r => { r with offer := none })
  else done 0 (handover (requestCause l) [] s)

/-- HANDOVER (R157). -/
def execHandover (l : Link) (f : Fields) (s : State) : Host.Outcome State Fault Refusal :=
  .next (takeRequest l 0x42 f (handoverOp l) s)

/-- VOUCH (R167). -/
def vouchOp (f : Fields) (s : State) : Answer :=
  if s.service.state == .handedOver then done 0 s
  else if f.value == s.safety.signature then
    done (word s.service.checkPeriod) (modService s fun r => { r with vouch := some r.checkPeriod })
  else { result := .mismatch, value := 0, state := handover .signatureMismatch [f.value] s }

/-- VOUCH (R167). -/
def execVouch (l : Link) (f : Fields) (s : State) : Host.Outcome State Fault Refusal :=
  .next (takeRequest l 0x43 f (vouchOp f) s)

/-- VOUCH_TIMER_EXPIRY (R168), taken once the vouch timer stands at 0 (log entry 2). -/
def execVouchTimerExpiry (s : State) : Host.Outcome State Fault Refusal :=
  .next
    (if s.service.vouch == some 0 then
      handover .checkSilent [word s.service.checkPeriod] (modService s fun r => { r with vouch := none })
    else s)

/-! ### Changeover feedback and panel keys (R160, R169) -/

/-- A contact's level by its place in R172 (R207): OPEN 0, CLOSED 1. -/
def wordLevel (x : Level) : Word16 :=
  match x with
  | .opened => 0
  | .closed => 1

/-- The detail of CHANGEOVER_FAULT (R155): HOLD level, by its place in R153, and feedback level. -/
def changeoverDetail (s : State) (i : InputId) : List Word16 := [wordBool (!s.service.hold), wordLevel s.inputs[i].level]

/-- CHANGEOVER_FAULT raised (R160): a handover in STARTING and SERVICE, the record alone in HANDED_OVER. -/
def changeoverFault (i : InputId) (s : State) : State :=
  let detail := changeoverDetail s i
  let s := modService s fun r => { r with changeover := none }
  if s.service.state == .handedOver then
    post .handover (.cause .changeoverFault) true (some (detail ++ [word (stateCode s.service.state)])) s
  else handover .changeoverFault detail s

/-- CHANGEOVER_TIMER_EXPIRY (R160), taken once the changeover timer stands at 0 (log entry 2). -/
def execChangeoverTimerExpiry (s : State) : Host.Outcome State Fault Refusal :=
  .next
    (if s.service.changeover == some 0 then
      match feedbackInput s with
      | some i => changeoverFault i s
      | none => modService s fun r => { r with changeover := none }
    else s)

/-- TWO_KEY_TIMER_EXPIRY (R169), taken once the two-key timer stands at 0 (log entry 2). -/
def execTwoKeyTimerExpiry (s : State) : Host.Outcome State Fault Refusal :=
  .next
    (if s.service.twoKey == some 0 then handover .panelKeys [] (modService s fun r => { r with twoKey := none }) else s)

/-! ### SERVICE RESTART (R170) -/

/-- A card record at SERVICE RESTART (R48). The most recent poll slot is the last one closed (log entry 52). -/
def cardRestarted (r : CardRec) : CardRec :=
  let r := { r with mismatch := false }
  if r.configured && r.lastSlotTook then { r with online := true, missing := 0, goodRun := 0 }
  else if r.configured && !r.online then { r with missing := 0 }
  else r

/-- A DEGRADED or JAMMED line's record posted afresh (R48). -/
def repostLine (l : LineId) (s : State) : State :=
  match (s.line.lines.get l).state with
  | .good => s
  | .degraded => post .lineDegraded (.line l) false none s
  | .jammed => post .lineJammed (.line l) false none s

/-- A DOOR input's record posted afresh where its level is OPEN (R182). -/
def repostDoor (i : InputId) (s : State) : State :=
  if s.inputs[i].function == .door && s.inputs[i].level == .opened then post .doorOpen (.input i) false none s else s

/-- The proving unit at SERVICE RESTART (R82): outputs UNPROVED, groups RED_UNTESTED, bars and exposures recomputed. -/
def provingRestarted (s : State) : State :=
  let s :=
    { s with
      proving :=
        { outputs := vgen fun o => { unproved s.proving.outputs[o] with echo := false }
          groups := vgen fun g => { s.proving.groups[g] with red := .untested } } }
  recomputeBars (reexposeAll s)

/-- SERVICE RESTART's effects in order (R170; log entry 29): the table emptied, trips and investigations cancelled, cards,
accumulations, offer, proving; then lines and doors posted afresh, and the outputs of SILENT cards to SENSE_LOST, by
ascending card and output. -/
def serviceRestart (s : State) : State :=
  let s := { s with faults := emptyTable s.faults }
  let s := cancelAll s
  let s := { s with line := { s.line with cards := vgen fun c => cardRestarted s.line.cards[c] } }
  let s := restartAll s
  let s := modService s fun r => { r with offer := none }
  let s := provingRestarted s
  let s := eachOf all16 repostDoor (repostLine .b (repostLine .a s))
  eachOf allCards (fun c t => if t.line.cards[c].online then t else senseLoseCard c t) s

/-- SERVICE RESTART (R170). -/
def serviceRestartOp (s : State) : Answer :=
  if s.service.state != .handedOver then refuse .refusedState 0 s else done 0 (serviceRestart s)

/-- SERVICE_RESTART (R170). -/
def execServiceRestart (l : Link) (f : Fields) (s : State) : Host.Outcome State Fault Refusal :=
  .next (takeRequest l 0x44 f serviceRestartOp s)

end Sys2Proof.Machine
end

