-- ==== Sys2Proof/Machine/Timing.lean ====
section
/-! DEFINITION. The sequencer's commands (chapter 7): the timing unit, the times it schedules, demands, extensions,
priority calls, the all-red hold, the junction clock, READ SEQUENCER and READ CLOCK. -/

namespace Sys2Proof.Machine

/-! ### Force-off points and wraps (R138, R149) -/

/-- A WAITING force-off whose point is among the positions passed becomes REACHED; the overrun flag is set where min
green or a floor of the current set has not elapsed (R138). -/
def passPoints (passed : Nat → Bool) (s : State) : State :=
  match runningStep s, s.seq.forceOff with
  | some r, .waiting =>
    match r.forceOff with
    | some f =>
      if passed (10 * f) then
        modSeq s fun q =>
          { q with
            forceOff := .reached q.units
            overrun := q.overrun || !(minElapsed s r && floorsElapsed s q.current) }
      else s
    | none => s
  | _, _ => s

/-- A wrap of the active plan's cycle sets the pending plan's wrap flag (R117, R149). -/
def reportWrap (s : State) : State := modPlans s fun m => { m with pending := m.pending.map fun q => { q with wrap := true } }

/-- The position after an advance of the clock by one unit (R149): recomputed, a wrap where it is lower than it was, and
the force-off point it takes. -/
def advancePosition (s : State) : State :=
  let old := s.seq.position
  let new := positionNow s
  let s := modSeq s fun q => { q with position := new }
  match new with
  | some p =>
    let s := match old with
      | some o => if p < o then reportWrap s else s
      | none => s
    passPoints (· == p) s
  | none => s

/-! ### TIMING_UNIT (R122, R124, R153, R84, R133, R140, R142, R143) -/

/-- A timer one unit on: down by one; at 0 it waits for its expiry's own command (log entry 2). -/
def tick (t : Option Nat) : Option Nat := t.map (· - 1)

/-- The service controller's timers one unit on (R153). -/
def tickService (r : Service) : Service :=
  { r with
    offer := tick r.offer
    start := tick r.start
    vouch := tick r.vouch
    changeover := tick r.changeover
    twoKey := tick r.twoKey }

/-- A card's trip timers one unit on (R84). -/
def tickCable (r : CableCard) : CableCard := { r with retryTimer := tick r.retryTimer, watchTimer := tick r.watchTimer }

/-- The sequencer's counts one unit on: unit count and clock (R122, R124), holds (R140), wait counts in every phase but
STOPPED (R142), the call service (R143) and the step timers of a running step (R123, R133). A call whose wait count comes
to 1200 stays listed until PRIORITY_EXPIRED (log entry 67). -/
def tickSequencer (q : Sequencer) : Sequencer :=
  let running := q.phase == .stage && q.designation == some .step
  { q with
    units := q.units + 1
    clock := (q.clock + 1) % Config.dayUnits
    groups := vgen fun g => { q.groups[g] with hold := q.groups[g].hold - 1 }
    calls :=
      if q.phase == .stopped then q.calls
      else q.calls.map fun c => { c with wait := min Config.callWaitUnits (c.wait + 1) }
    service := q.service.map fun c => { c with units := c.units - 1 }
    minCount := if running then min 2400 (q.minCount + 1) else q.minCount
    maxCount := if running then min 2400 (q.maxCount + 1) else q.maxCount }

/-- One timing unit (log entry 3): clock and unit count, every timer and count, the cycle position with its wrap and
force-off point, then a decision (R137), which can still take a call that has waited 1200 units (log entry 67). -/
def timingUnit (s : State) : State :=
  let s := modSeq s tickSequencer
  let s := modService s tickService
  let s := { s with cable := { s.cable with cards := vgen fun c => tickCable s.cable.cards[c] } }
  decision (advancePosition s)

/-- TIMING_UNIT (R124). -/
def execTimingUnit (s : State) : Host.Outcome State Fault Refusal := .next (timingUnit s)

/-! ### The times of an interstage (R129 to R131) -/

/-- ENDING_PERIOD_END: a losing group goes to RED at the end of its ending period (R129). -/
def execEndingPeriodEnd (g : GroupId) (s : State) : Host.Outcome State Fault Refusal :=
  .next
    (if reached s.seq.groups[g].endAt s.seq.units then
      settled (modGroup (setAspect g .red s) g fun r => { r with endAt := none })
    else s)

/-- RED_AMBER_TIME: a gaining group goes to RED_AMBER at its time (R130). -/
def execRedAmberTime (g : GroupId) (s : State) : Host.Outcome State Fault Refusal := .next (tryRedAmber g s)

/-- GREEN_TIME: a gaining group goes to GREEN at its time, or waits at gating (R131). -/
def execGreenTime (g : GroupId) (s : State) : Host.Outcome State Fault Refusal :=
  .next (if reached s.seq.groups[g].greenAt s.seq.units then settled (tryGreen g s) else s)

/-- GATING_DEADLINE_EXPIRY: the deadline has passed with the group still waiting, and GREEN_NOT_OFF is reported (R131). A
group whose conflicting exposures are all false does not wait: this event takes it to GREEN. -/
def execGatingDeadlineExpiry (g : GroupId) (s : State) : Host.Outcome State Fault Refusal :=
  .next
    (if reached s.seq.groups[g].deadline s.seq.units then
      if reached s.seq.groups[g].greenAt s.seq.units && conflictsDark s g then settled (tryGreen g s)
      else handover .greenNotOff [word (number g)] s
    else s)

/-- EXTENSION_HOLD_EXPIRY: a hold that has reached 0 brings a decision (R137, R140). -/
def execExtensionHoldExpiry (g : GroupId) (s : State) : Host.Outcome State Fault Refusal :=
  .next (if s.seq.groups[g].hold == 0 then decision s else s)

/-- PRIORITY_EXPIRED: a listed call whose wait count has reached 1200 is removed and posted (R142), and the decision that
its removal brings follows the record (log entry 75). -/
def execPriorityExpired (n : StageId) (s : State) : Host.Outcome State Fault Refusal :=
  .next
    (if s.seq.calls.any fun c => c.stage == n && decide (Config.callWaitUnits ≤ c.wait) then
      let s := modSeq s fun q => { q with calls := q.calls.filter (·.stage != n) }
      decision (post .priorityExpired (.stage n) false none s)
    else s)

/-- CALL_SERVICE_EXPIRY: a call service with no units remaining brings a decision (R137, R143). -/
def execCallServiceExpiry (s : State) : Host.Outcome State Fault Refusal :=
  .next
    (match s.seq.service with
    | some c => if c.units = 0 then decision s else s
    | none => s)

/-! ### Demands and extensions (R139, R140) -/

/-- Whether a stage is the running stage in phase STAGE (R139, R141). -/
def runsNow (s : State) (n : StageId) : Bool := s.seq.phase == .stage && runningStage s == some n

/-- A demand taken in STARTING or SERVICE (R139): dropped for the running stage, else the latch set; a change of the latch
brings a decision (R137). -/
def takeDemand (n : StageId) (s : State) : State :=
  if runsNow s n || has s.seq.latches n then s
  else decision (modSeq s fun q => { q with latches := setAdd q.latches n })

/-- DEMAND (R139). -/
def demandOp (f : Fields) (s : State) : Answer :=
  if s.service.state == .handedOver then refuse .refusedState 0 s
  else
    match subject16 f.subject with
    | none => refuse .badSubject 0 s
    | some n =>
      if !s.stages[n].defined then refuse .badValue 0 s
      else done (wordBool (runsNow s n)) (takeDemand n s)

/-- DEMAND (R139). -/
def execDemand (l : Link) (f : Fields) (s : State) : Host.Outcome State Fault Refusal :=
  .next (takeRequest l 0x30 f (demandOp f) s)

/-- EXTEND (R140): the hold replaced, 100 units at most; set to 0 it brings a decision (R137). -/
def extendOp (f : Fields) (s : State) : Answer :=
  if s.service.state == .handedOver then refuse .refusedState 0 s
  else
    match subject16 f.subject with
    | none => refuse .badSubject 0 s
    | some g =>
      if !(groupRec s g).defined then refuse .badSubject 0 s
      else
        let h := min 100 f.value.toNat
        let s := modGroup s g fun r => { r with hold := h }
        done (word h) (if h = 0 then decision s else s)

/-- EXTEND (R140). -/
def execExtend (l : Link) (f : Fields) (s : State) : Host.Outcome State Fault Refusal :=
  .next (takeRequest l 0x31 f (extendOp f) s)

/-! ### Priority calls (R141, R142) -/

/-- A call accepted for a stage (R141, R143): into service at once for the running stage, else its listed entry's duration
replaced, else a new entry; none where four are listed. -/
def placeCall (n : StageId) (d : Nat) (q : Sequencer) (running : Bool) : Option Sequencer :=
  if running then some { q with service := some { stage := n, units := d } }
  else if q.calls.any (·.stage == n) then
    some { q with calls := q.calls.map fun c => if c.stage == n then { c with duration := d } else c }
  else if q.calls.length < 4 then some { q with calls := q.calls ++ [{ stage := n, duration := d, wait := 0 }] }
  else none

/-- PRIORITY CALL (R141): a duration below 50 is taken as 50, one above 600 as 600; a change brings a decision (R137). -/
def priorityCallOp (f : Fields) (s : State) : Answer :=
  if s.service.state == .handedOver then refuse .refusedState 0 s
  else
    match subject16 f.subject with
    | none => refuse .badSubject 0 s
    | some n =>
      if !s.stages[n].defined then refuse .badValue 0 s
      else
        match placeCall n (max 50 (min 600 f.value.toNat)) s.seq (runsNow s n) with
        | some q => done 0 (if q == s.seq then s else decision { s with seq := q })
        | none => refuse .full 0 s

/-- PRIORITY_CALL (R141). -/
def execPriorityCall (l : Link) (f : Fields) (s : State) : Host.Outcome State Fault Refusal :=
  .next (takeRequest l 0x32 f (priorityCallOp f) s)

/-- A stage's call cancelled: out of the list, no units in service (R142). -/
def cancelCall (n : StageId) (q : Sequencer) : Sequencer :=
  { q with
    calls := q.calls.filter (·.stage != n)
    service := q.service.map fun c => if c.stage == n then { c with units := 0 } else c }

/-- CANCEL PRIORITY (R142): a change of the list or the call service brings a decision (R137). -/
def cancelPriorityOp (f : Fields) (s : State) : Answer :=
  if s.service.state == .handedOver then refuse .refusedState 0 s
  else
    match subject16 f.subject with
    | none => refuse .badSubject 0 s
    | some n =>
      if !s.stages[n].defined then refuse .badValue 0 s
      else
        let q := cancelCall n s.seq
        done 0 (if q == s.seq then s else decision { s with seq := q })

/-- CANCEL_PRIORITY (R142). -/
def execCancelPriority (l : Link) (f : Fields) (s : State) : Host.Outcome State Fault Refusal :=
  .next (takeRequest l 0x33 f (cancelPriorityOp f) s)

/-! ### The all-red hold (R144) -/

/-- A decision where a change has made the all-red hold active or inactive (R137, R144). -/
def holdJudged (before : Bool) (s : State) : State := if holdActive s == before then s else decision s

/-- ALL RED (R144). -/
def allRedOp (f : Fields) (s : State) : Answer :=
  if s.service.state == .handedOver then refuse .refusedState 0 s
  else
    match valueBool f.value with
    | none => refuse .badValue 0 s
    | some b => done 0 (holdJudged (holdActive s) (modSeq s fun q => { q with allRed := b }))

/-- ALL_RED (R144). -/
def execAllRed (l : Link) (f : Fields) (s : State) : Host.Outcome State Fault Refusal :=
  .next (takeRequest l 0x34 f (allRedOp f) s)

/-! ### The junction clock (R124, R150) -/

/-- The effect of a new clock value on a LINKED plan's cycle (R150): d is the forward distance from the old position. -/
def clockMoved (cycle old new : Nat) (p : PlanId) (s : State) : State :=
  let d := (new + 10 * cycle - old) % (10 * cycle)
  if d < 5 * cycle then
    let s := if new < old then reportWrap s else s
    passPoints (fun x => decide (1 ≤ (x + 10 * cycle - old) % (10 * cycle) ∧ (x + 10 * cycle - old) % (10 * cycle) ≤ d)) s
  else post .planResync (.plan p) false (some [word old, word new]) s

/-- The junction clock set (R124): a WAITING force-off reached or a transfer become due brings a decision (R137). The clock
is set first, so a PLAN_RESYNC of this event is stamped with the new value (log entry 72). -/
def setClock (t : Nat) (s : State) : State :=
  let due := transferDue s
  let old := s.seq.position
  let forced := s.seq.forceOff
  let s := modSeq s fun q => { q with clock := t }
  let s := modSeq s fun q => { q with position := positionNow s }
  match s.plans.active, activePlan s, old, s.seq.position with
  | some p, some r, some a, some b =>
    let s := clockMoved r.cycle a b p s
    if s.seq.forceOff != forced || (transferDue s && !due) then decision s else s
  | _, _, _, _ => s

/-- SET CLOCK (R124, R205): the index carries the value's quotient by 65,536. -/
def setClockOp (f : Fields) (s : State) : Answer :=
  let t := 65536 * f.index.toNat + f.value.toNat
  if t < Config.dayUnits then done 0 (setClock t s) else refuse .badValue 0 s

/-- SET_CLOCK (R124). -/
def execSetClock (l : Link) (f : Fields) (s : State) : Host.Outcome State Fault Refusal :=
  .next (takeRequest l 0x35 f (setClockOp f) s)

/-- The item of READ CLOCK (R124, R206). -/
def clockItem (f : Fields) (s : State) : Option (List Word16) :=
  match f.index.toNat with
  | 0 => some (wordsTime s.seq.clock ++ [wordOpt s.seq.position])
  | _ => none

/-- READ_CLOCK (R124). -/
def execReadClock (l : Link) (f : Fields) (s : State) : Host.Outcome State Fault Refusal :=
  .next (takeRequest l 0x8B f (readItem l 0x8B f (clockItem f)) s)

/-! ### READ SEQUENCER (R152; log entry 11) -/

/-- A designation by its place in R123 (R207). -/
def designationCode (d : Designation) : Nat :=
  match d with
  | .step => 0
  | .call => 1
  | .s0 => 2
  | .residual => 3

/-- A target as two words: absent, 0 for S0 or the stage; then its step, or 0 for a call. -/
def targetWords (t : Option Target) : List Word16 :=
  match t with
  | none => [wordAbsent, wordAbsent]
  | some .s0 => [0, wordAbsent]
  | some (.step k n) => [word (number n), word (number k)]
  | some (.call n) => [word (number n), 0]

/-- An aspect's code (R207). -/
def aspectCode (a : Aspect) : Nat :=
  match a with
  | .red => 0
  | .redAmber => 1
  | .green => 2
  | .amber => 3
  | .blackout => 4

/-- A group's next scheduled change and its time: RED_AMBER, then GREEN, or RED at the end of its ending period. -/
def nextChange (r : GroupSeq) : Option (Aspect × Nat) :=
  match r.redAmberAt, r.greenAt, r.endAt with
  | some t, _, _ => some (.redAmber, t)
  | none, some t, _ => some (.green, t)
  | none, none, some t => some (.red, t)
  | none, none, none => none

/-- The words of GROUP (R152). The deadline is shown only while the group waits, and a waiting group's next change is GREEN
in 0 units (log entry 60). -/
def groupSeqWords (units : Nat) (r : GroupSeq) : List Word16 :=
  let waiting := reached r.greenAt units
  let since (t : Option Nat) : List Word16 := wordsFlaggedNat (t.map fun n => min 65535 (units - n))
  [word (aspectCode r.aspect), wordOpt ((nextChange r).map fun c => aspectCode c.1),
   wordOpt ((nextChange r).map fun c => c.2 - units), wordBool waiting,
   wordOpt (if waiting then r.deadline.map (· - units) else none)] ++
    since r.greenStart ++ since r.lastEnd ++ [word r.hold]

/-- The items of READ SEQUENCER (R152). A subject sent with an item that has none is ignored (log entry 79). -/
def sequencerItem (f : Fields) (s : State) : Option (List Word16) :=
  let q := s.seq
  match f.index.toNat with
  | 0 =>
    some
      ([match q.phase with | .stopped => 0 | .startRed => 1 | .interstage => 2 | .stage => 3,
        wordOpt (q.designation.map designationCode), q.current] ++ targetWords q.target ++
        [wordOpt (s.plans.active.map number), wordOpt (q.stepIndex.map number), wordOpt (q.resume.map number)])
  | 1 =>
    some
      [word q.minCount, word q.maxCount, wordOpt ((runningStep s).map (·.minGreen)),
       wordOpt ((runningStep s).map (·.maxGreen)),
       match q.forceOff with | .none => 0 | .waiting => 1 | .reached _ => 2, wordBool q.overrun,
       wordOpt (q.service.map fun c => number c.stage), wordOpt (q.service.map (·.units))]
  | 2 => (subject16 f.subject).map fun g => groupSeqWords q.units q.groups[g]
  | 3 => some [q.latches]
  | 4 =>
    some
      (word q.calls.length ::
        q.calls.flatMap fun c => [word (number c.stage), word c.duration, word c.wait])
  | 5 => some [q.bars, wordBool q.allRed, wordBool (allRedInput s), wordBool (holdActive s)]
  | _ => none

/-- READ_SEQUENCER (R152). -/
def execReadSequencer (l : Link) (f : Fields) (s : State) : Host.Outcome State Fault Refusal :=
  .next (takeRequest l 0x87 f (readItem l 0x87 f (sequencerItem f)) s)

end Sys2Proof.Machine
end

