-- ==== Sys2Proof/Machine/Contacts.lean ====
section
/-! DEFINITION. The contact input unit (chapter 9): sampling, filtering, wetting, functions, INPUT SET and READ INPUT; and
POWER_ON_RESET. -/

namespace Sys2Proof.Machine

/-! ### Filter and wetting (R173 to R175, R181) -/

/-- The wetting state a filter reset gives (R175). -/
def wettingFor (x : Level) : Wetting :=
  match x with
  | .opened => .openSense
  | .closed => .holding

/-- What an input's wetting control drives (R175). -/
inductive Drive where
  | none
  | low
  | high
  deriving DecidableEq, Repr

/-- The wetting control of an input in a wetting state (R173, R175), toSample µs before its next sample: in OPEN_SENSE
LOW for the 250 µs that end at each sample and no current otherwise; HIGH and LOW steady in CLEANING and HOLDING. -/
def wettingControl (w : Wetting) (toSample : Nat) : Drive :=
  match w with
  | .openSense => if toSample ≤ Config.wettingPulseUs then .low else .none
  | .cleaning => .high
  | .holding => .low

/-- A filter reset (R181): the sample stored and taken as the level, no edge, no cleaning pulse. -/
def filterReset (x : Level) (r : Input) : Input :=
  { r with lastSample := some x, sampleCount := 0, level := x, wetting := wettingFor x, cleaning := none }

/-- An input at a sample (R173, R174): the sample stored, the count moved, and at the filter count the level taken. The
cleaning timer runs on by the sample interval, and one so brought to 0 ms stays present, in CLEANING, until its expiry is
taken (log entry 7). -/
def filtered (x : Level) (r : Input) : Input :=
  let r := { r with lastSample := some x, cleaning := r.cleaning.map (· - r.interval) }
  if x == r.level then { r with sampleCount := 0 }
  else if r.sampleCount + 1 < r.filter then { r with sampleCount := r.sampleCount + 1 }
  else { r with sampleCount := 0, level := x }

/-- The wetting at a filtered edge (R175): CLEANING for 20 ms at a closing edge, OPEN_SENSE at an opening edge. -/
def edgeWetting (r : Input) : Input :=
  match r.level with
  | .closed => { r with wetting := .cleaning, cleaning := some Config.cleaningMs }
  | .opened => { r with wetting := .openSense, cleaning := none }

/-! ### Functions (R176 to R179) -/

/-- A filtered edge handed to the input's function (R176 to R179); before: the all-red hold before the edge. -/
def handEdge (i : InputId) (before : Bool) (s : State) : State :=
  let r := s.inputs[i]
  match r.function with
  | .none => s
  | .plain => modInput s i fun r => { r with edgeCount := (r.edgeCount + 1) % 256 }
  | .demand =>
    if r.level == r.edge && s.service.state != .handedOver then takeDemand r.stage s else s
  | .allRed => holdJudged before s
  | .panelKey => judgeKeys s
  | .changeover => judgeFeedback s
  | .door =>
    match r.level with
    | .opened => post .doorOpen (.input i) false none s
    | .closed => endFault .doorOpen (.input i) s

/-- A sample of an input (R173 to R179); the first one is a filter reset (R172; log entry 6). -/
def sampleInput (i : InputId) (x : Level) (s : State) : State :=
  let old := s.inputs[i]
  if old.lastSample.isNone then modInput s i (filterReset x)
  else
    let new := filtered x old
    if new.level == old.level then modInput s i fun _ => new
    else handEdge i (holdActive s) (modInput s i fun _ => edgeWetting new)

/-- INPUT_SAMPLE (R173). -/
def execInputSample (i : InputId) (x : Level) (s : State) : Host.Outcome State Fault Refusal :=
  .next (sampleInput i x s)

/-- CLEANING_TIMER_EXPIRY: HOLDING, 20 ms after the closing edge (R175; log entry 7). -/
def execCleaningTimerExpiry (i : InputId) (s : State) : Host.Outcome State Fault Refusal :=
  .next
    (if s.inputs[i].cleaning.isSome then modInput s i fun r => { r with wetting := .holding, cleaning := none } else s)

/-! ### INPUT SET (R180, R181) -/

/-- What leaves and joins the readers of an input at a change of its function (R181), in the order written here (log entry
69): the door record, the changeover feedback, the panel keys, and last the all-red hold with its decision. -/
def functionHanded (i : InputId) (old : Input) (before : Bool) (s : State) : State :=
  let new := s.inputs[i]
  let s := if old.function == .door && old.level == .opened then endFault .doorOpen (.input i) s else s
  let s := if new.function == .door && new.level == .opened then post .doorOpen (.input i) false none s else s
  let s := if old.function == .changeover || new.function == .changeover then judgeFeedback s else s
  let s := if old.function == .panelKey || new.function == .panelKey then judgeKeys s else s
  holdJudged before s

/-- A function written (R180, R181): the one already held changes nothing; another makes a filter reset with the sample
taken at once, and PLAIN's edge count 0 (R176). -/
def setFunction (i : InputId) (fn : InputFunction) (reading : Level) (s : State) : State :=
  let old := s.inputs[i]
  if old.function == fn then s
  else
    functionHanded i old (holdActive s)
      (modInput s i fun r =>
        { filterReset reading r with function := fn, edgeCount := if fn == .plain then 0 else r.edgeCount })

/-- A sample interval's value (R172: 1, 2, 4, 8 or 16 ms). -/
def valueInterval (v : Word16) : Option Nat :=
  match v.toNat with
  | 1 => some 1
  | 2 => some 2
  | 4 => some 4
  | 8 => some 8
  | 16 => some 16
  | _ => none

/-- A sample interval written (R173): the next sample follows one new interval later, so a new interval begins to run
here, and the ms of the one cut off are taken off the cleaning timer (log entry 7). -/
def setInterval (n ms : Nat) (r : Input) : Input :=
  if n = r.interval then r else { r with interval := n, cleaning := r.cleaning.map (· - ms) }

/-- A filter count written (R174): a change sets the sample count to 0. -/
def setFilter (n : Nat) (r : Input) : Input := if n = r.filter then r else { r with filter := n, sampleCount := 0 }

/-- A field of an input changed where the value is in its range, else BAD_VALUE (R180). -/
def setInputField {α : Type} (i : InputId) (v : Option α) (f : α → Input → Input) (s : State) : Answer :=
  match v with
  | some a => done 0 (modInput s i (f a))
  | none => refuse .badValue 0 s

/-- The other input that holds CHANGEOVER_FEEDBACK (R180). -/
def otherFeedback (s : State) (i : InputId) : Option InputId :=
  all16.find? fun j => j != i && s.inputs[j].function == .changeover

/-- A function written to an input, but CHANGEOVER_FEEDBACK while another input holds it (R180, check 3). -/
def setFunctionOp (i : InputId) (fn : InputFunction) (reading : Level) (s : State) : Answer :=
  match if fn == .changeover then otherFeedback s i else none with
  | some j => refuse .badValue (word (number j)) s
  | none => done 0 (setFunction i fn reading s)

/-- INPUT SET (R180, R205). -/
def inputSetOp (f : Fields) (reading : Level) (ms : Nat) (s : State) : Answer :=
  match subject16 f.subject with
  | none => refuse .badSubject 0 s
  | some i =>
    match f.index.toNat with
    | 0 =>
      match valueFunction f.value with
      | some fn => setFunctionOp i fn reading s
      | none => refuse .badValue 0 s
    | 1 => setInputField i (oneBased 16 f.value.toNat) (fun n r => { r with stage := n }) s
    | 2 => setInputField i (valueEdge f.value) (fun x r => { r with edge := x }) s
    | 3 => setInputField i (valueInterval f.value) (fun n r => setInterval n ms r) s
    | 4 => setInputField i (valueIn 2 15 f.value) (fun n r => setFilter n r) s
    | _ => refuse .badSubject 0 s

/-- INPUT_SET (R180). -/
def execInputSet (l : Link) (f : Fields) (reading : Level) (ms : Nat) (s : State) :
    Host.Outcome State Fault Refusal :=
  .next (takeRequest l 0x19 f (inputSetOp f reading ms) s)

/-! ### READ INPUT (R183; log entry 11) -/

/-- A function by its place in R172 (R205). -/
def functionCode (x : InputFunction) : Nat := x.ctorIdx

/-- A wetting state by its place in R172 (R207). -/
def wettingCode (x : Wetting) : Nat := x.ctorIdx

/-- An edge selection (R205): CLOSING 0, OPENING 1. -/
def wordEdge (x : Level) : Word16 :=
  match x with
  | .closed => 0
  | .opened => 1

/-- The items of READ INPUT for an input; ms: whole milliseconds of its running sample interval, which are taken
off what the cleaning timer holds (log entry 7). -/
def oneInputItem (r : Input) (ms index : Nat) : Option (List Word16) :=
  match index with
  | 0 =>
    some
      [word (functionCode r.function), word (number r.stage), wordEdge r.edge, word r.interval, word r.filter]
  | 1 =>
    some
      [match r.lastSample with | some x => wordLevel x | none => wordAbsent, word r.sampleCount, wordLevel r.level,
       word (wettingCode r.wetting), wordOpt (r.cleaning.map (· - ms)), word r.edgeCount]
  | _ => none

/-- The items of READ INPUT (R183), numbered in the order of its one table (R206): ALL's follow an input's. -/
def inputItem (f : Fields) (ms : Nat) (s : State) : Option (List Word16) :=
  if f.subject == 0xFF then
    match f.index.toNat with
    | 2 =>
      some
        [setOf fun i => s.inputs[i].level == .closed, setOf fun i => s.inputs[i].lastSample == some .closed]
    | 3 => some (all16.map fun i => word (functionCode s.inputs[i].function))
    | _ => none
  else (subject16 f.subject).bind fun i => oneInputItem s.inputs[i] ms f.index.toNat

/-- READ_INPUT (R183). -/
def execReadInput (l : Link) (f : Fields) (ms : Nat) (s : State) : Host.Outcome State Fault Refusal :=
  .next (takeRequest l 0x88 f (readItem l 0x88 f (inputItem f ms)) s)

/-! ### POWER_ON_RESET (R153, R172) -/

/-- The first samples of the inputs, taken at the reset: filter resets (R172). -/
def firstSamples (contacts : Set16) (s : State) : State :=
  { s with inputs := vgen fun i => filterReset (if has contacts i then .closed else .opened) s.inputs[i] }

/-- POWER_ON_RESET: every block's holdings at their power-on values, and the first sample of every input (R172). -/
def execPowerOnReset (contacts : Set16) (s : State) : Host.Outcome State Fault Refusal :=
  .next (firstSamples contacts { State.reset with pending := s.pending })

end Sys2Proof.Machine
end

