-- ==== Sys2Proof/Machine/Notices.lean ====
section
/-! DEFINITION. The fault table's commands (chapter 10): CLEAR RECORD, SET ATTENTION, READ NEXT NOTICE, READ RECORD and the
end of an attention line's release. -/

namespace Sys2Proof.Machine

/-- A latched trip released once the record of its card carries both clear marks (R94); a trip that is not latched is
not touched. -/
def releaseTrip (r : Record) (s : State) : State :=
  match r.kind, r.subject with
  | .cardTrip, .card c =>
    if s.cable.cards[c].tripped && s.cable.cards[c].latched && r.clear.plan && r.clear.check then endTrip c s else s
  | _, _ => s

/-- The state that CLEAR RECORD answers (R190, R204): ACTIVE 0, CLEARED 1. A record that its own event's later postings
have evicted was CLEARED. -/
def clearedWord (k : FaultKind) (x : Subject) (s : State) : Word16 :=
  match findRecord s.faults k x with
  | some i =>
    match s.faults.slots[i] with
    | some r => wordBool (!r.active)
    | none => 1
  | none => 1

/-- CLEAR RECORD of a record (R190): the link's clear mark set, R189 applied, a latched trip released (R94). -/
def clearOp (l : Link) (i : SlotId) (r : Record) (s : State) : Answer :=
  let s := { s with faults := clearSlot s.seq.clock l i s.faults }
  let s :=
    match s.faults.slots[i] with
    | some q => releaseTrip q s
    | none => s
  done (clearedWord r.kind r.subject s) s

/-- CLEAR RECORD (R190, R205): the subject is the slot and the index the kind. An index that names no kind differs from the
record's, and is answered MISMATCH (log entry 73). -/
def clearRecordOp (l : Link) (f : Fields) (s : State) : Answer :=
  match subjectSlot f.subject with
  | none => refuse .badSubject 0 s
  | some i =>
    match s.faults.slots[i] with
    | none => refuse .badSubject 0 s
    | some r =>
      if kindCode r.kind != f.index.toNat then refuse .mismatch (word (kindCode r.kind)) s else clearOp l i r s

/-- CLEAR_RECORD (R190). -/
def execClearRecord (l : Link) (f : Fields) (s : State) : Host.Outcome State Fault Refusal :=
  .next (takeRequest l 0x50 f (clearRecordOp l f) s)

/-- SET ATTENTION (R196). -/
def setAttentionOp (l : Link) (f : Fields) (s : State) : Answer :=
  match valueIn 0 7 f.value with
  | none => refuse .badValue 0 s
  | some n =>
    let t := s.faults
    done 0
      { s with
        faults := judgeLine { t with attention := t.attention.set l { t.attention.get l with threshold := n } } l }

/-- SET_ATTENTION (R196). -/
def execSetAttention (l : Link) (f : Fields) (s : State) : Host.Outcome State Fault Refusal :=
  .next (takeRequest l 0x51 f (setAttentionOp l f) s)

/-- ATTENTION_RELEASE_END: 50 µs after a READ NEXT NOTICE the line takes the level of the condition (R195). -/
def execAttentionReleaseEnd (l : Link) (s : State) : Host.Outcome State Fault Refusal :=
  .next { s with faults := endRelease l s.faults }

/-- A record's state by its place (R207): ACTIVE 0, CLEARED 1. -/
def wordState (r : Record) : Word16 := wordBool (!r.active)

/-- The words of a notice: slot, kind, subject, level and state (R192, R206). -/
def noticeWords (i : SlotId) (r : Record) : List Word16 :=
  [word i.val, word (kindCode r.kind), subjectWord r.subject, word r.level, wordState r]

/-- READ NEXT NOTICE, word 0 (R192, R193, R195, R206): the weightiest oldest unseen record, its mark set and the snapshot
taken; NONE leaves the snapshot absent. The line is released. -/
def nextNoticeOp (l : Link) (f : Fields) (s : State) : Answer :=
  match nextNotice s.faults l with
  | some (i, r) =>
    let words := noticeWords i r
    done (words.headD 0)
      (setSnapshot l (some { code := 0x89, subject := f.subject, index := f.index, words := words })
        { s with faults := releaseLine l (seeSlot l i s.faults) })
  | none => done 0xFFFF (setSnapshot l none { s with faults := releaseLine l s.faults })

/-- READ NEXT NOTICE (R192, R206): later words come from the snapshot and change nothing. -/
def readNextNoticeOp (l : Link) (f : Fields) (s : State) : Answer :=
  if f.value == 0 then if f.index == 0 then nextNoticeOp l f s else refuse .badSubject 0 s
  else
    match snapshotWord l 0x89 f s with
    | some w => done w s
    | none => refuse (if f.index == 0 then .badValue else .badSubject) 0 s

/-- READ_NEXT_NOTICE (R192). -/
def execReadNextNotice (l : Link) (f : Fields) (s : State) : Host.Outcome State Fault Refusal :=
  .next (takeRequest l 0x89 f (readNextNoticeOp l f) s)

/-- DETAIL k (R194): absent past the detail's end. An item can be 0xFFFF, so the flag word comes first (R207). -/
def detailItem (detail : List Word16) (k : Nat) : List Word16 :=
  match detail[k]? with
  | some w => [1, w]
  | none => [0, 0]

/-- The items of READ RECORD for a slot (R194; log entry 11). A FREE slot answers HEADER with FREE, coded 0, and every
other item with absent. MARKS holds both links' seen marks and then both links' clear marks (log entry 11). -/
def recordItem (o : Option Record) (index : Nat) : Option (List Word16) :=
  match o with
  | none =>
    if index = 0 then some [0]
    else if index ≤ 2 then some [wordAbsent]
    else if 0x20 < index then some (detailItem [] 0)
    else none
  | some r =>
    if index = 0 then
      some [word (kindCode r.kind), subjectWord r.subject, word r.level, wordState r, wordBool r.latched]
    else if index = 1 then some (word r.count :: wordsTime r.firstTime ++ wordsTime r.lastTime)
    else if index = 2 then
      some
        [wordBool r.seen.plan, wordBool r.seen.check, wordBool r.clear.plan, wordBool r.clear.check,
         if r.latched && r.active then wordBool r.ended else wordAbsent]
    else if 0x20 < index then some (detailItem r.detail (index - 0x21))
    else none

/-- The slots that hold a record (R194), as three words, slots 0 to 15 first. -/
def heldSlots (t : FaultTable) : List Word16 :=
  (List.finRange 3).map fun q => setOf fun j => t.slots[(⟨16 * q.val + j.val, by omega⟩ : SlotId)].isSome

/-- How many of a table's records meet a test. -/
def countRecords (t : FaultTable) (p : Record → Bool) : Nat :=
  allSlots.countP fun i =>
    match t.slots[i] with
    | some r => p r
    | none => false

/-- The items of READ RECORD for TABLE (R194), numbered in the order of its one table (R206): SUMMARY and SLOTS follow a
slot's HEADER, TIMES and MARKS (log entry 11). -/
def tableItem (t : FaultTable) (index : Nat) : Option (List Word16) :=
  match index with
  | 3 =>
    some
      [word (countRecords t fun _ => true), word (countRecords t fun r => r.active),
       word (countRecords t fun r => r.latched && r.active), wordBool t.overflow]
  | 4 => some (heldSlots t)
  | _ => none

/-- The items of READ RECORD (R194). -/
def readRecordItem (f : Fields) (s : State) : Option (List Word16) :=
  if f.subject == 0xFF then tableItem s.faults f.index.toNat
  else
    match subjectSlot f.subject with
    | some i => recordItem s.faults.slots[i] f.index.toNat
    | none => none

/-- READ_RECORD (R194). -/
def execReadRecord (l : Link) (f : Fields) (s : State) : Host.Outcome State Fault Refusal :=
  .next (takeRequest l 0x8A f (readItem l 0x8A f (readRecordItem f)) s)

end Sys2Proof.Machine
end

