-- ==== Sys2Proof/Machine/SafetyTable.lean ====
section
/-! DEFINITION. The safety table unit and the stage table (chapter 1): SAFETY WRITE, ACTIVATE, STAGE WRITE and SAFETY
STATUS, READ STAGE. -/

namespace Sys2Proof.Machine

/-! ### SAFETY WRITE (R7, R205) -/

/-- A value stored through a setter, or BAD_VALUE where it is none. -/
def stored {α β : Type} (v : Option α) (f : α → β) : Except Result β :=
  match v with
  | some a => .ok (f a)
  | none => .error .badValue

/-- A field of the global record written (R2, R205). -/
def writeGlobal (t : SafetyTable) (index : Nat) (v : Word16) : Except Result SafetyTable :=
  match index with
  | 0 => stored (valueIn 30 100 v) fun n => { t with startPeriod := n }
  | 1 => stored (valueAspect v) fun a => { t with aspect := a }
  | _ => .error .badSubject

/-- A field of a group record written (R3, R205). -/
def writeGroupField (r : GroupRec) (index : Nat) (v : Word16) : Except Result GroupRec :=
  match index with
  | 0 => stored (valueBool v) fun b => { r with defined := b }
  | 1 => stored (valueKind v) fun k => { r with kind := k }
  | 2 => stored (valueIn 20 60 v) fun n => { r with amber := n }
  | 3 => stored (valueIn 0 30 v) fun n => { r with redAmber := n }
  | 4 => stored (valueIn 0 100 v) fun n => { r with blackout := n }
  | 5 => stored (valueIn 10 300 v) fun n => { r with minGreenFloor := n }
  | _ => .error .badSubject

/-- A field of a group's parts written: its record, its conflict row given whole, or one intergreen (R4, R5, R205). -/
def writeGroup (t : SafetyTable) (g : GroupId) (index : Nat) (v : Word16) : Except Result SafetyTable :=
  if index = 6 then .ok { t with conflicts := t.conflicts.set g v }
  else
    match zeroBased 16 (index - 0x10) with
    | some h =>
      if 0x10 ≤ index then
        stored (valueIn 0 255 v) fun n => { t with intergreens := vmod t.intergreens g fun row => row.set h n }
      else (writeGroupField t.groups[g] index v).map fun r => { t with groups := t.groups.set g r }
    | none => .error .badSubject

/-- A field of an output map record written (R6, R205). -/
def writeOutputField (r : OutputRec) (index : Nat) (v : Word16) : Except Result OutputRec :=
  match index with
  | 0 => stored (valueBool v) fun b => { r with used := b }
  | 1 => stored (oneBased 16 v.toNat) fun g => { r with group := g }
  | 2 => stored (valueColour v) fun c => { r with colour := c }
  | 3 => stored (valueIn 8 400 v) fun n => { r with minOn := n }
  | 4 => stored (valueIn 4 200 v) fun n => { r with offLimit := n }
  | 5 => stored (valueIn 4 14 v) fun n => { r with failNum := n }
  | 6 => stored (valueIn 5 15 v) fun n => { r with dimNum := n }
  | 7 => stored (valueIn 2 14 v) fun n => { r with openNum := n }
  | _ => .error .badSubject

/-- A copy with one field written, or the result that refuses it (R7, R205). -/
def writeCopy (t : SafetyTable) (f : Fields) : Except Result SafetyTable :=
  let subject := f.subject.toNat
  if subject = 0 then writeGlobal t f.index.toNat f.value
  else
    match oneBased 16 subject, zeroBased 64 (subject - 0x40) with
    | some g, _ => writeGroup t g f.index.toNat f.value
    | none, some o =>
      if 0x40 ≤ subject then
        (writeOutputField t.outputs[o] f.index.toNat f.value).map fun r => { t with outputs := t.outputs.set o r }
      else .error .badSubject
    | none, none => .error .badSubject

/-- SAFETY WRITE of the requesting link's own copy (R7). -/
def safetyWriteOp (l : Link) (f : Fields) (s : State) : Answer :=
  match writeCopy (s.safety.copies.get l) f with
  | .ok t =>
    done 0
      { s with
        safety :=
          { s.safety with copies := s.safety.copies.set l t, marks := s.safety.marks.set l false } }
  | .error r => refuse r 0 s

/-- SAFETY_WRITE (R7). -/
def execSafetyWrite (l : Link) (f : Fields) (s : State) : Host.Outcome State Fault Refusal :=
  .next (takeRequest l 0x10 f (safetyWriteOp l f) s)

/-! ### Comparison (R10) -/

/-- The first part in canonical order that differs between two tables, as the items of MATRIX_MISMATCH's detail: the
kind of part, then the group or output number (R10, R207, R210). -/
def firstDifference (a b : SafetyTable) : Option (List Word16) :=
  if a.startPeriod != b.startPeriod || a.aspect != b.aspect then some [0, 0]
  else
    match all16.find? fun g => a.groups[g] != b.groups[g] with
    | some g => some [1, word (number g)]
    | none =>
      match all16.find? fun g => a.conflicts[g] != b.conflicts[g] with
      | some g => some [2, word (number g)]
      | none =>
        match all16.find? fun g => a.intergreens[g] != b.intergreens[g] with
        | some g => some [3, word (number g)]
        | none =>
          match allOutputs.find? fun o => a.outputs[o] != b.outputs[o] with
          | some o => some [4, word (number o)]
          | none => none

/-! ### Validation (R11 to R15) -/

/-- A failing check with its element (R11). -/
abbrev Failure := CheckFail × Element

/-- The first of some checks that fails. -/
def firstFailing (checks : List (Bool × CheckFail)) (e : Element) : Option Failure :=
  (checks.find? (·.1)).map fun c => (c.2, e)

/-- Pass 1 (R12). -/
def passTable (t : SafetyTable) : Option Failure := firstFailing [(all16.all fun g => !t.groups[g].defined, .noGroup)] .none

/-- Pass 2 on one group (R12). -/
def passGroup (t : SafetyTable) (g : GroupId) : Option Failure :=
  firstFailing
    [(has t.conflicts[g] g, .selfConflict),
     (if t.groups[g].defined then all16.any fun h => has t.conflicts[g] h && !t.groups[h].defined
      else t.conflicts[g] != 0, .conflictUndefined),
     (all16.any fun h => has t.conflicts[g] h && !has t.conflicts[h] g, .asymmetric)]
    (.group g)

/-- Pass 3 on one ordered pair (R13). -/
def passPair (t : SafetyTable) (l g : GroupId) : Option Failure :=
  firstFailing
    [(conflictIn t l g && decide (t.intergreens[l][g] < endingPeriod t.groups[l] + 1), .igTooShort),
     (!conflictIn t l g && t.intergreens[l][g] != 0, .igNotZero)]
    (.pair l g)

/-- Pass 4 on one output (R14): the used ones are checked. -/
def passOutput (t : SafetyTable) (o : OutputId) : Option Failure :=
  let r := t.outputs[o]
  if r.used then
    firstFailing
      [(!t.groups[r.group].defined, .outputGroupUndefined),
       (r.colour == .amber && t.groups[r.group].kind == .crossing, .amberOnCrossing),
       (decide (r.dimNum ≤ r.failNum), .dimNotAboveFail)]
      (.output o)
  else none

/-- How many used outputs of a table serve a group in a colour (R14). -/
def countOf (t : SafetyTable) (g : GroupId) (c : Colour) : Nat :=
  allOutputs.countP fun o => t.outputs[o].used && t.outputs[o].group == g && t.outputs[o].colour == c

/-- Pass 5 on one group (R14): the defined ones are counted. -/
def passCounts (t : SafetyTable) (g : GroupId) : Option Failure :=
  if t.groups[g].defined then
    firstFailing
      [(decide (2 < countOf t g .red), .tooManyReds),
       (t.groups[g].kind == .vehicle && countOf t g .red == 0, .noRed),
       (countOf t g .green == 0, .noGreen)]
      (.group g)
  else none

/-- Whether two members of a set conflict in a table (R15, R23). -/
def membersConflict (t : SafetyTable) (x : Set16) : Bool :=
  all16.any fun l => has x l && all16.any fun g => has x g && conflictIn t l g

/-- Whether a set has a member that a table leaves undefined (R15, R23). -/
def memberUndefined (t : SafetyTable) (x : Set16) : Bool := all16.any fun g => has x g && !t.groups[g].defined

/-- Pass 6 on one stage (R15): the defined ones are checked. -/
def passStage (t : SafetyTable) (stages : Vector StageRec 16) (n : StageId) : Option Failure :=
  if stages[n].defined then
    firstFailing
      [(memberUndefined t stages[n].members, .stageMemberUndefined),
       (membersConflict t stages[n].members, .stageConflict)]
      (.stage n)
  else none

/-- The first failing check of the six passes in their order (R11); none where every check passes. -/
def validate (t : SafetyTable) (stages : Vector StageRec 16) : Option Failure :=
  (passTable t).or <|
    (all16.findSome? (passGroup t)).or <|
      (all16.findSome? fun l => all16.findSome? (passPair t l)).or <|
        (allOutputs.findSome? (passOutput t)).or <|
          (all16.findSome? (passCounts t)).or (all16.findSome? (passStage t stages))

/-- A check's reason code (R11). -/
def reasonCode (c : CheckFail) : Nat := c.ctorIdx + 1

/-- An element as ACTIVATE's value and REASON carry it (R204). -/
def elementCode (e : Element) : Nat :=
  match e with
  | .none => 0
  | .group g => number g
  | .pair l g => 16 * l.val + g.val
  | .output o => number o
  | .stage n => number n

/-! ### Installation (R16 to R19) -/

/-- Whether an output is changed between the table replaced, if any, and the new one (R18). -/
def outputChanged (old : Option SafetyTable) (t : SafetyTable) (o : OutputId) : Bool :=
  match old with
  | none => true
  | some u => u.outputs[o] != t.outputs[o]

/-- Whether a group is changed (R18): its record, its conflict row, its intergreen row, or a differing output record that
maps to it in either table. -/
def groupChanged (old : Option SafetyTable) (t : SafetyTable) (g : GroupId) : Bool :=
  match old with
  | none => true
  | some u =>
    u.groups[g] != t.groups[g] || u.conflicts[g] != t.conflicts[g] || u.intergreens[g] != t.intergreens[g] ||
      allOutputs.any fun o =>
        u.outputs[o] != t.outputs[o] && (u.outputs[o].group == g || t.outputs[o].group == g)

/-- A validated copy installed as the active table (R16): the signature, the marks, the outcome, the references and red
statuses that the change makes stale (R18), FLSEL (R19), and what the proving unit and the sequencer recompute from it
(R82, R145). The changed groups go to RED_UNTESTED in ascending order (log entry 61). -/
def install (t : SafetyTable) (s : State) : State :=
  let old := s.safety.active
  let s :=
    { s with
      safety :=
        { s.safety with
          active := some t, signature := signatureOf t, marks := ⟨false, false⟩, outcome := .activated } }
  let s := modService s fun r => { r with flsel := t.aspect }
  let s := forget (outputChanged old t) s
  let s := reexposeAll (recomposeAll s)
  recomputeBars (eachOf all16 (fun g u => if groupChanged old t g then setRed g .untested u else u) s)

/-- Both marks cleared and the last outcome set, at a comparison that installs nothing (R10, R11). -/
def activationFails (o : ActOutcome) (s : State) : State :=
  { s with safety := { s.safety with marks := ⟨false, false⟩, outcome := o } }

/-- The comparison of the copies and what follows it (R10, R11, R16). -/
def completePair (s : State) : Answer :=
  match firstDifference s.safety.copies.plan s.safety.copies.check with
  | some detail =>
    refuse .mismatch 0 (post .matrixMismatch .none false (some detail) (activationFails .mismatch s))
  | none =>
    let s := endFault .matrixMismatch .none s
    match validate s.safety.copies.plan s.stages with
    | some (c, e) => refuse .badValue (word (256 * reasonCode c + elementCode e)) (activationFails (.invalid c e) s)
    | none => done 2 (install s.safety.copies.plan s)

/-- ACTIVATE (R9): in HANDED_OVER it sets the requesting link's mark, and completes the pair where the other's is set. -/
def activateOp (l : Link) (s : State) : Answer :=
  if s.service.state != .handedOver then refuse .refusedState 0 s
  else
    let s := { s with safety := { s.safety with marks := s.safety.marks.set l true } }
    if s.safety.marks.get (otherLink l) then completePair s else done 1 s

/-- ACTIVATE (R9). -/
def execActivate (l : Link) (f : Fields) (s : State) : Host.Outcome State Fault Refusal :=
  .next (takeRequest l 0x11 f (activateOp l) s)

/-! ### The stage table (R22 to R24) -/

/-- Whether a step within the step count of a READY plan names a stage (R24). -/
def namedByReady (s : State) (n : StageId) : Bool :=
  (List.finRange 16).any fun p =>
    s.plans.plans[p].state == .ready &&
      (List.finRange 32).any fun k =>
        decide (k.val < s.plans.plans[p].stepCount) && s.plans.plans[p].steps[k].stage == some n

/-- A stage record written; the bars follow the stage table (R145; log entry 19). -/
def setStage (n : StageId) (r : StageRec) (s : State) : State :=
  recomputeBars { s with stages := s.stages.set n r }

/-- A stage defined with a member set (R23). -/
def defineStage (n : StageId) (x : Set16) (s : State) : Answer :=
  match s.safety.active with
  | some t =>
    if memberUndefined t x then refuse .badValue 0 s
    else if membersConflict t x then refuse .conflict 0 s
    else done 0 (setStage n { defined := true, members := x } s)
  | none => done 0 (setStage n { defined := true, members := x } s)

/-- A stage undefined (R24). -/
def undefineStage (n : StageId) (s : State) : Answer :=
  if namedByReady s n then refuse .planActive 0 s else done 0 (setStage n { defined := false, members := 0 } s)

/-- STAGE WRITE (R23, R24, R205; log entry 30). -/
def stageWriteOp (f : Fields) (s : State) : Answer :=
  if s.service.state != .handedOver then refuse .refusedState 0 s
  else
    match subject16 f.subject with
    | none => refuse .badSubject 0 s
    | some n =>
      match f.index.toNat with
      | 0 => defineStage n f.value s
      | 1 => undefineStage n s
      | _ => refuse .badSubject 0 s

/-- STAGE_WRITE (R23). -/
def execStageWrite (l : Link) (f : Fields) (s : State) : Host.Outcome State Fault Refusal :=
  .next (takeRequest l 0x12 f (stageWriteOp f) s)

/-! ### Reading (R21, R22) -/

/-- The items of SAFETY STATUS (R21; log entry 11). REASON's element is coded by R204's numbers, 0xFFFF for none (log
entry 50); COPY SIGNATURE, which is never absent, is one word (log entry 51). -/
def safetyStatusItem (l : Link) (f : Fields) (s : State) : Option (List Word16) :=
  match f.index.toNat with
  | 0 =>
    some
      [wordBool s.safety.active.isSome, wordBool s.safety.marks.plan, wordBool s.safety.marks.check,
       match s.safety.outcome with | .none => 0 | .activated => 1 | .mismatch => 2 | .invalid _ _ => 3]
  | 1 => some [wordBool s.safety.active.isSome, s.safety.signature]
  | 2 => some [signatureOf (s.safety.copies.get l)]
  | 3 =>
    match s.safety.outcome with
    | .invalid c .none => some [word (reasonCode c), wordAbsent]
    | .invalid c e => some [word (reasonCode c), word (elementCode e)]
    | _ => some [0, wordAbsent]
  | _ => none

/-- SAFETY_STATUS (R21). -/
def execSafetyStatus (l : Link) (f : Fields) (s : State) : Host.Outcome State Fault Refusal :=
  .next (takeRequest l 0x80 f (readItem l 0x80 f (safetyStatusItem l f)) s)

/-- The item of READ STAGE (R22; log entry 11): defined, and the member list as a set. -/
def stageItem (f : Fields) (s : State) : Option (List Word16) :=
  match subject16 f.subject, f.index.toNat with
  | some n, 0 => some [wordBool s.stages[n].defined, s.stages[n].members]
  | _, _ => none

/-- READ_STAGE (R22). -/
def execReadStage (l : Link) (f : Fields) (s : State) : Host.Outcome State Fault Refusal :=
  .next (takeRequest l 0x85 f (readItem l 0x85 f (stageItem f)) s)

end Sys2Proof.Machine
end

