-- ==== Sys2Proof/Machine/Dispatch.lean ====
section
/-! DEFINITION. The dispatch of a command to its meaning: one arm per constructor of Instr. -/

namespace Sys2Proof.Machine

def exec (i : Instr) (s : State) : Host.Outcome State Fault Refusal :=
  match i with
  | .powerOnReset contacts => Sys2Proof.Machine.execPowerOnReset contacts s
  | .nop l f => Sys2Proof.Machine.execNop l f s
  | .discardedFrame l clocks => Sys2Proof.Machine.execDiscardedFrame l clocks s
  | .unknownRequest l code f => Sys2Proof.Machine.execUnknownRequest l code f s
  | .safetyWrite l f => Sys2Proof.Machine.execSafetyWrite l f s
  | .activate l f => Sys2Proof.Machine.execActivate l f s
  | .stageWrite l f => Sys2Proof.Machine.execStageWrite l f s
  | .cardSet l f => Sys2Proof.Machine.execCardSet l f s
  | .inputSet l f reading ms => Sys2Proof.Machine.execInputSet l f reading ms s
  | .setLayout l f => Sys2Proof.Machine.execSetLayout l f s
  | .planWrite l f => Sys2Proof.Machine.execPlanWrite l f s
  | .planClose l f => Sys2Proof.Machine.execPlanClose l f s
  | .planErase l f => Sys2Proof.Machine.execPlanErase l f s
  | .startPlan l f => Sys2Proof.Machine.execStartPlan l f s
  | .selectPlan l f => Sys2Proof.Machine.execSelectPlan l f s
  | .demand l f => Sys2Proof.Machine.execDemand l f s
  | .extend l f => Sys2Proof.Machine.execExtend l f s
  | .priorityCall l f => Sys2Proof.Machine.execPriorityCall l f s
  | .cancelPriority l f => Sys2Proof.Machine.execCancelPriority l f s
  | .allRed l f => Sys2Proof.Machine.execAllRed l f s
  | .setClock l f => Sys2Proof.Machine.execSetClock l f s
  | .restoreOffer l f => Sys2Proof.Machine.execRestoreOffer l f s
  | .restore l f => Sys2Proof.Machine.execRestore l f s
  | .handover l f => Sys2Proof.Machine.execHandover l f s
  | .vouch l f => Sys2Proof.Machine.execVouch l f s
  | .serviceRestart l f => Sys2Proof.Machine.execServiceRestart l f s
  | .relearn l f => Sys2Proof.Machine.execRelearn l f s
  | .clearRecord l f => Sys2Proof.Machine.execClearRecord l f s
  | .setAttention l f => Sys2Proof.Machine.execSetAttention l f s
  | .safetyStatus l f => Sys2Proof.Machine.execSafetyStatus l f s
  | .readGroup l f => Sys2Proof.Machine.execReadGroup l f s
  | .readOutput l f => Sys2Proof.Machine.execReadOutput l f s
  | .readCard l f => Sys2Proof.Machine.execReadCard l f s
  | .readLine l f => Sys2Proof.Machine.execReadLine l f s
  | .readStage l f => Sys2Proof.Machine.execReadStage l f s
  | .readPlan l f => Sys2Proof.Machine.execReadPlan l f s
  | .readSequencer l f => Sys2Proof.Machine.execReadSequencer l f s
  | .readInput l f ms => Sys2Proof.Machine.execReadInput l f ms s
  | .readNextNotice l f => Sys2Proof.Machine.execReadNextNotice l f s
  | .readRecord l f => Sys2Proof.Machine.execReadRecord l f s
  | .readClock l f => Sys2Proof.Machine.execReadClock l f s
  | .readInvestigation l f => Sys2Proof.Machine.execReadInvestigation l f s
  | .mainsCrossing period since => Sys2Proof.Machine.execMainsCrossing period since s
  | .mainsTimeout => Sys2Proof.Machine.execMainsTimeout s
  | .paceTimerExpiry => Sys2Proof.Machine.execPaceTimerExpiry s
  | .switch => Sys2Proof.Machine.execSwitch s
  | .poll => Sys2Proof.Machine.execPoll s
  | .window line rx => Sys2Proof.Machine.execWindow line rx s
  | .replyAllowanceEnd line => Sys2Proof.Machine.execReplyAllowanceEnd line s
  | .pollSlotClose => Sys2Proof.Machine.execPollSlotClose s
  | .frameStop line => Sys2Proof.Machine.execFrameStop line s
  | .lineJam line => Sys2Proof.Machine.execLineJam line s
  | .timingUnit => Sys2Proof.Machine.execTimingUnit s
  | .endingPeriodEnd g => Sys2Proof.Machine.execEndingPeriodEnd g s
  | .redAmberTime g => Sys2Proof.Machine.execRedAmberTime g s
  | .greenTime g => Sys2Proof.Machine.execGreenTime g s
  | .gatingDeadlineExpiry g => Sys2Proof.Machine.execGatingDeadlineExpiry g s
  | .extensionHoldExpiry g => Sys2Proof.Machine.execExtensionHoldExpiry g s
  | .priorityExpired stage => Sys2Proof.Machine.execPriorityExpired stage s
  | .callServiceExpiry => Sys2Proof.Machine.execCallServiceExpiry s
  | .retryTimerExpiry card => Sys2Proof.Machine.execRetryTimerExpiry card s
  | .watchTimerExpiry card => Sys2Proof.Machine.execWatchTimerExpiry card s
  | .restoreOfferExpiry => Sys2Proof.Machine.execRestoreOfferExpiry s
  | .startTimerExpiry => Sys2Proof.Machine.execStartTimerExpiry s
  | .vouchTimerExpiry => Sys2Proof.Machine.execVouchTimerExpiry s
  | .changeoverTimerExpiry => Sys2Proof.Machine.execChangeoverTimerExpiry s
  | .twoKeyTimerExpiry => Sys2Proof.Machine.execTwoKeyTimerExpiry s
  | .inputSample n reading => Sys2Proof.Machine.execInputSample n reading s
  | .cleaningTimerExpiry n => Sys2Proof.Machine.execCleaningTimerExpiry n s
  | .attentionReleaseEnd l => Sys2Proof.Machine.execAttentionReleaseEnd l s

end Sys2Proof.Machine
end

