-- ==== Sys2Proof/Safety.lean ====
section
/-! DEFINITION. What the statements speak of: the answer a link holds after a good frame, the answer of a read, the
invariants of the part, what a decision may change and chooses, the interstage it starts, a completion, a
step that begins and a force-off point, and the numeric fields of the tables with their ranges. -/

namespace Sys2Proof.Machine

/-! ### Answers -/

/-- What a link's port holds after a good frame that is no read (R199 to R202, R206): the frame, the response with the
summary of the state t after it, no frame error, and the snapshot it held; the other port is untouched. -/
structure Answered (l : Link) (code : Byte) (f : Fields) (r : Result) (v : Word16) (s t : State) : Prop where
  other : t.ports.get (otherLink l) = s.ports.get (otherLink l)
  own :
    t.ports.get l =
      { receiver := { clocks := 40, bits := frameBits code f }
        response := { result := r, summary := summaryOf l (s.ports.get l).frameError t, code := code, value := v }
        frameError := false
        snapshot := (s.ports.get l).snapshot }

/-- A command completes as a request of a link that answers r with value v: everything but the ports is then as in u. -/
def Responds (i : Instr) (l : Link) (code : Byte) (f : Fields) (r : Result) (v : Word16) (s u : State) : Prop :=
  ∃ t, exec i s = .next t ∧ Answered l code f r v s t ∧ t = { u with ports := t.ports }

/-- What a link's port holds after a read whose subject and index name the words item, or no item (R206). -/
structure ReadAnswered (l : Link) (code : Byte) (f : Fields) (r : Result) (v : Word16) (x : Option Snapshot)
    (s t : State) : Prop where
  other : t.ports.get (otherLink l) = s.ports.get (otherLink l)
  own :
    t.ports.get l =
      { receiver := { clocks := 40, bits := frameBits code f }
        response := { result := r, summary := summaryOf l (s.ports.get l).frameError t, code := code, value := v }
        frameError := false
        snapshot := x }

/-- A read completes and changes nothing but its link's port, which then holds r, v and the snapshot x. -/
def Reads (i : Instr) (l : Link) (code : Byte) (f : Fields) (r : Result) (v : Word16) (x : Option Snapshot)
    (s : State) : Prop :=
  ∃ t, exec i s = .next t ∧ ReadAnswered l code f r v x s t ∧ t = { s with ports := t.ports }

/-- The words of the item that a read other than READ NEXT NOTICE names; none for every other command. -/
def readWords (i : Instr) (s : State) : Option (List Word16) :=
  match i with
  | .safetyStatus l f => safetyStatusItem l f s
  | .readGroup _ f => groupItem f s
  | .readOutput _ f => readOutputItem f s
  | .readCard _ f => cardItem f s
  | .readLine _ f => lineItem f s
  | .readStage _ f => stageItem f s
  | .readPlan _ f => planItem f s
  | .readSequencer _ f => sequencerItem f s
  | .readInput _ f ms => inputItem f ms s
  | .readRecord _ f => readRecordItem f s
  | .readClock _ f => clockItem f s
  | .readInvestigation _ f => investigationItem f s
  | _ => none

/-- Whether a command is a read other than READ NEXT NOTICE (R203). -/
def isRead (i : Instr) : Bool :=
  match i with
  | .safetyStatus _ _ | .readGroup _ _ | .readOutput _ _ | .readCard _ _ | .readLine _ _ | .readStage _ _
  | .readPlan _ _ | .readSequencer _ _ | .readInput _ _ _ | .readRecord _ _ | .readClock _ _
  | .readInvestigation _ _ => true
  | _ => false

/-! ### Invariants -/

/-- HOLD is held exactly in STARTING and SERVICE, and FLSEL holds the aspect of the installed table, DARK before the
first (R154). -/
def OutputsFollow (s : State) : Prop :=
  s.service.hold = (s.service.state != .handedOver) ∧
    s.service.flsel = (match s.safety.active with | some t => t.aspect | none => .dark)

/-- What the blocks hold in each service state (R125, R126, R153, R156, R164): in HANDED_OVER the sequencer is as a
handover leaves it, no plan has a role and the timers of service are absent; in STARTING it is in START_RED with every
group at rest; in SERVICE it is in INTERSTAGE or STAGE. Outside HANDED_OVER no offer stands, a plan is active and
the vouch timer is present; the start timer is present in STARTING alone (R164, R165). -/
structure ServiceOk (s : State) : Prop where
  stopped :
    s.service.state = .handedOver →
      sequencerStopped s.seq = s.seq ∧ s.plans.active = none ∧ s.plans.pending = none ∧ s.service.start = none ∧
        s.service.vouch = none ∧ s.service.twoKey = none
  starting :
    s.service.state = .starting →
      s.seq.phase = .startRed ∧ s.plans.pending = none ∧ ∀ g : GroupId, groupStopped s.seq.units s.seq.groups[g] = s.seq.groups[g]
  serving : s.service.state = .service → s.seq.phase = .interstage ∨ s.seq.phase = .stage
  active : s.service.state ≠ .handedOver → s.service.offer = none ∧ s.plans.active.isSome
  timed :
    (s.service.state = .starting → s.service.start.isSome) ∧ (s.service.state = .service → s.service.start = none) ∧
      (s.service.state ≠ .handedOver → s.service.vouch.isSome)

/-- Each plan in a role is READY (R111, R113, R116). -/
def RolesReady (s : State) : Prop :=
  ∀ p : PlanId, planInUse s p = true → s.plans.plans[p].state = .ready

/-- The priority-call list (R141): four calls at most, no two for one stage. -/
def CallsOk (s : State) : Prop := s.seq.calls.length ≤ 4 ∧ (s.seq.calls.map (·.stage)).Nodup

/-- Exposures are as R79 gives them, no two conflicting groups are exposed in STARTING or SERVICE (R80), and a group is
GREEN only there (R127, R131). -/
structure GreensApart (s : State) : Prop where
  fresh : ∀ g : GroupId, s.proving.groups[g].exposed = exposedNow s g
  service : ∀ g : GroupId, s.seq.groups[g].aspect = .green → s.service.state ≠ .handedOver
  apart :
    s.service.state ≠ .handedOver →
      ∀ l g : GroupId, l ≠ g → conflict s l g = true →
        ¬(s.proving.groups[l].exposed = true ∧ s.proving.groups[g].exposed = true)

/-- Every commanded state is the one composed by R66. -/
def CommandsFresh (s : State) : Prop := ∀ o : OutputId, s.proving.outputs[o].commanded = commandOf s o

/-- A record of the fault table: its level (section 10.2); not one that R188 or R189 has CLEARED already; and not one
that R193 removes. -/
structure RecordOk (r : Record) : Prop where
  level : r.level = levelOf r.kind r.subject
  settled : clearsNow r = false
  unread : ¬(r.active = false ∧ r.seen.plan = true ∧ r.seen.check = true)
  count : 1 ≤ r.count ∧ r.count ≤ 255

/-- The fault table (R184 to R195): one record for a kind and subject, the change order a list of the held slots, each
once, and each attention line as the condition gives it but for the 50 µs release. -/
structure TableOk (t : FaultTable) : Prop where
  one :
    ∀ (i j : SlotId) (r q : Record),
      t.slots[i] = some r → t.slots[j] = some q → r.kind = q.kind → r.subject = q.subject → i = j
  held : ∀ i : SlotId, i ∈ t.order ↔ t.slots[i].isSome = true
  once : t.order.Nodup
  records : ∀ (i : SlotId) (r : Record), t.slots[i] = some r → RecordOk r
  line : ∀ l : Link, (t.attention.get l).line = (attentionDue t l && !(t.attention.get l).released)

/-- No output is under two open investigations (R95). -/
def InvestigationsOk (s : State) : Prop :=
  ∀ (i j : InvSlot) (v w : Investigation),
    s.cable.investigations[i] = some v → s.cable.investigations[j] = some w → v.x = w.x → i = j

/-- The card line (R33): no more than three sent patterns. -/
def PatternsOk (s : State) : Prop := s.line.patterns.length ≤ 3

/-- The bar set is the one that R145 gives: the defined stages whose member set holds a group in conflict with a group in
RED_LOSS. -/
def BarsFresh (s : State) : Prop := s.seq.bars = barsNow s

/-- All of the part's invariants together. -/
structure PartOk (s : State) : Prop where
  outputs : OutputsFollow s
  service : ServiceOk s
  roles : RolesReady s
  calls : CallsOk s
  greens : GreensApart s
  commands : CommandsFresh s
  table : TableOk s.faults
  investigations : InvestigationsOk s
  patterns : PatternsOk s
  bars : BarsFresh s

/-! ### What a decision may change -/

/-- What a decision event leaves as it is (R137): the queue, the ports, the safety and stage tables, the card line, the
engine, the inputs, the junction clock and unit count, the cards' trip and feeder fields and the stored plans. -/
structure DecisionKeeps (s t : State) : Prop where
  pending : t.pending = s.pending
  ports : t.ports = s.ports
  safety : t.safety = s.safety
  stages : t.stages = s.stages
  line : t.line = s.line
  engine : t.engine = s.engine
  inputs : t.inputs = s.inputs
  clock : t.seq.clock = s.seq.clock
  units : t.seq.units = s.seq.units
  cards : t.cable.cards = s.cable.cards
  feeders : t.cable.feeders = s.cable.feeders
  layout : t.plans.layout = s.plans.layout
  plans : t.plans.plans = s.plans.plans
  start : t.plans.start = s.plans.start
  checkPeriod : t.service.checkPeriod = s.service.checkPeriod
  flsel : t.service.flsel = s.service.flsel
  offer : t.service.offer = s.service.offer

/-! ### Decisions and interstages (chapter 7) -/

/-- A step of a plan that qualifies, with its stage (R134): the stage is in no bar set, and a demand-dependent step finds
its stage's latch set. -/
def StepQualifies (s : State) (p : Plan) (n : StepNo) (g : StageId) : Prop :=
  p.steps[n].stage = some g ∧ has s.seq.bars g = false ∧ (p.steps[n].demandDependent = true → has s.seq.latches g = true)

/-- A scan of a plan from a step, counted from 0, over count steps in cyclic order (R134): the first that qualifies is the
target, and none is where no step does. -/
structure ScanGives (s : State) (p : Plan) (start count : Nat) : Prop where
  found :
    ∀ (k : Nat) (n : StepNo) (g : StageId), k < count → n.val = (start + k) % p.stepCount → StepQualifies s p n g →
      (∀ (j : Nat) (m : StepNo) (h : StageId), j < k → m.val = (start + j) % p.stepCount → ¬StepQualifies s p m h) →
        scan s = some (.step n g)
  missed :
    (∀ (k : Nat) (n : StepNo) (g : StageId), k < count → n.val = (start + k) % p.stepCount → ¬StepQualifies s p n g) →
      scan s = none

/-- No priority call holds what runs: none is in service with units left (R136, R143). -/
def NoCallHolds (s : State) : Prop := ∀ c, s.seq.service = some c → c.units = 0

/-- The min green floor of every group of a set has elapsed since its green start (R133, R136). -/
def FloorsOver (s : State) (x : Set16) : Prop :=
  ∀ (g : GroupId) (t : Nat), has x g = true → s.seq.groups[g].greenStart = some t →
    t + (groupRec s g).minGreenFloor ≤ s.seq.units

/-- Whether what runs may end toward a target, the losing groups given (R136), but for condition (a), the barred set. -/
def MayEnd (s : State) (t : Target) (losing : Set16) : Prop :=
  s.seq.designation = some .s0 ∨
  s.seq.designation = some .residual ∧ FloorsOver s losing ∨
  s.seq.designation = some .call ∧ NoCallHolds s ∧ FloorsOver s losing ∨
  s.seq.designation = some .step ∧ NoCallHolds s ∧ FloorsOver s losing ∧
    ∃ p n, activePlan s = some p ∧ s.seq.stepIndex = some n ∧
      ((∀ k g, t ≠ .step k g) ∧ max 1 p.steps[n].minGreen ≤ s.seq.minCount ∨
        (∃ k g, t = .step k g) ∧
          (max 1 p.steps[n].minGreen ≤ s.seq.minCount ∧
              (∀ g : GroupId, has s.seq.current g = true → s.seq.groups[g].hold = 0) ∨
            p.steps[n].maxGreen ≤ s.seq.maxCount ∨
            p.mode = .linked ∧ (∃ u, s.seq.forceOff = .reached u) ∧ max 1 p.steps[n].minGreen ≤ s.seq.minCount))

/-- A losing group of an interstage that starts in s, as it stands in u (R129). -/
structure EndsGreen (s u : State) (g : GroupId) : Prop where
  vehicle :
    (groupRec s g).kind = .vehicle →
      u.seq.groups[g].aspect = .amber ∧ u.seq.groups[g].endAt = some (s.seq.units + (groupRec s g).amber)
  crossing :
    (groupRec s g).kind = .crossing →
      ((groupRec s g).blackout = 0 → u.seq.groups[g].aspect = .red ∧ u.seq.groups[g].endAt = none) ∧
      (0 < (groupRec s g).blackout →
        u.seq.groups[g].aspect = .blackout ∧
          u.seq.groups[g].endAt = some (s.seq.units + (groupRec s g).blackout))
  lastEnd : s.seq.groups[g].aspect = .green → u.seq.groups[g].lastEnd = some s.seq.units

/-- A gaining group of an interstage that starts in s, as it stands in u (R130): D is the largest of its red-amber time and
what remains of each intergreen from a conflicting group's last green end. -/
def Scheduled (s u : State) (g : GroupId) : Prop :=
  ∃ D : Nat,
    u.seq.groups[g] =
        { s.seq.groups[g] with
          redAmberAt :=
            if redAmberTimeOf (groupRec s g) = 0 then none else some (s.seq.units + D - redAmberTimeOf (groupRec s g))
          greenAt := some (s.seq.units + D)
          deadline := some (s.seq.units + D + 20) } ∧
      redAmberTimeOf (groupRec s g) ≤ D ∧
      (∀ (l : GroupId) (e : Nat), conflict s l g = true → u.seq.groups[l].lastEnd = some e →
        e + (activeTable s).intergreens[l][g] ≤ s.seq.units + D) ∧
      (D = redAmberTimeOf (groupRec s g) ∨
        ∃ (l : GroupId) (e : Nat), conflict s l g = true ∧ u.seq.groups[l].lastEnd = some e ∧
          e + (activeTable s).intergreens[l][g] = s.seq.units + D)

/-! ### Completions, steps and force-off points (chapter 7) -/

/-- A stage that starts running, or runs on under another step, takes its listed call into service (R143): s before, u
after; where none is listed the call service is kept. -/
structure CallTaken (s : State) (g : StageId) (kept : Option CallService) (u : Sequencer) : Prop where
  listed :
    ∀ (c : Call) (before after : List Call), s.seq.calls = before ++ c :: after → (∀ d ∈ before, d.stage ≠ g) →
      c.stage = g →
        u.calls = s.seq.calls.filter (fun d => d.stage != g) ∧ u.service = some { stage := g, units := c.duration }
  unlisted : (∀ c ∈ s.seq.calls, c.stage ≠ g) → u.calls = s.seq.calls ∧ u.service = kept

/-- A step of a plan that starts running for its stage (R132, R133, R138, R139, R149): s before, u after. -/
structure StepBegins (s : State) (p : Plan) (n : StepNo) (g : StageId) (u : Sequencer) : Prop where
  step : u.designation = some .step ∧ u.stepIndex = some n ∧ u.resume = none ∧ u.minCount = 0 ∧ u.maxCount = 0
  latches : ∀ h : StageId, has u.latches h = (has s.seq.latches h && h != g)
  plain : p.mode = .isolated ∨ p.steps[n].forceOff = none → u.forceOff = .none ∧ u.overrun = false
  waiting :
    ∀ f, p.mode = .linked → p.steps[n].forceOff = some f → u.position ≠ some (10 * f) →
      u.forceOff = .waiting ∧ u.overrun = false
  atPoint :
    ∀ f, p.mode = .linked → p.steps[n].forceOff = some f → u.position = some (10 * f) →
      u.forceOff = .reached s.seq.units ∧ u.overrun = true

/-- An interstage complete toward a target (R132): s before, u after. -/
structure Completes (s : State) (t : Target) (u : State) : Prop where
  rest :
    u =
      { s with
        seq :=
          { u.seq with
            phase := .stage, current := targetSet s t, target := none, groups := s.seq.groups, allRed := s.seq.allRed
            bars := s.seq.bars, clock := s.seq.clock, units := s.seq.units, position := s.seq.position } }
  s0 :
    t = .s0 →
      u.seq = { s.seq with phase := .stage, current := targetSet s t, target := none, designation := some .s0 }
  call :
    ∀ g, t = .call g →
      u.seq =
          { s.seq with
            phase := .stage, current := targetSet s t, target := none, designation := some .call
            latches := u.seq.latches, calls := u.seq.calls, service := u.seq.service } ∧
        (∀ h : StageId, has u.seq.latches h = (has s.seq.latches h && h != g)) ∧
        CallTaken s g (some { stage := g, units := 0 }) u.seq
  step :
    ∀ n g p, t = .step n g → activePlan s = some p → StepBegins s p n g u.seq ∧ CallTaken s g s.seq.service u.seq

/-- The force-off state where the cycle position passes the points that meet a test (R138, R149, R150): s before, u after.
A WAITING force-off at a point passed is REACHED, with the overrun flag set where the step's min green or a floor of the
current set has not elapsed. -/
structure ForceOffPasses (passed : Nat → Prop) (s u : State) : Prop where
  taken :
    ∀ r f, runningStep s = some r → s.seq.forceOff = .waiting → r.forceOff = some f → passed (10 * f) →
      u.seq.forceOff = .reached u.seq.units ∧
        (u.seq.overrun = true ↔
          s.seq.overrun = true ∨ ¬(max 1 r.minGreen ≤ u.seq.minCount ∧ FloorsOver u u.seq.current))
  kept :
    (s.seq.forceOff ≠ .waiting ∨ ∀ r f, runningStep s = some r → r.forceOff = some f → ¬passed (10 * f)) →
      u.seq.forceOff = s.seq.forceOff ∧ u.seq.overrun = s.seq.overrun

/-! ### Numeric fields with their ranges (R2, R3, R6, R106, R107, R205) -/

/-- A numeric field: its index in SAFETY WRITE, or PLAN WRITE, its least and greatest values, and its place in a record. -/
structure NumField (α : Type) where
  index : Byte
  least : Nat
  most : Nat
  put : Nat → α → α

/-- The numeric fields of a group record. -/
def groupFields : List (NumField GroupRec) :=
  [⟨2, 20, 60, fun n r => { r with amber := n }⟩, ⟨3, 0, 30, fun n r => { r with redAmber := n }⟩,
   ⟨4, 0, 100, fun n r => { r with blackout := n }⟩, ⟨5, 10, 300, fun n r => { r with minGreenFloor := n }⟩]

/-- The numeric fields of an output map record. -/
def outputFields : List (NumField OutputRec) :=
  [⟨3, 8, 400, fun n r => { r with minOn := n }⟩, ⟨4, 4, 200, fun n r => { r with offLimit := n }⟩,
   ⟨5, 4, 14, fun n r => { r with failNum := n }⟩, ⟨6, 5, 15, fun n r => { r with dimNum := n }⟩,
   ⟨7, 2, 14, fun n r => { r with openNum := n }⟩]

/-- The numeric fields of a plan record, with the slot size its layout gives. -/
def planFields (slot : Nat) : List (NumField Plan) :=
  [⟨1, 20, 240, fun n r => { r with cycle := n }⟩, ⟨2, 0, 239, fun n r => { r with offset := n }⟩,
   ⟨3, 1, slot, fun n r => { r with stepCount := n }⟩]

/-- The numeric fields of a step record; the index is the field's number in bits 7 to 5 of PLAN WRITE's. -/
def stepFields : List (NumField Step) :=
  [⟨1, 0, 1200, fun n r => { r with minGreen := n }⟩, ⟨2, 1, 2400, fun n r => { r with maxGreen := n }⟩]

end Sys2Proof.Machine
end

