-- ==== Sys2Proof/WellFormed.lean ====
section
/-! DEFINITION. Which commands can reach the block: an operand that would make the command another row is ill-formed. -/

namespace Sys2Proof

/-- A command is well formed when its operands spell its own row. A request that the catalogue does not grant to its
link is UNKNOWN_REQUEST (R203), and UNKNOWN_REQUEST carries no code that is granted. A discarded frame has a clock count
other than 40 (R201). A received frame has at least its kind character (R30). A sample's time since the last one is
shorter than the longest interval (R172). -/
def WellFormed (i : Instr) : Bool :=
  match i with
  | .unknownRequest l code _ => !granted l code
  | .discardedFrame _ clocks => clocks != 40
  | .window _ rx => !rx.chars.isEmpty
  | .inputSet l _ _ ms => granted l 0x19 && ms < 16
  | .readInput _ _ ms => ms < 16
  | .powerOnReset _ | .mainsCrossing _ _ | .mainsTimeout | .paceTimerExpiry | .switch | .poll
  | .replyAllowanceEnd _ | .pollSlotClose | .frameStop _ | .lineJam _ | .timingUnit | .endingPeriodEnd _
  | .redAmberTime _ | .greenTime _ | .gatingDeadlineExpiry _ | .extensionHoldExpiry _ | .priorityExpired _
  | .callServiceExpiry | .retryTimerExpiry _ | .watchTimerExpiry _ | .restoreOfferExpiry | .startTimerExpiry
  | .vouchTimerExpiry | .changeoverTimerExpiry | .twoKeyTimerExpiry | .inputSample _ _ | .cleaningTimerExpiry _
  | .attentionReleaseEnd _ => true
  | .nop l _ => granted l 0x00
  | .safetyWrite l _ => granted l 0x10
  | .activate l _ => granted l 0x11
  | .stageWrite l _ => granted l 0x12
  | .cardSet l _ => granted l 0x18
  | .setLayout l _ => granted l 0x20
  | .planWrite l _ => granted l 0x21
  | .planClose l _ => granted l 0x22
  | .planErase l _ => granted l 0x23
  | .startPlan l _ => granted l 0x24
  | .selectPlan l _ => granted l 0x25
  | .demand l _ => granted l 0x30
  | .extend l _ => granted l 0x31
  | .priorityCall l _ => granted l 0x32
  | .cancelPriority l _ => granted l 0x33
  | .allRed l _ => granted l 0x34
  | .setClock l _ => granted l 0x35
  | .restoreOffer l _ => granted l 0x40
  | .restore l _ => granted l 0x41
  | .handover l _ => granted l 0x42
  | .vouch l _ => granted l 0x43
  | .serviceRestart l _ => granted l 0x44
  | .relearn l _ => granted l 0x48
  | .clearRecord l _ => granted l 0x50
  | .setAttention l _ => granted l 0x51
  | .safetyStatus l _ => granted l 0x80
  | .readGroup l _ => granted l 0x81
  | .readOutput l _ => granted l 0x82
  | .readCard l _ => granted l 0x83
  | .readLine l _ => granted l 0x84
  | .readStage l _ => granted l 0x85
  | .readPlan l _ => granted l 0x86
  | .readSequencer l _ => granted l 0x87
  | .readNextNotice l _ => granted l 0x89
  | .readRecord l _ => granted l 0x8A
  | .readClock l _ => granted l 0x8B
  | .readInvestigation l _ => granted l 0x8C

end Sys2Proof
end

