-- ==== Sys2Proof/Certificates/Slice0/Obligations.lean ====
section
/-! DEFINITION. The statements for the provers. Requests are stated for the links that have the right to them; a request
over a link without the right is the subject of RequestWithoutRightIsRefused. -/

open Sys2Proof Sys2Proof.Machine

/-! ### The queue and the reset -/

/-- A step takes the command at the front of the queue and runs it on the state with the queue's rest. On an empty queue
the block idles (the model's choice: log entry 4). -/
def Obligations.StepTakesTheFrontCommand : Prop :=
  (∀ (c : Instr) (rest : List Instr) (s : State),
     step { s with pending := c :: rest } = exec c { s with pending := rest }) ∧
  (∀ s : State, s.pending = [] → step s = .next s)

/-- The power-on values of every block: the service controller (R153), the safety and stage tables (R1 to R6, R22), the
mains, card records, lines and exchange (R25, R29, R33, R38, R41, R46, R48), the engine (R49, R57), the proving unit
(R65), the cards' trip and leakage fields, the feeders and the investigations (R84, R85), the plan memory (R105 to
R107), the sequencer (R122, R123), the contact inputs before their first sample (R172; log entry 6), the fault table
with its thresholds, lines and change order (R184) and the link ports (R199). The model's own fields stand at the
values of log entries 9 (receiver), 14 (entryIp), 33 (sent) and 47 (crossed, lastSlotTook, released). POWER_ON_RESET
returns every holding to its power-on value, but for the commands that wait, and takes the first sample of every
input, a filter reset (R153, R172). -/
def Obligations.ResetHoldings : Prop :=
  (State.reset.service =
       { state := .handedOver, hold := false, flsel := .dark, offer := none, checkPeriod := 10, start := none,
         vouch := none, changeover := none, twoKey := none } ∧
     State.reset.safety =
       { copies := ⟨SafetyTable.empty, SafetyTable.empty⟩, marks := ⟨false, false⟩, active := none, signature := 0,
         outcome := .none } ∧
     SafetyTable.empty.startPeriod = 50 ∧ SafetyTable.empty.aspect = .dark ∧
     (∀ g : GroupId,
       SafetyTable.empty.groups[g] =
           { defined := false, kind := .vehicle, amber := 30, redAmber := 20, blackout := 0, minGreenFloor := 60 } ∧
         SafetyTable.empty.conflicts[g] = 0 ∧ ∀ h : GroupId, SafetyTable.empty.intergreens[g][h] = 0) ∧
     (∀ o : OutputId,
       SafetyTable.empty.outputs[o] =
         { used := false, group := 0, colour := .red, minOn := 40, offLimit := 24, failNum := 10, dimNum := 13,
           openNum := 8 }) ∧
     (∀ n : StageId, State.reset.stages[n] = { defined := false, members := 0 })) ∧
  (State.reset.line.mains =
       { c := 0, state := .lost, lastPeriod := 0, outRun := 0, inRun := 0, pace := true, crossed := false } ∧
     State.reset.line.patterns = [] ∧
     (∀ c : CardId,
       State.reset.line.cards[c] =
         { configured := false, coreCount := 8, online := false, lastCycle := none, missing := 0, goodRun := 0,
           mismatch := false, faulted := ⟨0, 0⟩, leakAlarm := 60, leakTrip := 250, retryEnable := true,
           senseTimeout := 12, lastSlotTook := false }) ∧
     (∀ l : LineId, State.reset.line.lines.get l = { state := .good, errors := 0, goodRun := 0, sent := [] }) ∧
     State.reset.line.exchange =
       { running := false, switchSent := false, toPoll := [], slot := none, cores := [], residuals := [] } ∧
     (∀ o : OutputId,
       State.reset.engine.cores[o] =
           { acc :=
               { settling := true, count := 0, sumA := 0, sumB := 0, overrange := false, held := none, lastCycle := none }
             figures := none, ref := none, qref := none, history := Vector.replicate 16 none } ∧
         State.reset.proving.outputs[o] =
           { commanded := false, applied := none, state := .senseLost, failing := 0, echo := false, sense := 0,
             entryIp := 0 } ∧
         State.reset.cable.feeders[o] = { count := 0, opened := false }) ∧
     (∀ c : CardId,
       State.reset.engine.residuals[c] =
           { acc :=
               { settling := true, count := 0, sumA := 0, sumB := 0, overrange := false, held := none, lastCycle := none }
             figures := none } ∧
         State.reset.cable.cards[c] =
           { tripped := false, latched := false, retryTimer := none, watchTimer := none, alarm := false, alarmRun := 0,
             clearRun := 0, tripRun := 0, lastL := none }) ∧
     (∀ g : GroupId, State.reset.proving.groups[g] = { red := .untested, exposed := false }) ∧
     (∀ i : InvSlot, State.reset.cable.investigations[i] = none)) ∧
  (State.reset.plans.layout = .l8x16 ∧ State.reset.plans.start = none ∧ State.reset.plans.active = none ∧
     State.reset.plans.pending = none ∧
     (∀ p : PlanId,
       State.reset.plans.plans[p] =
         { state := .empty, mode := .isolated, cycle := 60, offset := 0, stepCount := 1, closeReason := none,
           steps :=
             Vector.replicate 32
               { stage := none, minGreen := 50, maxGreen := 300, demandDependent := false, forceOff := none } }) ∧
     State.reset.seq =
       { phase := .stopped, designation := none, current := 0, target := none, stepIndex := none, resume := none,
         minCount := 0, maxCount := 0, forceOff := .none, overrun := false,
         groups := Vector.replicate 16
           { aspect := .red, redAmberAt := none, greenAt := none, endAt := none, deadline := none, greenStart := none,
             lastEnd := none, hold := 0 }
         latches := 0, calls := [], service := none, allRed := false, bars := 0, clock := 0, units := 0,
         position := none } ∧
     (∀ i : InputId,
       State.reset.inputs[i] =
         { function := .none, stage := 0, edge := .closed, interval := 4, filter := 3, lastSample := none,
           sampleCount := 0, level := .opened, wetting := .openSense, cleaning := none, edgeCount := 0 }) ∧
     (∀ i : SlotId, State.reset.faults.slots[i] = none) ∧ State.reset.faults.order = [] ∧
     State.reset.faults.overflow = false ∧
     (∀ l : Link,
       State.reset.faults.attention.get l = { threshold := 0, line := false, released := false } ∧
         State.reset.ports.get l =
           { receiver := { clocks := 0, bits := 0 }
             response := { result := .done, summary := 0, code := 0, value := 0 }
             frameError := false
             snapshot := none }) ∧
     State.reset.pending = []) ∧
  (∀ (contacts : Set16) (s : State),
     ∃ t, exec (.powerOnReset contacts) s = .next t ∧
       t = { State.reset with pending := s.pending, inputs := t.inputs } ∧
       ∀ i : InputId,
         t.inputs[i] =
           if has contacts i then
             { Input.initial with lastSample := some .closed, level := .closed, wetting := .holding }
           else { Input.initial with lastSample := some .opened, level := .opened, wetting := .openSense })

/-- Every invariant of the part holds right after reset. -/
def Obligations.InvariantsHoldAtReset : Prop := PartOk State.reset

/-! ### The link ports -/

/-- NOP answers DONE with value 0 and carries no action (R200). A frame of another clock count than 40 leaves
FRAME_ERROR pending with its count, sets the frame-error flag, and changes nothing else (R201); the receiver then shows
the count and keeps the bits of the last frame taken, which is the model's choice (log entry 9). -/
def Obligations.NopAndDiscardedFrame : Prop :=
  (∀ (l : Link) (f : Fields) (s : State), Responds (.nop l f) l 0x00 f .done 0 s s) ∧
  (∀ (l : Link) (clocks : Nat) (s : State),
     clocks ≠ 40 →
       ∃ t, exec (.discardedFrame l clocks) s = .next t ∧ t = { s with ports := t.ports } ∧
         t.ports.get (otherLink l) = s.ports.get (otherLink l) ∧
         t.ports.get l =
           { receiver := { clocks := clocks, bits := (s.ports.get l).receiver.bits }
             response :=
               { result := .frameError, summary := summaryOf l true s, code := 0x00,
                 value := BitVec.ofNat 16 (min 65535 clocks) }
             frameError := true
             snapshot := (s.ports.get l).snapshot })

/-- A request that the catalogue does not grant to its link is answered REFUSED_RIGHT, and no block sees it (R203).
Among them is every UNKNOWN_REQUEST whose code the link has no right to: it answers a next state. -/
def Obligations.RequestWithoutRightIsRefused : Prop :=
  ∀ (i : Instr) (l : Link) (code : Byte) (f : Fields) (s : State),
    requestParts i = some (l, code, f) → granted l code = false → Responds i l code f .refusedRight 0 s s

/-- The 40 bits of every well-formed request decode to that request (R200, R203). -/
def Obligations.DecodeOfEncodedRequestIsTheRequest : Prop :=
  ∀ (i : Instr) (l : Link) (w : BitVec 40),
    Sys2Proof.WellFormed i = true → encodeFrame i = some (l, w) → decodeFrame l w (sideReading i) (sideMs i) = i

/-- Every frame of 40 bits decodes to a request whose 40 bits they are, and which is well formed (R200, R203). -/
def Obligations.EncodeOfDecodedFrameIsTheFrame : Prop :=
  ∀ (l : Link) (w : BitVec 40) (reading : Level) (ms : Nat),
    ms < 16 →
      encodeFrame (decodeFrame l w reading ms) = some (l, w) ∧ Sys2Proof.WellFormed (decodeFrame l w reading ms) = true

/-- A read of word 0 takes the item into its link's snapshot and answers its first word; a later word comes from a
snapshot of the same code, subject and index; past the end, or without such a snapshot, the read is refused and the
snapshot is kept. No read changes anything else (R206; BAD_SUBJECT for a subject or index that names no item, and
which of the two refusals a later word takes: log entry 10). The reads are SAFETY_STATUS, READ_GROUP, READ_OUTPUT,
READ_CARD, READ_LINE, READ_STAGE, READ_PLAN, READ_SEQUENCER, READ_INPUT, READ_RECORD, READ_CLOCK and
READ_INVESTIGATION; each answers a next state on every state and operand. -/
def Obligations.ReadsAnswerThroughTheSnapshot : Prop :=
  ∀ (i : Instr) (l : Link) (code : Byte) (f : Fields) (s : State),
    isRead i = true → requestParts i = some (l, code, f) →
      (f.value = 0 →
        (∀ w ws, readWords i s = some (w :: ws) →
          Reads i l code f .done w (some { code := code, subject := f.subject, index := f.index, words := w :: ws }) s) ∧
        (readWords i s = none → Reads i l code f .badSubject 0 (s.ports.get l).snapshot s)) ∧
      (f.value ≠ 0 →
        (∀ x w, (s.ports.get l).snapshot = some x → x.code = code → x.subject = f.subject → x.index = f.index →
          x.words[f.value.toNat]? = some w → Reads i l code f .done w (some x) s) ∧
        ((∀ x, (s.ports.get l).snapshot = some x → x.code = code → x.subject = f.subject → x.index = f.index →
            x.words[f.value.toNat]? = none) →
          Reads i l code f (if (readWords i s).isSome then .badValue else .badSubject) 0 (s.ports.get l).snapshot s))

/-- The words of some items: READ STAGE (R22), READ CLOCK (R124, R206), SAFETY STATUS's signatures (R17, R21; COPY
SIGNATURE as the one CRC word: log entry 51), READ GROUP's intergreens (R83, R206), READ CARD's counts and READ LINE
(R47), READ PLAN's ROLES of the memory (R121), READ SEQUENCER's latches (R152) and a FREE investigation (R104); the
sets and flags inside them, and their place in the count of items, as log entry 11 lays them out; a subject sent with
READ SEQUENCER's latches is ignored, which is the model's reading (log entry 79). -/
def Obligations.ItemsHoldTheirWords : Prop :=
  ∀ (l : Link) (v : Word16) (s : State),
    (∀ n : StageId,
      readWords (.readStage l ⟨BitVec.ofNat 8 (number n), 0, v⟩) s =
        some [wordBool s.stages[n].defined, s.stages[n].members]) ∧
    (∀ u : Byte,
      readWords (.readClock l ⟨u, 0, v⟩) s =
        some [word (s.seq.clock / 65536), word (s.seq.clock % 65536), wordOpt s.seq.position]) ∧
    (∀ u : Byte,
      readWords (.safetyStatus l ⟨u, 1, v⟩) s = some [wordBool s.safety.active.isSome, s.safety.signature] ∧
        readWords (.safetyStatus l ⟨u, 2, v⟩) s = some [crcOf (canonical (s.safety.copies.get l))]) ∧
    (∀ g : GroupId,
      readWords (.readGroup l ⟨BitVec.ofNat 8 (number g), 3, v⟩) s =
        some (all16.map fun h => word (activeTable s).intergreens[g][h])) ∧
    (∀ c : CardId,
      readWords (.readCard l ⟨BitVec.ofNat 8 (number c), 2, v⟩) s =
        some
          [word s.line.cards[c].missing, word s.line.cards[c].goodRun, word s.line.cards[c].faulted.a,
           word s.line.cards[c].faulted.b]) ∧
    readWords (.readLine l ⟨1, 0, v⟩) s =
      some
        [match s.line.lines.a.state with | .good => 0 | .degraded => 1 | .jammed => 2, word s.line.lines.a.errors,
         word s.line.lines.a.goodRun] ∧
    readWords (.readPlan l ⟨0, 1, v⟩) s =
      some
        [wordOpt (s.plans.start.map number), wordOpt (s.plans.active.map number),
         wordOpt (s.plans.pending.map fun q => number q.plan), wordOpt (s.plans.pending.map fun q => q.wrap.toNat),
         wordBool (transferDue s)] ∧
    (∀ u : Byte, readWords (.readSequencer l ⟨u, 3, v⟩) s = some [s.seq.latches]) ∧
    (∀ i : InvSlot,
      s.cable.investigations[i] = none →
        readWords (.readInvestigation l ⟨BitVec.ofNat 8 i.val, 0, v⟩) s = some [0])

/-! ### The safety table and the stage table -/

/-- SAFETY WRITE changes one field of the requesting link's own copy and clears its mark; a write refused changes
nothing (R7). -/
def Obligations.SafetyWriteChangesOwnCopy : Prop :=
  ∀ (l : Link) (f : Fields) (s : State),
    (∀ t, writeCopy (s.safety.copies.get l) f = .ok t →
      Responds (.safetyWrite l f) l 0x10 f .done 0 s
        { s with
          safety := { s.safety with copies := s.safety.copies.set l t, marks := s.safety.marks.set l false } }) ∧
    (∀ r, writeCopy (s.safety.copies.get l) f = .error r → Responds (.safetyWrite l f) l 0x10 f r 0 s s)

/-- Each field of the safety table that SAFETY WRITE names is stored where its value names one, and refused with
BAD_VALUE where it does not (R2 to R7, R205): the global record, every field of a group record and of an output map
record, the conflict rows and the intergreens. ACTIVATE outside HANDED_OVER is refused with REFUSED_STATE; in
HANDED_OVER, with the other copy not marked, it marks the requesting link's copy and answers 1, waiting (R9). The second
ACTIVATE of a pair compares the copies. Where they differ it answers MISMATCH and posts MATRIX_MISMATCH with the first
part that differs; where they are equal but fail a check it answers BAD_VALUE with the check and its element. Either way
both marks are cleared and the active table is kept (R10, R11, R204). -/
def Obligations.SafetyWriteFieldRangesAndActivate : Prop :=
  (∀ (t : SafetyTable) (v : Word16),
     writeCopy t ⟨0, 0, v⟩ =
       (if 30 ≤ v.toNat ∧ v.toNat ≤ 100 then .ok { t with startPeriod := v.toNat } else .error .badValue) ∧
     writeCopy t ⟨0, 1, v⟩ =
       (if v = 0 then .ok { t with aspect := .dark }
        else if v = 1 then .ok { t with aspect := .flash }
        else .error .badValue) ∧
     (∀ g : GroupId,
       writeCopy t ⟨BitVec.ofNat 8 (number g), 0, v⟩ =
         (if v = 0 then .ok { t with groups := t.groups.set g { t.groups[g] with defined := false } }
          else if v = 1 then .ok { t with groups := t.groups.set g { t.groups[g] with defined := true } }
          else .error .badValue) ∧
       writeCopy t ⟨BitVec.ofNat 8 (number g), 1, v⟩ =
         (if v = 0 then .ok { t with groups := t.groups.set g { t.groups[g] with kind := .vehicle } }
          else if v = 1 then .ok { t with groups := t.groups.set g { t.groups[g] with kind := .crossing } }
          else .error .badValue) ∧
       (∀ r ∈ groupFields,
         writeCopy t ⟨BitVec.ofNat 8 (number g), r.index, v⟩ =
           if r.least ≤ v.toNat ∧ v.toNat ≤ r.most then
             .ok { t with groups := t.groups.set g (r.put v.toNat t.groups[g]) }
           else .error .badValue) ∧
       writeCopy t ⟨BitVec.ofNat 8 (number g), 6, v⟩ = .ok { t with conflicts := t.conflicts.set g v } ∧
       ∀ h : GroupId,
         writeCopy t ⟨BitVec.ofNat 8 (number g), BitVec.ofNat 8 (0x10 + h.val), v⟩ =
           if v.toNat ≤ 255 then
             .ok { t with intergreens := t.intergreens.set g (t.intergreens[g].set h v.toNat) }
           else .error .badValue) ∧
     (∀ o : OutputId,
       writeCopy t ⟨BitVec.ofNat 8 (0x40 + o.val), 0, v⟩ =
         (if v = 0 then .ok { t with outputs := t.outputs.set o { t.outputs[o] with used := false } }
          else if v = 1 then .ok { t with outputs := t.outputs.set o { t.outputs[o] with used := true } }
          else .error .badValue) ∧
       (∀ g : GroupId, v.toNat = number g →
         writeCopy t ⟨BitVec.ofNat 8 (0x40 + o.val), 1, v⟩ =
           .ok { t with outputs := t.outputs.set o { t.outputs[o] with group := g } }) ∧
       (v = 0 ∨ 16 < v.toNat → writeCopy t ⟨BitVec.ofNat 8 (0x40 + o.val), 1, v⟩ = .error .badValue) ∧
       writeCopy t ⟨BitVec.ofNat 8 (0x40 + o.val), 2, v⟩ =
         (if v = 0 then .ok { t with outputs := t.outputs.set o { t.outputs[o] with colour := .red } }
          else if v = 1 then .ok { t with outputs := t.outputs.set o { t.outputs[o] with colour := .amber } }
          else if v = 2 then .ok { t with outputs := t.outputs.set o { t.outputs[o] with colour := .green } }
          else .error .badValue) ∧
       ∀ r ∈ outputFields,
         writeCopy t ⟨BitVec.ofNat 8 (0x40 + o.val), r.index, v⟩ =
           if r.least ≤ v.toNat ∧ v.toNat ≤ r.most then
             .ok { t with outputs := t.outputs.set o (r.put v.toNat t.outputs[o]) }
           else .error .badValue)) ∧
  (∀ (l : Link) (f : Fields) (s : State),
     (s.service.state ≠ .handedOver → Responds (.activate l f) l 0x11 f .refusedState 0 s s) ∧
     (s.service.state = .handedOver → s.safety.marks.get (otherLink l) = false →
       Responds (.activate l f) l 0x11 f .done 1 s
         { s with safety := { s.safety with marks := s.safety.marks.set l true } })) ∧
  (∀ (l : Link) (f : Fields) (s : State),
     s.service.state = .handedOver → s.safety.marks.get (otherLink l) = true →
       (s.safety.copies.plan ≠ s.safety.copies.check →
         ∃ detail, firstDifference s.safety.copies.plan s.safety.copies.check = some detail ∧
           Responds (.activate l f) l 0x11 f .mismatch 0 s
             (post .matrixMismatch .none false (some detail)
               { s with safety := { s.safety with marks := ⟨false, false⟩, outcome := .mismatch } })) ∧
       (∀ c e, s.safety.copies.plan = s.safety.copies.check → validate s.safety.copies.plan s.stages = some (c, e) →
         Responds (.activate l f) l 0x11 f .badValue (word (256 * reasonCode c + elementCode e)) s
           (endFault .matrixMismatch .none
             { s with safety := { s.safety with marks := ⟨false, false⟩, outcome := .invalid c e } })))

/-- The second ACTIVATE of a pair of equal copies that pass every check installs them and answers 2 (R16 to R19): the
active table is the copy with its signature, FLSEL takes its handover aspect, the references of every changed output
are absent and every changed group is RED_UNTESTED. -/
def Obligations.ActivateInstallsEqualCopies : Prop :=
  ∀ (l : Link) (f : Fields) (s : State),
    s.service.state = .handedOver → s.seq.phase = .stopped → s.safety.marks.get (otherLink l) = true →
    s.safety.copies.plan = s.safety.copies.check → validate s.safety.copies.plan s.stages = none →
      ∃ t, exec (.activate l f) s = .next t ∧ Answered l 0x11 f .done 2 s t ∧
        t.safety =
          { copies := s.safety.copies, marks := ⟨false, false⟩, active := some s.safety.copies.plan,
            signature := crcOf (canonical s.safety.copies.plan), outcome := .activated } ∧
        t.service = { s.service with flsel := s.safety.copies.plan.aspect } ∧
        (∀ o : OutputId,
          t.engine.cores[o] =
            if outputChanged s.safety.active s.safety.copies.plan o then
              { s.engine.cores[o] with ref := none, qref := none }
            else s.engine.cores[o]) ∧
        (∀ g : GroupId,
          t.proving.groups[g].red =
            if groupChanged s.safety.active s.safety.copies.plan g then .untested else s.proving.groups[g].red) ∧
        t.stages = s.stages ∧ t.line = s.line ∧ t.cable = s.cable ∧ t.plans = s.plans ∧ t.inputs = s.inputs ∧
        t.pending = s.pending

/-- The checks of an activation pass exactly on the tables that R12 to R15 allow. -/
def Obligations.ValidationPassesExactlyTheAllowedTables : Prop :=
  ∀ (t : SafetyTable) (stages : Vector StageRec 16),
    validate t stages = none ↔
      (∃ g : GroupId, t.groups[g].defined = true) ∧
      (∀ g h : GroupId, has t.conflicts[g] h = true →
        h ≠ g ∧ t.groups[g].defined = true ∧ t.groups[h].defined = true ∧ has t.conflicts[h] g = true) ∧
      (∀ l g : GroupId,
        (conflictIn t l g = true → endingPeriod t.groups[l] + 1 ≤ t.intergreens[l][g]) ∧
        (conflictIn t l g = false → t.intergreens[l][g] = 0)) ∧
      (∀ o : OutputId, t.outputs[o].used = true →
        t.groups[t.outputs[o].group].defined = true ∧
        ¬(t.outputs[o].colour = .amber ∧ t.groups[t.outputs[o].group].kind = .crossing) ∧
        t.outputs[o].failNum < t.outputs[o].dimNum) ∧
      (∀ g : GroupId, t.groups[g].defined = true →
        countOf t g .red ≤ 2 ∧ (t.groups[g].kind = .vehicle → 1 ≤ countOf t g .red) ∧ 1 ≤ countOf t g .green) ∧
      (∀ n : StageId, stages[n].defined = true →
        ∀ g : GroupId, has stages[n].members g = true →
          t.groups[g].defined = true ∧
          ∀ h : GroupId, has stages[n].members h = true → conflictIn t g h = false)

/-- STAGE WRITE (R23, R24) in HANDED_OVER defines a stage with a set whose groups are defined and do not conflict in the
active table, any set while none is active; with a member that the active table leaves undefined it is refused with
BAD_VALUE, and else with two members that conflict there with CONFLICT. It undefines a stage that no READY plan names.
The bars are those of the new stage table (log entry 19). Outside HANDED_OVER it is refused with REFUSED_STATE. -/
def Obligations.StageWriteDefinesAndUndefines : Prop :=
  ∀ (n : StageId) (v : Word16) (s : State),
    (s.service.state ≠ .handedOver → ∀ f : Fields, Responds (.stageWrite .plan f) .plan 0x12 f .refusedState 0 s s) ∧
    (s.service.state = .handedOver →
      (∀ t, s.safety.active = some t →
        (∀ g : GroupId, has v g = true → t.groups[g].defined = true) ∧
          ∀ g h : GroupId, has v g = true → has v h = true → conflictIn t g h = false) →
      Responds (.stageWrite .plan ⟨BitVec.ofNat 8 (number n), 0, v⟩) .plan 0x12 ⟨BitVec.ofNat 8 (number n), 0, v⟩ .done 0 s
        (recomputeBars { s with stages := s.stages.set n { defined := true, members := v } })) ∧
    (∀ t, s.service.state = .handedOver → s.safety.active = some t →
      ((∃ g : GroupId, has v g = true ∧ t.groups[g].defined = false) →
        Responds (.stageWrite .plan ⟨BitVec.ofNat 8 (number n), 0, v⟩) .plan 0x12 ⟨BitVec.ofNat 8 (number n), 0, v⟩
          .badValue 0 s s) ∧
      ((∀ g : GroupId, has v g = true → t.groups[g].defined = true) →
        (∃ g h : GroupId, has v g = true ∧ has v h = true ∧ conflictIn t g h = true) →
          Responds (.stageWrite .plan ⟨BitVec.ofNat 8 (number n), 0, v⟩) .plan 0x12 ⟨BitVec.ofNat 8 (number n), 0, v⟩
            .conflict 0 s s)) ∧
    (s.service.state = .handedOver → namedByReady s n = false →
      Responds (.stageWrite .plan ⟨BitVec.ofNat 8 (number n), 1, v⟩) .plan 0x12 ⟨BitVec.ofNat 8 (number n), 1, v⟩ .done 0 s
        (recomputeBars { s with stages := s.stages.set n { defined := false, members := 0 } })) ∧
    (s.service.state = .handedOver → namedByReady s n = true →
      Responds (.stageWrite .plan ⟨BitVec.ofNat 8 (number n), 1, v⟩) .plan 0x12 ⟨BitVec.ofNat 8 (number n), 1, v⟩
        .planActive 0 s s)

/-! ### The card line -/

/-- CARD SET (R46) in HANDED_OVER stores one field of a card record and changes nothing else; present = yes on a card
that is not configured makes it a SILENT card with its counts cleared, and the value of present that it already holds
changes nothing. A card added again has no most recent poll slot, which is the model's choice (log entry 52). present =
no on a configured card returns its record to power-on but for the fields written by CARD
SET, restarts its accumulations (R64), cancels its trip, leakage and feeder fields and the investigations of its
outputs, takes its outputs off the candidates of the others (R103), and leaves its outputs in SENSE_LOST (R82), those of
a TRIPPED card too (log entry 48). Outside HANDED_OVER it is refused. -/
def Obligations.CardSetStoresOneField : Prop :=
  ∀ (c : CardId) (v : Word16) (s : State),
    (s.service.state ≠ .handedOver → ∀ f : Fields, Responds (.cardSet .plan f) .plan 0x18 f .refusedState 0 s s) ∧
    (s.service.state = .handedOver →
      (s.line.cards[c].configured = false →
        Responds (.cardSet .plan ⟨BitVec.ofNat 8 (number c), 0, 1⟩) .plan 0x18 ⟨BitVec.ofNat 8 (number c), 0, 1⟩ .done 0 s
          (modCard s c fun r =>
            { r with
              configured := true, online := false, lastCycle := none, missing := 0, goodRun := 0, mismatch := false,
              faulted := ⟨0, 0⟩, lastSlotTook := false })) ∧
      (∀ b : Bool, s.line.cards[c].configured = b → v = (if b then 1 else 0) →
        Responds (.cardSet .plan ⟨BitVec.ofNat 8 (number c), 0, v⟩) .plan 0x18 ⟨BitVec.ofNat 8 (number c), 0, v⟩ .done 0 s
          s) ∧
      (s.line.cards[c].configured = true →
        ∃ t, exec (.cardSet .plan ⟨BitVec.ofNat 8 (number c), 0, 0⟩) s = .next t ∧
          Answered .plan 0x18 ⟨BitVec.ofNat 8 (number c), 0, 0⟩ .done 0 s t ∧
          t.line =
            { s.line with
              cards :=
                s.line.cards.set c
                  { s.line.cards[c] with
                    configured := false, online := false, lastCycle := none, missing := 0, goodRun := 0,
                    mismatch := false, faulted := ⟨0, 0⟩, lastSlotTook := false } } ∧
          t.cable.cards = s.cable.cards.set c { CableCard.initial with lastL := s.cable.cards[c].lastL } ∧
          (∀ o : OutputId,
            t.cable.feeders[o] = (if cardOf o = c then { count := 0, opened := false } else s.cable.feeders[o]) ∧
            t.proving.outputs[o].state = (if cardOf o = c then .senseLost else s.proving.outputs[o].state) ∧
            t.engine.cores[o] =
              if cardOf o = c then { s.engine.cores[o] with acc := restartAccum s.engine.cores[o].acc }
              else s.engine.cores[o]) ∧
          (∀ k : CardId,
            t.engine.residuals[k] =
              if k = c then { s.engine.residuals[k] with acc := restartAccum s.engine.residuals[k].acc }
              else s.engine.residuals[k]) ∧
          (∀ (i : InvSlot) (x : Investigation), s.cable.investigations[i] = some x →
            t.cable.investigations[i] =
              if cardOf x.x = c then none
              else some { x with candidates := x.candidates.filter fun o => cardOf o != c }) ∧
          t.safety = s.safety ∧ t.stages = s.stages ∧ t.inputs = s.inputs ∧ t.plans.plans = s.plans.plans ∧
          t.pending = s.pending) ∧
      (∀ b : Bool, v = (if b then 1 else 0) →
        Responds (.cardSet .plan ⟨BitVec.ofNat 8 (number c), 4, v⟩) .plan 0x18 ⟨BitVec.ofNat 8 (number c), 4, v⟩ .done 0 s
          (modCard s c fun r => { r with retryEnable := b })) ∧
      (1 ≤ v.toNat → v.toNat ≤ 8 →
        Responds (.cardSet .plan ⟨BitVec.ofNat 8 (number c), 1, v⟩) .plan 0x18 ⟨BitVec.ofNat 8 (number c), 1, v⟩ .done 0 s
          (modCard s c fun r => { r with coreCount := v.toNat })) ∧
      (8 ≤ v.toNat → v.toNat ≤ 1000 → v.toNat < s.line.cards[c].leakTrip →
        Responds (.cardSet .plan ⟨BitVec.ofNat 8 (number c), 2, v⟩) .plan 0x18 ⟨BitVec.ofNat 8 (number c), 2, v⟩ .done 0 s
          (modCard s c fun r => { r with leakAlarm := v.toNat })) ∧
      (9 ≤ v.toNat → v.toNat ≤ 2000 → s.line.cards[c].leakAlarm < v.toNat →
        Responds (.cardSet .plan ⟨BitVec.ofNat 8 (number c), 3, v⟩) .plan 0x18 ⟨BitVec.ofNat 8 (number c), 3, v⟩ .done 0 s
          (modCard s c fun r => { r with leakTrip := v.toNat })) ∧
      (10 ≤ v.toNat → v.toNat ≤ 50 →
        Responds (.cardSet .plan ⟨BitVec.ofNat 8 (number c), 5, v⟩) .plan 0x18 ⟨BitVec.ofNat 8 (number c), 5, v⟩ .done 0 s
          (modCard s c fun r => { r with senseTimeout := v.toNat })))

/-- The mains at a recognised crossing (R26 to R29), the period and the time since the last cycle start in ticks: the
first measures nothing, one within 8 ms is not recognised, an in-range period counts and the eighth in LOST makes the
mains VALID, an out-of-range period counts; in VALID a cycle start follows where 8 ms have passed since the last. A
value of exactly 64,000 ticks counts as 8 ms passed, which is the model's choice (log entry 1). -/
def Obligations.MainsCrossingCountsPeriods : Prop :=
  ∀ (period since : Nat) (s : State),
    (s.line.mains.crossed = false →
      exec (.mainsCrossing period since) s = .next (modMains s fun m => { m with crossed := true })) ∧
    (s.line.mains.crossed = true → period < 64000 → exec (.mainsCrossing period since) s = .next s) ∧
    (s.line.mains.crossed = true → 123077 ≤ period → period ≤ 177777 →
      (s.line.mains.state = .valid → since < 64000 →
        exec (.mainsCrossing period since) s =
          .next (modMains s fun m => { m with lastPeriod := period, outRun := 0, inRun := min 8 (m.inRun + 1) })) ∧
      (s.line.mains.state = .valid → 64000 ≤ since →
        exec (.mainsCrossing period since) s =
          .next
            (cycleStart (modMains s fun m => { m with lastPeriod := period, outRun := 0, inRun := min 8 (m.inRun + 1) }))) ∧
      (s.line.mains.state = .lost → s.line.mains.inRun < 7 →
        exec (.mainsCrossing period since) s =
          .next (modMains s fun m => { m with lastPeriod := period, outRun := 0, inRun := m.inRun + 1 })) ∧
      (s.line.mains.state = .lost → s.line.mains.inRun = 7 → since < 64000 →
        exec (.mainsCrossing period since) s =
          .next
            (modMains s fun m =>
              { m with lastPeriod := period, outRun := 0, inRun := 8, state := .valid, pace := false })) ∧
      (s.line.mains.state = .lost → s.line.mains.inRun = 7 → 64000 ≤ since →
        exec (.mainsCrossing period since) s =
          .next
            (cycleStart
              (modMains s fun m =>
                { m with lastPeriod := period, outRun := 0, inRun := 8, state := .valid, pace := false })))) ∧
    (s.line.mains.crossed = true → 64000 ≤ period → (period < 123077 ∨ 177777 < period) →
      (s.line.mains.state = .lost ∨ s.line.mains.outRun < 2 ∧ since < 64000 →
        exec (.mainsCrossing period since) s =
          .next
            (modMains s fun m => { m with lastPeriod := period, outRun := min 3 (m.outRun + 1), inRun := 0 })) ∧
      (s.line.mains.state = .valid → s.line.mains.outRun < 2 → 64000 ≤ since →
        exec (.mainsCrossing period since) s =
          .next
            (cycleStart
              (modMains s fun m => { m with lastPeriod := period, outRun := min 3 (m.outRun + 1), inRun := 0 }))))

/-- The mains become LOST at 25 ms without a crossing and at the third out-of-range period in a row (R28): the part is
handed over (R155, R156), every accumulation of a core or a residual channel is
restarted (R64), every sense count is 0 (R82), the in-range count is 0
and the pace timer runs. The crossing that loses the mains starts no cycle, so the cycle number and the exchange stand
(log entry 24). In LOST the timeout changes nothing, which is the model's choice (log entry 5). -/
def Obligations.MainsLossHandsOver : Prop :=
  ∀ (c : Instr) (s : State),
    (s.line.mains.state = .lost → exec .mainsTimeout s = .next s) ∧
    (s.line.mains.state = .valid →
      (c = .mainsTimeout ∨
        ∃ period since, c = .mainsCrossing period since ∧ s.line.mains.crossed = true ∧ 64000 ≤ period ∧
          (period < 123077 ∨ 177777 < period) ∧ s.line.mains.outRun = 2) →
      ∃ t, exec c s = .next t ∧
        t.line.mains.state = .lost ∧ t.line.mains.inRun = 0 ∧ t.line.mains.pace = true ∧
        t.line.mains.c = s.line.mains.c ∧ t.service.state = .handedOver ∧
        (∀ o : OutputId,
          t.proving.outputs[o].sense = 0 ∧ t.proving.outputs[o].state = s.proving.outputs[o].state ∧
            t.engine.cores[o] = { s.engine.cores[o] with acc := restartAccum s.engine.cores[o].acc }) ∧
        (∀ k : CardId,
          t.engine.residuals[k] = { s.engine.residuals[k] with acc := restartAccum s.engine.residuals[k].acc }) ∧
        t.line.cards = s.line.cards ∧ t.line.lines = s.line.lines ∧ t.line.exchange = s.line.exchange ∧
        t.ports = s.ports ∧ t.safety = s.safety ∧ t.stages = s.stages ∧ t.inputs = s.inputs ∧
        t.plans.plans = s.plans.plans ∧ t.pending = s.pending)

/-- The pace timer's expiry is a cycle start (R27); with the pace timer stopped nothing changes, which is the model's choice
(log entry 5). A cycle start, at a crossing or at the pace timer (R29, R45, R57): the cycle number advances modulo 16,
every core's history entry for the cycle that ends is unknown, and a new exchange begins over the configured cards, its
SWITCH not yet sent; the list of cards is fixed there (log entry 26). Where the old exchange has ended nothing else
changes. Where it runs it is cut short: each configured card not yet polled has one more missing reply and its
good-reply run 0, at the tenth it is SILENT with its outputs in SENSE_LOST, and in VALID its cores and residual channel
are restarted with the history entry of the old cycle's last cycle number unknown, in the order of log entry 62; every
other card record is kept. A slot still open runs on as one of the old cycle, and the measurements wait for its close;
with none open they are delivered then, in VALID to the cable supervisor (R86) and in LOST to nobody (log entry 25). -/
def Obligations.PaceTimerStartsACycle : Prop :=
  (∀ s : State,
     (s.line.mains.pace = false → exec .paceTimerExpiry s = .next s) ∧
     (s.line.mains.pace = true → exec .paceTimerExpiry s = .next (cycleStart s))) ∧
  (∀ s t : State, t = cycleStart s →
     t.line.mains = { s.line.mains with c := cycleNext s.line.mains.c } ∧
     (∀ o : OutputId, t.engine.cores[o].history[s.line.mains.c] = none) ∧
     t.line.exchange.running = true ∧ t.line.exchange.switchSent = false ∧
     t.line.exchange.toPoll = (allCards.filter fun c => s.line.cards[c].configured) ∧
     t.line.patterns = s.line.patterns ∧ t.line.lines = s.line.lines ∧
     t.ports = s.ports ∧ t.safety = s.safety ∧ t.stages = s.stages ∧ t.inputs = s.inputs ∧ t.pending = s.pending ∧
     (s.line.exchange.running = false →
       t = { s with line := t.line, engine := t.engine } ∧ t.line.cards = s.line.cards ∧
       t.line.exchange =
         { s.line.exchange with running := true, switchSent := false, toPoll := t.line.exchange.toPoll } ∧
       t.engine.residuals = s.engine.residuals ∧
       ∀ o : OutputId,
         t.engine.cores[o] =
           { s.engine.cores[o] with history := s.engine.cores[o].history.set s.line.mains.c none })) ∧
  (∀ s t u v : State, s.line.exchange.running = true → s.line.exchange.toPoll.Nodup → t = cycleStart s →
     u =
       eachOf (s.line.exchange.toPoll.filter fun c => s.line.cards[c].configured)
         (fun c w => notifyMissing c (cycleBack s.line.mains.c 1) (noReply c w)) s →
     v = eachOf s.line.exchange.residuals evaluateLeak (eachOf s.line.exchange.cores deliverCore u) →
       (∀ c : CardId,
         (c ∈ s.line.exchange.toPoll → s.line.cards[c].configured = true →
           t.line.cards[c] =
               { s.line.cards[c] with
                 missing := min 255 (s.line.cards[c].missing + 1), goodRun := 0
                 online := s.line.cards[c].online && s.line.cards[c].missing + 1 != 10 } ∧
             (s.line.cards[c].online = true → s.line.cards[c].missing = 9 →
               ∀ o : OutputId, cardOf o = c → s.proving.outputs[o].state ≠ .isolated →
                 u.proving.outputs[o].state = .senseLost) ∧
             (s.line.mains.state = .valid →
               t.engine.residuals[c] =
                   { s.engine.residuals[c] with acc := restartAccum s.engine.residuals[c].acc } ∧
                 ∀ o : OutputId, cardOf o = c →
                   t.engine.cores[o] =
                     { s.engine.cores[o] with
                       acc := restartAccum s.engine.cores[o].acc
                       history :=
                         (s.engine.cores[o].history.set (cycleBack s.line.mains.c 1) none).set s.line.mains.c none })) ∧
         (c ∉ s.line.exchange.toPoll ∨ s.line.cards[c].configured = false → t.line.cards[c] = s.line.cards[c]) ∧
         (c ∉ s.line.exchange.toPoll ∨ s.line.cards[c].configured = false ∨ s.line.mains.state = .lost →
           t.engine.residuals[c] = s.engine.residuals[c] ∧
             ∀ o : OutputId, cardOf o = c →
               t.engine.cores[o] =
                 { s.engine.cores[o] with history := s.engine.cores[o].history.set s.line.mains.c none })) ∧
       u.cable.feeders = s.cable.feeders ∧ u.cable.cards = s.cable.cards ∧
       (∀ x, s.line.exchange.slot = some x →
         t = { u with line := t.line, engine := t.engine } ∧ t.line.exchange.slot = some { x with old := true } ∧
         t.line.exchange.cores = s.line.exchange.cores ∧ t.line.exchange.residuals = s.line.exchange.residuals) ∧
       (s.line.exchange.slot = none →
         t.line.exchange.slot = none ∧ t.line.exchange.cores = [] ∧ t.line.exchange.residuals = [] ∧
         (s.line.mains.state = .lost → t = { u with line := t.line, engine := t.engine }) ∧
         (s.line.mains.state = .valid → t = { v with line := t.line, engine := t.engine })))

/-- SWITCH is sent once in a running exchange, with no slot open (R33): the commanded states of that moment, OFF for an
unconfigured card (R208; log entry 49), and the next cycle's number are the newest of the sent patterns, three at most,
even where both lines are JAMMED (log entry 32), and the frame goes out on every line that is not JAMMED, which holds it
as the last frame sent (log entry 33). Otherwise nothing changes, which is the model's choice (log entry 5). POLL opens
the next card's slot after the SWITCH, once the slot before is closed (R35): the slot expects the cycle just ended; on a
JAMMED line the copy is missing and nothing is sent. Otherwise nothing changes (log entry 5). -/
def Obligations.SwitchAndPollRunTheExchange : Prop :=
  (∀ s : State,
     (s.line.exchange.running = false ∨ s.line.exchange.switchSent = true ∨ s.line.exchange.slot ≠ none →
       exec .switch s = .next s) ∧
     (s.line.exchange.running = true → s.line.exchange.switchSent = false → s.line.exchange.slot = none →
       ∃ (t : State) (x : Pattern), exec .switch s = .next t ∧
         x.cycle = cycleNext s.line.mains.c ∧
         (∀ o : OutputId,
           x.states[o] = (s.line.cards[cardOf o].configured && s.proving.outputs[o].commanded)) ∧
         t.line.patterns = x :: s.line.patterns.take 2 ∧ t.line.exchange.switchSent = true ∧
         (∀ l : LineId,
           t.line.lines.get l =
             if (s.line.lines.get l).state = .jammed then s.line.lines.get l
             else { s.line.lines.get l with sent := switchFrame x.cycle x.states }) ∧
         t.line.mains = s.line.mains ∧ t.line.cards = s.line.cards ∧
         (s.line.exchange.toPoll ≠ [] → t = { s with line := t.line }) ∧
         (s.line.exchange.toPoll = [] → t.line.exchange.running = false))) ∧
  (∀ s : State,
     (s.line.exchange.running = false ∨ s.line.exchange.switchSent = false ∨ s.line.exchange.slot ≠ none ∨
         s.line.exchange.toPoll = [] →
       exec .poll s = .next s) ∧
     (∀ c rest, s.line.exchange.running = true → s.line.exchange.switchSent = true → s.line.exchange.slot = none →
       s.line.exchange.toPoll = c :: rest →
         ∃ (t : State) (x : Slot), exec .poll s = .next t ∧ t = { s with line := t.line } ∧
           t.line.exchange = { s.line.exchange with toPoll := rest, slot := some x } ∧
           x.card = c ∧ x.expect = cycleBack s.line.mains.c 1 ∧ x.took = false ∧ x.old = false ∧
           (∀ l : LineId,
             x.verdict.get l = (if (s.line.lines.get l).state = .jammed then some .missing else none) ∧
             t.line.lines.get l =
               if (s.line.lines.get l).state = .jammed then s.line.lines.get l
               else { s.line.lines.get l with sent := pollFrame c }) ∧
           t.line.mains = s.line.mains ∧ t.line.cards = s.line.cards ∧ t.line.patterns = s.line.patterns))

/-- Every frame closed by its CRC passes the CRC test (R31): computed over all its characters, the CRC is 0. -/
def Obligations.FramesSentPassTheirCrc : Prop := ∀ chars : List Byte, crcHolds (withCrc chars) = true

/-- A received frame is a good copy exactly where it is well formed, its CRC holds, it is a WINDOW, its address is the
polled card's and its cycle number is the one expected (R36). A frame received in an open slot (R36, R37): outside a
slot it is discarded; a copy that is not good, or comes after the window was taken, leaves only its verdict; the first
good copy is taken, and its card's last cycle number is the one expected. In LOST the window goes no further. -/
def Obligations.WindowIsTakenFromTheFirstGoodCopy : Prop :=
  (∀ (c : CardId) (n : CycleNo) (rx : RxFrame),
     judgeFrame c n rx = .good ↔
       wellFormedFrame rx = true ∧ crcHolds rx.chars = true ∧ rx.chars.getD 0 0 = 0x3C ∧
         (rx.chars.getD 1 0).toNat = number c ∧ (rx.chars.getD 2 0).toNat = n.val) ∧
  (∀ (l : LineId) (rx : RxFrame) (s : State),
     (s.line.exchange.slot = none → exec (.window l rx) s = .next s) ∧
     (∀ x, s.line.exchange.slot = some x → (s.line.lines.get l).state ≠ .jammed → x.verdict.get l = none →
       (judgeFrame x.card x.expect rx ≠ .good ∨ x.took = true →
         exec (.window l rx) s =
           .next
             (modExchange s fun e =>
               { e with
                 slot := some { x with verdict := x.verdict.set l (some (judgeFrame x.card x.expect rx)) } })) ∧
       (judgeFrame x.card x.expect rx = .good → x.took = false →
         ∃ t, exec (.window l rx) s = .next t ∧
           t.line.exchange.slot = some { x with verdict := x.verdict.set l (some .good), took := true } ∧
           t.line.cards[x.card].lastCycle = some x.expect ∧
           t.ports = s.ports ∧ t.safety = s.safety ∧ t.stages = s.stages ∧ t.inputs = s.inputs ∧
           t.pending = s.pending ∧ t.line.mains = s.line.mains ∧ t.line.lines = s.line.lines ∧
           (s.line.mains.state = .lost → t = { s with line := t.line }))))

/-- The close of a poll slot (R35). With no slot open nothing changes, which is the model's choice (log entry 5). The
bookkeeping comes in the order of log entry 28, and the slot is gone. The polled card (R39): a good reply clears the
missing count, a SILENT card's third in a row makes it ONLINE and an ONLINE card stays ONLINE; a cycle without one
counts as missing and ends the good-reply run, and the tenth in a row makes the card SILENT, while any other leaves its
state. Its mismatch flag (R40) is set by a mismatch verdict, cleared by a window taken without one, and else kept. Each
line (R42 to R44): the error count, the good-copy run and the polled card's faulted run follow the class of its copy; a
GOOD line with a faulted run of 16 is DEGRADED with its good-copy run 0, a DEGRADED line with a good-copy run of 64 is
GOOD, and a JAMMED line whose copy would have been good is GOOD, each return with every faulted run of the line 0. A
copy still arriving is bad and one on a JAMMED line missing (R36); its class is good for a good verdict or the copy
that returns the line to GOOD, faulted where only the other line's is good, and else none (log entry 43). The records:
CARD_SILENT is posted at the tenth missing reply and ended at the third good one, ADDRESS_MISMATCH is posted with the
flag and ended by every window without a mismatch, LINE_DEGRADED and LINE_JAMMED follow the line's state. With the
SWITCH sent, no card left to poll and the slot gone, the exchange ends (R35): it is not running and its lists are
empty, and its measurements are delivered, in VALID the cores and then the residual channels in the order of their
completion (R57, R86), in LOST to nobody (log entry 25); otherwise it goes on. That CARD_SILENT is posted before the
card's outputs are in SENSE_LOST is the model's choice (log entry 71), and so is their ascending order (log entry 64).
-/
def Obligations.SlotCloseMovesTheCardState : Prop :=
  (∀ s : State, s.line.exchange.slot = none → exec .pollSlotClose s = .next s) ∧
  (∀ (x : Slot) (r : CardRec) (s : State), s.line.exchange.slot = some x → r = s.line.cards[x.card] →
     ∃ t, exec .pollSlotClose s = .next t ∧ t.line.exchange.slot = none ∧
       t.ports = s.ports ∧ t.safety = s.safety ∧ t.stages = s.stages ∧ t.inputs = s.inputs ∧
       t.pending = s.pending ∧ t.line.mains = s.line.mains ∧ t.line.patterns = s.line.patterns ∧
       t.line.cards[x.card].lastSlotTook = x.took ∧
       (x.took = true →
         t.line.cards[x.card].missing = 0 ∧
         (r.online = true → t.line.cards[x.card].online = true ∧ t.line.cards[x.card].goodRun = 0) ∧
         (r.online = false → 2 ≤ r.goodRun → t.line.cards[x.card].online = true ∧ t.line.cards[x.card].goodRun = 0) ∧
         (r.online = false → r.goodRun < 2 →
           t.line.cards[x.card].online = false ∧ t.line.cards[x.card].goodRun = r.goodRun + 1)) ∧
       (x.took = false →
         t.line.cards[x.card].missing = min 255 (r.missing + 1) ∧ t.line.cards[x.card].goodRun = 0 ∧
         t.line.cards[x.card].online = (r.online && r.missing != 9)) ∧
       (∀ (l : LineId) (a : Byte), finalVerdict s x l = .mismatch a → t.line.cards[x.card].mismatch = true) ∧
       ((∀ (l : LineId) (a : Byte), finalVerdict s x l ≠ .mismatch a) →
         t.line.cards[x.card].mismatch = (r.mismatch && !x.took)) ∧
       (∀ k : CardId, k ≠ x.card →
         t.line.cards[k] = { s.line.cards[k] with faulted := t.line.cards[k].faulted }) ∧
       ∀ (l : LineId) (p q : LineRec) (run : Nat) (faults : CardId → Nat),
         p = s.line.lines.get l → q = t.line.lines.get l →
         run = (match classCopy s x l with | .good => min 64 (p.goodRun + 1) | .faulted => 0 | .unclassed => p.goodRun) →
         (∀ k : CardId,
           faults k =
             if k = x.card then
               match classCopy s x l with
               | .good => 0
               | .faulted => min 16 (s.line.cards[k].faulted.get l + 1)
               | .unclassed => s.line.cards[k].faulted.get l
             else s.line.cards[k].faulted.get l) →
           q.sent = p.sent ∧
           q.errors = (if classCopy s x l = .faulted then min 65535 (p.errors + 1) else p.errors) ∧
           (p.state = .good → (∃ k : CardId, faults k = 16) →
             q.state = .degraded ∧ q.goodRun = 0 ∧ ∀ k : CardId, t.line.cards[k].faulted.get l = faults k) ∧
           (p.state = .degraded ∧ run = 64 ∨ p.state = .jammed ∧ x.recovered.get l = true →
             q.state = .good ∧ q.goodRun = run ∧ ∀ k : CardId, t.line.cards[k].faulted.get l = 0) ∧
           (p.state = .good ∧ (∀ k : CardId, faults k ≠ 16) ∨ p.state = .degraded ∧ run ≠ 64 ∨
               p.state = .jammed ∧ x.recovered.get l = false →
             q.state = p.state ∧ q.goodRun = run ∧ ∀ k : CardId, t.line.cards[k].faulted.get l = faults k)) ∧
  (∀ (x : Slot) (l : LineId) (s : State),
     ((s.line.lines.get l).state = .jammed → finalVerdict s x l = .missing) ∧
     ((s.line.lines.get l).state ≠ .jammed → finalVerdict s x l = (x.verdict.get l).getD .bad) ∧
     (classCopy s x l = .good ↔
       finalVerdict s x l = .good ∨ (s.line.lines.get l).state = .jammed ∧ x.recovered.get l = true) ∧
     (classCopy s x l = .faulted ↔ classCopy s x l ≠ .good ∧ classCopy s x (otherLine l) = .good)) ∧
  (∀ (x : Slot) (s u v w : State),
     s.line.exchange.slot = some x →
     u = modCard s x.card (fun r => { r with lastSlotTook := x.took }) →
     v =
       settleMismatch x.card (finalVerdict s x .a) (finalVerdict s x .b) x.took
         (if x.took then goodReply x.card u else noReply x.card u) →
     w =
       settleLine .b ((s.line.lines.get .b).state == .jammed && x.recovered.get .b)
         (countCopy .b x.card (classCopy s x .b)
           (settleLine .a ((s.line.lines.get .a).state == .jammed && x.recovered.get .a)
             (countCopy .a x.card (classCopy s x .a) v))) →
       exec .pollSlotClose s =
         .next
           ((if x.old then deliver else endIfDone)
             (modExchange (if x.took then w else notifyMissing x.card x.expect w) fun e => { e with slot := none }))) ∧
  (∀ (c : CardId) (s t : State),
     t = modCard s c (fun r => { r with missing := min 255 (r.missing + 1), goodRun := 0 }) →
       (s.line.cards[c].missing ≠ 9 → noReply c s = t) ∧
       (s.line.cards[c].missing = 9 → s.line.cards[c].online = false →
         noReply c s = post .cardSilent (.card c) false none t) ∧
       (s.line.cards[c].missing = 9 → s.line.cards[c].online = true →
         noReply c s =
           senseLoseCard c (modCard (post .cardSilent (.card c) false none t) c fun r => { r with online := false }))) ∧
  (∀ (c : CardId) (s : State), s.line.cards[c].online = false → 2 ≤ s.line.cards[c].goodRun →
     goodReply c s =
       senseRegainCard c
         (endFault .cardSilent (.card c)
           (modCard s c fun r => { r with missing := 0, goodRun := 0, online := true }))) ∧
  (∀ (c : CardId) (a b : Verdict) (took : Bool) (s : State),
     (∀ z : Byte, a = .mismatch z ∨ (∀ y : Byte, a ≠ .mismatch y) ∧ b = .mismatch z →
       settleMismatch c a b took s =
         if s.line.cards[c].mismatch then s
         else
           post .addressMismatch (.card c) false (some [word z.toNat]) (modCard s c fun r => { r with mismatch := true })) ∧
     ((∀ z : Byte, a ≠ .mismatch z ∧ b ≠ .mismatch z) →
       settleMismatch c a b took s =
         if took then
           endFault .addressMismatch (.card c) (modCard s c fun r => { r with mismatch := false })
         else s)) ∧
  (∀ (l : LineId) (recovered : Bool) (s : State),
     ((s.line.lines.get l).state = .good →
       settleLine l recovered s =
         if ∃ k : CardId, s.line.cards[k].faulted.get l = 16 then
           post .lineDegraded (.line l) false none (modLine s l fun r => { r with state := .degraded, goodRun := 0 })
         else s) ∧
     ((s.line.lines.get l).state = .degraded →
       settleLine l recovered s =
         if (s.line.lines.get l).goodRun = 64 then
           endFault .lineDegraded (.line l) (clearFaultedRuns l (modLine s l fun r => { r with state := .good }))
         else s) ∧
     ((s.line.lines.get l).state = .jammed →
       settleLine l recovered s =
         if recovered then
           endFault .lineJammed (.line l) (clearFaultedRuns l (modLine s l fun r => { r with state := .good }))
         else s)) ∧
  (∀ s : State,
     (s.line.exchange.running = true → s.line.exchange.switchSent = true → s.line.exchange.toPoll = [] →
       s.line.exchange.slot = none →
         endIfDone s = deliver (modExchange s fun e => { e with running := false }) ∧
           (endIfDone s).line =
             { s.line with
               exchange := { s.line.exchange with running := false, cores := [], residuals := [] } }) ∧
     (s.line.exchange.running = false ∨ s.line.exchange.switchSent = false ∨ s.line.exchange.toPoll ≠ [] ∨
         s.line.exchange.slot ≠ none →
       endIfDone s = s)) ∧
  (∀ s u : State, u = modExchange s (fun e => { e with cores := [], residuals := [] }) →
     (deliver s).line = u.line ∧
       (s.line.mains.state = .lost → deliver s = u) ∧
       (s.line.mains.state = .valid →
         deliver s = eachOf s.line.exchange.residuals evaluateLeak (eachOf s.line.exchange.cores deliverCore u)))

/-- A stopped frame and a line active for more than 2 ms make the line JAMMED (R32, R44): its runs are 0, the other line
is untouched, and a copy still to come in an open slot is missing (log entry 27); a JAMMED line stays so. The end of
the reply allowance makes that copy missing as well (R36). -/
def Obligations.JamAndSilenceOnALine : Prop :=
  ∀ (l : LineId) (s : State),
    exec (.replyAllowanceEnd l) s = .next (modSlot s (giveVerdict l .missing)) ∧
    ∀ c : Instr, c = .frameStop l ∨ c = .lineJam l →
      ((s.line.lines.get l).state = .jammed → exec c s = .next (modSlot s (giveVerdict l .missing))) ∧
      ((s.line.lines.get l).state ≠ .jammed →
        ∃ t, exec c s = .next t ∧
          t.line.lines.get l = { s.line.lines.get l with state := .jammed, goodRun := 0 } ∧
          t.line.lines.get (otherLine l) = s.line.lines.get (otherLine l) ∧
          (∀ k : CardId,
            t.line.cards[k] = { s.line.cards[k] with faulted := s.line.cards[k].faulted.set l 0 }) ∧
          t.line.exchange = { s.line.exchange with slot := s.line.exchange.slot.map (giveVerdict l .missing) } ∧
          t.line.mains = s.line.mains ∧ t.line.patterns = s.line.patterns ∧
          t = { s with line := t.line, faults := t.faults })

/-! ### Lamp measurement, proving and cables -/

/-- The tests of a completed core measurement (R55, R56): fail, dim, unwanted, open feeder and reversed, on the
output's record in the active table and the references held, with only the least current where there is no reference;
and its four cycle numbers (R57). A completion (R53, R54, R56, R59 to R61): the figures are stored, CURRENT_OVERRANGE
and then SENSE_REVERSED posted or ended (log entry 54), the measurement proved, offered to learning and kept for the
delivery. It learns where the output is used, the measurement takes it to PROVED_ON, and learning was not frozen before
that: no LAMP_DARK active, the feeder not OPEN (log entry 38), no investigation open. A reference is set by the first
figure and moves by a sixteenth of the difference to a later one, truncated toward zero; QREF needs a QF of 16. A
residual completion settles CURRENT_OVERRANGE alone. A window of eight samples (R50 to R52, R54): an accumulation that
holds the window's applied state and follows on its last cycle settles, or adds the weighted samples, a count and
saturation; any other is restarted and settles. The first good copy of a slot taken in VALID (R50, R53, R57, R58, R67,
R68): each delivered core takes its samples, and at the fourth summed cycle its figures are the sums by 1024,
truncated, and its measurement is kept for the delivery; its history and applied state are the window's, its echo flag
says whether the listed pattern differs, and its sense count starts again at a completion or a changed applied state,
else moves on (R73), last (log entry 65). An undelivered core is restarted, its history unknown, and counts as missing;
the residual channel is taken as a core whose applied state is the list of the delivered ones; the order is that of log
entry 55. A slot that closes in VALID without a window restarts its card's channels (R37, R51), each core counted as
missing, in ascending order by the model's choice (log entry 76). -/
def Obligations.MeasurementTestsAndLearning : Prop :=
  (∀ (s : State) (o : OutputId) (applied overrange : Bool) (x : Figures) (n : CycleNo) (m : CoreMeas),
     m = measurementOf s o applied overrange x n →
       m.output = o ∧ m.applied = applied ∧ m.ip = x.ip ∧ m.qf = x.qf ∧
       (m.fail = true ↔
         applied = true ∧
           (x.ip < (outRec s o).minOn ∨
             ∃ r, s.engine.cores[o].ref = some r ∧ x.ip * 16 < r * (outRec s o).failNum)) ∧
       (m.dim = true ↔
         applied = true ∧ m.fail = false ∧
           ∃ r, s.engine.cores[o].ref = some r ∧ x.ip * 16 < r * (outRec s o).dimNum) ∧
       (m.unwanted = true ↔ applied = false ∧ (outRec s o).offLimit < x.ip) ∧
       (m.openFeeder = true ↔
         applied = true ∧ ∃ q, s.engine.cores[o].qref = some q ∧ x.qf * 16 < q * (outRec s o).openNum) ∧
       (m.reversed = true ↔ applied = true ∧ x.ip ≤ -64) ∧ m.overrange = overrange ∧ m.qref = s.engine.cores[o].qref ∧
       m.cycles.map (·.val) = [(n.val + 13) % 16, (n.val + 14) % 16, (n.val + 15) % 16, n.val]) ∧
  (∀ (o : OutputId) (applied : Bool) (n : CycleNo) (a : Accum Bool) (x : Figures) (m : CoreMeas) (s u v w : State),
     a = s.engine.cores[o].acc → x = { ip := a.sumA.tdiv 1024, qf := a.sumB.tdiv 1024 } →
     m = measurementOf s o applied a.overrange x n →
     u =
       (if a.overrange then post .currentOverrange (.output o) false (some [wordInt x.ip])
        else endFault .currentOverrange (.output o))
         (modCore s o fun c =>
           { c with acc := { a with count := 0, sumA := 0, sumB := 0, overrange := false }, figures := some x }) →
     v =
       (if applied then
         if x.ip ≤ -64 then post .senseReversed (.output o) false (some [wordInt x.ip]) u
         else endFault .senseReversed (.output o) u
        else u) →
     w = prove m v →
       ((applied = true ∧ m.fail = false ∧ (outRec s o).used = true ∧ learningFrozen v o = false ∧
           s.proving.outputs[o].state ≠ .isolated ∧
           (s.proving.outputs[o].state = .senseLost → s.line.cards[cardOf o].online = true)) →
         completeCore o applied n s =
           modExchange
             (modCore w o fun c =>
               { c with ref := learn c.ref x.ip, qref := if 16 ≤ x.qf then learn c.qref x.qf else c.qref })
             fun e => { e with cores := e.cores ++ [m] }) ∧
       ((applied = false ∨ m.fail = true ∨ (outRec s o).used = false ∨ learningFrozen v o = true ∨
           s.proving.outputs[o].state = .isolated ∨
           s.proving.outputs[o].state = .senseLost ∧ s.line.cards[cardOf o].online = false) →
         completeCore o applied n s = modExchange w fun e => { e with cores := e.cores ++ [m] })) ∧
  (∀ (s : State) (o : OutputId),
     learningFrozen s o = true ↔
       faultActive s .lampDark (.output o) = true ∨ s.cable.feeders[o].opened = true ∨
         ∃ (i : InvSlot) (v : Investigation), s.cable.investigations[i] = some v ∧ v.x = o) ∧
  (∀ (c : CardId) (a : Accum (List Bool)) (x : Int) (s : State),
     a = s.engine.residuals[c].acc → x = a.sumA.tdiv 1024 →
       completeResidualMeas c s =
         modExchange
           ((if a.overrange then post .currentOverrange (.card c) false (some [wordInt x])
             else endFault .currentOverrange (.card c))
             (modRes s c fun _ =>
               { acc := { a with count := 0, sumA := 0, sumB := 0, overrange := false }
                 figures := some { ip := x, qf := a.sumB.tdiv 1024 } }))
           fun e => { e with residuals := e.residuals ++ [{ card := c, leak := x.natAbs }] }) ∧
  (∀ r x : Int, learn none x = some x ∧ learn (some r) x = some (r + (x - r).tdiv 16)) ∧
  (∀ (a : Accum Bool) (applied : Bool) (n : CycleNo) (s0 s1 s2 s3 s4 s5 s6 s7 : Int),
     (a.held = some applied → a.lastCycle = some (cycleBack n 1) →
       (a.settling = true →
         takeSamples a applied n [s0, s1, s2, s3, s4, s5, s6, s7] =
           { a with settling := false, lastCycle := some n }) ∧
       (a.settling = false →
         takeSamples a applied n [s0, s1, s2, s3, s4, s5, s6, s7] =
           { settling := false
             count := a.count + 1
             sumA := a.sumA + (45 * s1 + 64 * s2 + 45 * s3 - 45 * s5 - 64 * s6 - 45 * s7)
             sumB := a.sumB + (64 * s0 + 45 * s1 - 45 * s3 - 64 * s4 - 45 * s5 + 45 * s7)
             overrange := a.overrange || [s0, s1, s2, s3, s4, s5, s6, s7].any fun x => x == -2048 || x == 2047
             held := some applied
             lastCycle := some n })) ∧
     (a.held ≠ some applied ∨ a.lastCycle ≠ some (cycleBack n 1) →
       takeSamples a applied n [s0, s1, s2, s3, s4, s5, s6, s7] =
         { settling := false, count := 0, sumA := 0, sumB := 0, overrange := false, held := some applied,
           lastCycle := some n })) ∧
  (∀ (o : OutputId) (b changed : Bool) (sent : Option Bool) (n : CycleNo) (samples : List Int) (a : Accum Bool)
      (s u v : State),
     a = takeSamples s.engine.cores[o].acc b n samples →
     (changed = true ↔ ∃ p, s.proving.outputs[o].applied = some p ∧ p ≠ b) →
     u =
       modCore (storeApplied o b (checkEcho o b sent s)) o
         (fun c => { c with acc := a, history := c.history.set n (some b) }) →
     v = (if a.count = 4 then completeCore o b n u else u) →
       deliveredCore o b sent n samples s = countSense o (a.count == 4 || changed) v) ∧
  (∀ (o : OutputId) (n : CycleNo) (s : State),
     missingCore o n s =
       countSense o false
         (modCore s o fun c => { c with acc := restartAccum c.acc, history := c.history.set n none })) ∧
  (∀ (c : CardId) (n : CycleNo) (s : State),
     (s.line.mains.state = .lost → notifyMissing c n s = s) ∧
       (s.line.mains.state = .valid →
         notifyMissing c n s =
           modRes (eachOf (outputsOf c) (fun o t => missingCore o n t) s) c
             fun r => { r with acc := restartAccum r.acc })) ∧
  (∀ (c : CardId) (w : Window) (k : Nat) (s : State), k = min w.coreCount s.line.cards[c].coreCount →
     takeWindow c w s =
       residualWindow c (w.applied.take k) w.cycle w.residual
         (eachOf (outputsOf c)
           (fun o t =>
             if placeOf o < k then
               deliveredCore o (w.applied.getD (placeOf o) false)
                 ((s.line.patterns.find? (·.cycle == w.cycle)).map fun p => p.states[o]) w.cycle
                 (w.samples.getD (placeOf o) []) t
             else missingCore o w.cycle t)
           s)) ∧
  (∀ (l : LineId) (rx : RxFrame) (x : Slot) (w : Window) (k : Nat) (s : State),
     s.line.exchange.slot = some x → s.line.mains.state = .valid → (s.line.lines.get l).state ≠ .jammed →
     x.verdict.get l = none → x.took = false → judgeFrame x.card x.expect rx = .good →
     w = windowOf rx.chars x.expect → k = min w.coreCount s.line.cards[x.card].coreCount →
       ∃ t, exec (.window l rx) s = .next t ∧
         t =
           modCard
             (takeWindow x.card w
               (modExchange s fun e =>
                 { e with slot := some { x with verdict := x.verdict.set l (some .good), took := true } }))
             x.card (fun r => { r with lastCycle := some x.expect }) ∧
         (∀ (o : OutputId) (b : Bool) (a : Accum Bool), cardOf o = x.card → placeOf o < k →
           b = w.applied.getD (placeOf o) false →
           a = takeSamples s.engine.cores[o].acc b x.expect (w.samples.getD (placeOf o) []) →
             t.proving.outputs[o].applied = some b ∧
             t.proving.outputs[o].echo =
               (match s.line.patterns.find? (·.cycle == x.expect) with
                | some p => p.states[o] != b
                | none => s.proving.outputs[o].echo) ∧
             t.engine.cores[o].history = s.engine.cores[o].history.set x.expect (some b) ∧
             (a.count ≠ 4 →
               t.engine.cores[o] =
                 { s.engine.cores[o] with acc := a, history := s.engine.cores[o].history.set x.expect (some b) }) ∧
             (a.count = 4 →
               t.engine.cores[o].acc = { a with count := 0, sumA := 0, sumB := 0, overrange := false } ∧
               t.engine.cores[o].figures = some { ip := a.sumA.tdiv 1024, qf := a.sumB.tdiv 1024 } ∧
               measurementOf s o b a.overrange { ip := a.sumA.tdiv 1024, qf := a.sumB.tdiv 1024 } x.expect ∈
                 t.line.exchange.cores)) ∧
         (∀ o : OutputId, cardOf o = x.card → k ≤ placeOf o →
           t.proving.outputs[o].applied = s.proving.outputs[o].applied ∧
           t.engine.cores[o] =
             { s.engine.cores[o] with
               acc := restartAccum s.engine.cores[o].acc
               history := s.engine.cores[o].history.set x.expect none }) ∧
         (∀ o : OutputId, cardOf o ≠ x.card → t.engine.cores[o] = s.engine.cores[o]) ∧
         (∀ a : Accum (List Bool),
           a = takeSamples s.engine.residuals[x.card].acc (w.applied.take k) x.expect w.residual →
             (a.count ≠ 4 → t.engine.residuals[x.card] = { s.engine.residuals[x.card] with acc := a }) ∧
             (a.count = 4 →
               t.engine.residuals[x.card] =
                 { acc := { a with count := 0, sumA := 0, sumB := 0, overrange := false }
                   figures := some { ip := a.sumA.tdiv 1024, qf := a.sumB.tdiv 1024 } } ∧
               { card := x.card, leak := (a.sumA.tdiv 1024).natAbs } ∈ t.line.exchange.residuals)) ∧
         (∀ c : CardId, c ≠ x.card → t.engine.residuals[c] = s.engine.residuals[c])) ∧
  (∀ (x : Slot) (s : State),
     s.line.exchange.slot = some x → s.line.mains.state = .valid → x.took = false →
       ∃ t, exec .pollSlotClose s = .next t ∧
         (∀ o : OutputId,
           t.engine.cores[o] =
             if cardOf o = x.card then
               { s.engine.cores[o] with
                 acc := restartAccum s.engine.cores[o].acc
                 history := s.engine.cores[o].history.set x.expect none }
             else s.engine.cores[o]) ∧
         ∀ c : CardId,
           t.engine.residuals[c] =
             if c = x.card then { s.engine.residuals[c] with acc := restartAccum s.engine.residuals[c].acc }
             else s.engine.residuals[c])

/-- RELEARN makes REF and QREF absent, of one output or of all, in every service state and from both links, and changes
nothing else (R62). -/
def Obligations.RelearnForgetsTheReferences : Prop :=
  ∀ (l : Link) (n : Byte) (v : Word16) (s : State),
    Responds (.relearn l ⟨0xFF, n, v⟩) l 0x48 ⟨0xFF, n, v⟩ .done 0 s
        { s with
          engine :=
            { s.engine with cores := vgen fun o => { s.engine.cores[o] with ref := none, qref := none } } } ∧
      (∀ o : OutputId,
        Responds (.relearn l ⟨BitVec.ofNat 8 (number o), n, v⟩) l 0x48 ⟨BitVec.ofNat 8 (number o), n, v⟩ .done 0 s
          { s with
            engine :=
              { s.engine with
                cores := s.engine.cores.set o { s.engine.cores[o] with ref := none, qref := none } } }) ∧
      ∀ u : Byte, u = 0 ∨ 64 < u.toNat ∧ u ≠ 0xFF →
        Responds (.relearn l ⟨u, n, v⟩) l 0x48 ⟨u, n, v⟩ .badSubject 0 s s

/-- When a group's red status is evaluated, to what, and what that brings. A completed measurement of a used RED (R76):
after its transition, where the group is then commanded RED or RED_AMBER in STARTING or SERVICE. A used RED's change of
proving state (R77): at once at an entry to ISOLATED or SENSE_LOST, whatever the aspect and the service state, and at
no other. The outcome (R76): RED_LOSS with every used RED dark, RED_DEGRADED with some, RED_OK with all proved lit, and
otherwise the status held; a group with no used RED keeps its status. Dark is FAILED_DARK, SENSE_LOST, ISOLATED, or
PROVED_OFF with the echo-mismatch flag set. A change of status (R78): into RED_DEGRADED or RED_LOSS its record is
posted with the dark reds, in ascending order by the model's choice (log entry 77), and the other's condition ends,
into RED_OK or RED_UNTESTED both end, and the change is handed to the sequencer; the status already held changes
nothing. A used GREEN's change of proving state recomputes its group's exposure, and a change of that goes to the
conflict check and the gating (R79). -/
def Obligations.RedEvaluationOutcome : Prop :=
  (∀ (g : GroupId) (s : State),
     (evalRed g s).proving.groups[g].red =
         (if redCount s g = 0 then s.proving.groups[g].red
          else if redDark s g = redCount s g then .loss
          else if 0 < redDark s g then .degraded
          else if redProved s g = redCount s g then .ok
          else s.proving.groups[g].red) ∧
       evalRed g s = setRed g (redOutcome s g) s ∧
       redOutcome s g = (evalRed g s).proving.groups[g].red ∧
       (darkReds s g).Pairwise (· < ·) ∧ redDark s g = (darkReds s g).length ∧ (redOutputs s g).Nodup ∧
       redCount s g = (redOutputs s g).length ∧
       redProved s g = (redOutputs s g).countP (fun o => s.proving.outputs[o].state == .provedOn) ∧
       ∀ o : OutputId,
         (o ∈ redOutputs s g ↔ (outRec s o).used = true ∧ (outRec s o).colour = .red ∧ (outRec s o).group = g) ∧
         (o ∈ darkReds s g ↔
           o ∈ redOutputs s g ∧
             (s.proving.outputs[o].state = .failedDark ∨ s.proving.outputs[o].state = .senseLost ∨
               s.proving.outputs[o].state = .isolated ∨
               s.proving.outputs[o].state = .provedOff ∧ s.proving.outputs[o].echo = true))) ∧
  (∀ (m : CoreMeas) (s u : State), unmeasured s m.output = false →
     u =
       (if m.applied then if m.fail then measuredDark m s else measuredLit m s
        else if m.unwanted then measuredUnwanted m s
        else measuredOff m s) →
       prove m s =
         if (outRec s m.output).used = true ∧ (outRec s m.output).colour = .red ∧ u.service.state ≠ .handedOver ∧
             (u.seq.groups[(outRec s m.output).group].aspect = .red ∨
               u.seq.groups[(outRec s m.output).group].aspect = .redAmber) then
           evalRed (outRec s m.output).group u
         else u) ∧
  (∀ (o : OutputId) (f : OutputProof → OutputProof) (old new : ProvingState) (s t : State),
     t = modProof s o f → old = s.proving.outputs[o].state → new = t.proving.outputs[o].state →
       setProving o f s = stateChanged o old t ∧
       ((outRec s o).used = true → (outRec s o).colour = .red →
         ((new = .isolated ∨ new = .senseLost) → new ≠ old → stateChanged o old t = evalRed (outRec s o).group t) ∧
         (new = old ∨ new ≠ .isolated ∧ new ≠ .senseLost → stateChanged o old t = t)) ∧
       ((outRec s o).used = false ∨ (outRec s o).colour = .amber → stateChanged o old t = t) ∧
       ∀ (g : GroupId) (u : State),
         (outRec s o).used = true → (outRec s o).colour = .green → g = (outRec s o).group → u = reexpose g t →
           stateChanged o old t =
             if u.proving.groups[g].exposed = s.proving.groups[g].exposed then u
             else settled (tryGreens (conflictCheck u))) ∧
  (∀ (g : GroupId) (r old : RedStatus) (dark : List Word16) (s u : State),
     old = s.proving.groups[g].red → u = modGroupProof s g (fun q => { q with red := r }) →
     dark = (darkReds s g).map (fun o => word (number o)) →
       (r = old → setRed g r s = s) ∧
       (r ≠ old →
         (r = .degraded →
           setRed g r s =
             redStatusChanged
               ((if old = .loss then endFault .redLoss (.group g) else id)
                 (post .redDegraded (.group g) false (some dark) u))) ∧
         (r = .loss →
           setRed g r s =
             redStatusChanged
               ((if old = .degraded then endFault .redDegraded (.group g) else id)
                 (post .redLoss (.group g) false (some dark) u))) ∧
         (r = .ok ∨ r = .untested →
           setRed g r s =
             redStatusChanged (endFault .redLoss (.group g) (endFault .redDegraded (.group g) u)))))

/-- What a completed core measurement does to its output's proving state and failing count (R69 to R72): ON and not
failing PROVED_ON; ON and failing UNPROVED or still FAILED_DARK at the first, FAILED_DARK from the second; OFF
PROVED_OFF or LIT_UNWANTED, with the entering IP kept (log entry 14). An ISOLATED output, and one in SENSE_LOST on a
SILENT card, takes no transition (R74, R75; log entry 34). Its echo, applied state and sense count and every other
output's fields but for the commanded states are kept. The records, each in the order of log entry 65 beside the change
of state: PROVED_ON of a used output ends LAMP_DARK and posts LAMP_DIM with IP and REF where the dim test is true and
none is active, or ends it; the entry of a used output to FAILED_DARK posts LAMP_DARK with IP and the cable note (log
entry 57); PROVED_OFF with no investigation open ends UNWANTED_CURRENT (log entry 20); the entry to LIT_UNWANTED posts
it and opens an investigation in the lowest FREE slot, or with all four OPEN marks its detail not investigated (R95),
and in HANDED_OVER posts HANDOVER_UNPROVEN. The applied state of a window (R68): stored, and where it was present and
differs the output goes to UNPROVED with both counts 0, but stays in ISOLATED, and in SENSE_LOST on a SILENT card with
its sense count 0. The echo check (R67): the flag says whether the applied state differs from the sent one, and
SWITCH_ECHO is posted and ended with it; with no sent pattern nothing changes. The sense count (R73): 0 at a restart,
else one more up to 50, and at the card's sense_timeout the output is in SENSE_LOST; an ISOLATED output counts nothing.
-/
def Obligations.MeasurementsMoveTheProvingState : Prop :=
  (∀ (m : CoreMeas) (s : State),
     (s.proving.outputs[m.output].state = .isolated ∨
         s.proving.outputs[m.output].state = .senseLost ∧ s.line.cards[cardOf m.output].online = false →
       prove m s = s) ∧
     (s.proving.outputs[m.output].state ≠ .isolated →
       (s.proving.outputs[m.output].state = .senseLost → s.line.cards[cardOf m.output].online = true) →
       (prove m s).proving.outputs[m.output] =
           { s.proving.outputs[m.output] with
             commanded := (prove m s).proving.outputs[m.output].commanded
             state :=
               if m.applied then
                 if m.fail then
                   if s.proving.outputs[m.output].failing = 0 ∧ s.proving.outputs[m.output].state ≠ .failedDark then
                     .unproved
                   else .failedDark
                 else .provedOn
               else if m.unwanted then .litUnwanted
               else .provedOff
             failing :=
               if m.applied ∧ m.fail then min 2 (s.proving.outputs[m.output].failing + 1) else 0
             entryIp :=
               if m.applied = false ∧ m.unwanted = true ∧ s.proving.outputs[m.output].state ≠ .litUnwanted then m.ip
               else s.proving.outputs[m.output].entryIp }) ∧
     (∀ o : OutputId, o ≠ m.output →
       (prove m s).proving.outputs[o] =
         { s.proving.outputs[o] with commanded := (prove m s).proving.outputs[o].commanded })) ∧
  (∀ (m : CoreMeas) (o : OutputId) (s u v : State), o = m.output →
     (u = setProving o (fun r => { r with state := .provedOn, failing := 0 }) s → v = endFault .lampDark (.output o) u →
       ((outRec s o).used = false → measuredLit m s = u) ∧
       ((outRec s o).used = true → m.dim = false → measuredLit m s = endFault .lampDim (.output o) v) ∧
       ((outRec s o).used = true → m.dim = true → faultActive v .lampDim (.output o) = true → measuredLit m s = v) ∧
       ∀ r, (outRec s o).used = true → m.dim = true → faultActive v .lampDim (.output o) = false →
         s.engine.cores[o].ref = some r →
           measuredLit m s = post .lampDim (.output o) false (some [wordInt m.ip, wordInt r]) v) ∧
     (s.proving.outputs[o].failing = 0 →
       measuredDark m s =
         setProving o
           (fun r => { r with failing := 1, state := if r.state = .failedDark then .failedDark else .unproved }) s) ∧
     (1 ≤ s.proving.outputs[o].failing → u = setProving o (fun r => { r with failing := 2, state := .failedDark }) s →
       (s.proving.outputs[o].state = .failedDark ∨ (outRec s o).used = false → measuredDark m s = u) ∧
       (s.proving.outputs[o].state ≠ .failedDark → (outRec s o).used = true →
         measuredDark m s =
           post .lampDark (.output o) false
             (some
               [wordInt m.ip,
                if m.openFeeder = true ∨ s.cable.feeders[o].opened = true then 0 else if m.qref = none then 2 else 1])
             u)) ∧
     (u = (if investigationOf s o = none then endFault .unwantedCurrent (.output o) s else s) →
       measuredOff m s = setProving o (fun r => { r with state := .provedOff, failing := 0 }) u) ∧
     (s.proving.outputs[o].state = .litUnwanted →
       measuredUnwanted m s = modProof s o fun r => { r with failing := 0 }) ∧
     (s.proving.outputs[o].state ≠ .litUnwanted →
       u =
         openInvestigation o
           (post .unwantedCurrent (.output o) false (some [wordInt m.ip])
             (modProof s o fun r => { r with state := .litUnwanted, failing := 0, entryIp := m.ip })) →
       measuredUnwanted m s =
         stateChanged o s.proving.outputs[o].state
           (if s.service.state = .handedOver then
             post .handoverUnproven (.output o) true (some [wordInt m.ip]) u
            else u))) ∧
  (∀ (o : OutputId) (i : InvSlot) (s : State),
     (investigationOf s o ≠ none → openInvestigation o s = s) ∧
     (investigationOf s o = none → s.cable.investigations[i] = none →
       (∀ j : InvSlot, j < i → s.cable.investigations[j] ≠ none) →
         openInvestigation o s =
           setInvestigation s i
             (some
               { x := o, openTime := s.seq.clock, firstPending := true, meas := 0, lit := 0, dark := 0, consecutive := 0,
                 candidates := [] })) ∧
     (investigationOf s o = none → (∀ j : InvSlot, s.cable.investigations[j] ≠ none) →
       openInvestigation o s = redetail .unwantedCurrent (.output o) [0x8000] s) ∧
     (investigationOf s o = none ↔ ∀ (j : InvSlot) v, s.cable.investigations[j] = some v → v.x ≠ o) ∧
     ∀ k : FaultKind,
       faultActive s k (.output o) = true ↔
         ∃ j r, findRecord s.faults k (.output o) = some j ∧ s.faults.slots[j] = some r ∧ r.active = true) ∧
  (∀ (o : OutputId) (a : Bool) (s : State),
     (s.proving.outputs[o].applied = none ∨ s.proving.outputs[o].applied = some a →
       storeApplied o a s = modProof s o fun r => { r with applied := some a }) ∧
     (s.proving.outputs[o].applied = some (!a) →
       (s.proving.outputs[o].state = .isolated → storeApplied o a s = modProof s o fun r => { r with applied := some a }) ∧
       (s.proving.outputs[o].state = .senseLost → s.line.cards[cardOf o].online = false →
         storeApplied o a s = modProof s o fun r => { r with applied := some a, sense := 0 }) ∧
       (s.proving.outputs[o].state ≠ .isolated →
         (s.proving.outputs[o].state = .senseLost → s.line.cards[cardOf o].online = true) →
         (storeApplied o a s).proving.outputs[o] =
           { s.proving.outputs[o] with
             commanded := (storeApplied o a s).proving.outputs[o].commanded
             applied := some a, state := .unproved, failing := 0, sense := 0 }))) ∧
  (∀ (o : OutputId) (a : Bool) (s : State),
     checkEcho o a none s = s ∧
     ∀ c : Bool,
       (c = a → s.proving.outputs[o].echo = false → checkEcho o a (some c) s = s) ∧
       (c = a → s.proving.outputs[o].echo = true →
         checkEcho o a (some c) s = endFault .switchEcho (.output o) (modProof s o fun r => { r with echo := false })) ∧
       (c ≠ a → s.proving.outputs[o].echo = true → checkEcho o a (some c) s = s) ∧
       (c ≠ a → s.proving.outputs[o].echo = false →
         checkEcho o a (some c) s =
           post .switchEcho (.output o) false (some [wordBool c, wordBool a])
             (modProof s o fun r => { r with echo := true }))) ∧
  (∀ (o : OutputId) (restart : Bool) (n : Nat) (s : State),
     n = (if restart then 0 else min 50 (s.proving.outputs[o].sense + 1)) →
       (s.proving.outputs[o].state = .isolated → countSense o restart s = s) ∧
       (s.proving.outputs[o].state = .senseLost → countSense o restart s = modProof s o fun r => { r with sense := n }) ∧
       (s.proving.outputs[o].state ≠ .isolated → s.proving.outputs[o].state ≠ .senseLost →
         (n < s.line.cards[cardOf o].senseTimeout → countSense o restart s = modProof s o fun r => { r with sense := n }) ∧
         (s.line.cards[cardOf o].senseTimeout ≤ n →
           (countSense o restart s).proving.outputs[o] =
             { s.proving.outputs[o] with
               commanded := (countSense o restart s).proving.outputs[o].commanded
               state := .senseLost, sense := n })))

/-- The trip test of a leakage figure (R90): while the card is TRIPPED nothing changes, a figure below its trip
threshold ends the run, one at or above it counts, and the third in a row trips the card (R90, R91, R75): it latches
where retry is disabled or its watch timer runs, else its retry timer starts at 600 units, CARD_TRIP is posted with L
and the latch, and then each of its outputs is ISOLATED and commanded off; that the record comes first is the model's
choice (log entry 71). The retry timer's expiry ends the trip and its record and starts the watch timer at 6000 units,
the card's outputs then leaving ISOLATED for UNPROVED on an ONLINE card and SENSE_LOST on a SILENT one (R92, R75), in
the order of log entry 70; the watch timer's expiry makes the timer absent (R93). A timer that does not stand at 0 has
no expiry (log entry 2). -/
def Obligations.CardTripsAndTheirTimers : Prop :=
  (∀ (c : CardId) (leak : Nat) (s : State),
     (s.cable.cards[c].tripped = true → leakTripTest c leak s = s) ∧
     (s.cable.cards[c].tripped = false →
       (leak < s.line.cards[c].leakTrip → leakTripTest c leak s = modCable s c fun r => { r with tripRun := 0 }) ∧
       (s.line.cards[c].leakTrip ≤ leak → s.cable.cards[c].tripRun < 2 →
         leakTripTest c leak s = modCable s c fun r => { r with tripRun := r.tripRun + 1 }) ∧
       (∀ latch : Bool, s.line.cards[c].leakTrip ≤ leak → 2 ≤ s.cable.cards[c].tripRun →
         latch = (!s.line.cards[c].retryEnable || s.cable.cards[c].watchTimer.isSome) →
           leakTripTest c leak s =
             isolateCard c
               (post .cardTrip (.card c) latch (some [word leak, wordBool latch])
                 (modCable s c fun r =>
                   { r with
                     tripped := true, tripRun := 0, latched := latch
                     retryTimer := if latch then none else some 600
                     watchTimer := none }))))) ∧
  (∀ (c : CardId) (leak : Nat) (s : State),
     s.cable.cards[c].tripped = false → s.line.cards[c].leakTrip ≤ leak → s.cable.cards[c].tripRun = 2 →
       (leakTripTest c leak s).cable.cards[c] =
         { s.cable.cards[c] with
           tripped := true
           tripRun := 0
           latched := !s.line.cards[c].retryEnable || s.cable.cards[c].watchTimer.isSome
           retryTimer :=
             if !s.line.cards[c].retryEnable || s.cable.cards[c].watchTimer.isSome then none else some 600
           watchTimer := none } ∧
       ∀ o : OutputId, cardOf o = c →
         (leakTripTest c leak s).proving.outputs[o].state = .isolated ∧
           (leakTripTest c leak s).proving.outputs[o].commanded = false) ∧
  (∀ (c : CardId) (s : State),
     (s.cable.cards[c].retryTimer ≠ some 0 → exec (.retryTimerExpiry c) s = .next s) ∧
     (s.cable.cards[c].watchTimer ≠ some 0 → exec (.watchTimerExpiry c) s = .next s) ∧
     (s.cable.cards[c].watchTimer = some 0 →
       exec (.watchTimerExpiry c) s = .next (modCable s c fun r => { r with watchTimer := none })) ∧
     (s.cable.cards[c].retryTimer = some 0 →
       ∃ t, exec (.retryTimerExpiry c) s = .next t ∧
         t =
           releaseCard c
             (endFault .cardTrip (.card c)
               (modCable s c fun r =>
                 { r with tripped := false, latched := false, retryTimer := none, watchTimer := some 6000 })) ∧
         t.cable.cards[c] =
           { s.cable.cards[c] with tripped := false, latched := false, retryTimer := none, watchTimer := some 6000 } ∧
         (∀ k : CardId, k ≠ c → t.cable.cards[k] = s.cable.cards[k]) ∧
         (∀ o : OutputId, cardOf o = c →
           t.proving.outputs[o].state = (if s.line.cards[c].online then .unproved else .senseLost) ∧
             t.proving.outputs[o].commanded = commandOf t o) ∧
         t.ports = s.ports ∧ t.safety = s.safety ∧ t.stages = s.stages ∧ t.inputs = s.inputs ∧ t.line = s.line ∧
         t.engine = s.engine ∧ t.pending = s.pending))

/-- What a delivery's measurements do to the cable fields (R86 to R90, R96 to R101). Each core measurement goes to the
feeder test where it is ON and else to the investigation of its output, if one is open. The feeder test counts an
output's open feeder figures and at the second makes the feeder OPEN with FEEDER_OPEN posted; one that is not open
makes it INTACT and ends the record. A leakage figure is stored as the card's last L, and the alarm is taken before the
trip test; in NORMAL the second in a row at or above leak_alarm makes ALARM with EARTH_LEAK posted, in ALARM the fourth
in a row below it makes NORMAL and ends it. A window of an open investigation updates its counts and candidates: the
first takes every other output that was not off throughout, a lit one drops those off throughout, a dark one those on
throughout. The verdicts in their order: STUCK_SWITCH where a lit window found every other output off throughout;
UNCLASSIFIED with no candidate left; CROSS with one left and a dark window seen; CURRENT_TRANSIENT at eight dark
windows in a row; AMBIGUOUS at 64 windows. With none the slot holds the updated fields; a verdict posts its record,
ends UNWANTED_CURRENT and frees the slot, and a CROSS between a used GREEN and a used output of a conflicting group is
a cause of handover. The model's choices: a candidate that a lowered core count has taken out of the other outputs
stays listed and is classed from its own history (log entry 66), and a first window that is dark is taken as a lit one
(log entry 74). -/
def Obligations.DeliveriesMoveFeedersLeakageAndInvestigations : Prop :=
  (∀ (m : CoreMeas) (s : State),
     (m.applied = true → deliverCore m s = feederTest m s) ∧
     (m.applied = false → deliverCore m s = investigate m s) ∧
     ((∀ (i : InvSlot) (v : Investigation), s.cable.investigations[i] = some v → v.x ≠ m.output) →
       investigate m s = s)) ∧
  (∀ (m : CoreMeas) (s : State),
     (m.openFeeder = true →
       (s.cable.feeders[m.output].count = 0 →
         feederTest m s = modFeeder s m.output fun r => { r with count := 1 }) ∧
       (0 < s.cable.feeders[m.output].count → s.cable.feeders[m.output].opened = true →
         feederTest m s = modFeeder s m.output fun r => { r with count := 2 }) ∧
       (0 < s.cable.feeders[m.output].count → s.cable.feeders[m.output].opened = false →
         feederTest m s =
           post .feederOpen (.output m.output) false
             (some (wordInt m.qf :: match m.qref with | some q => [wordInt q] | none => []))
             (modFeeder s m.output fun _ => { count := 2, opened := true }))) ∧
     (m.openFeeder = false →
       (s.cable.feeders[m.output].opened = false →
         feederTest m s = modFeeder s m.output fun _ => { count := 0, opened := false }) ∧
       (s.cable.feeders[m.output].opened = true →
         feederTest m s =
           endFault .feederOpen (.output m.output) (modFeeder s m.output fun _ => { count := 0, opened := false })))) ∧
  (∀ (c : CardId) (leak : Nat) (s : State),
     evaluateLeak { card := c, leak := leak } s =
         leakTripTest c leak (leakAlarmTest c leak (modCable s c fun r => { r with lastL := some leak })) ∧
     (evaluateLeak { card := c, leak := leak } s).cable.cards[c].lastL = some leak ∧
     (s.cable.cards[c].alarm = false →
       (leak < s.line.cards[c].leakAlarm → leakAlarmTest c leak s = modCable s c fun r => { r with alarmRun := 0 }) ∧
       (s.line.cards[c].leakAlarm ≤ leak → s.cable.cards[c].alarmRun = 0 →
         leakAlarmTest c leak s = modCable s c fun r => { r with alarmRun := 1 }) ∧
       (s.line.cards[c].leakAlarm ≤ leak → 0 < s.cable.cards[c].alarmRun →
         leakAlarmTest c leak s =
           post .earthLeak (.card c) false (some [word leak])
             (modCable s c fun r => { r with alarm := true, alarmRun := 0, clearRun := 0 }))) ∧
     (s.cable.cards[c].alarm = true →
       (s.line.cards[c].leakAlarm ≤ leak → leakAlarmTest c leak s = modCable s c fun r => { r with clearRun := 0 }) ∧
       (leak < s.line.cards[c].leakAlarm → s.cable.cards[c].clearRun < 3 →
         leakAlarmTest c leak s = modCable s c fun r => { r with clearRun := r.clearRun + 1 }) ∧
       (leak < s.line.cards[c].leakAlarm → 3 ≤ s.cable.cards[c].clearRun →
         leakAlarmTest c leak s =
           endFault .earthLeak (.card c) (modCable s c fun r => { r with alarm := false, clearRun := 0 })))) ∧
  (∀ (s : State) (x o : OutputId),
     o ∈ others s x ↔
       o ≠ x ∧ s.line.cards[cardOf o].configured = true ∧ placeOf o < s.line.cards[cardOf o].coreCount) ∧
  (∀ (m : CoreMeas) (i : InvSlot) (v w : Investigation) (s : State),
     investigationOf s m.output = some i → s.cable.investigations[i] = some v → m.cycles ≠ [] →
     w =
       { v with
         firstPending := false
         meas := if v.firstPending then 1 else v.meas + 1
         lit := if v.firstPending then 1 else if m.unwanted then v.lit + 1 else v.lit
         dark := if v.firstPending ∨ m.unwanted then v.dark else v.dark + 1
         consecutive := if v.firstPending then v.consecutive else if m.unwanted then 0 else v.consecutive + 1
         candidates :=
           (if v.firstPending then others s v.x else v.candidates).filter fun o =>
             if v.firstPending || m.unwanted then
               !m.cycles.all fun n => s.engine.cores[o].history[n] == some false
             else !m.cycles.all fun n => s.engine.cores[o].history[n] == some true } →
       (((v.firstPending = true ∨ m.unwanted = true) ∧
           ∀ o ∈ others s v.x, ∀ n ∈ m.cycles, s.engine.cores[o].history[n] = some false) →
         investigate m s =
           setInvestigation
             (endFault .unwantedCurrent (.output v.x) (post .stuckSwitch (.output v.x) true (some [wordInt m.ip]) s)) i
             none) ∧
       (¬((v.firstPending = true ∨ m.unwanted = true) ∧
           ∀ o ∈ others s v.x, ∀ n ∈ m.cycles, s.engine.cores[o].history[n] = some false) →
         (w.candidates = [] →
           investigate m s =
             setInvestigation
               (endFault .unwantedCurrent (.output v.x) (post .crossUnresolved (.output v.x) false (some [0]) s)) i none) ∧
         (∀ y, w.candidates = [y] → 1 ≤ w.dark →
           ∀ u,
             u =
               setInvestigation
                 (endFault .unwantedCurrent (.output v.x) (post .cross (.output v.x) true (some [word (number y)]) s)) i
                 none →
             investigate m s =
               if (outRec s v.x).used = true ∧ (outRec s v.x).colour = .green ∧ (outRec s y).used = true ∧
                   conflict s (outRec s v.x).group (outRec s y).group = true then
                 handover .crossConflict [word (number v.x), word (number y)] u
               else u) ∧
         (w.candidates ≠ [] → (w.dark = 0 ∨ 2 ≤ w.candidates.length) →
           (8 ≤ w.consecutive →
             investigate m s =
               setInvestigation
                 (endFault .unwantedCurrent (.output v.x)
                   (post .currentTransient (.output v.x) false (some [word w.meas]) s)) i none) ∧
           (w.consecutive < 8 → 64 ≤ w.meas →
             investigate m s =
               setInvestigation
                 (endFault .unwantedCurrent (.output v.x)
                   (post .crossUnresolved (.output v.x) false
                     (some (1 :: (w.candidates.take 8).map fun o => word (number o))) s)) i none) ∧
           (w.consecutive < 8 → w.meas < 64 → investigate m s = setInvestigation s i (some w)))))

/-! ### The plan memory -/

/-- SET LAYOUT in HANDED_OVER chooses a layout, empties every plan and makes the start plan absent (R115); PLAN ERASE
empties one plan that has no role (R110). -/
def Obligations.LayoutAndEraseEmptyPlans : Prop :=
  ∀ (f : Fields) (s : State),
    (s.service.state ≠ .handedOver → Responds (.setLayout .plan f) .plan 0x20 f .refusedState 0 s s) ∧
    (s.service.state = .handedOver → ∀ x, valueLayout f.value = some x →
      Responds (.setLayout .plan f) .plan 0x20 f .done 0 s
        { s with
          plans := { s.plans with layout := x, plans := Vector.replicate 16 Plan.empty, start := none } }) ∧
    (s.service.state = .handedOver → 2 < f.value.toNat → Responds (.setLayout .plan f) .plan 0x20 f .badValue 0 s s) ∧
    (∀ p : PlanId, f.subject.toNat = number p → number p ≤ planCount s.plans.layout →
      (planInUse s p = true → Responds (.planErase .plan f) .plan 0x23 f .planActive 0 s s) ∧
      (planInUse s p = false →
        Responds (.planErase .plan f) .plan 0x23 f .done 0 s
          { s with plans := { s.plans with plans := s.plans.plans.set p Plan.empty } })) ∧
    (f.subject = 0 ∨ planCount s.plans.layout < f.subject.toNat →
      Responds (.planErase .plan f) .plan 0x23 f .badSubject 0 s s)

/-- PLAN WRITE of a plan that is neither active nor pending stores one field and makes the plan OPEN (R108): the mode, the
cycle, the offset and the step count, up to the slot size, of a plan, and the stage, min green, max green, demand
dependence and force-off of a step. A value out of range is refused with BAD_VALUE; a plan in a role is refused with
PLAN_ACTIVE, whatever the value; a field beyond these, a step beyond the slot size, or a plan that the layout does not
provide, is BAD_SUBJECT (subject bits 6 and 5: log entry 30). -/
def Obligations.PlanWriteStoresOneField : Prop :=
  ∀ (p : PlanId) (v : Word16) (s : State),
    (planCount s.plans.layout < number p →
      ∀ n : Byte,
        Responds (.planWrite .plan ⟨BitVec.ofNat 8 (number p), n, v⟩) .plan 0x21 ⟨BitVec.ofNat 8 (number p), n, v⟩
          .badSubject 0 s s) ∧
    (number p ≤ planCount s.plans.layout →
      (∀ n : Byte, 3 < n.toNat →
        Responds (.planWrite .plan ⟨BitVec.ofNat 8 (number p), n, v⟩) .plan 0x21 ⟨BitVec.ofNat 8 (number p), n, v⟩
          .badSubject 0 s s) ∧
      (∀ n : Byte, 4 < n.toNat / 32 ∨ slotSize s.plans.layout ≤ n.toNat % 32 →
        Responds (.planWrite .plan ⟨BitVec.ofNat 8 (0x80 + number p), n, v⟩) .plan 0x21
          ⟨BitVec.ofNat 8 (0x80 + number p), n, v⟩ .badSubject 0 s s) ∧
      (planInUse s p = true →
        (∀ n : Byte, n.toNat ≤ 3 →
          Responds (.planWrite .plan ⟨BitVec.ofNat 8 (number p), n, v⟩) .plan 0x21 ⟨BitVec.ofNat 8 (number p), n, v⟩
            .planActive 0 s s) ∧
        ∀ n : Byte, n.toNat / 32 ≤ 4 → n.toNat % 32 < slotSize s.plans.layout →
          Responds (.planWrite .plan ⟨BitVec.ofNat 8 (0x80 + number p), n, v⟩) .plan 0x21
            ⟨BitVec.ofNat 8 (0x80 + number p), n, v⟩ .planActive 0 s s) ∧
      (planInUse s p = false →
        (∀ q ∈ planFields (slotSize s.plans.layout),
          Responds (.planWrite .plan ⟨BitVec.ofNat 8 (number p), q.index, v⟩) .plan 0x21
            ⟨BitVec.ofNat 8 (number p), q.index, v⟩
            (if q.least ≤ v.toNat ∧ v.toNat ≤ q.most then .done else .badValue) 0 s
            (if q.least ≤ v.toNat ∧ v.toNat ≤ q.most then modPlan s p fun r => { q.put v.toNat r with state := .opened }
             else s)) ∧
        Responds (.planWrite .plan ⟨BitVec.ofNat 8 (number p), 0, v⟩) .plan 0x21 ⟨BitVec.ofNat 8 (number p), 0, v⟩
          (if v.toNat ≤ 1 then .done else .badValue) 0 s
          (if v = 0 then modPlan s p fun r => { r with mode := .isolated, state := .opened }
           else if v = 1 then modPlan s p fun r => { r with mode := .linked, state := .opened }
           else s) ∧
        ∀ k : StepNo, k.val < slotSize s.plans.layout →
          (∀ q ∈ stepFields, ∀ n : Byte, n.toNat = 32 * q.index.toNat + k.val →
            Responds (.planWrite .plan ⟨BitVec.ofNat 8 (0x80 + number p), n, v⟩) .plan 0x21
              ⟨BitVec.ofNat 8 (0x80 + number p), n, v⟩
              (if q.least ≤ v.toNat ∧ v.toNat ≤ q.most then .done else .badValue) 0 s
              (if q.least ≤ v.toNat ∧ v.toNat ≤ q.most then
                modPlan s p fun r => { r with steps := r.steps.set k (q.put v.toNat r.steps[k]), state := .opened }
               else s)) ∧
          (∀ n : Byte, n.toNat = k.val →
            (v = 0 →
              Responds (.planWrite .plan ⟨BitVec.ofNat 8 (0x80 + number p), n, v⟩) .plan 0x21
                ⟨BitVec.ofNat 8 (0x80 + number p), n, v⟩ .done 0 s
                (modPlan s p fun r =>
                  { r with steps := r.steps.set k { r.steps[k] with stage := none }, state := .opened })) ∧
            (∀ g : StageId, v.toNat = number g →
              Responds (.planWrite .plan ⟨BitVec.ofNat 8 (0x80 + number p), n, v⟩) .plan 0x21
                ⟨BitVec.ofNat 8 (0x80 + number p), n, v⟩ .done 0 s
                (modPlan s p fun r =>
                  { r with steps := r.steps.set k { r.steps[k] with stage := some g }, state := .opened })) ∧
            (16 < v.toNat →
              Responds (.planWrite .plan ⟨BitVec.ofNat 8 (0x80 + number p), n, v⟩) .plan 0x21
                ⟨BitVec.ofNat 8 (0x80 + number p), n, v⟩ .badValue 0 s s)) ∧
          (∀ n : Byte, n.toNat = 96 + k.val →
            (∀ b : Bool, v = (if b then 1 else 0) →
              Responds (.planWrite .plan ⟨BitVec.ofNat 8 (0x80 + number p), n, v⟩) .plan 0x21
                ⟨BitVec.ofNat 8 (0x80 + number p), n, v⟩ .done 0 s
                (modPlan s p fun r =>
                  { r with steps := r.steps.set k { r.steps[k] with demandDependent := b }, state := .opened })) ∧
            (1 < v.toNat →
              Responds (.planWrite .plan ⟨BitVec.ofNat 8 (0x80 + number p), n, v⟩) .plan 0x21
                ⟨BitVec.ofNat 8 (0x80 + number p), n, v⟩ .badValue 0 s s)) ∧
          ∀ n : Byte, n.toNat = 128 + k.val →
            (∀ x : Option Nat, x = none ∧ v = 0xFFFF ∨ x = some v.toNat ∧ v.toNat ≤ 239 →
              Responds (.planWrite .plan ⟨BitVec.ofNat 8 (0x80 + number p), n, v⟩) .plan 0x21
                ⟨BitVec.ofNat 8 (0x80 + number p), n, v⟩ .done 0 s
                (modPlan s p fun r =>
                  { r with steps := r.steps.set k { r.steps[k] with forceOff := x }, state := .opened })) ∧
            (239 < v.toNat → v ≠ 0xFFFF →
              Responds (.planWrite .plan ⟨BitVec.ofNat 8 (0x80 + number p), n, v⟩) .plan 0x21
                ⟨BitVec.ofNat 8 (0x80 + number p), n, v⟩ .badValue 0 s s)))

/-- PLAN CLOSE (R109) makes an OPEN plan READY exactly where its offset is inside a LINKED cycle and each of its steps
names a defined stage, with max green at least min green and a force-off only inside a LINKED cycle; else it stores
and answers the first failing check. A READY plan is kept, an EMPTY one refused, one in a role refused. -/
def Obligations.PlanCloseValidatesThePlan : Prop :=
  ∀ (p : PlanId) (f : Fields) (s : State),
    f.subject.toNat = number p → number p ≤ planCount s.plans.layout →
      (planInUse s p = true → Responds (.planClose .plan f) .plan 0x22 f .planActive 0 s s) ∧
      (planInUse s p = false →
        (s.plans.plans[p].state = .ready → Responds (.planClose .plan f) .plan 0x22 f .done 0 s s) ∧
        (s.plans.plans[p].state = .empty →
          Responds (.planClose .plan f) .plan 0x22 f .badValue 0x0100 s
            (modPlan s p fun r => { r with closeReason := some (.emptyPlan, none) })) ∧
        (s.plans.plans[p].state = .opened →
          (closePlan s s.plans.plans[p] = none →
            Responds (.planClose .plan f) .plan 0x22 f .done 0 s
              (modPlan s p fun r => { r with state := .ready, closeReason := none })) ∧
          (∀ c, closePlan s s.plans.plans[p] = some c →
            Responds (.planClose .plan f) .plan 0x22 f .badValue
              (word (256 * closeCode c.1 + match c.2 with | some k => number k | none => 0)) s
              (modPlan s p fun r => { r with closeReason := some c })))) ∧
      (closePlan s s.plans.plans[p] = none ↔
        (s.plans.plans[p].mode = .linked → s.plans.plans[p].offset < s.plans.plans[p].cycle) ∧
        ∀ k : StepNo, k.val < s.plans.plans[p].stepCount →
          (∃ n, s.plans.plans[p].steps[k].stage = some n ∧ s.stages[n].defined = true) ∧
          s.plans.plans[p].steps[k].minGreen ≤ s.plans.plans[p].steps[k].maxGreen ∧
          ∀ x, s.plans.plans[p].steps[k].forceOff = some x →
            s.plans.plans[p].mode = .linked ∧ x < s.plans.plans[p].cycle)

/-- START PLAN names the plan for the next RESTORE, or none, in every service state, and changes nothing else; a plan
beyond the layout's count is refused (R112). SELECT PLAN in SERVICE (R116): the active plan cancels the pending one, a
plan that is not READY is refused with its state, and any other becomes the pending plan with its wrap flag clear,
with a decision where its transfer is due (R117, R137); in the other states it is refused. -/
def Obligations.StartAndSelectPlan : Prop :=
  (∀ (f : Fields) (s : State),
     (f.subject = 0 →
       Responds (.startPlan .plan f) .plan 0x24 f .done 0 s { s with plans := { s.plans with start := none } }) ∧
     (∀ p : PlanId, f.subject.toNat = number p → number p ≤ planCount s.plans.layout →
       Responds (.startPlan .plan f) .plan 0x24 f .done 0 s { s with plans := { s.plans with start := some p } }) ∧
     (planCount s.plans.layout < f.subject.toNat → Responds (.startPlan .plan f) .plan 0x24 f .badSubject 0 s s)) ∧
  (∀ (p : PlanId) (f : Fields) (s : State),
     (s.service.state ≠ .service → Responds (.selectPlan .plan f) .plan 0x25 f .refusedState 0 s s) ∧
     (s.service.state = .service → f.subject.toNat = number p → number p ≤ planCount s.plans.layout →
       (s.plans.active = some p →
         Responds (.selectPlan .plan f) .plan 0x25 f .done 0 s { s with plans := { s.plans with pending := none } }) ∧
       (s.plans.active ≠ some p → s.plans.plans[p].state ≠ .ready →
         Responds (.selectPlan .plan f) .plan 0x25 f .badValue (word (planStateCode s.plans.plans[p].state)) s s) ∧
       (s.plans.active ≠ some p → s.plans.plans[p].state = .ready →
         (transferDue { s with plans := { s.plans with pending := some { plan := p, wrap := false } } } = false →
           Responds (.selectPlan .plan f) .plan 0x25 f .done 0 s
             { s with plans := { s.plans with pending := some { plan := p, wrap := false } } }) ∧
         (transferDue { s with plans := { s.plans with pending := some { plan := p, wrap := false } } } = true →
           Responds (.selectPlan .plan f) .plan 0x25 f .done 0 s
             (decision
               { receive .plan 0x25 f s with plans := { s.plans with pending := some { plan := p, wrap := false } } })))))

/-! ### The stage sequencer -/

/-- A decision event, an interstage's completion and a change of red status change the sequencer, the proving unit, the
fault table, the roles of plans, the investigations and the service state, and nothing else (R137, R145, R156). -/
def Obligations.DecisionsKeepTheOtherBlocks : Prop :=
  ∀ s : State, DecisionKeeps s (decision s) ∧ DecisionKeeps s (settled s) ∧ DecisionKeeps s (redStatusChanged s)

/-- DEMAND in STARTING and SERVICE sets the latch of a defined stage, with a decision; for the running stage it is
dropped and answers 1; a latch already set stays set. In HANDED_OVER it is refused with REFUSED_STATE, and an undefined
stage with BAD_VALUE (R139, R137). EXTEND in STARTING and SERVICE replaces the hold of a group defined in the active
table with its value, 100 at most, and answers it; a hold of 0 is a decision event (R140). -/
def Obligations.DemandAndExtend : Prop :=
  (∀ (n : StageId) (f : Fields) (s : State),
     (s.service.state = .handedOver → Responds (.demand .plan f) .plan 0x30 f .refusedState 0 s s) ∧
     (s.service.state ≠ .handedOver → f.subject.toNat = number n →
       (s.stages[n].defined = false → Responds (.demand .plan f) .plan 0x30 f .badValue 0 s s) ∧
       (s.stages[n].defined = true →
         (s.seq.phase = .stage → runningStage s = some n → Responds (.demand .plan f) .plan 0x30 f .done 1 s s) ∧
         (¬(s.seq.phase = .stage ∧ runningStage s = some n) →
           (has s.seq.latches n = true → Responds (.demand .plan f) .plan 0x30 f .done 0 s s) ∧
           (has s.seq.latches n = false →
             Responds (.demand .plan f) .plan 0x30 f .done 0 s
               (decision
                 { receive .plan 0x30 f s with seq := { s.seq with latches := setAdd s.seq.latches n } })))))) ∧
  (∀ (g : GroupId) (f : Fields) (s : State),
     (s.service.state = .handedOver → Responds (.extend .plan f) .plan 0x31 f .refusedState 0 s s) ∧
     (s.service.state ≠ .handedOver → f.subject.toNat = number g →
       ((groupRec s g).defined = false → Responds (.extend .plan f) .plan 0x31 f .badSubject 0 s s) ∧
       ((groupRec s g).defined = true → f.value ≠ 0 →
         Responds (.extend .plan f) .plan 0x31 f .done (word (min 100 f.value.toNat)) s
           (modGroup s g fun r => { r with hold := min 100 f.value.toNat })) ∧
       ((groupRec s g).defined = true → f.value = 0 →
         Responds (.extend .plan f) .plan 0x31 f .done 0 s
           (decision (modGroup (receive .plan 0x31 f s) g fun r => { r with hold := 0 })))))

/-- PRIORITY CALL in STARTING and SERVICE, for a stage that is not running (R141): a listed call's duration is replaced,
a new call joins the end of a list of fewer than four, and a fifth is refused with FULL; the duration is brought into 50
to 600, and a change of the list is a decision event, the same duration none. For the running stage the call is taken
into service at once, its units replacing those of a call already in service there (R143). CANCEL PRIORITY in STARTING
and SERVICE removes a defined stage's call from the list and leaves a call service for it with no units, listed or not,
which is a decision event; where neither holds, or the service has no units left, it changes nothing; it answers DONE
(R142, R143). An undefined stage is refused with BAD_VALUE (CANCEL PRIORITY: log entry 44). -/
def Obligations.PriorityCallsListServeAndCancel : Prop :=
  (∀ (n : StageId) (f : Fields) (s : State),
     (s.service.state = .handedOver → Responds (.priorityCall .plan f) .plan 0x32 f .refusedState 0 s s) ∧
     (s.service.state ≠ .handedOver → f.subject.toNat = number n →
       (s.stages[n].defined = false → Responds (.priorityCall .plan f) .plan 0x32 f .badValue 0 s s) ∧
       (s.stages[n].defined = true → runsNow s n = false → (∀ c ∈ s.seq.calls, c.stage ≠ n) →
         (s.seq.calls.length < 4 →
           Responds (.priorityCall .plan f) .plan 0x32 f .done 0 s
             (decision
               { receive .plan 0x32 f s with
                 seq :=
                   { s.seq with
                     calls :=
                       s.seq.calls ++ [{ stage := n, duration := max 50 (min 600 f.value.toNat), wait := 0 }] } })) ∧
         (4 ≤ s.seq.calls.length → Responds (.priorityCall .plan f) .plan 0x32 f .full 0 s s)) ∧
       (s.stages[n].defined = true → runsNow s n = false →
         (∃ c ∈ s.seq.calls, c.stage = n ∧ c.duration ≠ max 50 (min 600 f.value.toNat)) →
           Responds (.priorityCall .plan f) .plan 0x32 f .done 0 s
             (decision
               { receive .plan 0x32 f s with
                 seq :=
                   { s.seq with
                     calls :=
                       s.seq.calls.map fun c =>
                         if c.stage = n then { c with duration := max 50 (min 600 f.value.toNat) } else c } })) ∧
       (s.stages[n].defined = true → runsNow s n = false →
         (∃ c ∈ s.seq.calls, c.stage = n) →
         (∀ c ∈ s.seq.calls, c.stage = n → c.duration = max 50 (min 600 f.value.toNat)) →
           Responds (.priorityCall .plan f) .plan 0x32 f .done 0 s s) ∧
       (s.stages[n].defined = true → runsNow s n = true →
         s.seq.service ≠ some { stage := n, units := max 50 (min 600 f.value.toNat) } →
         Responds (.priorityCall .plan f) .plan 0x32 f .done 0 s
           (decision
             { receive .plan 0x32 f s with
               seq := { s.seq with service := some { stage := n, units := max 50 (min 600 f.value.toNat) } } })) ∧
       (s.stages[n].defined = true → runsNow s n = true →
         s.seq.service = some { stage := n, units := max 50 (min 600 f.value.toNat) } →
         Responds (.priorityCall .plan f) .plan 0x32 f .done 0 s s))) ∧
  (∀ (n : StageId) (f : Fields) (s : State),
     (s.service.state = .handedOver → Responds (.cancelPriority .plan f) .plan 0x33 f .refusedState 0 s s) ∧
     (s.service.state ≠ .handedOver → f.subject.toNat = number n → s.stages[n].defined = false →
       Responds (.cancelPriority .plan f) .plan 0x33 f .badValue 0 s s) ∧
     (s.service.state ≠ .handedOver → f.subject.toNat = number n → s.stages[n].defined = true →
       ((∀ c ∈ s.seq.calls, c.stage ≠ n) → (∀ c, s.seq.service = some c → c.stage = n → c.units = 0) →
         Responds (.cancelPriority .plan f) .plan 0x33 f .done 0 s s) ∧
       ((∃ c ∈ s.seq.calls, c.stage = n) ∨ (∃ c, s.seq.service = some c ∧ c.stage = n ∧ 0 < c.units) →
         Responds (.cancelPriority .plan f) .plan 0x33 f .done 0 s
           (decision
             { receive .plan 0x33 f s with
               seq :=
                 { s.seq with
                   calls := s.seq.calls.filter fun c => c.stage != n
                   service :=
                     s.seq.service.map fun c => if c.stage = n then { stage := c.stage, units := 0 } else c } }))))

/-- ALL RED in STARTING and SERVICE sets the all-red flag, with a decision where the hold becomes active or inactive
(R144); SET CLOCK, in every service state, sets the junction clock to a value up to 863,999 and moves no unit count
(R124). While a LINKED plan is active (R149, R150) the cycle position takes its new value, and d is the forward distance
from the old one, modulo the cycle: from half a cycle on, PLAN_RESYNC is posted with both positions and nothing else
happens; below it, the wrap flag is set where the new position is below the old one, a WAITING force-off among the
positions passed is REACHED, and a force-off reached or a transfer become due brings a decision (R137). The model's
choices: the clock is set first, so that PLAN_RESYNC and the decision's records carry the new time (log entry 72), and a
force-off passed is REACHED at the unit count of the SET CLOCK (log entry 15). -/
def Obligations.AllRedAndSetClock : Prop :=
  ∀ (f : Fields) (s : State),
    (s.service.state = .handedOver → Responds (.allRed .plan f) .plan 0x34 f .refusedState 0 s s) ∧
    (s.service.state ≠ .handedOver → 1 < f.value.toNat → Responds (.allRed .plan f) .plan 0x34 f .badValue 0 s s) ∧
    (∀ b : Bool, s.service.state ≠ .handedOver → f.value = (if b then 1 else 0) →
      (holdActive { s with seq := { s.seq with allRed := b } } = holdActive s →
        Responds (.allRed .plan f) .plan 0x34 f .done 0 s { s with seq := { s.seq with allRed := b } }) ∧
      (holdActive { s with seq := { s.seq with allRed := b } } ≠ holdActive s →
        Responds (.allRed .plan f) .plan 0x34 f .done 0 s
          (decision { receive .plan 0x34 f s with seq := { s.seq with allRed := b } }))) ∧
    (863999 < 65536 * f.index.toNat + f.value.toNat → Responds (.setClock .plan f) .plan 0x35 f .badValue 0 s s) ∧
    (65536 * f.index.toNat + f.value.toNat ≤ 863999 →
      ∃ t, exec (.setClock .plan f) s = .next t ∧ Answered .plan 0x35 f .done 0 s t ∧
        t.seq.clock = 65536 * f.index.toNat + f.value.toNat ∧ t.seq.units = s.seq.units ∧
        t.safety = s.safety ∧ t.stages = s.stages ∧ t.line = s.line ∧ t.engine = s.engine ∧ t.inputs = s.inputs ∧
        t.plans.plans = s.plans.plans ∧ t.pending = s.pending ∧
        (s.plans.active = none →
          t =
            { s with
              ports := t.ports
              seq := { s.seq with clock := 65536 * f.index.toNat + f.value.toNat, position := none } })) ∧
    (∀ (p : PlanId) (r : Plan) (n a b c d : Nat),
      n = 65536 * f.index.toNat + f.value.toNat → n ≤ 863999 → s.plans.active = some p → r = s.plans.plans[p] →
      r.mode = .linked → s.seq.position = some a → b = positionIn r n → c = 10 * r.cycle → d = (b + c - a) % c →
        (c ≤ 2 * d →
          Responds (.setClock .plan f) .plan 0x35 f .done 0 s
            (post .planResync (.plan p) false (some [word a, word b])
              { s with seq := { s.seq with clock := n, position := some b } })) ∧
        (2 * d < c →
          ∃ u,
            u =
              { receive .plan 0x35 f s with
                seq :=
                  { s.seq with
                    clock := n, position := some b, forceOff := u.seq.forceOff, overrun := u.seq.overrun }
                plans :=
                  { s.plans with
                    pending :=
                      if b < a then s.plans.pending.map fun q => { q with wrap := true } else s.plans.pending } } ∧
            ForceOffPasses (fun x => 1 ≤ (x + c - a) % c ∧ (x + c - a) % c ≤ d) s u ∧
            Responds (.setClock .plan f) .plan 0x35 f .done 0 s
              (if u.seq.forceOff ≠ s.seq.forceOff ∨ transferDue u = true ∧ transferDue s = false then decision u
               else u))) ∧
    ∀ (r : Plan) (n : Nat), r.offset < r.cycle →
      positionIn r n = (n + 10 * r.cycle - 10 * r.offset) % (10 * r.cycle)

/-- A timing unit (R122, R124, R84, R153, R140, R142, R143, R133, R138, R149), its effects in the order of log entry 3 and
a decision last (R137). Before the decision: the clock has advanced by one modulo 864,000 and the unit count by one; the
timers of the service controller and the cards, the holds and the call service have counted down, stopping at 0, where
they wait for their expiry (log entry 2); the wait counts have counted up to 1200, but in STOPPED, and a call that has
come there is still listed (log entry 67); the min and max counts of a running step have counted up to 2400; the cycle
position is that of the clock, the pending plan's wrap flag is set where the position is lower than it was, and a WAITING
force-off at the position is REACHED; nothing else has changed. The clock, the unit count, the offer, the cards' timers
and every other block but the sequencer, the roles, the outputs, the investigations and the records are so after the
decision too. -/
def Obligations.TimingUnitCountsDown : Prop :=
  ∀ s : State,
    ∃ t u, exec .timingUnit s = .next t ∧ t = decision u ∧
      u = { s with service := u.service, cable := u.cable, plans := u.plans, seq := u.seq } ∧
      u.service =
        { s.service with
          offer := s.service.offer.map (· - 1)
          start := s.service.start.map (· - 1)
          vouch := s.service.vouch.map (· - 1)
          changeover := s.service.changeover.map (· - 1)
          twoKey := s.service.twoKey.map (· - 1) } ∧
      u.cable = { s.cable with cards := u.cable.cards } ∧
      (∀ c : CardId,
        u.cable.cards[c] =
          { s.cable.cards[c] with
            retryTimer := s.cable.cards[c].retryTimer.map (· - 1)
            watchTimer := s.cable.cards[c].watchTimer.map (· - 1) }) ∧
      u.seq =
        { s.seq with
          clock := (s.seq.clock + 1) % 864000
          units := s.seq.units + 1
          groups := u.seq.groups
          calls :=
            if s.seq.phase = .stopped then s.seq.calls
            else s.seq.calls.map fun c => { c with wait := min 1200 (c.wait + 1) }
          service := s.seq.service.map fun c => { c with units := c.units - 1 }
          minCount :=
            if s.seq.phase = .stage ∧ s.seq.designation = some .step then min 2400 (s.seq.minCount + 1)
            else s.seq.minCount
          maxCount :=
            if s.seq.phase = .stage ∧ s.seq.designation = some .step then min 2400 (s.seq.maxCount + 1)
            else s.seq.maxCount
          position := u.seq.position
          forceOff := u.seq.forceOff
          overrun := u.seq.overrun } ∧
      (∀ g : GroupId, u.seq.groups[g] = { s.seq.groups[g] with hold := s.seq.groups[g].hold - 1 }) ∧
      (activePlan s = none → u.seq.position = none) ∧
      (∀ r, activePlan s = some r →
        u.seq.position = if r.mode = .linked then some (positionIn r ((s.seq.clock + 1) % 864000)) else none) ∧
      u.plans = { s.plans with pending := u.plans.pending } ∧
      (∀ a b, s.seq.position = some a → u.seq.position = some b → b < a →
        u.plans.pending = s.plans.pending.map fun q => { q with wrap := true }) ∧
      ((∀ a b, s.seq.position = some a → u.seq.position = some b → a ≤ b) → u.plans.pending = s.plans.pending) ∧
      ForceOffPasses (fun x => u.seq.position = some x) s u ∧
      t.seq.clock = (s.seq.clock + 1) % 864000 ∧ t.seq.units = s.seq.units + 1 ∧
      t.service.offer = s.service.offer.map (· - 1) ∧ t.service.checkPeriod = s.service.checkPeriod ∧
      t.service.flsel = s.service.flsel ∧ t.cable.cards = u.cable.cards ∧
      t.ports = s.ports ∧ t.safety = s.safety ∧ t.stages = s.stages ∧ t.line = s.line ∧ t.engine = s.engine ∧
      t.inputs = s.inputs ∧ t.plans.plans = s.plans.plans ∧ t.cable.feeders = s.cable.feeders ∧
      t.pending = s.pending ∧
      (s.service.state = .handedOver → s.seq.phase = .stopped → s.plans.active = none → t.faults = s.faults ∧
        t.seq.calls = s.seq.calls ∧ t.proving = s.proving)

/-- The times of an interstage, each taken once its unit has come (R129, R130, R131): RED at the end of an ending
period, RED_AMBER whatever the exposures, GREEN where every conflicting exposure is false, a RED_AMBER time not yet
taken being dropped then, which is the model's choice (log entry 68), and otherwise the group waits; what may complete
the interstage follows. Before its unit nothing changes, which is the model's choice (log entry 5). A gating deadline
that has passed with the group still waiting on a conflicting exposure hands over with GREEN_NOT_OFF and the group as
detail (R131); before it nothing changes. The completion (R132, R143): an interstage with a target, no group of which
waits for its green or is in an ending period, goes to STAGE with the target's set and designation, its stage's latch
cleared and its listed call in service, a call that is gone with no units (log entry 22), a plan step with its counts 0
and its force-off afresh; where a latch, the list, the call service or the force-off state changed, a decision follows
(log entry 40). A withdrawn one completes with no group in an ending period, as RESIDUAL over the groups then GREEN,
and a decision follows. A change of red status (R145 to R147): the bars are recomputed; in STAGE a change of them or a
barred set brings a decision; in INTERSTAGE every GREEN group that conflicts with one in RED_LOSS begins its ending
period, and a target that is barred is withdrawn, each group that has not had its GREEN time taken back to RED with no
times, the resume point held or the step after the target's. -/
def Obligations.InterstageTimes : Prop :=
  (∀ (g : GroupId) (s : State),
     (∀ n, s.seq.groups[g].endAt = some n → n ≤ s.seq.units →
       exec (.endingPeriodEnd g) s =
         .next (settled (modGroup (setAspect g .red s) g fun r => { r with endAt := none }))) ∧
     (∀ n, s.seq.groups[g].redAmberAt = some n → n ≤ s.seq.units →
       exec (.redAmberTime g) s = .next (modGroup (setAspect g .redAmber s) g fun r => { r with redAmberAt := none })) ∧
     (∀ n, s.seq.groups[g].greenAt = some n → n ≤ s.seq.units →
       ((∀ l : GroupId, conflict s l g = true → s.proving.groups[l].exposed = false) →
         exec (.greenTime g) s =
           .next
             (settled
               (conflictCheck
                 (modGroup (setAspect g .green s) g fun r =>
                   { r with redAmberAt := none, greenAt := none, deadline := none })))) ∧
       ((∃ l : GroupId, conflict s l g = true ∧ s.proving.groups[l].exposed = true) →
         exec (.greenTime g) s = .next (settled s))) ∧
     ((∀ n, s.seq.groups[g].endAt = some n → s.seq.units < n) → exec (.endingPeriodEnd g) s = .next s) ∧
     ((∀ n, s.seq.groups[g].redAmberAt = some n → s.seq.units < n) → exec (.redAmberTime g) s = .next s) ∧
     ((∀ n, s.seq.groups[g].greenAt = some n → s.seq.units < n) → exec (.greenTime g) s = .next s)) ∧
  (∀ (g : GroupId) (s : State),
     ((∀ n, s.seq.groups[g].deadline = some n → s.seq.units < n) → exec (.gatingDeadlineExpiry g) s = .next s) ∧
     (∀ n, s.seq.groups[g].deadline = some n → n ≤ s.seq.units →
       (∃ l : GroupId, conflict s l g = true ∧ s.proving.groups[l].exposed = true) →
         exec (.gatingDeadlineExpiry g) s = .next (handover .greenNotOff [BitVec.ofNat 16 (g.val + 1)] s))) ∧
  (∀ s : State, s.seq.phase ≠ .interstage → settled s = s) ∧
  (∀ (t : Target) (s : State), s.seq.phase = .interstage → s.seq.target = some t →
     ((∃ g : GroupId, s.seq.groups[g].greenAt ≠ none ∨ s.seq.groups[g].endAt ≠ none) → settled s = s) ∧
     ((∀ g : GroupId, s.seq.groups[g].greenAt = none ∧ s.seq.groups[g].endAt = none) →
       ∃ u, Completes s t u ∧
         settled s =
           if u.seq.latches = s.seq.latches ∧ u.seq.calls = s.seq.calls ∧ u.seq.service = s.seq.service ∧
               u.seq.forceOff = s.seq.forceOff then
             u
           else decision u)) ∧
  (∀ s : State, s.seq.phase = .interstage → s.seq.target = none →
     ((∃ g : GroupId, s.seq.groups[g].endAt ≠ none) → settled s = s) ∧
     ((∀ g : GroupId, s.seq.groups[g].endAt = none) →
       ∃ u, settled s = decision u ∧
         u =
           { s with
             seq := { s.seq with phase := .stage, designation := some .residual, current := u.seq.current } } ∧
         ∀ g : GroupId, has u.seq.current g = (s.seq.groups[g].aspect == .green))) ∧
  (∀ s u : State, u = { s with seq := { s.seq with bars := barsNow s } } →
     (s.seq.phase = .stopped ∨ s.seq.phase = .startRed → redStatusChanged s = u) ∧
     (s.seq.phase = .stage →
       redStatusChanged s =
         if u.seq.bars ≠ s.seq.bars ∨ barredSet u u.seq.current = true then decision u else u) ∧
     (s.seq.phase = .interstage →
       ∃ w, redStatusChanged s = settled w ∧ w.seq.phase = .interstage ∧ w.seq.bars = barsNow s ∧
         w.seq.units = s.seq.units ∧
         ∀ barred : Prop,
           (barred ↔ ∃ t n, s.seq.target = some t ∧ targetStage t = some n ∧ has u.seq.bars n = true) →
             (barred → w.seq.target = none) ∧
             (¬barred → w.seq.target = s.seq.target ∧ w.seq.resume = s.seq.resume) ∧
             (∀ (n m : StepNo) (g : StageId) (p : Plan), barred → s.seq.target = some (.step n g) →
               activePlan s = some p → 1 ≤ p.stepCount → m.val = (n.val + 1) % p.stepCount →
                 w.seq.resume = some (s.seq.resume.getD m)) ∧
             ∀ g : GroupId,
               (barred → s.seq.groups[g].greenAt ≠ none →
                 w.seq.groups[g].aspect = .red ∧ w.seq.groups[g].redAmberAt = none ∧
                   w.seq.groups[g].greenAt = none ∧ w.seq.groups[g].deadline = none) ∧
               (¬barred ∨ s.seq.groups[g].greenAt = none →
                 (s.seq.groups[g].aspect = .green → facesLoss s g = true → EndsGreen s w g) ∧
                 (s.seq.groups[g].aspect ≠ .green ∨ facesLoss s g = false →
                   w.seq.groups[g] = s.seq.groups[g]))))

/-- A change of a group's aspect (R127, R66, R79): the aspect is set, a rise to GREEN stamps the green start and a fall
from it the last green end, the group's outputs are commanded as R66 composes them and its exposure is as R79 gives;
nothing else changes. The target of a decision (R135): under the all-red hold S0, or none from S0; else the first
listed call neither barred nor running; else the scan's. The scan (R134, R118) takes the first step that qualifies: of
the pending plan from step 1 where its transfer is due, else of the active plan after the running step, or from the
resume point, or from step 1 where none is held (log entry 23). When a target may end what runs (R136; min green 0: log
entry 16). A decision outside phase STAGE changes nothing (R137); without a target it hands over with RED_LOSS_NO_STAGE
where the current set is barred (R148), and else changes nothing; toward another set it starts an interstage where the
current set is barred or its condition holds, and else changes no more than the resume point. The interstage (R129,
R130): each losing group begins its ending period at the unit count, or is RED where it has none; each gaining group
has its GREEN time after the largest of its red-amber time and the intergreens left, its RED_AMBER time before that and
its deadline 20 units after it; the other groups stay. The times already here are then taken in the same event (log
entry 17), in ascending order (log entry 18), and an interstage so completed is settled, with up to seven decisions
more (log entry 40). A target with the set that runs (R133, R118): a plan step that may follow is taken without
interstage, from the pending plan where its transfer is due, which is then active, with its counts 0, its force-off
afresh, its latch cleared (log entry 21), its listed call taken into service or a call service of another stage ended,
no record posted (log entry 36), and the groups as they were; any other such target changes no more than the resume
point. -/
def Obligations.AspectsTargetsAndInterstages : Prop :=
  (∀ (g : GroupId) (a : Aspect) (s : State),
     (setAspect g a s).seq.groups[g] =
       { s.seq.groups[g] with
         aspect := a
         greenStart :=
           if a = .green ∧ s.seq.groups[g].aspect ≠ .green then some s.seq.units else s.seq.groups[g].greenStart
         lastEnd :=
           if s.seq.groups[g].aspect = .green ∧ a ≠ .green then some s.seq.units else s.seq.groups[g].lastEnd } ∧
     (∀ h : GroupId, h ≠ g →
       (setAspect g a s).seq.groups[h] = s.seq.groups[h] ∧
         (setAspect g a s).proving.groups[h] = s.proving.groups[h]) ∧
     (setAspect g a s).proving.groups[g] =
       { s.proving.groups[g] with exposed := exposedNow (setAspect g a s) g } ∧
     (∀ o : OutputId,
       (setAspect g a s).proving.outputs[o] =
         if (outRec s o).group = g then
           { s.proving.outputs[o] with commanded := commandOf (setAspect g a s) o }
         else s.proving.outputs[o]) ∧
     setAspect g a s =
       { s with
         seq := { s.seq with groups := (setAspect g a s).seq.groups }
         proving := (setAspect g a s).proving }) ∧
  (∀ s : State,
     (holdActive s = true → choose s = if s.seq.designation = some .s0 then none else some .s0) ∧
     (holdActive s = false → ∀ (c : Call) (before after : List Call), s.seq.calls = before ++ c :: after →
       (∀ d ∈ before, has s.seq.bars d.stage = true ∨ runningStage s = some d.stage) →
       has s.seq.bars c.stage = false → runningStage s ≠ some c.stage → choose s = some (.call c.stage)) ∧
     (holdActive s = false → (∀ d ∈ s.seq.calls, has s.seq.bars d.stage = true ∨ runningStage s = some d.stage) →
       choose s = scan s)) ∧
  (∀ (p : Plan) (s : State), 1 ≤ p.stepCount → p.stepCount ≤ 32 →
     (∀ q, transferDue s = true → s.plans.pending = some q → p = s.plans.plans[q.plan] →
       ScanGives s p 0 p.stepCount) ∧
     (transferDue s = false → activePlan s = some p →
       (∀ n, s.seq.designation = some .step → s.seq.stepIndex = some n → ScanGives s p (n.val + 1) (p.stepCount - 1)) ∧
       (∀ n, s.seq.designation ≠ some .step → s.seq.resume = some n → ScanGives s p n.val p.stepCount) ∧
       (s.seq.designation ≠ some .step → s.seq.resume = none → ScanGives s p 0 p.stepCount))) ∧
  (∀ (s : State) (t : Target) (losing : Set16), mayEnd s t losing = true ↔ MayEnd s t losing) ∧
  (∀ s : State,
     (s.seq.phase ≠ .stage → decision s = s) ∧
     (s.seq.phase = .stage → choose s = none →
       decision s = if barredSet s s.seq.current then handover .redLossNoStage [s.seq.current] s else s) ∧
     (∀ (t : Target) (losing : Set16),
       s.seq.phase = .stage → choose s = some t → targetSet s t ≠ s.seq.current →
       (∀ g : GroupId, has losing g = (has s.seq.current g && !has (targetSet s t) g)) →
         (barredSet s s.seq.current = false → mayEnd s t losing = false →
           decision s = { s with seq := { s.seq with resume := (decision s).seq.resume } }) ∧
         (barredSet s s.seq.current = true ∨ mayEnd s t losing = true →
           ∃ u, decision s = settle (decideUpTo 7) (tryGreens (eachOf all16 tryRedAmber u)) ∧
             u.seq.phase = .interstage ∧ u.seq.target = some t ∧ u.seq.designation = none ∧ u.seq.service = none ∧
             u.seq.units = s.seq.units ∧ u.safety = s.safety ∧
             ∀ g : GroupId,
               (has losing g = true → EndsGreen s u g) ∧
               (has (targetSet s t) g = true → has s.seq.current g = false → Scheduled s u g) ∧
               (has (targetSet s t) g = has s.seq.current g → u.seq.groups[g] = s.seq.groups[g])))) ∧
  (∀ (s : State) (t : Target), s.seq.phase = .stage → choose s = some t → targetSet s t = s.seq.current →
     ((∀ n g, t ≠ .step n g) ∨ mayEnd s t 0 = false →
       decision s = { s with seq := { s.seq with resume := (decision s).seq.resume } }) ∧
     ∀ (n : StepNo) (g : StageId) (p : Plan) (m : PlanMemory) (x : Option Nat),
       t = .step n g → mayEnd s t 0 = true →
       (transferDue s = false ∧ activePlan s = some p ∧ m = s.plans ∧ x = s.seq.position ∨
         ∃ q, transferDue s = true ∧ s.plans.pending = some q ∧ p = s.plans.plans[q.plan] ∧
           m = { s.plans with active := some q.plan, pending := none } ∧
           x = if p.mode = .linked then some (positionIn p s.seq.clock) else none) →
         ∃ u, decision s = u ∧
           u =
             { s with
               plans := m
               seq :=
                 { u.seq with
                   phase := .stage, current := s.seq.current, target := s.seq.target, groups := s.seq.groups
                   allRed := s.seq.allRed, bars := s.seq.bars, clock := s.seq.clock, units := s.seq.units
                   position := x } } ∧
           StepBegins s p n g u.seq ∧ CallTaken s g (s.seq.service.filter fun c => c.stage == g) u.seq)

/-- A hold at 0 and a call service with no units left are decision events (R140, R143), and a listed call whose wait
count has reached 1200 is removed, with PRIORITY_EXPIRED and a decision (R142), the record first, which is the model's
choice (log entry 75). A count that has not come that far
changes nothing, which is the model's choice (log entry 5). -/
def Obligations.SequencerExpiriesDecide : Prop :=
  ∀ (g : GroupId) (n : StageId) (s : State),
    exec (.extensionHoldExpiry g) s = .next (if s.seq.groups[g].hold = 0 then decision s else s) ∧
    (∀ c, s.seq.service = some c →
      exec .callServiceExpiry s = .next (if c.units = 0 then decision s else s)) ∧
    (s.seq.service = none → exec .callServiceExpiry s = .next s) ∧
    ((∀ c ∈ s.seq.calls, c.stage = n → c.wait < 1200) → exec (.priorityExpired n) s = .next s) ∧
    ((∃ c ∈ s.seq.calls, c.stage = n ∧ 1200 ≤ c.wait) →
      exec (.priorityExpired n) s =
        .next
          (decision
            (post .priorityExpired (.stage n) false none
              { s with seq := { s.seq with calls := s.seq.calls.filter fun c => c.stage != n } })))

/-! ### The service controller -/

/-- RESTORE OFFER from the check link (R161): in HANDED_OVER it sets the check period, 2 to 20, or keeps it at 0, makes
the offer present with 100 units whether or not one was, and answers the period; another value is refused with
BAD_VALUE, and in STARTING and SERVICE it is refused with REFUSED_STATE. From the plan link it is refused with
REFUSED_RIGHT. -/
def Obligations.RestoreOfferOpensTheWindow : Prop :=
  ∀ (f : Fields) (s : State),
    Responds (.restoreOffer .plan f) .plan 0x40 f .refusedRight 0 s s ∧
    (s.service.state ≠ .handedOver → Responds (.restoreOffer .check f) .check 0x40 f .refusedState 0 s s) ∧
    (s.service.state = .handedOver →
      (f.value = 0 →
        Responds (.restoreOffer .check f) .check 0x40 f .done (BitVec.ofNat 16 s.service.checkPeriod) s
          { s with service := { s.service with offer := some 100 } }) ∧
      (2 ≤ f.value.toNat → f.value.toNat ≤ 20 →
        Responds (.restoreOffer .check f) .check 0x40 f .done f.value s
          { s with service := { s.service with checkPeriod := f.value.toNat, offer := some 100 } }) ∧
      (f.value.toNat = 1 ∨ 20 < f.value.toNat →
        Responds (.restoreOffer .check f) .check 0x40 f .badValue 0 s s))

/-- The conditions of RESTORE hold together exactly where R163 says: an active table, a READY start plan, no latched
record that is not CLEARED, VALID mains, every configured card ONLINE, and a changeover feedback that agrees. -/
def Obligations.RestoreConditions : Prop :=
  ∀ s : State,
    restoreFails s = none ↔
      s.safety.active ≠ none ∧
      (∃ p, s.plans.start = some p ∧ s.plans.plans[p].state = .ready) ∧
      (∀ (i : SlotId) (r : Record), s.faults.slots[i] = some r → ¬(r.latched = true ∧ r.active = true)) ∧
      s.line.mains.state = .valid ∧
      (∀ c : CardId, s.line.cards[c].configured = true → s.line.cards[c].online = true) ∧
      ∀ i, feedbackInput s = some i → ((s.inputs[i].level = .closed) ↔ s.service.hold = true)

/-- RESTORE from the plan link (R163, R164). With no offer, or outside HANDED_OVER, it is refused and nothing changes; a
failing condition takes the offer away. Where all hold the part is STARTING, with HOLD held, the start and vouch
timers set, the changeover and two-key timers judged (R160, R169; keys held closed keep a running timer: log entry 35),
the start plan active, the sequencer in START_RED with every group RED and every output commanded as R66
composes it; unless two conflicting groups are exposed, it stays so. -/
def Obligations.RestoreStartsThePart : Prop :=
  ∀ (f : Fields) (s : State),
    (s.service.state ≠ .handedOver → Responds (.restore .plan f) .plan 0x41 f .refusedState 0 s s) ∧
    (s.service.state = .handedOver → s.service.offer = none →
      Responds (.restore .plan f) .plan 0x41 f .noOffer 0 s s) ∧
    (s.service.state = .handedOver → s.service.offer ≠ none →
      (∀ r v, restoreFails s = some (r, v) →
        Responds (.restore .plan f) .plan 0x41 f r v s { s with service := { s.service with offer := none } }) ∧
      (restoreFails s = none →
        (∃ t, exec (.restore .plan f) s = .next t ∧ Answered .plan 0x41 f .done 0 s t) ∧
        (exposedPair (enterStarting s) = none →
          ∃ t, exec (.restore .plan f) s = .next t ∧ Answered .plan 0x41 f .done 0 s t ∧
            t.service.state = .starting ∧ t.service.hold = true ∧ t.service.offer = none ∧
            t.service.start = some (activeTable s).startPeriod ∧ t.service.vouch = some s.service.checkPeriod ∧
            t.service.flsel = s.service.flsel ∧ t.plans = { s.plans with active := s.plans.start } ∧
            ((∀ i : InputId, s.inputs[i].function ≠ .changeover) → t.service.changeover = none) ∧
            (∀ i : InputId, s.inputs[i].function = .changeover →
              (∀ j : InputId, s.inputs[j].function = .changeover → j = i) →
                t.service.changeover = if s.inputs[i].level = .closed then none else some 5) ∧
            t.service.twoKey = (if keysClosed s = true then some (s.service.twoKey.getD 10) else none) ∧
            t.seq.phase = .startRed ∧ (∀ g : GroupId, t.seq.groups[g].aspect = .red) ∧
            (∀ o : OutputId, t.proving.outputs[o].commanded = commandOf t o) ∧
            t.safety = s.safety ∧ t.stages = s.stages ∧ t.line = s.line ∧ t.engine = s.engine ∧ t.cable = s.cable ∧
            t.inputs = s.inputs ∧ t.faults = s.faults ∧ t.pending = s.pending)))

/-- A handover taken in STARTING or SERVICE (R156): the part is HANDED_OVER with HOLD released and the start, vouch and
two-key timers absent and the changeover timer at 5 units where the one feedback input is closed (R160), every output is commanded off, the sequencer is stopped with every group RED, no plan is active
or pending, every investigation is abandoned, a HANDOVER record of the cause stands or the table has overflowed
(stated where no HANDOVER_UNPROVEN is posted after it); the tables, the plans, the card line, the trips and the
references are kept. In HANDED_OVER the cause is not taken (R155). -/
def Obligations.HandoverTakesEveryBlock : Prop :=
  ∀ (c : Cause) (detail : List Word16) (s t : State),
    t = handover c detail s →
      (s.service.state = .handedOver → t = s) ∧
      (s.service.state ≠ .handedOver →
        t.service.state = .handedOver ∧ t.service.hold = false ∧ t.service.start = none ∧ t.service.vouch = none ∧
        t.service.twoKey = none ∧ t.service.flsel = s.service.flsel ∧ t.service.checkPeriod = s.service.checkPeriod ∧
        ((∀ i : InputId, s.inputs[i].function ≠ .changeover) → t.service.changeover = none) ∧
        (∀ i : InputId, s.inputs[i].function = .changeover →
          (∀ j : InputId, s.inputs[j].function = .changeover → j = i) →
            t.service.changeover = if s.inputs[i].level = .closed then some 5 else none) ∧
        (∀ o : OutputId, t.proving.outputs[o].commanded = false) ∧
        (∀ g : GroupId,
          t.proving.groups[g].exposed = exposedNow t g ∧ t.proving.groups[g].red = s.proving.groups[g].red) ∧
        t.seq.phase = .stopped ∧
        (∀ g : GroupId,
          t.seq.groups[g].aspect = .red ∧ t.seq.groups[g].hold = 0 ∧ t.seq.groups[g].greenAt = none ∧
            t.seq.groups[g].endAt = none) ∧
        t.seq.latches = 0 ∧ t.seq.calls = [] ∧ t.seq.allRed = false ∧ t.seq.clock = s.seq.clock ∧
        t.seq.units = s.seq.units ∧ t.seq.bars = s.seq.bars ∧
        t.plans = { s.plans with active := none, pending := none } ∧
        (∀ i : InvSlot, t.cable.investigations[i] = none) ∧
        ((∀ o : OutputId, s.proving.outputs[o].state ≠ .litUnwanted) →
          findRecord t.faults .handover (.cause c) ≠ none ∨ t.faults.overflow = true) ∧
        t.safety = s.safety ∧ t.stages = s.stages ∧ t.inputs = s.inputs ∧ t.line = s.line ∧ t.engine = s.engine ∧
        t.cable.cards = s.cable.cards ∧ t.cable.feeders = s.cable.feeders ∧ t.ports = s.ports ∧ t.pending = s.pending)

/-- HANDOVER from either link (R157): in STARTING and SERVICE it hands over with the link's cause and answers DONE; in
HANDED_OVER it answers DONE, posts nothing, and withdraws a restore offer. -/
def Obligations.HandoverRequest : Prop :=
  ∀ (f : Fields) (s : State),
    (∀ l : Link, s.service.state = .handedOver →
      Responds (.handover l f) l 0x42 f .done 0 s { s with service := { s.service with offer := none } }) ∧
    (s.service.state ≠ .handedOver →
      Responds (.handover .plan f) .plan 0x42 f .done 0 s (handover .planRequest [] (receive .plan 0x42 f s)) ∧
      Responds (.handover .check f) .check 0x42 f .done 0 s (handover .checkRequest [] (receive .check 0x42 f s)))

/-- VOUCH from the check link (R167): in HANDED_OVER it answers DONE with 0, ignored, and changes nothing; in STARTING
and SERVICE an equal signature sets the vouch timer to the check period and answers it, and a different one hands over
with SIGNATURE_MISMATCH, the carried signature as detail, and answers MISMATCH. From the plan link it is refused. -/
def Obligations.VouchKeepsThePartInService : Prop :=
  ∀ (f : Fields) (s : State),
    Responds (.vouch .plan f) .plan 0x43 f .refusedRight 0 s s ∧
    (s.service.state = .handedOver → Responds (.vouch .check f) .check 0x43 f .done 0 s s) ∧
    (s.service.state ≠ .handedOver →
      (f.value = s.safety.signature →
        Responds (.vouch .check f) .check 0x43 f .done (BitVec.ofNat 16 s.service.checkPeriod) s
          { s with service := { s.service with vouch := some s.service.checkPeriod } }) ∧
      (f.value ≠ s.safety.signature →
        Responds (.vouch .check f) .check 0x43 f .mismatch 0 s
          (handover .signatureMismatch [f.value] (receive .check 0x43 f s))))

/-- The expiries of the service controller's timers, each taken once its timer stands at 0 (log entry 2): the offer
becomes absent (R162), the vouch timer hands over with CHECK_SILENT (R168), the panel keys with PANEL_KEYS (R169), and
the changeover timer raises CHANGEOVER_FAULT, in HANDED_OVER its record alone (R160), with the service state as the
last item of its detail (log entry 12). With no feedback input, in which no timer runs (R160), its expiry leaves the
timer absent. Before a timer stands at 0 nothing changes. -/
def Obligations.ServiceTimersExpire : Prop :=
  ∀ s : State,
    exec .restoreOfferExpiry s =
      .next (if s.service.offer = some 0 then { s with service := { s.service with offer := none } } else s) ∧
    exec .vouchTimerExpiry s =
      .next
        (if s.service.vouch = some 0 then
          handover .checkSilent [word s.service.checkPeriod] { s with service := { s.service with vouch := none } }
        else s) ∧
    exec .twoKeyTimerExpiry s =
      .next
        (if s.service.twoKey = some 0 then
          handover .panelKeys [] { s with service := { s.service with twoKey := none } }
        else s) ∧
    (s.service.changeover ≠ some 0 → exec .changeoverTimerExpiry s = .next s) ∧
    (s.service.changeover = some 0 → feedbackInput s = none →
      exec .changeoverTimerExpiry s = .next { s with service := { s.service with changeover := none } }) ∧
    (∀ i, s.service.changeover = some 0 → feedbackInput s = some i →
      (s.service.state ≠ .handedOver →
        exec .changeoverTimerExpiry s =
          .next
            (handover .changeoverFault (changeoverDetail s i)
              { s with service := { s.service with changeover := none } })) ∧
      (s.service.state = .handedOver →
        exec .changeoverTimerExpiry s =
          .next
            (post .handover (.cause .changeoverFault) true (some (changeoverDetail s i ++ [0]))
              { s with service := { s.service with changeover := none } })))

/-- The start check (R165), taken in STARTING once the start timer stands at 0 (log entry 2; before that nothing
changes): with some group that has a used RED output not RED_OK the part hands over with START_FAILED, naming the first
and its status. With each of them RED_OK, no group in RED_LOSS, and the part as every step leaves it, in which no two
conflicting groups are exposed, it is in SERVICE with HOLD held, the start timer absent and the vouch timer kept, and
its sequencer has left START_RED. -/
def Obligations.StartCheckDecidesTheService : Prop :=
  ∀ s : State,
    (s.service.state ≠ .starting ∨ s.service.start ≠ some 0 → exec .startTimerExpiry s = .next s) ∧
    (s.service.state = .starting → s.service.start = some 0 →
      (∀ g : GroupId, 0 < redCount s g → s.proving.groups[g].red ≠ .ok →
        (∀ h : GroupId, h < g → redCount s h = 0 ∨ s.proving.groups[h].red = .ok) →
          exec .startTimerExpiry s =
            .next
              (handover .startFailed [word (number g), word (redCode s.proving.groups[g].red)]
                { s with service := { s.service with start := none } })) ∧
      (PartOk s →
        (∀ g : GroupId, s.proving.groups[g].red ≠ .loss ∧ (redCount s g = 0 ∨ s.proving.groups[g].red = .ok)) →
        ∃ t, exec .startTimerExpiry s = .next t ∧
          t.service = { s.service with state := .service, start := none } ∧ t.service.hold = true ∧
          (t.seq.phase = .interstage ∨ t.seq.phase = .stage) ∧
          t.ports = s.ports ∧ t.safety = s.safety ∧ t.stages = s.stages ∧ t.line = s.line ∧ t.engine = s.engine ∧
          t.inputs = s.inputs ∧ t.plans.plans = s.plans.plans ∧ t.pending = s.pending))

/-- SERVICE RESTART from the check link in HANDED_OVER (R170, R48, R64, R82, R103, R197): every trip, feeder count and
investigation is cancelled and every accumulation restarted; a configured card whose last closed slot took a window (log
entry 52) is ONLINE with its counts 0, another SILENT one has its missing count 0, and every mismatch flag is clear;
every output is UNPROVED or in SENSE_LOST as its card is, with its counts 0 and its echo flag clear; a group is
RED_UNTESTED, but RED_DEGRADED or RED_LOSS where some or all of its used reds are on SILENT cards, and the bars are of
those statuses; the offer is absent, and every record left is of a line, a door or a red status posted afresh; the
tables, the plans, the lines, the inputs, the thresholds, the figures and the references are kept. Elsewhere it is
refused, from the plan link with REFUSED_RIGHT. -/
def Obligations.ServiceRestartCancelsTheFaults : Prop :=
  ∀ (f : Fields) (s : State),
    Responds (.serviceRestart .plan f) .plan 0x44 f .refusedRight 0 s s ∧
    (s.service.state ≠ .handedOver → Responds (.serviceRestart .check f) .check 0x44 f .refusedState 0 s s) ∧
    (s.service.state = .handedOver → PartOk s →
      ∃ t, exec (.serviceRestart .check f) s = .next t ∧ Answered .check 0x44 f .done 0 s t ∧
        t.service = { s.service with offer := none } ∧
        (∀ c : CardId,
          t.cable.cards[c] = { CableCard.initial with lastL := s.cable.cards[c].lastL } ∧
          t.engine.residuals[c] =
            { s.engine.residuals[c] with acc := restartAccum s.engine.residuals[c].acc } ∧
          t.line.cards[c] =
            if s.line.cards[c].configured ∧ s.line.cards[c].lastSlotTook then
              { s.line.cards[c] with mismatch := false, online := true, missing := 0, goodRun := 0 }
            else if s.line.cards[c].configured ∧ s.line.cards[c].online = false then
              { s.line.cards[c] with mismatch := false, missing := 0 }
            else { s.line.cards[c] with mismatch := false }) ∧
        (∀ i : InvSlot, t.cable.investigations[i] = none) ∧
        (∀ o : OutputId,
          t.proving.outputs[o] =
              { s.proving.outputs[o] with
                state := if t.line.cards[cardOf o].online then .unproved else .senseLost
                failing := 0, sense := 0, echo := false } ∧
            t.cable.feeders[o] = { count := 0, opened := false } ∧
            t.engine.cores[o] = { s.engine.cores[o] with acc := restartAccum s.engine.cores[o].acc }) ∧
        (∀ g : GroupId,
          t.proving.groups[g].exposed = exposedNow t g ∧
            t.proving.groups[g].red =
              if redDark t g = 0 then .untested else if redDark t g = redCount t g then .loss else .degraded) ∧
        t.seq = { s.seq with bars := barsNow t } ∧
        (∀ (i : SlotId) (r : Record), t.faults.slots[i] = some r →
          r.kind = .lineDegraded ∨ r.kind = .lineJammed ∨ r.kind = .doorOpen ∨ r.kind = .redLoss ∨
            r.kind = .redDegraded) ∧
        (∀ l : Link, (t.faults.attention.get l).threshold = (s.faults.attention.get l).threshold) ∧
        t.safety = s.safety ∧ t.stages = s.stages ∧ t.plans = s.plans ∧ t.inputs = s.inputs ∧
        t.line.lines = s.line.lines ∧ t.line.mains = s.line.mains ∧ t.line.patterns = s.line.patterns ∧
        t.line.exchange = s.line.exchange ∧ t.pending = s.pending)

/-! ### Contact inputs -/

/-- A sample of an input (R172 to R174): the first is a filter reset (log entry 6); one at the filtered level clears
the sample count, one against it counts; the cleaning timer runs on by the sample interval (log entry 7). A filtered
edge (R174 to R179): at the filter count the level is the sample's; a closing edge starts a 20 ms cleaning pulse, an
opening edge ends it. A PLAIN input counts the edge modulo 256; a DOOR posts DOOR_OPEN at its opening and ends it at
its closing; a DEMAND input hands a demand at the edges it selects, taken outside HANDED_OVER (R139); at an ALL_RED
input's edge a change of the hold brings a decision (R144); at a key's edge the two-key timer is judged (R169), at the
feedback's the changeover timer (R160). The two-key timer starts at 10 units where two keys or more are all closed
outside HANDED_OVER, and runs on while they are (log entry 35); the changeover timer starts at 5 where the one feedback
input disagrees with HOLD. The cleaning timer's expiry leads to HOLDING; with none running it changes nothing (log
entry 5). The wetting control (R173, R175): HIGH in CLEANING, LOW in HOLDING, and in OPEN_SENSE LOW for the 250 µs that
end at a sample and no current otherwise. INPUT SET from the plan link, in every service state (R180, R181): it stores
a demand stage, an edge selection, a sample interval (the ms of the interval cut off taken from the cleaning timer: log
entry 7) or a filter count; the function already held changes nothing; a change of function is a filter reset with the
sample taken at the request (log entry 6), handed on in the order of log entry 69: the door record, the changeover and
two-key timers where their function is left or joined, and last a decision where the hold changed. CHANGEOVER_FEEDBACK
while another input holds it is refused with that input, a value out of range with BAD_VALUE, a field beyond the five
with BAD_SUBJECT, and from the check link with REFUSED_RIGHT. -/
def Obligations.InputSamplesAndInputSet : Prop :=
  (∀ (i : InputId) (x : Level) (s : State),
     (s.inputs[i].lastSample = none →
       exec (.inputSample i x) s =
         .next
           (modInput s i fun r =>
             { r with
               lastSample := some x, sampleCount := 0, level := x, cleaning := none
               wetting := if x = .closed then .holding else .openSense })) ∧
     (s.inputs[i].lastSample ≠ none → x = s.inputs[i].level →
       exec (.inputSample i x) s =
         .next
           (modInput s i fun r =>
             { r with lastSample := some x, sampleCount := 0, cleaning := r.cleaning.map (· - r.interval) })) ∧
     (s.inputs[i].lastSample ≠ none → x ≠ s.inputs[i].level → s.inputs[i].sampleCount + 1 < s.inputs[i].filter →
       exec (.inputSample i x) s =
         .next
           (modInput s i fun r =>
             { r with
               lastSample := some x, sampleCount := r.sampleCount + 1
               cleaning := r.cleaning.map (· - r.interval) }))) ∧
  (∀ (i : InputId) (x : Level) (s : State),
     s.inputs[i].lastSample ≠ none → x ≠ s.inputs[i].level → s.inputs[i].filter ≤ s.inputs[i].sampleCount + 1 →
       ∃ t w, exec (.inputSample i x) s = .next t ∧
         w =
           modInput s i (fun r =>
             { r with
               lastSample := some x, sampleCount := 0, level := x
               wetting := if x = .closed then .cleaning else .openSense
               cleaning := if x = .closed then some 20 else none
               edgeCount := if r.function = .plain then (r.edgeCount + 1) % 256 else r.edgeCount }) ∧
         t.inputs = w.inputs ∧
         t.ports = s.ports ∧ t.safety = s.safety ∧ t.stages = s.stages ∧ t.line = s.line ∧ t.pending = s.pending ∧
         (s.inputs[i].function = .plain ∨ s.inputs[i].function = .none → t = w) ∧
         (s.inputs[i].function = .door →
           t =
             { w with
               faults :=
                 if x = .opened then postRecord s.seq.clock .doorOpen (.input i) false none s.faults
                 else endRecord s.seq.clock .doorOpen (.input i) s.faults }) ∧
         (s.inputs[i].function = .demand →
           (x ≠ s.inputs[i].edge ∨ s.service.state = .handedOver ∨ has s.seq.latches s.inputs[i].stage = true ∨
               s.seq.phase = .stage ∧ runningStage s = some s.inputs[i].stage →
             t = w) ∧
           (x = s.inputs[i].edge → s.service.state ≠ .handedOver → has s.seq.latches s.inputs[i].stage = false →
             (s.seq.phase = .stage → runningStage s ≠ some s.inputs[i].stage) →
               t = decision { w with seq := { s.seq with latches := setAdd s.seq.latches s.inputs[i].stage } })) ∧
         (s.inputs[i].function = .allRed → t = if holdActive w = holdActive s then w else decision w) ∧
         (s.inputs[i].function = .panelKey → t = judgeKeys w) ∧
         (s.inputs[i].function = .changeover → t = judgeFeedback w)) ∧
  (∀ s t : State,
     (t = judgeKeys s →
       (s.service.state ≠ .handedOver → keysClosed s = true →
         t = { s with service := { s.service with twoKey := some (s.service.twoKey.getD 10) } }) ∧
       (s.service.state = .handedOver ∨ keysClosed s = false →
         t = { s with service := { s.service with twoKey := none } })) ∧
     (t = judgeFeedback s →
       (∀ i : InputId, s.inputs[i].function = .changeover →
         (∀ j : InputId, s.inputs[j].function = .changeover → j = i) →
           t =
             { s with
               service :=
                 { s.service with
                   changeover := if (s.inputs[i].level = .closed ↔ s.service.hold = true) then none else some 5 } }) ∧
       ((∀ i : InputId, s.inputs[i].function ≠ .changeover) →
         t = { s with service := { s.service with changeover := none } })) ∧
     (keysClosed s = true ↔
       (∃ i j : InputId, i ≠ j ∧ s.inputs[i].function = .panelKey ∧ s.inputs[j].function = .panelKey) ∧
         ∀ i : InputId, s.inputs[i].function = .panelKey → s.inputs[i].level = .closed) ∧
     (holdActive s = true ↔
       s.seq.allRed = true ∨ ∃ i : InputId, s.inputs[i].function = .allRed ∧ s.inputs[i].level = .closed)) ∧
  (∀ (i : InputId) (s : State),
     (s.inputs[i].cleaning ≠ none →
       exec (.cleaningTimerExpiry i) s = .next (modInput s i fun r => { r with wetting := .holding, cleaning := none })) ∧
     (s.inputs[i].cleaning = none → exec (.cleaningTimerExpiry i) s = .next s)) ∧
  (∀ us : Nat,
     wettingControl .openSense us = (if us ≤ 250 then .low else .none) ∧ wettingControl .cleaning us = .high ∧
       wettingControl .holding us = .low) ∧
  (∀ (i : InputId) (n : Byte) (v : Word16) (reading : Level) (ms : Nat) (s : State),
     (∀ f : Fields, Responds (.inputSet .check f reading ms) .check 0x19 f .refusedRight 0 s s) ∧
     (4 < n.toNat →
       Responds (.inputSet .plan ⟨BitVec.ofNat 8 (number i), n, v⟩ reading ms) .plan 0x19 ⟨BitVec.ofNat 8 (number i), n, v⟩
         .badSubject 0 s s) ∧
     (n = 0 ∧ 6 < v.toNat ∨ n = 1 ∧ (v = 0 ∨ 16 < v.toNat) ∨ n = 2 ∧ 1 < v.toNat ∨
         n = 3 ∧ v.toNat ∉ [1, 2, 4, 8, 16] ∨ n = 4 ∧ (v.toNat < 2 ∨ 15 < v.toNat) →
       Responds (.inputSet .plan ⟨BitVec.ofNat 8 (number i), n, v⟩ reading ms) .plan 0x19 ⟨BitVec.ofNat 8 (number i), n, v⟩
         .badValue 0 s s) ∧
     (∀ g : StageId, v.toNat = number g →
       Responds (.inputSet .plan ⟨BitVec.ofNat 8 (number i), 1, v⟩ reading ms) .plan 0x19 ⟨BitVec.ofNat 8 (number i), 1, v⟩
         .done 0 s (modInput s i fun r => { r with stage := g })) ∧
     Responds (.inputSet .plan ⟨BitVec.ofNat 8 (number i), 2, 0⟩ reading ms) .plan 0x19 ⟨BitVec.ofNat 8 (number i), 2, 0⟩
       .done 0 s (modInput s i fun r => { r with edge := .closed }) ∧
     Responds (.inputSet .plan ⟨BitVec.ofNat 8 (number i), 2, 1⟩ reading ms) .plan 0x19 ⟨BitVec.ofNat 8 (number i), 2, 1⟩
       .done 0 s (modInput s i fun r => { r with edge := .opened }) ∧
     (v.toNat ∈ [1, 2, 4, 8, 16] →
       Responds (.inputSet .plan ⟨BitVec.ofNat 8 (number i), 3, v⟩ reading ms) .plan 0x19 ⟨BitVec.ofNat 8 (number i), 3, v⟩
         .done 0 s
         (if v.toNat = s.inputs[i].interval then s
          else modInput s i fun r => { r with interval := v.toNat, cleaning := r.cleaning.map (· - ms) })) ∧
     (2 ≤ v.toNat → v.toNat ≤ 15 →
       Responds (.inputSet .plan ⟨BitVec.ofNat 8 (number i), 4, v⟩ reading ms) .plan 0x19 ⟨BitVec.ofNat 8 (number i), 4, v⟩
         .done 0 s
         (if v.toNat = s.inputs[i].filter then s
          else modInput s i fun r => { r with filter := v.toNat, sampleCount := 0 })) ∧
     (([.none, .plain, .demand, .allRed, .panelKey, .door, .changeover] : List InputFunction)[v.toNat]? =
         some s.inputs[i].function →
       (s.inputs[i].function = .changeover → ∀ j : InputId, j ≠ i → s.inputs[j].function ≠ .changeover) →
         Responds (.inputSet .plan ⟨BitVec.ofNat 8 (number i), 0, v⟩ reading ms) .plan 0x19
           ⟨BitVec.ofNat 8 (number i), 0, v⟩ .done 0 s s) ∧
     (s.inputs[i].function = .none →
       Responds (.inputSet .plan ⟨BitVec.ofNat 8 (number i), 0, 1⟩ reading ms) .plan 0x19 ⟨BitVec.ofNat 8 (number i), 0, 1⟩
         .done 0 s
         (modInput s i fun r =>
           { r with
             function := .plain, lastSample := some reading, sampleCount := 0, level := reading, cleaning := none
             wetting := (if reading = .closed then .holding else .openSense), edgeCount := 0 })) ∧
     (s.inputs[i].function = .plain →
       Responds (.inputSet .plan ⟨BitVec.ofNat 8 (number i), 0, 0⟩ reading ms) .plan 0x19 ⟨BitVec.ofNat 8 (number i), 0, 0⟩
         .done 0 s
         (modInput s i fun r =>
           { r with
             function := .none, lastSample := some reading, sampleCount := 0, level := reading, cleaning := none
             wetting := if reading = .closed then .holding else .openSense })) ∧
     (∀ (fn : InputFunction) (f : Fields) (w u : State),
       ([.none, .plain, .demand, .allRed, .panelKey, .door, .changeover] : List InputFunction)[v.toNat]? = some fn →
       fn ≠ s.inputs[i].function →
       (fn = .changeover → ∀ j : InputId, j ≠ i → s.inputs[j].function ≠ .changeover) →
       f = ⟨BitVec.ofNat 8 (number i), 0, v⟩ →
       w =
         modInput (receive .plan 0x19 f s) i (fun r =>
           { r with
             function := fn, lastSample := some reading, sampleCount := 0, level := reading, cleaning := none
             wetting := if reading = .closed then .holding else .openSense
             edgeCount := if fn = .plain then 0 else r.edgeCount }) →
       u =
         { w with
           faults :=
             if s.inputs[i].function = .door ∧ s.inputs[i].level = .opened then
               endRecord s.seq.clock .doorOpen (.input i) s.faults
             else if fn = .door ∧ reading = .opened then
               postRecord s.seq.clock .doorOpen (.input i) false none s.faults
             else s.faults
           service :=
             { s.service with
               changeover :=
                 if s.inputs[i].function = .changeover ∨ fn = .changeover then (judgeFeedback w).service.changeover
                 else s.service.changeover
               twoKey :=
                 if s.inputs[i].function = .panelKey ∨ fn = .panelKey then (judgeKeys w).service.twoKey
                 else s.service.twoKey } } →
         Responds (.inputSet .plan f reading ms) .plan 0x19 f .done 0 s
           (if holdActive w = holdActive s then u else decision u)) ∧
     (∀ j : InputId, otherFeedback s i = some j →
       Responds (.inputSet .plan ⟨BitVec.ofNat 8 (number i), 0, 6⟩ reading ms) .plan 0x19 ⟨BitVec.ofNat 8 (number i), 0, 6⟩
         .badValue (word (number j)) s s))

/-! ### The fault table -/

/-- A posting (R185 to R189, R191). A new record is ACTIVE with count 1, every mark clear and the posting's fields (no
detail is an empty one), and is newest in the change order; where the condition ends at posting it has ended, and the
record is CLEARED unless it is latched. A reoccurrence makes the record ACTIVE and unseen with one more count, moves it
to the end of the change order, and keeps the clear marks of an ACTIVE record alone; where the condition ends at
posting it is CLEARED again unless it is latched and lacks a clear mark. The new record takes the lowest FREE slot;
with none, that of the oldest CLEARED record; with none, that of the oldest of the lightest ACTIVE unlatched records if
lighter than the new one; else the posting is dropped, and only the overflow flag is set. Every other slot is
untouched. -/
def Obligations.PostingCreatesOrReoccurs : Prop :=
  (∀ (clock : Nat) (k : FaultKind) (x : Subject) (latched : Bool) (detail : Option (List Word16)) (i : SlotId)
      (r : Record) (before after : List SlotId) (t u : FaultTable) (lit : Bool),
    u = postRecord clock k x latched detail t → findRecord t k x = none → lit = (!endsAtPosting k || latched) →
      (t.slots[i] = none ∧ (∀ j : SlotId, j < i → t.slots[j] ≠ none) ∨
        (∀ j : SlotId, t.slots[j] ≠ none) ∧ t.order = before ++ i :: after ∧ t.slots[i] = some r ∧
          (r.active = false ∧ (∀ j ∈ before, ∀ q, t.slots[j] = some q → q.active = true) ∨
            (∀ j ∈ t.order, ∀ q, t.slots[j] = some q → q.active = true) ∧ r.latched = false ∧ r.level < levelOf k x ∧
              (∀ j ∈ before, ∀ q, t.slots[j] = some q → q.latched = false → r.level < q.level) ∧
              ∀ j ∈ after, ∀ q, t.slots[j] = some q → q.latched = false → r.level ≤ q.level) →
        u.slots[i] =
            some
              { kind := k, subject := x, level := levelOf k x, active := lit, ended := endsAtPosting k
                latched := latched, count := 1, firstTime := clock, lastTime := clock
                detail := detail.getD []
                seen := ⟨false, false⟩, clear := ⟨false, false⟩ } ∧
          (∀ j : SlotId, j ≠ i → u.slots[j] = t.slots[j]) ∧ u.overflow = t.overflow ∧
          u.order = t.order.filter (· != i) ++ [i]) ∧
      ((∀ j : SlotId, t.slots[j] ≠ none) →
        (∀ j ∈ t.order, ∀ q, t.slots[j] = some q →
          q.active = true ∧ (q.latched = false → levelOf k x ≤ q.level)) →
          u = { t with overflow := true })) ∧
  (∀ (clock : Nat) (k : FaultKind) (x : Subject) (latched again : Bool) (detail : Option (List Word16)) (i : SlotId)
      (r : Record) (marks : PerLink Bool) (t u : FaultTable),
    u = postRecord clock k x latched detail t → findRecord t k x = some i → t.slots[i] = some r →
    again = (if r.active then r.latched || latched else latched) →
    marks = (if r.active then r.clear else ⟨false, false⟩) →
      u.slots[i] =
          some
            { r with
              active := !endsAtPosting k || again && !(marks.plan && marks.check)
              ended := endsAtPosting k
              count := min 255 (r.count + 1)
              lastTime := clock
              detail := detail.getD r.detail
              seen := ⟨false, false⟩
              clear := marks
              latched := again } ∧
        (∀ j : SlotId, j ≠ i → u.slots[j] = t.slots[j]) ∧ u.overflow = t.overflow ∧
        u.order = t.order.filter (· != i) ++ [i])

/-- CLEAR RECORD from either link (R190, R188, R189): a slot with no record, or beyond 47, is BAD_SUBJECT, and another
kind is MISMATCH with the record's, an index that names no kind included, which is the model's reading (log entry 73);
else the link's clear mark is set. A record that stays ACTIVE answers 0 and one
already CLEARED answers 1, each changed in that mark alone; a latched record whose condition has ended and which now has
both marks becomes CLEARED, unseen by both links and newest in the change order, and answers 1. A CARD_TRIP record is no
exception where no trip is released: its card not tripped, its trip not latched, or the other link's mark not set. The
second mark on the record of a latched trip releases it (R94): the trip is CLEAR with the watch timer at 6000 units, the
card's outputs leave ISOLATED and are recomposed (R75), and it answers 1, also where postings of the same event evict the
record, which is the model's reading of the record's state then (log entry 45). -/
def Obligations.ClearRecordSetsTheMark : Prop :=
  ∀ (l : Link) (i : SlotId) (n : Byte) (v : Word16) (s : State),
    (s.faults.slots[i] = none →
      Responds (.clearRecord l ⟨BitVec.ofNat 8 i.val, n, v⟩) l 0x50 ⟨BitVec.ofNat 8 i.val, n, v⟩ .badSubject 0 s s) ∧
    (∀ u : Byte, 47 < u.toNat → Responds (.clearRecord l ⟨u, n, v⟩) l 0x50 ⟨u, n, v⟩ .badSubject 0 s s) ∧
    (∀ r, s.faults.slots[i] = some r →
      (kindCode r.kind ≠ n.toNat →
        Responds (.clearRecord l ⟨BitVec.ofNat 8 i.val, n, v⟩) l 0x50 ⟨BitVec.ofNat 8 i.val, n, v⟩ .mismatch
          (word (kindCode r.kind)) s s) ∧
      (kindCode r.kind = n.toNat → findRecord s.faults r.kind r.subject = some i →
        (∀ c : CardId, r.kind = .cardTrip → r.subject = .card c → s.cable.cards[c].tripped = true →
          s.cable.cards[c].latched = true → r.clear.get (otherLink l) = false) →
        ∃ t, exec (.clearRecord l ⟨BitVec.ofNat 8 i.val, n, v⟩) s = .next t ∧
          t = { s with ports := t.ports, faults := t.faults } ∧
          (∀ j : SlotId, j ≠ i → t.faults.slots[j] = s.faults.slots[j]) ∧
          ((r.active = true → r.ended = true → r.latched = true → r.clear.get (otherLink l) = true →
            Answered l 0x50 ⟨BitVec.ofNat 8 i.val, n, v⟩ .done 1 s t ∧
              t.faults.slots[i] =
                some
                  { r with
                    active := false, lastTime := s.seq.clock, seen := ⟨false, false⟩, clear := ⟨true, true⟩ } ∧
              t.faults.order = s.faults.order.filter (· != i) ++ [i]) ∧
          (r.active = false →
            Answered l 0x50 ⟨BitVec.ofNat 8 i.val, n, v⟩ .done 1 s t ∧
              t.faults.slots[i] = some { r with clear := r.clear.set l true } ∧ t.faults.order = s.faults.order) ∧
          (r.active = true → (r.ended = false ∨ r.latched = true ∧ r.clear.get (otherLink l) = false) →
            Answered l 0x50 ⟨BitVec.ofNat 8 i.val, n, v⟩ .done 0 s t ∧
              t.faults.slots[i] = some { r with clear := r.clear.set l true } ∧ t.faults.order = s.faults.order))) ∧
      (∀ c : CardId, kindCode r.kind = n.toNat → r.kind = .cardTrip → r.subject = .card c →
        findRecord s.faults .cardTrip (.card c) = some i → r.active = true → r.latched = true →
          (r.clear.get (otherLink l) = false →
            ∃ t, exec (.clearRecord l ⟨BitVec.ofNat 8 i.val, n, v⟩) s = .next t ∧
              Answered l 0x50 ⟨BitVec.ofNat 8 i.val, n, v⟩ .done 0 s t ∧
              t = { s with ports := t.ports, faults := t.faults } ∧
              t.faults.slots[i] = some { r with clear := r.clear.set l true }) ∧
          (r.clear.get (otherLink l) = true → s.cable.cards[c].tripped = true → s.cable.cards[c].latched = true →
            TableOk s.faults →
            ∃ t, exec (.clearRecord l ⟨BitVec.ofNat 8 i.val, n, v⟩) s = .next t ∧
              Answered l 0x50 ⟨BitVec.ofNat 8 i.val, n, v⟩ .done 1 s t ∧
              t.cable.cards =
                s.cable.cards.set c
                  { s.cable.cards[c] with
                    tripped := false, latched := false, retryTimer := none, watchTimer := some 6000 } ∧
              (∀ o : OutputId, cardOf o = c →
                t.proving.outputs[o].state = (if s.line.cards[c].online then .unproved else .senseLost) ∧
                  t.proving.outputs[o].commanded = commandOf t o) ∧
              t.safety = s.safety ∧ t.stages = s.stages ∧ t.line = s.line ∧ t.engine = s.engine ∧
              t.inputs = s.inputs ∧ t.pending = s.pending)))

/-- SET ATTENTION sets the requesting link's threshold, 0 to 7, and judges its line again (R196); a value above 7 is
refused. The end of a line's 50 µs release gives it the level of the condition (R195). -/
def Obligations.AttentionThresholdAndRelease : Prop :=
  ∀ (l : Link) (f : Fields) (s : State),
    (7 < f.value.toNat → Responds (.setAttention l f) l 0x51 f .badValue 0 s s) ∧
    (f.value.toNat ≤ 7 →
      ∃ t, exec (.setAttention l f) s = .next t ∧ Answered l 0x51 f .done 0 s t ∧
        t = { s with ports := t.ports, faults := t.faults } ∧
        (t.faults.attention.get l).threshold = f.value.toNat ∧
        (t.faults.attention.get l).line =
          (attentionDue t.faults l && !(s.faults.attention.get l).released) ∧
        t.faults.attention.get (otherLink l) = s.faults.attention.get (otherLink l) ∧
        t.faults.slots = s.faults.slots ∧ t.faults.order = s.faults.order ∧ t.faults.overflow = s.faults.overflow) ∧
    ∃ t, exec (.attentionReleaseEnd l) s = .next t ∧ t = { s with faults := t.faults } ∧
      t.faults.attention.get l =
        { threshold := (s.faults.attention.get l).threshold, line := attentionDue s.faults l, released := false } ∧
      t.faults.attention.get (otherLink l) = s.faults.attention.get (otherLink l) ∧
      t.faults.slots = s.faults.slots ∧ t.faults.order = s.faults.order ∧ t.faults.overflow = s.faults.overflow

/-- READ NEXT NOTICE from either link (R192, R193, R195, R206). Word 0: the record chosen is one the link has not seen,
none that it has not seen is of a higher level, and none of its level stands before it in the change order; its mark is
set; a CLEARED record that both links have then seen is removed; the snapshot holds slot, kind, subject, level and
state; the link's line is released. With nothing unseen it answers NONE, the snapshot becomes absent and no slot
changes. A later word comes from the snapshot of the same code, subject and index and changes nothing; without one it
is refused with BAD_VALUE. An index other than 0 is BAD_SUBJECT and takes nothing, which is the model's reading (log
entry 10). -/
def Obligations.NextNoticeReadsTheWeightiest : Prop :=
  (∀ (l : Link) (u : Byte) (s : State),
       ∃ t, exec (.readNextNotice l ⟨u, 0, 0⟩) s = .next t ∧ t = { s with ports := t.ports, faults := t.faults } ∧
         (t.faults.attention.get l).line = false ∧ (t.faults.attention.get l).released = true ∧
         (nextNotice s.faults l = none →
           ReadAnswered l 0x89 ⟨u, 0, 0⟩ .done 0xFFFF none s t ∧ t.faults.slots = s.faults.slots ∧
             ∀ (i : SlotId) (r : Record), i ∈ s.faults.order → s.faults.slots[i] = some r → r.seen.get l = true) ∧
         (∀ (i : SlotId) (r : Record), nextNotice s.faults l = some (i, r) →
           s.faults.slots[i] = some r ∧ r.seen.get l = false ∧
           (∀ (j : SlotId) (q : Record), j ∈ s.faults.order → s.faults.slots[j] = some q → q.seen.get l = false →
             q.level ≤ r.level) ∧
           (∃ before after, s.faults.order = before ++ i :: after ∧
             ∀ j ∈ before, ∀ q, s.faults.slots[j] = some q → q.seen.get l = false → q.level < r.level) ∧
           ReadAnswered l 0x89 ⟨u, 0, 0⟩ .done (word i.val)
             (some
               { code := 0x89, subject := u, index := 0,
                 words :=
                   [word i.val, word (kindCode r.kind), subjectWord r.subject, word r.level, wordBool (!r.active)] })
             s t ∧
           (∀ j : SlotId, j ≠ i → t.faults.slots[j] = s.faults.slots[j]) ∧
           t.faults.slots[i] =
             if r.active = false ∧ r.seen.get (otherLink l) = true then none
             else some { r with seen := r.seen.set l true })) ∧
  (∀ (l : Link) (u n : Byte) (s : State),
     (n ≠ 0 →
       Reads (.readNextNotice l ⟨u, n, 0⟩) l 0x89 ⟨u, n, 0⟩ .badSubject 0 (s.ports.get l).snapshot s) ∧
     ∀ v : Word16, v ≠ 0 →
       (∀ x w, (s.ports.get l).snapshot = some x → x.code = 0x89 → x.subject = u → x.index = n →
         x.words[v.toNat]? = some w → Reads (.readNextNotice l ⟨u, n, v⟩) l 0x89 ⟨u, n, v⟩ .done w (some x) s) ∧
       ((∀ x, (s.ports.get l).snapshot = some x → x.code = 0x89 → x.subject = u → x.index = n →
           x.words[v.toNat]? = none) →
         Reads (.readNextNotice l ⟨u, n, v⟩) l 0x89 ⟨u, n, v⟩ (if n = 0 then .badValue else .badSubject) 0
           (s.ports.get l).snapshot s))

/-! ### Invariants kept by every step -/

/-- HOLD is asserted exactly in STARTING and SERVICE, and FLSEL holds the aspect of the installed table: after every
step (R154). -/
def Obligations.StepKeepsHoldAndFlsel : Prop :=
  ∀ s t : State, PartOk s → step s = .next t → OutputsFollow t

/-- After every step the sequencer, the plan roles and the service timers are as the service state requires: in
HANDED_OVER the sequencer stopped and no start, vouch or two-key timer; in STARTING the start timer and the vouch
timer, in SERVICE the vouch timer alone (R164, R165); each plan in a role is READY; the priority-call list holds four
calls at most and no two for one stage; and the bar set is the one R145 gives for the red statuses and the stage table
of that moment, across a STAGE WRITE by log entry 19. -/
def Obligations.StepKeepsServicePlansAndCalls : Prop :=
  ∀ s t : State, PartOk s → step s = .next t → ServiceOk t ∧ RolesReady t ∧ CallsOk t ∧ BarsFresh t

/-- After every step exposures are as R79 gives them, no group is GREEN in HANDED_OVER, and no two conflicting groups
are exposed in STARTING or SERVICE; nor, therefore, are two conflicting groups GREEN. -/
def Obligations.StepKeepsConflictingGreensApart : Prop :=
  ∀ s t : State, PartOk s → step s = .next t →
    GreensApart t ∧
      ∀ l g : GroupId, l ≠ g → conflict t l g = true →
        ¬(t.seq.groups[l].aspect = .green ∧ t.seq.groups[g].aspect = .green)

/-- After every step every output is commanded as R66 composes it: on exactly outside HANDED_OVER, with its card not
tripped, used in the active table, and with an aspect of its group that lights its colour. -/
def Obligations.StepKeepsCommandsComposed : Prop :=
  ∀ s t : State, PartOk s → step s = .next t →
    ∀ o : OutputId,
      t.proving.outputs[o].commanded = true ↔
        t.service.state ≠ .handedOver ∧ t.cable.cards[cardOf o].tripped = false ∧
          ∃ a, t.safety.active = some a ∧ a.outputs[o].used = true ∧
            (a.outputs[o].colour = .red ∧
                (t.seq.groups[a.outputs[o].group].aspect = .red ∨ t.seq.groups[a.outputs[o].group].aspect = .redAmber) ∨
              a.outputs[o].colour = .amber ∧
                (t.seq.groups[a.outputs[o].group].aspect = .redAmber ∨ t.seq.groups[a.outputs[o].group].aspect = .amber) ∨
              a.outputs[o].colour = .green ∧ t.seq.groups[a.outputs[o].group].aspect = .green)

/-- After every step the fault table holds one record for a kind and subject, its change order lists the held slots once
each, no record that should be CLEARED or removed stands, and each attention line is as the condition gives it. After
every step no output is under two open investigations, and three sent patterns at most are listed. -/
def Obligations.StepKeepsTheFaultTableAndLists : Prop :=
  (∀ s t : State, PartOk s → step s = .next t → TableOk t.faults) ∧
  (∀ s t : State, PartOk s → step s = .next t → InvestigationsOk t ∧ PatternsOk t)
end

