-- ==== Sys2Proof/Laws/State.lean ====
section
/-! SUPPORT. One lemma per field for each update of a block's records, each true by rfl; and the entries of a vector after
an update. -/

namespace Sys2Proof.Machine

/-! ### Vectors, pairs and sets -/

@[simp] theorem vgen_get {α : Type} {n : Nat} (f : Fin n → α) (i : Fin n) : (vgen f)[i] = f i := by simp [vgen]

@[simp] theorem vmod_same {α : Type} {n : Nat} (v : Vector α n) (i : Fin n) (f : α → α) : (vmod v i f)[i] = f v[i] := by
  simp [vmod]

theorem vmod_get {α : Type} {n : Nat} (v : Vector α n) (i j : Fin n) (f : α → α) :
    (vmod v i f)[j] = if i = j then f v[j] else v[j] := by
  by_cases h : i = j
  · subst h; simp [vmod]
  · have : i.val ≠ j.val := fun e => h (Fin.ext e)
    simp [vmod, h, this]

theorem vset_get {α : Type} {n : Nat} (v : Vector α n) (i j : Fin n) (a : α) :
    (v.set i a)[j] = if i = j then a else v[j] := by
  by_cases h : i = j
  · subst h; simp
  · have : i.val ≠ j.val := fun e => h (Fin.ext e)
    simp [h, this]

@[simp] theorem PerLink.get_set {α : Type} (p : PerLink α) (l : Link) (a : α) : (p.set l a).get l = a := by
  cases l <;> rfl

@[simp] theorem PerLink.get_set_other {α : Type} (p : PerLink α) (l : Link) (a : α) :
    (p.set l a).get (otherLink l) = p.get (otherLink l) := by
  cases l <;> rfl

@[simp] theorem PerLine.get_set {α : Type} (p : PerLine α) (l : LineId) (a : α) : (p.set l a).get l = a := by
  cases l <;> rfl

@[simp] theorem PerLine.get_set_other {α : Type} (p : PerLine α) (l : LineId) (a : α) :
    (p.set l a).get (otherLine l) = p.get (otherLine l) := by
  cases l <;> rfl

@[simp] theorem has_setOf (p : Fin 16 → Bool) (i : Fin 16) : has (setOf p) i = p i := by
  simp [has, setOf]

@[simp] theorem has_setAdd (x : Set16) (i j : Fin 16) : has (setAdd x i) j = (j == i || has x j) := by
  simp [setAdd]

@[simp] theorem has_setDrop (x : Set16) (i j : Fin 16) : has (setDrop x i) j = (j != i && has x j) := by
  simp [setDrop]

/-! ### Updates -/

@[simp] theorem modCore_pending (s : State) (o : OutputId) (f : CoreRec → CoreRec) :
    (modCore s o f).pending = s.pending := rfl
@[simp] theorem modCore_ports (s : State) (o : OutputId) (f : CoreRec → CoreRec) :
    (modCore s o f).ports = s.ports := rfl
@[simp] theorem modCore_safety (s : State) (o : OutputId) (f : CoreRec → CoreRec) :
    (modCore s o f).safety = s.safety := rfl
@[simp] theorem modCore_stages (s : State) (o : OutputId) (f : CoreRec → CoreRec) :
    (modCore s o f).stages = s.stages := rfl
@[simp] theorem modCore_line (s : State) (o : OutputId) (f : CoreRec → CoreRec) : (modCore s o f).line = s.line := rfl
@[simp] theorem modCore_engine (s : State) (o : OutputId) (f : CoreRec → CoreRec) :
    (modCore s o f).engine = { s.engine with cores := vmod s.engine.cores o f } := rfl
@[simp] theorem modCore_proving (s : State) (o : OutputId) (f : CoreRec → CoreRec) :
    (modCore s o f).proving = s.proving := rfl
@[simp] theorem modCore_cable (s : State) (o : OutputId) (f : CoreRec → CoreRec) :
    (modCore s o f).cable = s.cable := rfl
@[simp] theorem modCore_plans (s : State) (o : OutputId) (f : CoreRec → CoreRec) :
    (modCore s o f).plans = s.plans := rfl
@[simp] theorem modCore_seq (s : State) (o : OutputId) (f : CoreRec → CoreRec) : (modCore s o f).seq = s.seq := rfl
@[simp] theorem modCore_service (s : State) (o : OutputId) (f : CoreRec → CoreRec) :
    (modCore s o f).service = s.service := rfl
@[simp] theorem modCore_inputs (s : State) (o : OutputId) (f : CoreRec → CoreRec) :
    (modCore s o f).inputs = s.inputs := rfl
@[simp] theorem modCore_faults (s : State) (o : OutputId) (f : CoreRec → CoreRec) :
    (modCore s o f).faults = s.faults := rfl

@[simp] theorem modRes_pending (s : State) (c : CardId) (f : ResRec → ResRec) :
    (modRes s c f).pending = s.pending := rfl
@[simp] theorem modRes_ports (s : State) (c : CardId) (f : ResRec → ResRec) : (modRes s c f).ports = s.ports := rfl
@[simp] theorem modRes_safety (s : State) (c : CardId) (f : ResRec → ResRec) : (modRes s c f).safety = s.safety := rfl
@[simp] theorem modRes_stages (s : State) (c : CardId) (f : ResRec → ResRec) : (modRes s c f).stages = s.stages := rfl
@[simp] theorem modRes_line (s : State) (c : CardId) (f : ResRec → ResRec) : (modRes s c f).line = s.line := rfl
@[simp] theorem modRes_engine (s : State) (c : CardId) (f : ResRec → ResRec) :
    (modRes s c f).engine = { s.engine with residuals := vmod s.engine.residuals c f } := rfl
@[simp] theorem modRes_proving (s : State) (c : CardId) (f : ResRec → ResRec) :
    (modRes s c f).proving = s.proving := rfl
@[simp] theorem modRes_cable (s : State) (c : CardId) (f : ResRec → ResRec) : (modRes s c f).cable = s.cable := rfl
@[simp] theorem modRes_plans (s : State) (c : CardId) (f : ResRec → ResRec) : (modRes s c f).plans = s.plans := rfl
@[simp] theorem modRes_seq (s : State) (c : CardId) (f : ResRec → ResRec) : (modRes s c f).seq = s.seq := rfl
@[simp] theorem modRes_service (s : State) (c : CardId) (f : ResRec → ResRec) :
    (modRes s c f).service = s.service := rfl
@[simp] theorem modRes_inputs (s : State) (c : CardId) (f : ResRec → ResRec) : (modRes s c f).inputs = s.inputs := rfl
@[simp] theorem modRes_faults (s : State) (c : CardId) (f : ResRec → ResRec) : (modRes s c f).faults = s.faults := rfl

@[simp] theorem modProof_pending (s : State) (o : OutputId) (f : OutputProof → OutputProof) :
    (modProof s o f).pending = s.pending := rfl
@[simp] theorem modProof_ports (s : State) (o : OutputId) (f : OutputProof → OutputProof) :
    (modProof s o f).ports = s.ports := rfl
@[simp] theorem modProof_safety (s : State) (o : OutputId) (f : OutputProof → OutputProof) :
    (modProof s o f).safety = s.safety := rfl
@[simp] theorem modProof_stages (s : State) (o : OutputId) (f : OutputProof → OutputProof) :
    (modProof s o f).stages = s.stages := rfl
@[simp] theorem modProof_line (s : State) (o : OutputId) (f : OutputProof → OutputProof) :
    (modProof s o f).line = s.line := rfl
@[simp] theorem modProof_engine (s : State) (o : OutputId) (f : OutputProof → OutputProof) :
    (modProof s o f).engine = s.engine := rfl
@[simp] theorem modProof_proving (s : State) (o : OutputId) (f : OutputProof → OutputProof) :
    (modProof s o f).proving = { s.proving with outputs := vmod s.proving.outputs o f } := rfl
@[simp] theorem modProof_cable (s : State) (o : OutputId) (f : OutputProof → OutputProof) :
    (modProof s o f).cable = s.cable := rfl
@[simp] theorem modProof_plans (s : State) (o : OutputId) (f : OutputProof → OutputProof) :
    (modProof s o f).plans = s.plans := rfl
@[simp] theorem modProof_seq (s : State) (o : OutputId) (f : OutputProof → OutputProof) :
    (modProof s o f).seq = s.seq := rfl
@[simp] theorem modProof_service (s : State) (o : OutputId) (f : OutputProof → OutputProof) :
    (modProof s o f).service = s.service := rfl
@[simp] theorem modProof_inputs (s : State) (o : OutputId) (f : OutputProof → OutputProof) :
    (modProof s o f).inputs = s.inputs := rfl
@[simp] theorem modProof_faults (s : State) (o : OutputId) (f : OutputProof → OutputProof) :
    (modProof s o f).faults = s.faults := rfl

@[simp] theorem modGroupProof_pending (s : State) (g : GroupId) (f : GroupProof → GroupProof) :
    (modGroupProof s g f).pending = s.pending := rfl
@[simp] theorem modGroupProof_ports (s : State) (g : GroupId) (f : GroupProof → GroupProof) :
    (modGroupProof s g f).ports = s.ports := rfl
@[simp] theorem modGroupProof_safety (s : State) (g : GroupId) (f : GroupProof → GroupProof) :
    (modGroupProof s g f).safety = s.safety := rfl
@[simp] theorem modGroupProof_stages (s : State) (g : GroupId) (f : GroupProof → GroupProof) :
    (modGroupProof s g f).stages = s.stages := rfl
@[simp] theorem modGroupProof_line (s : State) (g : GroupId) (f : GroupProof → GroupProof) :
    (modGroupProof s g f).line = s.line := rfl
@[simp] theorem modGroupProof_engine (s : State) (g : GroupId) (f : GroupProof → GroupProof) :
    (modGroupProof s g f).engine = s.engine := rfl
@[simp] theorem modGroupProof_proving (s : State) (g : GroupId) (f : GroupProof → GroupProof) :
    (modGroupProof s g f).proving = { s.proving with groups := vmod s.proving.groups g f } := rfl
@[simp] theorem modGroupProof_cable (s : State) (g : GroupId) (f : GroupProof → GroupProof) :
    (modGroupProof s g f).cable = s.cable := rfl
@[simp] theorem modGroupProof_plans (s : State) (g : GroupId) (f : GroupProof → GroupProof) :
    (modGroupProof s g f).plans = s.plans := rfl
@[simp] theorem modGroupProof_seq (s : State) (g : GroupId) (f : GroupProof → GroupProof) :
    (modGroupProof s g f).seq = s.seq := rfl
@[simp] theorem modGroupProof_service (s : State) (g : GroupId) (f : GroupProof → GroupProof) :
    (modGroupProof s g f).service = s.service := rfl
@[simp] theorem modGroupProof_inputs (s : State) (g : GroupId) (f : GroupProof → GroupProof) :
    (modGroupProof s g f).inputs = s.inputs := rfl
@[simp] theorem modGroupProof_faults (s : State) (g : GroupId) (f : GroupProof → GroupProof) :
    (modGroupProof s g f).faults = s.faults := rfl

@[simp] theorem modCard_pending (s : State) (c : CardId) (f : CardRec → CardRec) :
    (modCard s c f).pending = s.pending := rfl
@[simp] theorem modCard_ports (s : State) (c : CardId) (f : CardRec → CardRec) : (modCard s c f).ports = s.ports := rfl
@[simp] theorem modCard_safety (s : State) (c : CardId) (f : CardRec → CardRec) :
    (modCard s c f).safety = s.safety := rfl
@[simp] theorem modCard_stages (s : State) (c : CardId) (f : CardRec → CardRec) :
    (modCard s c f).stages = s.stages := rfl
@[simp] theorem modCard_line (s : State) (c : CardId) (f : CardRec → CardRec) :
    (modCard s c f).line = { s.line with cards := vmod s.line.cards c f } := rfl
@[simp] theorem modCard_engine (s : State) (c : CardId) (f : CardRec → CardRec) :
    (modCard s c f).engine = s.engine := rfl
@[simp] theorem modCard_proving (s : State) (c : CardId) (f : CardRec → CardRec) :
    (modCard s c f).proving = s.proving := rfl
@[simp] theorem modCard_cable (s : State) (c : CardId) (f : CardRec → CardRec) : (modCard s c f).cable = s.cable := rfl
@[simp] theorem modCard_plans (s : State) (c : CardId) (f : CardRec → CardRec) : (modCard s c f).plans = s.plans := rfl
@[simp] theorem modCard_seq (s : State) (c : CardId) (f : CardRec → CardRec) : (modCard s c f).seq = s.seq := rfl
@[simp] theorem modCard_service (s : State) (c : CardId) (f : CardRec → CardRec) :
    (modCard s c f).service = s.service := rfl
@[simp] theorem modCard_inputs (s : State) (c : CardId) (f : CardRec → CardRec) :
    (modCard s c f).inputs = s.inputs := rfl
@[simp] theorem modCard_faults (s : State) (c : CardId) (f : CardRec → CardRec) :
    (modCard s c f).faults = s.faults := rfl

@[simp] theorem modLine_pending (s : State) (l : LineId) (f : LineRec → LineRec) :
    (modLine s l f).pending = s.pending := rfl
@[simp] theorem modLine_ports (s : State) (l : LineId) (f : LineRec → LineRec) : (modLine s l f).ports = s.ports := rfl
@[simp] theorem modLine_safety (s : State) (l : LineId) (f : LineRec → LineRec) :
    (modLine s l f).safety = s.safety := rfl
@[simp] theorem modLine_stages (s : State) (l : LineId) (f : LineRec → LineRec) :
    (modLine s l f).stages = s.stages := rfl
@[simp] theorem modLine_line (s : State) (l : LineId) (f : LineRec → LineRec) :
    (modLine s l f).line = { s.line with lines := s.line.lines.set l (f (s.line.lines.get l)) } := rfl
@[simp] theorem modLine_engine (s : State) (l : LineId) (f : LineRec → LineRec) :
    (modLine s l f).engine = s.engine := rfl
@[simp] theorem modLine_proving (s : State) (l : LineId) (f : LineRec → LineRec) :
    (modLine s l f).proving = s.proving := rfl
@[simp] theorem modLine_cable (s : State) (l : LineId) (f : LineRec → LineRec) : (modLine s l f).cable = s.cable := rfl
@[simp] theorem modLine_plans (s : State) (l : LineId) (f : LineRec → LineRec) : (modLine s l f).plans = s.plans := rfl
@[simp] theorem modLine_seq (s : State) (l : LineId) (f : LineRec → LineRec) : (modLine s l f).seq = s.seq := rfl
@[simp] theorem modLine_service (s : State) (l : LineId) (f : LineRec → LineRec) :
    (modLine s l f).service = s.service := rfl
@[simp] theorem modLine_inputs (s : State) (l : LineId) (f : LineRec → LineRec) :
    (modLine s l f).inputs = s.inputs := rfl
@[simp] theorem modLine_faults (s : State) (l : LineId) (f : LineRec → LineRec) :
    (modLine s l f).faults = s.faults := rfl

@[simp] theorem modMains_pending (s : State) (f : Mains → Mains) : (modMains s f).pending = s.pending := rfl
@[simp] theorem modMains_ports (s : State) (f : Mains → Mains) : (modMains s f).ports = s.ports := rfl
@[simp] theorem modMains_safety (s : State) (f : Mains → Mains) : (modMains s f).safety = s.safety := rfl
@[simp] theorem modMains_stages (s : State) (f : Mains → Mains) : (modMains s f).stages = s.stages := rfl
@[simp] theorem modMains_line (s : State) (f : Mains → Mains) :
    (modMains s f).line = { s.line with mains := f s.line.mains } := rfl
@[simp] theorem modMains_engine (s : State) (f : Mains → Mains) : (modMains s f).engine = s.engine := rfl
@[simp] theorem modMains_proving (s : State) (f : Mains → Mains) : (modMains s f).proving = s.proving := rfl
@[simp] theorem modMains_cable (s : State) (f : Mains → Mains) : (modMains s f).cable = s.cable := rfl
@[simp] theorem modMains_plans (s : State) (f : Mains → Mains) : (modMains s f).plans = s.plans := rfl
@[simp] theorem modMains_seq (s : State) (f : Mains → Mains) : (modMains s f).seq = s.seq := rfl
@[simp] theorem modMains_service (s : State) (f : Mains → Mains) : (modMains s f).service = s.service := rfl
@[simp] theorem modMains_inputs (s : State) (f : Mains → Mains) : (modMains s f).inputs = s.inputs := rfl
@[simp] theorem modMains_faults (s : State) (f : Mains → Mains) : (modMains s f).faults = s.faults := rfl

@[simp] theorem modExchange_pending (s : State) (f : Exchange → Exchange) : (modExchange s f).pending = s.pending := rfl
@[simp] theorem modExchange_ports (s : State) (f : Exchange → Exchange) : (modExchange s f).ports = s.ports := rfl
@[simp] theorem modExchange_safety (s : State) (f : Exchange → Exchange) : (modExchange s f).safety = s.safety := rfl
@[simp] theorem modExchange_stages (s : State) (f : Exchange → Exchange) : (modExchange s f).stages = s.stages := rfl
@[simp] theorem modExchange_line (s : State) (f : Exchange → Exchange) :
    (modExchange s f).line = { s.line with exchange := f s.line.exchange } := rfl
@[simp] theorem modExchange_engine (s : State) (f : Exchange → Exchange) : (modExchange s f).engine = s.engine := rfl
@[simp] theorem modExchange_proving (s : State) (f : Exchange → Exchange) : (modExchange s f).proving = s.proving := rfl
@[simp] theorem modExchange_cable (s : State) (f : Exchange → Exchange) : (modExchange s f).cable = s.cable := rfl
@[simp] theorem modExchange_plans (s : State) (f : Exchange → Exchange) : (modExchange s f).plans = s.plans := rfl
@[simp] theorem modExchange_seq (s : State) (f : Exchange → Exchange) : (modExchange s f).seq = s.seq := rfl
@[simp] theorem modExchange_service (s : State) (f : Exchange → Exchange) : (modExchange s f).service = s.service := rfl
@[simp] theorem modExchange_inputs (s : State) (f : Exchange → Exchange) : (modExchange s f).inputs = s.inputs := rfl
@[simp] theorem modExchange_faults (s : State) (f : Exchange → Exchange) : (modExchange s f).faults = s.faults := rfl

@[simp] theorem modCable_pending (s : State) (c : CardId) (f : CableCard → CableCard) :
    (modCable s c f).pending = s.pending := rfl
@[simp] theorem modCable_ports (s : State) (c : CardId) (f : CableCard → CableCard) :
    (modCable s c f).ports = s.ports := rfl
@[simp] theorem modCable_safety (s : State) (c : CardId) (f : CableCard → CableCard) :
    (modCable s c f).safety = s.safety := rfl
@[simp] theorem modCable_stages (s : State) (c : CardId) (f : CableCard → CableCard) :
    (modCable s c f).stages = s.stages := rfl
@[simp] theorem modCable_line (s : State) (c : CardId) (f : CableCard → CableCard) :
    (modCable s c f).line = s.line := rfl
@[simp] theorem modCable_engine (s : State) (c : CardId) (f : CableCard → CableCard) :
    (modCable s c f).engine = s.engine := rfl
@[simp] theorem modCable_proving (s : State) (c : CardId) (f : CableCard → CableCard) :
    (modCable s c f).proving = s.proving := rfl
@[simp] theorem modCable_cable (s : State) (c : CardId) (f : CableCard → CableCard) :
    (modCable s c f).cable = { s.cable with cards := vmod s.cable.cards c f } := rfl
@[simp] theorem modCable_plans (s : State) (c : CardId) (f : CableCard → CableCard) :
    (modCable s c f).plans = s.plans := rfl
@[simp] theorem modCable_seq (s : State) (c : CardId) (f : CableCard → CableCard) : (modCable s c f).seq = s.seq := rfl
@[simp] theorem modCable_service (s : State) (c : CardId) (f : CableCard → CableCard) :
    (modCable s c f).service = s.service := rfl
@[simp] theorem modCable_inputs (s : State) (c : CardId) (f : CableCard → CableCard) :
    (modCable s c f).inputs = s.inputs := rfl
@[simp] theorem modCable_faults (s : State) (c : CardId) (f : CableCard → CableCard) :
    (modCable s c f).faults = s.faults := rfl

@[simp] theorem modFeeder_pending (s : State) (o : OutputId) (f : Feeder → Feeder) :
    (modFeeder s o f).pending = s.pending := rfl
@[simp] theorem modFeeder_ports (s : State) (o : OutputId) (f : Feeder → Feeder) :
    (modFeeder s o f).ports = s.ports := rfl
@[simp] theorem modFeeder_safety (s : State) (o : OutputId) (f : Feeder → Feeder) :
    (modFeeder s o f).safety = s.safety := rfl
@[simp] theorem modFeeder_stages (s : State) (o : OutputId) (f : Feeder → Feeder) :
    (modFeeder s o f).stages = s.stages := rfl
@[simp] theorem modFeeder_line (s : State) (o : OutputId) (f : Feeder → Feeder) : (modFeeder s o f).line = s.line := rfl
@[simp] theorem modFeeder_engine (s : State) (o : OutputId) (f : Feeder → Feeder) :
    (modFeeder s o f).engine = s.engine := rfl
@[simp] theorem modFeeder_proving (s : State) (o : OutputId) (f : Feeder → Feeder) :
    (modFeeder s o f).proving = s.proving := rfl
@[simp] theorem modFeeder_cable (s : State) (o : OutputId) (f : Feeder → Feeder) :
    (modFeeder s o f).cable = { s.cable with feeders := vmod s.cable.feeders o f } := rfl
@[simp] theorem modFeeder_plans (s : State) (o : OutputId) (f : Feeder → Feeder) :
    (modFeeder s o f).plans = s.plans := rfl
@[simp] theorem modFeeder_seq (s : State) (o : OutputId) (f : Feeder → Feeder) : (modFeeder s o f).seq = s.seq := rfl
@[simp] theorem modFeeder_service (s : State) (o : OutputId) (f : Feeder → Feeder) :
    (modFeeder s o f).service = s.service := rfl
@[simp] theorem modFeeder_inputs (s : State) (o : OutputId) (f : Feeder → Feeder) :
    (modFeeder s o f).inputs = s.inputs := rfl
@[simp] theorem modFeeder_faults (s : State) (o : OutputId) (f : Feeder → Feeder) :
    (modFeeder s o f).faults = s.faults := rfl

@[simp] theorem setInvestigation_pending (s : State) (i : InvSlot) (v : Option Investigation) :
    (setInvestigation s i v).pending = s.pending := rfl
@[simp] theorem setInvestigation_ports (s : State) (i : InvSlot) (v : Option Investigation) :
    (setInvestigation s i v).ports = s.ports := rfl
@[simp] theorem setInvestigation_safety (s : State) (i : InvSlot) (v : Option Investigation) :
    (setInvestigation s i v).safety = s.safety := rfl
@[simp] theorem setInvestigation_stages (s : State) (i : InvSlot) (v : Option Investigation) :
    (setInvestigation s i v).stages = s.stages := rfl
@[simp] theorem setInvestigation_line (s : State) (i : InvSlot) (v : Option Investigation) :
    (setInvestigation s i v).line = s.line := rfl
@[simp] theorem setInvestigation_engine (s : State) (i : InvSlot) (v : Option Investigation) :
    (setInvestigation s i v).engine = s.engine := rfl
@[simp] theorem setInvestigation_proving (s : State) (i : InvSlot) (v : Option Investigation) :
    (setInvestigation s i v).proving = s.proving := rfl
@[simp] theorem setInvestigation_cable (s : State) (i : InvSlot) (v : Option Investigation) :
    (setInvestigation s i v).cable = { s.cable with investigations := s.cable.investigations.set i v } := rfl
@[simp] theorem setInvestigation_plans (s : State) (i : InvSlot) (v : Option Investigation) :
    (setInvestigation s i v).plans = s.plans := rfl
@[simp] theorem setInvestigation_seq (s : State) (i : InvSlot) (v : Option Investigation) :
    (setInvestigation s i v).seq = s.seq := rfl
@[simp] theorem setInvestigation_service (s : State) (i : InvSlot) (v : Option Investigation) :
    (setInvestigation s i v).service = s.service := rfl
@[simp] theorem setInvestigation_inputs (s : State) (i : InvSlot) (v : Option Investigation) :
    (setInvestigation s i v).inputs = s.inputs := rfl
@[simp] theorem setInvestigation_faults (s : State) (i : InvSlot) (v : Option Investigation) :
    (setInvestigation s i v).faults = s.faults := rfl

@[simp] theorem modSeq_pending (s : State) (f : Sequencer → Sequencer) : (modSeq s f).pending = s.pending := rfl
@[simp] theorem modSeq_ports (s : State) (f : Sequencer → Sequencer) : (modSeq s f).ports = s.ports := rfl
@[simp] theorem modSeq_safety (s : State) (f : Sequencer → Sequencer) : (modSeq s f).safety = s.safety := rfl
@[simp] theorem modSeq_stages (s : State) (f : Sequencer → Sequencer) : (modSeq s f).stages = s.stages := rfl
@[simp] theorem modSeq_line (s : State) (f : Sequencer → Sequencer) : (modSeq s f).line = s.line := rfl
@[simp] theorem modSeq_engine (s : State) (f : Sequencer → Sequencer) : (modSeq s f).engine = s.engine := rfl
@[simp] theorem modSeq_proving (s : State) (f : Sequencer → Sequencer) : (modSeq s f).proving = s.proving := rfl
@[simp] theorem modSeq_cable (s : State) (f : Sequencer → Sequencer) : (modSeq s f).cable = s.cable := rfl
@[simp] theorem modSeq_plans (s : State) (f : Sequencer → Sequencer) : (modSeq s f).plans = s.plans := rfl
@[simp] theorem modSeq_seq (s : State) (f : Sequencer → Sequencer) : (modSeq s f).seq = f s.seq := rfl
@[simp] theorem modSeq_service (s : State) (f : Sequencer → Sequencer) : (modSeq s f).service = s.service := rfl
@[simp] theorem modSeq_inputs (s : State) (f : Sequencer → Sequencer) : (modSeq s f).inputs = s.inputs := rfl
@[simp] theorem modSeq_faults (s : State) (f : Sequencer → Sequencer) : (modSeq s f).faults = s.faults := rfl

@[simp] theorem modGroup_pending (s : State) (g : GroupId) (f : GroupSeq → GroupSeq) :
    (modGroup s g f).pending = s.pending := rfl
@[simp] theorem modGroup_ports (s : State) (g : GroupId) (f : GroupSeq → GroupSeq) :
    (modGroup s g f).ports = s.ports := rfl
@[simp] theorem modGroup_safety (s : State) (g : GroupId) (f : GroupSeq → GroupSeq) :
    (modGroup s g f).safety = s.safety := rfl
@[simp] theorem modGroup_stages (s : State) (g : GroupId) (f : GroupSeq → GroupSeq) :
    (modGroup s g f).stages = s.stages := rfl
@[simp] theorem modGroup_line (s : State) (g : GroupId) (f : GroupSeq → GroupSeq) :
    (modGroup s g f).line = s.line := rfl
@[simp] theorem modGroup_engine (s : State) (g : GroupId) (f : GroupSeq → GroupSeq) :
    (modGroup s g f).engine = s.engine := rfl
@[simp] theorem modGroup_proving (s : State) (g : GroupId) (f : GroupSeq → GroupSeq) :
    (modGroup s g f).proving = s.proving := rfl
@[simp] theorem modGroup_cable (s : State) (g : GroupId) (f : GroupSeq → GroupSeq) :
    (modGroup s g f).cable = s.cable := rfl
@[simp] theorem modGroup_plans (s : State) (g : GroupId) (f : GroupSeq → GroupSeq) :
    (modGroup s g f).plans = s.plans := rfl
@[simp] theorem modGroup_seq (s : State) (g : GroupId) (f : GroupSeq → GroupSeq) :
    (modGroup s g f).seq = { s.seq with groups := vmod s.seq.groups g f } := rfl
@[simp] theorem modGroup_service (s : State) (g : GroupId) (f : GroupSeq → GroupSeq) :
    (modGroup s g f).service = s.service := rfl
@[simp] theorem modGroup_inputs (s : State) (g : GroupId) (f : GroupSeq → GroupSeq) :
    (modGroup s g f).inputs = s.inputs := rfl
@[simp] theorem modGroup_faults (s : State) (g : GroupId) (f : GroupSeq → GroupSeq) :
    (modGroup s g f).faults = s.faults := rfl

@[simp] theorem modPlans_pending (s : State) (f : PlanMemory → PlanMemory) : (modPlans s f).pending = s.pending := rfl
@[simp] theorem modPlans_ports (s : State) (f : PlanMemory → PlanMemory) : (modPlans s f).ports = s.ports := rfl
@[simp] theorem modPlans_safety (s : State) (f : PlanMemory → PlanMemory) : (modPlans s f).safety = s.safety := rfl
@[simp] theorem modPlans_stages (s : State) (f : PlanMemory → PlanMemory) : (modPlans s f).stages = s.stages := rfl
@[simp] theorem modPlans_line (s : State) (f : PlanMemory → PlanMemory) : (modPlans s f).line = s.line := rfl
@[simp] theorem modPlans_engine (s : State) (f : PlanMemory → PlanMemory) : (modPlans s f).engine = s.engine := rfl
@[simp] theorem modPlans_proving (s : State) (f : PlanMemory → PlanMemory) : (modPlans s f).proving = s.proving := rfl
@[simp] theorem modPlans_cable (s : State) (f : PlanMemory → PlanMemory) : (modPlans s f).cable = s.cable := rfl
@[simp] theorem modPlans_plans (s : State) (f : PlanMemory → PlanMemory) : (modPlans s f).plans = f s.plans := rfl
@[simp] theorem modPlans_seq (s : State) (f : PlanMemory → PlanMemory) : (modPlans s f).seq = s.seq := rfl
@[simp] theorem modPlans_service (s : State) (f : PlanMemory → PlanMemory) : (modPlans s f).service = s.service := rfl
@[simp] theorem modPlans_inputs (s : State) (f : PlanMemory → PlanMemory) : (modPlans s f).inputs = s.inputs := rfl
@[simp] theorem modPlans_faults (s : State) (f : PlanMemory → PlanMemory) : (modPlans s f).faults = s.faults := rfl

@[simp] theorem modPlan_pending (s : State) (p : PlanId) (f : Plan → Plan) : (modPlan s p f).pending = s.pending := rfl
@[simp] theorem modPlan_ports (s : State) (p : PlanId) (f : Plan → Plan) : (modPlan s p f).ports = s.ports := rfl
@[simp] theorem modPlan_safety (s : State) (p : PlanId) (f : Plan → Plan) : (modPlan s p f).safety = s.safety := rfl
@[simp] theorem modPlan_stages (s : State) (p : PlanId) (f : Plan → Plan) : (modPlan s p f).stages = s.stages := rfl
@[simp] theorem modPlan_line (s : State) (p : PlanId) (f : Plan → Plan) : (modPlan s p f).line = s.line := rfl
@[simp] theorem modPlan_engine (s : State) (p : PlanId) (f : Plan → Plan) : (modPlan s p f).engine = s.engine := rfl
@[simp] theorem modPlan_proving (s : State) (p : PlanId) (f : Plan → Plan) : (modPlan s p f).proving = s.proving := rfl
@[simp] theorem modPlan_cable (s : State) (p : PlanId) (f : Plan → Plan) : (modPlan s p f).cable = s.cable := rfl
@[simp] theorem modPlan_plans (s : State) (p : PlanId) (f : Plan → Plan) :
    (modPlan s p f).plans = { s.plans with plans := vmod s.plans.plans p f } := rfl
@[simp] theorem modPlan_seq (s : State) (p : PlanId) (f : Plan → Plan) : (modPlan s p f).seq = s.seq := rfl
@[simp] theorem modPlan_service (s : State) (p : PlanId) (f : Plan → Plan) : (modPlan s p f).service = s.service := rfl
@[simp] theorem modPlan_inputs (s : State) (p : PlanId) (f : Plan → Plan) : (modPlan s p f).inputs = s.inputs := rfl
@[simp] theorem modPlan_faults (s : State) (p : PlanId) (f : Plan → Plan) : (modPlan s p f).faults = s.faults := rfl

@[simp] theorem modService_pending (s : State) (f : Service → Service) : (modService s f).pending = s.pending := rfl
@[simp] theorem modService_ports (s : State) (f : Service → Service) : (modService s f).ports = s.ports := rfl
@[simp] theorem modService_safety (s : State) (f : Service → Service) : (modService s f).safety = s.safety := rfl
@[simp] theorem modService_stages (s : State) (f : Service → Service) : (modService s f).stages = s.stages := rfl
@[simp] theorem modService_line (s : State) (f : Service → Service) : (modService s f).line = s.line := rfl
@[simp] theorem modService_engine (s : State) (f : Service → Service) : (modService s f).engine = s.engine := rfl
@[simp] theorem modService_proving (s : State) (f : Service → Service) : (modService s f).proving = s.proving := rfl
@[simp] theorem modService_cable (s : State) (f : Service → Service) : (modService s f).cable = s.cable := rfl
@[simp] theorem modService_plans (s : State) (f : Service → Service) : (modService s f).plans = s.plans := rfl
@[simp] theorem modService_seq (s : State) (f : Service → Service) : (modService s f).seq = s.seq := rfl
@[simp] theorem modService_service (s : State) (f : Service → Service) : (modService s f).service = f s.service := rfl
@[simp] theorem modService_inputs (s : State) (f : Service → Service) : (modService s f).inputs = s.inputs := rfl
@[simp] theorem modService_faults (s : State) (f : Service → Service) : (modService s f).faults = s.faults := rfl

@[simp] theorem modInput_pending (s : State) (i : InputId) (f : Input → Input) :
    (modInput s i f).pending = s.pending := rfl
@[simp] theorem modInput_ports (s : State) (i : InputId) (f : Input → Input) : (modInput s i f).ports = s.ports := rfl
@[simp] theorem modInput_safety (s : State) (i : InputId) (f : Input → Input) :
    (modInput s i f).safety = s.safety := rfl
@[simp] theorem modInput_stages (s : State) (i : InputId) (f : Input → Input) :
    (modInput s i f).stages = s.stages := rfl
@[simp] theorem modInput_line (s : State) (i : InputId) (f : Input → Input) : (modInput s i f).line = s.line := rfl
@[simp] theorem modInput_engine (s : State) (i : InputId) (f : Input → Input) :
    (modInput s i f).engine = s.engine := rfl
@[simp] theorem modInput_proving (s : State) (i : InputId) (f : Input → Input) :
    (modInput s i f).proving = s.proving := rfl
@[simp] theorem modInput_cable (s : State) (i : InputId) (f : Input → Input) : (modInput s i f).cable = s.cable := rfl
@[simp] theorem modInput_plans (s : State) (i : InputId) (f : Input → Input) : (modInput s i f).plans = s.plans := rfl
@[simp] theorem modInput_seq (s : State) (i : InputId) (f : Input → Input) : (modInput s i f).seq = s.seq := rfl
@[simp] theorem modInput_service (s : State) (i : InputId) (f : Input → Input) :
    (modInput s i f).service = s.service := rfl
@[simp] theorem modInput_inputs (s : State) (i : InputId) (f : Input → Input) :
    (modInput s i f).inputs = vmod s.inputs i f := rfl
@[simp] theorem modInput_faults (s : State) (i : InputId) (f : Input → Input) :
    (modInput s i f).faults = s.faults := rfl

@[simp] theorem modPort_pending (s : State) (l : Link) (f : Port → Port) : (modPort s l f).pending = s.pending := rfl
@[simp] theorem modPort_ports (s : State) (l : Link) (f : Port → Port) :
    (modPort s l f).ports = s.ports.set l (f (s.ports.get l)) := rfl
@[simp] theorem modPort_safety (s : State) (l : Link) (f : Port → Port) : (modPort s l f).safety = s.safety := rfl
@[simp] theorem modPort_stages (s : State) (l : Link) (f : Port → Port) : (modPort s l f).stages = s.stages := rfl
@[simp] theorem modPort_line (s : State) (l : Link) (f : Port → Port) : (modPort s l f).line = s.line := rfl
@[simp] theorem modPort_engine (s : State) (l : Link) (f : Port → Port) : (modPort s l f).engine = s.engine := rfl
@[simp] theorem modPort_proving (s : State) (l : Link) (f : Port → Port) : (modPort s l f).proving = s.proving := rfl
@[simp] theorem modPort_cable (s : State) (l : Link) (f : Port → Port) : (modPort s l f).cable = s.cable := rfl
@[simp] theorem modPort_plans (s : State) (l : Link) (f : Port → Port) : (modPort s l f).plans = s.plans := rfl
@[simp] theorem modPort_seq (s : State) (l : Link) (f : Port → Port) : (modPort s l f).seq = s.seq := rfl
@[simp] theorem modPort_service (s : State) (l : Link) (f : Port → Port) : (modPort s l f).service = s.service := rfl
@[simp] theorem modPort_inputs (s : State) (l : Link) (f : Port → Port) : (modPort s l f).inputs = s.inputs := rfl
@[simp] theorem modPort_faults (s : State) (l : Link) (f : Port → Port) : (modPort s l f).faults = s.faults := rfl

/-! ### Records, recomposed commands and recomputed exposures -/

@[simp] theorem post_pending (k : FaultKind) (x : Subject) (b : Bool) (d : Option (List Word16)) (s : State) :
    (post k x b d s).pending = s.pending := rfl
@[simp] theorem post_ports (k : FaultKind) (x : Subject) (b : Bool) (d : Option (List Word16)) (s : State) :
    (post k x b d s).ports = s.ports := rfl
@[simp] theorem post_safety (k : FaultKind) (x : Subject) (b : Bool) (d : Option (List Word16)) (s : State) :
    (post k x b d s).safety = s.safety := rfl
@[simp] theorem post_stages (k : FaultKind) (x : Subject) (b : Bool) (d : Option (List Word16)) (s : State) :
    (post k x b d s).stages = s.stages := rfl
@[simp] theorem post_line (k : FaultKind) (x : Subject) (b : Bool) (d : Option (List Word16)) (s : State) :
    (post k x b d s).line = s.line := rfl
@[simp] theorem post_engine (k : FaultKind) (x : Subject) (b : Bool) (d : Option (List Word16)) (s : State) :
    (post k x b d s).engine = s.engine := rfl
@[simp] theorem post_proving (k : FaultKind) (x : Subject) (b : Bool) (d : Option (List Word16)) (s : State) :
    (post k x b d s).proving = s.proving := rfl
@[simp] theorem post_cable (k : FaultKind) (x : Subject) (b : Bool) (d : Option (List Word16)) (s : State) :
    (post k x b d s).cable = s.cable := rfl
@[simp] theorem post_plans (k : FaultKind) (x : Subject) (b : Bool) (d : Option (List Word16)) (s : State) :
    (post k x b d s).plans = s.plans := rfl
@[simp] theorem post_seq (k : FaultKind) (x : Subject) (b : Bool) (d : Option (List Word16)) (s : State) :
    (post k x b d s).seq = s.seq := rfl
@[simp] theorem post_service (k : FaultKind) (x : Subject) (b : Bool) (d : Option (List Word16)) (s : State) :
    (post k x b d s).service = s.service := rfl
@[simp] theorem post_inputs (k : FaultKind) (x : Subject) (b : Bool) (d : Option (List Word16)) (s : State) :
    (post k x b d s).inputs = s.inputs := rfl
@[simp] theorem post_faults (k : FaultKind) (x : Subject) (b : Bool) (d : Option (List Word16)) (s : State) :
    (post k x b d s).faults = postRecord s.seq.clock k x b d s.faults := rfl

@[simp] theorem endFault_pending (k : FaultKind) (x : Subject) (s : State) :
    (endFault k x s).pending = s.pending := rfl
@[simp] theorem endFault_ports (k : FaultKind) (x : Subject) (s : State) :
    (endFault k x s).ports = s.ports := rfl
@[simp] theorem endFault_safety (k : FaultKind) (x : Subject) (s : State) :
    (endFault k x s).safety = s.safety := rfl
@[simp] theorem endFault_stages (k : FaultKind) (x : Subject) (s : State) :
    (endFault k x s).stages = s.stages := rfl
@[simp] theorem endFault_line (k : FaultKind) (x : Subject) (s : State) :
    (endFault k x s).line = s.line := rfl
@[simp] theorem endFault_engine (k : FaultKind) (x : Subject) (s : State) :
    (endFault k x s).engine = s.engine := rfl
@[simp] theorem endFault_proving (k : FaultKind) (x : Subject) (s : State) :
    (endFault k x s).proving = s.proving := rfl
@[simp] theorem endFault_cable (k : FaultKind) (x : Subject) (s : State) :
    (endFault k x s).cable = s.cable := rfl
@[simp] theorem endFault_plans (k : FaultKind) (x : Subject) (s : State) :
    (endFault k x s).plans = s.plans := rfl
@[simp] theorem endFault_seq (k : FaultKind) (x : Subject) (s : State) :
    (endFault k x s).seq = s.seq := rfl
@[simp] theorem endFault_service (k : FaultKind) (x : Subject) (s : State) :
    (endFault k x s).service = s.service := rfl
@[simp] theorem endFault_inputs (k : FaultKind) (x : Subject) (s : State) :
    (endFault k x s).inputs = s.inputs := rfl
@[simp] theorem endFault_faults (k : FaultKind) (x : Subject) (s : State) :
    (endFault k x s).faults = endRecord s.seq.clock k x s.faults := rfl

@[simp] theorem redetail_pending (k : FaultKind) (x : Subject) (d : List Word16) (s : State) :
    (redetail k x d s).pending = s.pending := rfl
@[simp] theorem redetail_ports (k : FaultKind) (x : Subject) (d : List Word16) (s : State) :
    (redetail k x d s).ports = s.ports := rfl
@[simp] theorem redetail_safety (k : FaultKind) (x : Subject) (d : List Word16) (s : State) :
    (redetail k x d s).safety = s.safety := rfl
@[simp] theorem redetail_stages (k : FaultKind) (x : Subject) (d : List Word16) (s : State) :
    (redetail k x d s).stages = s.stages := rfl
@[simp] theorem redetail_line (k : FaultKind) (x : Subject) (d : List Word16) (s : State) :
    (redetail k x d s).line = s.line := rfl
@[simp] theorem redetail_engine (k : FaultKind) (x : Subject) (d : List Word16) (s : State) :
    (redetail k x d s).engine = s.engine := rfl
@[simp] theorem redetail_proving (k : FaultKind) (x : Subject) (d : List Word16) (s : State) :
    (redetail k x d s).proving = s.proving := rfl
@[simp] theorem redetail_cable (k : FaultKind) (x : Subject) (d : List Word16) (s : State) :
    (redetail k x d s).cable = s.cable := rfl
@[simp] theorem redetail_plans (k : FaultKind) (x : Subject) (d : List Word16) (s : State) :
    (redetail k x d s).plans = s.plans := rfl
@[simp] theorem redetail_seq (k : FaultKind) (x : Subject) (d : List Word16) (s : State) :
    (redetail k x d s).seq = s.seq := rfl
@[simp] theorem redetail_service (k : FaultKind) (x : Subject) (d : List Word16) (s : State) :
    (redetail k x d s).service = s.service := rfl
@[simp] theorem redetail_inputs (k : FaultKind) (x : Subject) (d : List Word16) (s : State) :
    (redetail k x d s).inputs = s.inputs := rfl
@[simp] theorem redetail_faults (k : FaultKind) (x : Subject) (d : List Word16) (s : State) :
    (redetail k x d s).faults = redetailRecord k x d s.faults := rfl

@[simp] theorem recompose_pending (p : OutputId → Bool) (s : State) :
    (recompose p s).pending = s.pending := rfl
@[simp] theorem recompose_ports (p : OutputId → Bool) (s : State) :
    (recompose p s).ports = s.ports := rfl
@[simp] theorem recompose_safety (p : OutputId → Bool) (s : State) :
    (recompose p s).safety = s.safety := rfl
@[simp] theorem recompose_stages (p : OutputId → Bool) (s : State) :
    (recompose p s).stages = s.stages := rfl
@[simp] theorem recompose_line (p : OutputId → Bool) (s : State) :
    (recompose p s).line = s.line := rfl
@[simp] theorem recompose_engine (p : OutputId → Bool) (s : State) :
    (recompose p s).engine = s.engine := rfl
@[simp] theorem recompose_cable (p : OutputId → Bool) (s : State) :
    (recompose p s).cable = s.cable := rfl
@[simp] theorem recompose_plans (p : OutputId → Bool) (s : State) :
    (recompose p s).plans = s.plans := rfl
@[simp] theorem recompose_seq (p : OutputId → Bool) (s : State) :
    (recompose p s).seq = s.seq := rfl
@[simp] theorem recompose_service (p : OutputId → Bool) (s : State) :
    (recompose p s).service = s.service := rfl
@[simp] theorem recompose_inputs (p : OutputId → Bool) (s : State) :
    (recompose p s).inputs = s.inputs := rfl
@[simp] theorem recompose_faults (p : OutputId → Bool) (s : State) :
    (recompose p s).faults = s.faults := rfl

@[simp] theorem reexpose_pending (g : GroupId) (s : State) :
    (reexpose g s).pending = s.pending := rfl
@[simp] theorem reexpose_ports (g : GroupId) (s : State) :
    (reexpose g s).ports = s.ports := rfl
@[simp] theorem reexpose_safety (g : GroupId) (s : State) :
    (reexpose g s).safety = s.safety := rfl
@[simp] theorem reexpose_stages (g : GroupId) (s : State) :
    (reexpose g s).stages = s.stages := rfl
@[simp] theorem reexpose_line (g : GroupId) (s : State) :
    (reexpose g s).line = s.line := rfl
@[simp] theorem reexpose_engine (g : GroupId) (s : State) :
    (reexpose g s).engine = s.engine := rfl
@[simp] theorem reexpose_cable (g : GroupId) (s : State) :
    (reexpose g s).cable = s.cable := rfl
@[simp] theorem reexpose_plans (g : GroupId) (s : State) :
    (reexpose g s).plans = s.plans := rfl
@[simp] theorem reexpose_seq (g : GroupId) (s : State) :
    (reexpose g s).seq = s.seq := rfl
@[simp] theorem reexpose_service (g : GroupId) (s : State) :
    (reexpose g s).service = s.service := rfl
@[simp] theorem reexpose_inputs (g : GroupId) (s : State) :
    (reexpose g s).inputs = s.inputs := rfl
@[simp] theorem reexpose_faults (g : GroupId) (s : State) :
    (reexpose g s).faults = s.faults := rfl

@[simp] theorem reexposeAll_pending (s : State) :
    (reexposeAll s).pending = s.pending := rfl
@[simp] theorem reexposeAll_ports (s : State) :
    (reexposeAll s).ports = s.ports := rfl
@[simp] theorem reexposeAll_safety (s : State) :
    (reexposeAll s).safety = s.safety := rfl
@[simp] theorem reexposeAll_stages (s : State) :
    (reexposeAll s).stages = s.stages := rfl
@[simp] theorem reexposeAll_line (s : State) :
    (reexposeAll s).line = s.line := rfl
@[simp] theorem reexposeAll_engine (s : State) :
    (reexposeAll s).engine = s.engine := rfl
@[simp] theorem reexposeAll_cable (s : State) :
    (reexposeAll s).cable = s.cable := rfl
@[simp] theorem reexposeAll_plans (s : State) :
    (reexposeAll s).plans = s.plans := rfl
@[simp] theorem reexposeAll_seq (s : State) :
    (reexposeAll s).seq = s.seq := rfl
@[simp] theorem reexposeAll_service (s : State) :
    (reexposeAll s).service = s.service := rfl
@[simp] theorem reexposeAll_inputs (s : State) :
    (reexposeAll s).inputs = s.inputs := rfl
@[simp] theorem reexposeAll_faults (s : State) :
    (reexposeAll s).faults = s.faults := rfl

@[simp] theorem recompose_groups (p : OutputId → Bool) (s : State) :
    (recompose p s).proving.groups = s.proving.groups := rfl
@[simp] theorem reexpose_outputs (g : GroupId) (s : State) : (reexpose g s).proving.outputs = s.proving.outputs := rfl
@[simp] theorem reexposeAll_outputs (s : State) : (reexposeAll s).proving.outputs = s.proving.outputs := rfl

end Sys2Proof.Machine
end

