-- ==== Sys2Proof/Laws/Stays.lean ====
section
/-! SUPPORT. What every operation of a decision event leaves as it is, said once: the relation Stays, and for each
operation of Handover.lean and Sequencer.lean the one lemma that it holds. -/

namespace Sys2Proof.Machine

/-- What a decision event leaves: DecisionKeeps, the proving fields of every output but its commanded state, every red
status, and the service controller unless the part is handed over. -/
structure Stays (s t : State) : Prop extends DecisionKeeps s t where
  outputs : ∀ o : OutputId,
    t.proving.outputs[o] = { s.proving.outputs[o] with commanded := t.proving.outputs[o].commanded }
  reds : ∀ g : GroupId, t.proving.groups[g].red = s.proving.groups[g].red
  handed : t.service = s.service ∨ t.service.state = .handedOver

theorem Stays.refl (s : State) : Stays s s := by
  constructor
  · constructor <;> rfl
  · intro o; rfl
  · intro g; rfl
  · exact Or.inl rfl

theorem DecisionKeeps.trans {s t u : State} (a : DecisionKeeps s t) (b : DecisionKeeps t u) : DecisionKeeps s u := by
  constructor
  · rw [b.pending, a.pending]
  · rw [b.ports, a.ports]
  · rw [b.safety, a.safety]
  · rw [b.stages, a.stages]
  · rw [b.line, a.line]
  · rw [b.engine, a.engine]
  · rw [b.inputs, a.inputs]
  · rw [b.clock, a.clock]
  · rw [b.units, a.units]
  · rw [b.cards, a.cards]
  · rw [b.feeders, a.feeders]
  · rw [b.layout, a.layout]
  · rw [b.plans, a.plans]
  · rw [b.start, a.start]
  · rw [b.checkPeriod, a.checkPeriod]
  · rw [b.flsel, a.flsel]
  · rw [b.offer, a.offer]

theorem Stays.trans {s t u : State} (a : Stays s t) (b : Stays t u) : Stays s u := by
  refine ⟨a.toDecisionKeeps.trans b.toDecisionKeeps, ?_, ?_, ?_⟩
  · intro o; rw [b.outputs o, a.outputs o]
  · intro g; rw [b.reds g, a.reds g]
  · rcases b.handed with h | h
    · rw [h]; exact a.handed
    · exact Or.inr h

/-! ### Primitive changes -/

/-- A change of the sequencer that leaves its clock and unit count. -/
theorem stays_modSeq (s : State) (f : Sequencer → Sequencer) (hc : (f s.seq).clock = s.seq.clock)
    (hu : (f s.seq).units = s.seq.units) : Stays s (modSeq s f) := by
  refine ⟨?_, fun _ => rfl, fun _ => rfl, Or.inl rfl⟩
  constructor <;> first | rfl | assumption

theorem stays_modGroup (s : State) (g : GroupId) (f : GroupSeq → GroupSeq) : Stays s (modGroup s g f) := by
  refine ⟨?_, fun _ => rfl, fun _ => rfl, Or.inl rfl⟩
  constructor <;> rfl

theorem stays_post (k : FaultKind) (x : Subject) (b : Bool) (d : Option (List Word16)) (s : State) :
    Stays s (post k x b d s) := by
  refine ⟨?_, fun _ => rfl, fun _ => rfl, Or.inl rfl⟩
  constructor <;> rfl

theorem stays_endFault (k : FaultKind) (x : Subject) (s : State) : Stays s (endFault k x s) := by
  refine ⟨?_, fun _ => rfl, fun _ => rfl, Or.inl rfl⟩
  constructor <;> rfl

theorem stays_redetail (k : FaultKind) (x : Subject) (d : List Word16) (s : State) : Stays s (redetail k x d s) := by
  refine ⟨?_, fun _ => rfl, fun _ => rfl, Or.inl rfl⟩
  constructor <;> rfl

theorem stays_setInvestigation (i : InvSlot) (v : Option Investigation) (s : State) :
    Stays s (setInvestigation s i v) := by
  refine ⟨?_, fun _ => rfl, fun _ => rfl, Or.inl rfl⟩
  constructor <;> rfl

/-- A change of the plan memory's roles alone. -/
theorem stays_modPlans (s : State) (f : PlanMemory → PlanMemory) (hl : (f s.plans).layout = s.plans.layout)
    (hp : (f s.plans).plans = s.plans.plans) (hs : (f s.plans).start = s.plans.start) : Stays s (modPlans s f) := by
  refine ⟨?_, fun _ => rfl, fun _ => rfl, Or.inl rfl⟩
  constructor <;> first | rfl | assumption

theorem stays_recompose (p : OutputId → Bool) (s : State) : Stays s (recompose p s) := by
  refine ⟨?_, ?_, fun _ => rfl, Or.inl rfl⟩
  · constructor <;> rfl
  · intro o
    simp only [recompose, vgen_get]
    split <;> rfl

theorem stays_reexpose (g : GroupId) (s : State) : Stays s (reexpose g s) := by
  refine ⟨?_, fun _ => rfl, ?_, Or.inl rfl⟩
  · constructor <;> rfl
  · intro h
    simp only [reexpose, modGroupProof, vmod_get]
    split <;> rfl

theorem stays_reexposeAll (s : State) : Stays s (reexposeAll s) := by
  refine ⟨?_, fun _ => rfl, ?_, Or.inl rfl⟩
  · constructor <;> rfl
  · intro h
    simp only [reexposeAll, vgen_get]

/-- An operation done for each of a list of numbers. -/
theorem stays_eachOf {α : Type} (xs : List α) (f : α → State → State) (h : ∀ x u, Stays u (f x u)) (s : State) :
    Stays s (eachOf xs f s) := by
  unfold eachOf
  induction xs generalizing s with
  | nil => exact Stays.refl s
  | cons x xs ih => exact (h x s).trans (ih (f x s))

/-! ### Handover.lean -/

theorem stays_abandonSlot (i : InvSlot) (s : State) : Stays s (abandonSlot i s) := by
  unfold abandonSlot
  split
  · exact (stays_endFault _ _ s).trans (stays_setInvestigation i none _)
  · exact Stays.refl s

theorem stays_abandonAll (s : State) : Stays s (abandonAll s) := stays_eachOf _ _ stays_abandonSlot s

theorem stays_postUnproven (o : OutputId) (s : State) : Stays s (postUnproven o s) := stays_post _ _ _ _ s

theorem stays_postAllUnproven (s : State) : Stays s (postAllUnproven s) := by
  refine stays_eachOf _ _ (fun o u => ?_) s
  split
  · exact stays_postUnproven o u
  · exact Stays.refl u

theorem stays_handoverBlocks (s : State) : Stays s (handoverBlocks s) := by
  unfold handoverBlocks
  refine Stays.trans (t := modPlans (modSeq (driveHold false (modService s fun r =>
    { r with state := .handedOver, start := none, vouch := none, twoKey := none })) sequencerStopped) fun p =>
      { p with active := none, pending := none }) ?_ ((stays_recompose _ _).trans (stays_reexposeAll _))
  refine ⟨?_, fun _ => rfl, fun _ => rfl, Or.inr rfl⟩
  constructor <;> rfl

/-- A handover leaves everything that R156 keeps. -/
theorem stays_handover (c : Cause) (d : List Word16) (s : State) : Stays s (handover c d s) := by
  unfold handover
  split
  · exact Stays.refl s
  · exact (stays_handoverBlocks s).trans ((stays_abandonAll _).trans ((stays_post _ _ _ _ _).trans
      (stays_postAllUnproven _)))

theorem stays_conflictCheck (s : State) : Stays s (conflictCheck s) := by
  unfold conflictCheck
  split
  · exact Stays.refl s
  · split
    · exact stays_handover _ _ s
    · exact Stays.refl s

/-! ### Sequencer.lean -/

theorem stays_setAspect (g : GroupId) (a : Aspect) (s : State) : Stays s (setAspect g a s) :=
  (stays_modGroup s g _).trans ((stays_recompose _ _).trans (stays_reexpose g _))

theorem stays_endGreen (g : GroupId) (s : State) : Stays s (endGreen g s) := by
  unfold endGreen
  simp only
  split
  · exact (stays_setAspect g _ s).trans (stays_modGroup _ g _)
  · split <;> exact (stays_setAspect g _ s).trans (stays_modGroup _ g _)

theorem stays_schedule (g : GroupId) (s : State) : Stays s (schedule g s) := stays_modGroup s g _

theorem stays_tryRedAmber (g : GroupId) (s : State) : Stays s (tryRedAmber g s) := by
  unfold tryRedAmber
  split
  · exact (stays_setAspect g _ s).trans (stays_modGroup _ g _)
  · exact Stays.refl s

theorem stays_tryGreen (g : GroupId) (s : State) : Stays s (tryGreen g s) := by
  unfold tryGreen
  split
  · exact (stays_setAspect g _ s).trans ((stays_modGroup _ g _).trans (stays_conflictCheck _))
  · exact Stays.refl s

theorem stays_tryGreens (s : State) : Stays s (tryGreens s) := stays_eachOf _ _ stays_tryGreen s

theorem stays_startStep (n : StepNo) (s : State) : Stays s (startStep n s) := by
  unfold startStep
  split
  · exact stays_modSeq s _ rfl rfl
  · exact Stays.refl s

theorem stays_callIntoService (n : StageId) (s : State) : Stays s (callIntoService n s) := by
  unfold callIntoService
  split
  · exact stays_modSeq s _ rfl rfl
  · exact Stays.refl s

theorem stays_takeTransfer (s : State) : Stays s (takeTransfer s) := by
  unfold takeTransfer
  split
  · exact (stays_modPlans s _ rfl rfl rfl).trans (stays_modSeq _ _ rfl rfl)
  · exact Stays.refl s

theorem stays_postOverrun (t : Target) (x : Set16) (s : State) : Stays s (postOverrun t x s) := by
  unfold postOverrun
  split
  · split
    · exact stays_post _ _ _ _ s
    · exact Stays.refl s
  · exact Stays.refl s

theorem stays_holdResume (t : Target) (b : Bool) (s : State) : Stays s (holdResume t b s) := by
  unfold holdResume
  split
  · split
    · split
      · exact stays_modSeq s _ rfl rfl
      · exact Stays.refl s
    · exact stays_modSeq s _ rfl rfl
  · exact Stays.refl s

theorem stays_runInterstage (t : Target) (s : State) : Stays s (runInterstage t s) := by
  unfold runInterstage
  refine (stays_modSeq s (enterInterstage t) rfl rfl).trans
    (Stays.trans (stays_eachOf all16 _ (fun g u => ?_) _)
      (Stays.trans (stays_eachOf all16 _ (fun g u => ?_) _)
        ((stays_eachOf all16 _ stays_tryRedAmber _).trans (stays_tryGreens _))))
  · split
    · exact stays_endGreen g u
    · exact Stays.refl u
  · split
    · exact stays_schedule g u
    · exact Stays.refl u

theorem stays_complete (t : Target) (s : State) : Stays s (complete t s) := by
  unfold complete
  refine (stays_modSeq s (fun q => { q with phase := .stage, current := targetSet s t, target := none }) rfl rfl).trans
    ?_
  cases t with
  | s0 => exact stays_modSeq _ _ rfl rfl
  | step n g =>
    exact (stays_startStep n _).trans ((stays_modSeq _ _ rfl rfl).trans (stays_callIntoService g _))
  | call g => exact (stays_modSeq _ _ rfl rfl).trans (stays_callIntoService g _)

theorem stays_completeResidual (s : State) : Stays s (completeResidual s) := stays_modSeq s _ rfl rfl

theorem stays_settle (decide : State → State) (h : ∀ u, Stays u (decide u)) (s : State) :
    Stays s (settle decide s) := by
  unfold settle
  split
  · split
    · split
      · simp only
        split
        · exact (stays_complete _ s).trans (h _)
        · exact stays_complete _ s
      · exact Stays.refl s
    · split
      · exact (stays_completeResidual s).trans (h _)
      · exact Stays.refl s
  · exact Stays.refl s

theorem stays_takeStep (n : StepNo) (g : StageId) (s : State) : Stays s (takeStep n g s) := by
  unfold takeStep
  simp only
  split
  · exact (stays_takeTransfer s).trans ((stays_startStep n _).trans
      ((stays_modSeq _ _ rfl rfl).trans (stays_callIntoService g _)))
  · exact (stays_startStep n _).trans ((stays_modSeq _ _ rfl rfl).trans (stays_callIntoService g _))

theorem stays_terminate (t : Target) (x : Set16) (s : State) : Stays s (terminate t x s) := by
  unfold terminate
  refine (stays_postOverrun t x s).trans ?_
  cases t with
  | s0 => exact stays_runInterstage _ _
  | call n => exact stays_runInterstage _ _
  | step n g =>
    simp only
    split
    · exact (stays_takeTransfer _).trans (stays_runInterstage _ _)
    · exact stays_runInterstage _ _

theorem stays_decideOnce (next : State → State) (h : ∀ u, Stays u (next u)) (s : State) :
    Stays s (decideOnce next s) := by
  unfold decideOnce
  split
  · simp only
    split
    · split
      · exact stays_handover _ _ s
      · exact Stays.refl s
    · rename_i t _
      refine (stays_holdResume t (barredSet s s.seq.current) s).trans ?_
      split
      · split
        · split
          · exact stays_takeStep _ _ _
          · exact Stays.refl _
        · exact Stays.refl _
      · split
        · exact (stays_terminate t _ _).trans (stays_settle next h _)
        · exact Stays.refl _
  · exact Stays.refl s

theorem stays_decideUpTo (n : Nat) (s : State) : Stays s (decideUpTo n s) := by
  induction n generalizing s with
  | zero => exact Stays.refl s
  | succ k ih => exact stays_decideOnce _ ih s

/-- A decision leaves everything that R137 does not name. -/
theorem stays_decision (s : State) : Stays s (decision s) := stays_decideUpTo 8 s

theorem stays_settled (s : State) : Stays s (settled s) := stays_settle _ stays_decision s

theorem stays_exposureChanged (s : State) : Stays s (exposureChanged s) :=
  (stays_conflictCheck s).trans ((stays_tryGreens _).trans (stays_settled _))

theorem stays_recomputeBars (s : State) : Stays s (recomputeBars s) := stays_modSeq s _ rfl rfl

theorem stays_resumeAfterBar (t : Target) (s : State) : Stays s (resumeAfterBar t s) := by
  unfold resumeAfterBar
  split
  · exact stays_modSeq s _ rfl rfl
  · exact Stays.refl s

theorem stays_withdrawGroup (g : GroupId) (s : State) : Stays s (withdrawGroup g s) := by
  unfold withdrawGroup
  split
  · exact (stays_setAspect g _ s).trans (stays_modGroup _ g _)
  · exact Stays.refl s

theorem stays_endFacing (s : State) : Stays s (endFacing s) := by
  refine stays_eachOf all16 _ (fun g u => ?_) s
  split
  · exact stays_endGreen g u
  · exact Stays.refl u

theorem stays_withdraw (t : Target) (s : State) : Stays s (withdraw t s) := by
  unfold withdraw
  exact (stays_eachOf all16 _ stays_withdrawGroup s).trans ((stays_endFacing _).trans
    ((stays_resumeAfterBar t _).trans (stays_modSeq _ _ rfl rfl)))

/-- A change of red status handed to the sequencer leaves what a decision leaves (R145). -/
theorem stays_redStatusChanged (s : State) : Stays s (redStatusChanged s) := by
  unfold redStatusChanged
  refine (stays_recomputeBars s).trans ?_
  simp only
  split
  · split
    · exact stays_decision _
    · exact Stays.refl _
  · split
    · refine Stays.trans ?_ (stays_settled _)
      split
      · exact stays_withdraw _ _
      · exact stays_endFacing _
    · exact (stays_endFacing _).trans (stays_settled _)
  · exact Stays.refl _

end Sys2Proof.Machine
end

