-- ==== Sys2Proof/Laws/Table.lean ====
section
/-! SUPPORT. The fault table's operations, each with the one lemma that it keeps the table's invariant; and what finding a
record, replacing one and judging the lines do. -/

set_option linter.unusedSimpArgs false

namespace Sys2Proof.Machine

/-! ### Finding and replacing -/

theorem modRecord_get (t : FaultTable) (i j : SlotId) (f : Record → Record) :
    (modRecord t i f).slots[j] = if i = j then t.slots[j].map f else t.slots[j] := by
  simp only [modRecord, vmod_get]

theorem findRecord_some {t : FaultTable} {k : FaultKind} {x : Subject} {i : SlotId} (h : findRecord t k x = some i) :
    ∃ r, t.slots[i] = some r ∧ r.kind = k ∧ r.subject = x := by
  have := List.find?_some h
  revert this
  cases e : t.slots[i] with
  | none => simp
  | some r => simp

theorem findRecord_none {t : FaultTable} {k : FaultKind} {x : Subject} (h : findRecord t k x = none) (i : SlotId)
    (r : Record) (e : t.slots[i] = some r) : ¬(r.kind = k ∧ r.subject = x) := by
  have := List.find?_eq_none.mp h i (List.mem_finRange i)
  simpa [e] using this

theorem freeSlot_some {t : FaultTable} {i : SlotId} (h : freeSlot t = some i) : t.slots[i] = none := by
  have := List.find?_some h
  cases e : t.slots[i] with
  | none => rfl
  | some r => simp [e] at this

theorem mem_asNewest (order : List SlotId) (i j : SlotId) : j ∈ asNewest order i ↔ j ∈ order ∨ j = i := by
  by_cases h : j = i <;> simp [asNewest, h]

theorem nodup_asNewest (order : List SlotId) (i : SlotId) (h : order.Nodup) : (asNewest order i).Nodup := by
  unfold asNewest
  rw [List.nodup_append]
  refine ⟨h.filter _, by simp, ?_⟩
  intro a ha b hb
  simp at ha hb
  rw [hb]
  exact ha.2

/-! ### Judging the lines -/

@[simp] theorem judgeLine_slots (t : FaultTable) (l : Link) : (judgeLine t l).slots = t.slots := rfl
@[simp] theorem judgeLine_order (t : FaultTable) (l : Link) : (judgeLine t l).order = t.order := rfl
@[simp] theorem judgeLine_overflow (t : FaultTable) (l : Link) : (judgeLine t l).overflow = t.overflow := rfl
@[simp] theorem judgeLines_slots (t : FaultTable) : (judgeLines t).slots = t.slots := rfl
@[simp] theorem judgeLines_order (t : FaultTable) : (judgeLines t).order = t.order := rfl
@[simp] theorem judgeLines_overflow (t : FaultTable) : (judgeLines t).overflow = t.overflow := rfl

/-- Judging a line changes no condition (R195). -/
theorem attentionDue_judgeLine (t : FaultTable) (l k : Link) : attentionDue (judgeLine t k) l = attentionDue t l := by
  cases l <;> cases k <;> rfl

theorem attentionDue_judgeLines (t : FaultTable) (l : Link) : attentionDue (judgeLines t) l = attentionDue t l := by
  unfold judgeLines
  rw [attentionDue_judgeLine, attentionDue_judgeLine]

/-- A judged line is as the condition gives it (R195). -/
theorem judgeLine_line (t : FaultTable) (l : Link) :
    ((judgeLine t l).attention.get l) =
      { t.attention.get l with line := attentionDue t l && !(t.attention.get l).released } := by
  cases l <;> rfl

theorem judgeLine_other (t : FaultTable) (l : Link) :
    (judgeLine t l).attention.get (otherLink l) = t.attention.get (otherLink l) := by
  cases l <;> rfl

theorem judgeLines_attention (t : FaultTable) (l : Link) :
    ((judgeLines t).attention.get l) =
      { t.attention.get l with line := attentionDue t l && !(t.attention.get l).released } := by
  cases l <;> rfl

/-! ### The slots' part of the invariant -/

/-- A record but for its having been settled by R188 and R189. -/
structure RecordMost (r : Record) : Prop where
  level : r.level = levelOf r.kind r.subject
  unread : ¬(r.active = false ∧ r.seen.plan = true ∧ r.seen.check = true)
  count : 1 ≤ r.count ∧ r.count ≤ 255

/-- The fault table's invariant but for its lines. -/
structure SlotsOk (t : FaultTable) : Prop where
  one :
    ∀ (i j : SlotId) (r q : Record),
      t.slots[i] = some r → t.slots[j] = some q → r.kind = q.kind → r.subject = q.subject → i = j
  held : ∀ i : SlotId, i ∈ t.order ↔ t.slots[i].isSome = true
  once : t.order.Nodup
  records : ∀ (i : SlotId) (r : Record), t.slots[i] = some r → RecordOk r

/-- The same but for the settling of one slot's record. -/
structure SlotsBut (i : SlotId) (t : FaultTable) : Prop where
  one :
    ∀ (i j : SlotId) (r q : Record),
      t.slots[i] = some r → t.slots[j] = some q → r.kind = q.kind → r.subject = q.subject → i = j
  held : ∀ i : SlotId, i ∈ t.order ↔ t.slots[i].isSome = true
  once : t.order.Nodup
  records : ∀ (j : SlotId) (r : Record), j ≠ i → t.slots[j] = some r → RecordOk r
  most : ∀ r, t.slots[i] = some r → RecordMost r

theorem RecordOk.most {r : Record} (h : RecordOk r) : RecordMost r := ⟨h.level, h.unread, h.count⟩

theorem SlotsOk.but {t : FaultTable} (h : SlotsOk t) (i : SlotId) : SlotsBut i t :=
  ⟨h.one, h.held, h.once, fun j r _ e => h.records j r e, fun r e => (h.records i r e).most⟩

theorem TableOk.slots {t : FaultTable} (h : TableOk t) : SlotsOk t := ⟨h.one, h.held, h.once, h.records⟩

/-- A record replaced by one of its kind and subject, its slot perhaps made the newest. -/
theorem SlotsBut.replaced {t : FaultTable} {i : SlotId} (h : SlotsBut i t) (f : Record → Record) (order : List SlotId)
    (hk : ∀ r, t.slots[i] = some r → (f r).kind = r.kind ∧ (f r).subject = r.subject ∧ RecordMost (f r))
    (ho : order = t.order ∨ order = asNewest t.order i ∧ t.slots[i].isSome = true) :
    SlotsBut i { modRecord t i f with order := order } := by
  have mem : ∀ j : SlotId, j ∈ order ↔ j ∈ t.order := by
    intro j
    rcases ho with rfl | ⟨rfl, hs⟩
    · exact Iff.rfl
    · rw [mem_asNewest]
      constructor
      · rintro (a | rfl)
        · exact a
        · exact (h.held j).mpr hs
      · exact Or.inl
  have get : ∀ j : SlotId, ({ modRecord t i f with order := order } : FaultTable).slots[j] =
      if i = j then t.slots[j].map f else t.slots[j] := fun j => modRecord_get t i j f
  have src : ∀ (j : SlotId) (q : Record), ({ modRecord t i f with order := order } : FaultTable).slots[j] = some q →
      ∃ r, t.slots[j] = some r ∧ r.kind = q.kind ∧ r.subject = q.subject ∧ (j ≠ i → r = q) ∧
        (j = i → RecordMost q) := by
    intro j q e
    rw [get] at e
    by_cases c : i = j
    · subst c
      simp only [if_true] at e
      cases er : t.slots[i] with
      | none => simp [er] at e
      | some r =>
        simp only [er, Option.map_some, Option.some.injEq] at e
        subst e
        obtain ⟨a, b, m⟩ := hk r er
        exact ⟨r, rfl, a.symm, b.symm, fun n => absurd rfl n, fun _ => m⟩
    · simp only [c, if_false] at e
      exact ⟨q, e, rfl, rfl, fun _ => rfl, fun n => absurd n.symm c⟩
  constructor
  · intro a b r q ea eb ek es
    obtain ⟨r', ea', k1, s1, _⟩ := src a r ea
    obtain ⟨q', eb', k2, s2, _⟩ := src b q eb
    exact h.one a b r' q' ea' eb' (by rw [k1, k2, ek]) (by rw [s1, s2, es])
  · intro j
    rw [get, mem j, h.held j]
    by_cases c : i = j <;> simp [c]
  · rcases ho with e | ⟨e, _⟩
    · exact e ▸ h.once
    · exact e ▸ nodup_asNewest _ _ h.once
  · intro j q n e
    obtain ⟨r, er, _, _, eq, _⟩ := src j q e
    exact eq n ▸ h.records j r n er
  · intro q e
    obtain ⟨_, _, _, _, _, m⟩ := src i q e
    exact m rfl

/-- Settling a slot's record restores the invariant (R188, R189). -/
theorem SlotsBut.settled {t : FaultTable} {i : SlotId} (h : SlotsBut i t) (clock : Nat) :
    SlotsOk (settleRecord clock i t) := by
  unfold settleRecord
  cases e : t.slots[i] with
  | none =>
    exact ⟨h.one, h.held, h.once, fun j r er => h.records j r (fun c => by subst c; simp [e] at er) er⟩
  | some r =>
    simp only
    by_cases c : clearsNow r = true
    · simp only [c, if_true]
      have b := h.replaced (fun r => { r with active := false, lastTime := clock, seen := ⟨false, false⟩ })
        (asNewest t.order i)
        (fun q eq => ⟨rfl, rfl, ⟨(h.most q eq).level, by simp, (h.most q eq).count⟩⟩)
        (Or.inr ⟨rfl, by simp [e]⟩)
      refine ⟨b.one, b.held, b.once, fun j q eq => ?_⟩
      by_cases n : j = i
      · subst n
        have m := b.most q eq
        refine ⟨m.level, ?_, m.unread, m.count⟩
        have : q = { r with active := false, lastTime := clock, seen := ⟨false, false⟩ } := by
          have := modRecord_get t j j fun r => { r with active := false, lastTime := clock, seen := ⟨false, false⟩ }
          simp only [if_true, e, Option.map_some] at this
          exact (Option.some.inj (this.symm.trans eq)).symm
        rw [this]
        simp [clearsNow]
      · exact b.records j q n eq
    · simp only [c, if_false, Bool.false_eq_true]
      refine ⟨h.one, h.held, h.once, fun j q eq => ?_⟩
      by_cases n : j = i
      · subst n
        have : q = r := Option.some.inj (eq.symm.trans e)
        subst this
        have m := h.most q eq
        exact ⟨m.level, by simpa using c, m.unread, m.count⟩
      · exact h.records j q n eq

/-- The end of a slot's condition keeps the invariant (R188). -/
theorem SlotsBut.ended {t : FaultTable} {i : SlotId} (h : SlotsBut i t) (clock : Nat) :
    SlotsOk (endSlot clock i t) := by
  refine SlotsBut.settled (h.replaced _ t.order (fun r e => ?_) (Or.inl rfl)) clock
  have m := h.most r e
  by_cases c : r.active = true
  · simp only [c, if_true, true_and]
    exact ⟨m.level, by simp [c], m.count⟩
  · simp only [c, if_false, Bool.false_eq_true, true_and]
    exact m

/-- Judging both lines after any change of the slots gives the whole invariant. -/
theorem SlotsOk.judged {t : FaultTable} (h : SlotsOk t) : TableOk (judgeLines t) := by
  refine ⟨h.one, h.held, h.once, h.records, fun l => ?_⟩
  rw [attentionDue_judgeLines, judgeLines_attention]

/-! ### The operations -/

/-- The slot for a new record holds, if anything, a record of another kind or subject. -/
theorem SlotsOk.inserted {t : FaultTable} (h : SlotsOk t) (i : SlotId) (q : Record) (m : RecordMost q)
    (free : ∀ (j : SlotId) (r : Record), t.slots[j] = some r → ¬(r.kind = q.kind ∧ r.subject = q.subject)) :
    SlotsBut i { t with slots := t.slots.set i (some q), order := asNewest t.order i } := by
  have get : ∀ j : SlotId, (t.slots.set i (some q))[j] = if i = j then some q else t.slots[j] := fun j => vset_get _ i j _
  constructor
  · intro a b r p ea eb ek es
    simp only [get] at ea eb
    by_cases ca : i = a <;> by_cases cb : i = b
    · rw [← ca, ← cb]
    · simp only [ca, cb, if_true, if_false, Option.some.injEq] at ea eb
      rw [if_neg (ca ▸ cb)] at eb
      exact absurd ⟨by rw [← ek, ea], by rw [← es, ea]⟩ (free b p eb)
    · simp only [ca, cb, if_true, if_false, Option.some.injEq] at ea eb
      rw [if_neg (cb ▸ ca)] at ea
      exact absurd ⟨by rw [ek, eb], by rw [es, eb]⟩ (free a r ea)
    · simp only [ca, cb, if_false] at ea eb
      exact h.one a b r p ea eb ek es
  · intro j
    simp only [get, mem_asNewest]
    by_cases c : i = j
    · simp [c]
    · have : j ≠ i := fun e => c e.symm
      simp [c, this, h.held j]
  · exact nodup_asNewest _ _ h.once
  · intro j r n e
    simp only [get] at e
    rw [if_neg (fun c => n c.symm)] at e
    exact h.records j r e
  · intro r e
    simp only [get, if_true, Option.some.injEq] at e
    exact e ▸ m

/-- A posting keeps the fault table's invariant (R186, R187, R191). -/
theorem TableOk.post {t : FaultTable} (h : TableOk t) (clock : Nat) (k : FaultKind) (x : Subject) (latched : Bool)
    (detail : Option (List Word16)) : TableOk (postRecord clock k x latched detail t) := by
  unfold postRecord
  simp only
  cases e : findRecord t k x with
  | some i =>
    simp only
    apply SlotsOk.judged
    obtain ⟨r0, e0, _, _⟩ := findRecord_some e
    have b : SlotsBut i { modRecord t i (reoccurred clock latched detail) with order := asNewest t.order i } := by
      refine (h.slots.but i).replaced _ _ (fun r er => ⟨rfl, rfl, ?_⟩) (Or.inr ⟨rfl, by simp [e0]⟩)
      have m := h.records i r er
      refine ⟨m.level, by simp [reoccurred], ?_⟩
      simp only [reoccurred]
      omega
    by_cases c : endsAtPosting k = true
    · simp only [c, if_true]
      exact b.ended clock
    · simp only [c, if_false, Bool.false_eq_true]
      refine ⟨b.one, b.held, b.once, fun j q eq => ?_⟩
      by_cases n : j = i
      · subst n
        have m := b.most q eq
        refine ⟨m.level, ?_, m.unread, m.count⟩
        have g := modRecord_get t j j (reoccurred clock latched detail)
        simp only [if_true, e0, Option.map_some] at g
        have : q = reoccurred clock latched detail r0 := (Option.some.inj (g.symm.trans eq)).symm
        rw [this]
        simp [clearsNow, reoccurred]
      · exact b.records j q n eq
  | none =>
    simp only
    cases c : slotForNew t (levelOf k x) with
    | none =>
      exact ⟨h.one, h.held, h.once, h.records, h.line⟩
    | some i =>
      simp only
      apply SlotsOk.judged
      have b : SlotsBut i
          { t with
            slots := t.slots.set i (some (newRecord clock k x latched (detail.getD [])))
            order := asNewest t.order i } :=
        h.slots.inserted i _ ⟨rfl, by simp [newRecord], by simp [newRecord]⟩
          (fun j r er => findRecord_none e j r er)
      by_cases c : endsAtPosting k = true
      · simp only [c, if_true]
        exact b.ended clock
      · simp only [c, if_false, Bool.false_eq_true]
        refine ⟨b.one, b.held, b.once, fun j q eq => ?_⟩
        by_cases n : j = i
        · subst n
          have m := b.most q eq
          refine ⟨m.level, ?_, m.unread, m.count⟩
          have g := vset_get t.slots j j (some (newRecord clock k x latched (detail.getD [])))
          simp only [if_true] at g
          have : q = newRecord clock k x latched (detail.getD []) := (Option.some.inj (g.symm.trans eq)).symm
          rw [this]
          simp [clearsNow, newRecord]
        · exact b.records j q n eq

/-- The end of a condition keeps the fault table's invariant (R188). -/
theorem TableOk.ended {t : FaultTable} (h : TableOk t) (clock : Nat) (k : FaultKind) (x : Subject) :
    TableOk (endRecord clock k x t) := by
  unfold endRecord
  split
  · exact SlotsOk.judged ((h.slots.but _).ended clock)
  · exact h

/-- What the attention condition reads of the slots: which records are unseen, and their levels. -/
theorem attentionDue_congr (t u : FaultTable) (l : Link) (ha : (u.attention.get l).threshold = (t.attention.get l).threshold)
    (h : ∀ i : SlotId, u.slots[i].map (fun r => (r.seen.get l, r.level)) =
      t.slots[i].map fun r => (r.seen.get l, r.level)) : attentionDue u l = attentionDue t l := by
  unfold attentionDue
  congr 1
  funext i
  have := h i
  cases e : u.slots[i] <;> cases e' : t.slots[i] <;> simp_all

/-- A detail replaced keeps the fault table's invariant (R188). -/
theorem TableOk.redetailed {t : FaultTable} (h : TableOk t) (k : FaultKind) (x : Subject) (d : List Word16) :
    TableOk (redetailRecord k x d t) := by
  unfold redetailRecord
  split
  · rename_i i e
    obtain ⟨r0, e0, _, _⟩ := findRecord_some e
    have b : SlotsBut i { modRecord t i (fun r => { r with detail := d }) with order := t.order } :=
      (h.slots.but i).replaced _ _
        (fun r er => ⟨rfl, rfl, ⟨(h.records i r er).level, (h.records i r er).unread, (h.records i r er).count⟩⟩)
        (Or.inl rfl)
    refine ⟨b.one, b.held, b.once, fun j q eq => ?_, fun l => ?_⟩
    · by_cases n : j = i
      · subst n
        have g := modRecord_get t j j fun r => { r with detail := d }
        simp only [if_true, e0, Option.map_some] at g
        have : q = { r0 with detail := d } := (Option.some.inj (g.symm.trans eq)).symm
        rw [this]
        have m := h.records j r0 e0
        exact ⟨m.level, m.settled, m.unread, m.count⟩
      · exact b.records j q n eq
    · have : attentionDue (modRecord t i fun r => { r with detail := d }) l = attentionDue t l := by
        refine attentionDue_congr _ _ l rfl fun j => ?_
        rw [modRecord_get]
        split
        · cases t.slots[j] <;> rfl
        · rfl
      rw [this]
      exact h.line l
  · exact h

/-- A clear mark set keeps the fault table's invariant (R190, R189). -/
theorem TableOk.cleared {t : FaultTable} (h : TableOk t) (clock : Nat) (l : Link) (i : SlotId) :
    TableOk (clearSlot clock l i t) := by
  have b : SlotsBut i { modRecord t i (fun r => { r with clear := r.clear.set l true }) with order := t.order } := by
    refine (h.slots.but i).replaced _ t.order (fun r e => ⟨rfl, rfl, ?_⟩) (Or.inl rfl)
    have m := h.records i r e
    exact ⟨m.level, m.unread, m.count⟩
  exact SlotsOk.judged (b.settled clock)

/-- A slot made free keeps the slots' invariant (R193). -/
theorem SlotsBut.removed {t : FaultTable} {i : SlotId} (h : SlotsBut i t) : SlotsOk (removeSlot i t) := by
  have get : ∀ j : SlotId, (t.slots.set i none)[j] = if i = j then none else t.slots[j] := fun j => vset_get _ i j _
  constructor
  · intro a b r q ea eb ek es
    simp only [removeSlot, get] at ea eb
    by_cases ca : i = a <;> by_cases cb : i = b
    · rw [← ca, ← cb]
    · simp [ca] at ea
    · simp [cb] at eb
    · simp only [ca, cb, if_false] at ea eb
      exact h.one a b r q ea eb ek es
  · intro j
    simp only [removeSlot, get, List.mem_filter, bne_iff_ne, ne_eq]
    by_cases c : i = j
    · simp [c]
    · have : ¬j = i := fun e => c e.symm
      simp [c, this, h.held j]
  · exact h.once.filter _
  · intro j r e
    simp only [removeSlot, get] at e
    by_cases c : i = j
    · simp [c] at e
    · simp only [c, if_false] at e
      exact h.records j r (fun n => c n.symm) e

/-- A seen mark set, with R193, keeps the slots' invariant (R192, R193). -/
theorem SlotsOk.seen {t : FaultTable} (h : SlotsOk t) (l : Link) (i : SlotId) : SlotsOk (seeSlot l i t) := by
  unfold seeSlot
  simp only
  have get := modRecord_get t i i fun r => { r with seen := r.seen.set l true }
  cases e : t.slots[i] with
  | none =>
    have g : (modRecord t i fun r => { r with seen := r.seen.set l true }).slots[i] = none := by
      rw [get]; simp [e]
    rw [g]
    simp only
    have same : vmod t.slots i (Option.map fun r => { r with seen := r.seen.set l true }) = t.slots := by
      unfold vmod
      rw [e]
      simp only [Option.map_none]
      rw [← e]
      exact Vector.set_getElem_self i.isLt
    have : modRecord t i (fun r => { r with seen := r.seen.set l true }) = t := by
      unfold modRecord
      rw [same]
    rw [this]
    exact h
  | some r =>
    have g : (modRecord t i fun r => { r with seen := r.seen.set l true }).slots[i] =
        some { r with seen := r.seen.set l true } := by
      rw [get]; simp [e]
    rw [g]
    simp only
    have m := h.records i r e
    by_cases c : (!r.active && (r.seen.set l true).plan && (r.seen.set l true).check) = true
    · simp only [c, if_true]
      have b : SlotsBut i t := h.but i
      have : removeSlot i (modRecord t i fun r => { r with seen := r.seen.set l true }) = removeSlot i t := by
        unfold removeSlot modRecord vmod
        simp
      rw [this]
      exact b.removed
    · simp only [c, if_false, Bool.false_eq_true]
      have c' : ¬(r.active = false ∧ (r.seen.set l true).plan = true ∧ (r.seen.set l true).check = true) := by
        intro ⟨a, b, d⟩
        exact c (by simp [a, b, d])
      have b : SlotsBut i { modRecord t i (fun r => { r with seen := r.seen.set l true }) with order := t.order } := by
        refine (h.but i).replaced _ _ (fun q eq => ⟨rfl, rfl, ?_⟩) (Or.inl rfl)
        have : q = r := Option.some.inj (eq.symm.trans e)
        subst this
        exact ⟨m.level, c', m.count⟩
      refine ⟨b.one, b.held, b.once, fun j q eq => ?_⟩
      by_cases n : j = i
      · subst n
        have : q = { r with seen := r.seen.set l true } := (Option.some.inj (g.symm.trans eq)).symm
        rw [this]
        exact ⟨m.level, m.settled, c', m.count⟩
      · exact b.records j q n eq

/-- READ NEXT NOTICE's release of a line keeps the invariant (R195). -/
theorem SlotsOk.released {t : FaultTable} (h : SlotsOk t) (l : Link) : TableOk (releaseLine l t) :=
  SlotsOk.judged ⟨h.one, h.held, h.once, h.records⟩

/-- A line judged alone after its own threshold or release has changed keeps the invariant (R195, R196). -/
theorem TableOk.judgedOne {t : FaultTable} (h : TableOk t) (l : Link) (a : Attention) :
    TableOk (judgeLine { t with attention := t.attention.set l a } l) := by
  refine ⟨h.one, h.held, h.once, h.records, fun k => ?_⟩
  have due : attentionDue { t with attention := t.attention.set l a } (otherLink l) = attentionDue t (otherLink l) := by
    cases l <;> rfl
  have own := h.line (otherLink l)
  by_cases c : k = l
  · subst c
    rw [attentionDue_judgeLine, judgeLine_line]
  · have e : k = otherLink l := by cases k <;> cases l <;> first | rfl | exact absurd rfl c
    subst e
    rw [attentionDue_judgeLine, judgeLine_other, due]
    simpa using own

/-- The end of a line's release keeps the invariant (R195). -/
theorem TableOk.releaseEnded {t : FaultTable} (h : TableOk t) (l : Link) : TableOk (endRelease l t) := h.judgedOne l _

/-- The emptied table has the invariant (R197). -/
theorem emptyTable_ok (t : FaultTable) : TableOk (emptyTable t) := by
  refine SlotsOk.judged ⟨?_, ?_, List.nodup_nil, ?_⟩
  · intro i j r q e; simp at e
  · intro i; simp
  · intro i r e; simp at e

end Sys2Proof.Machine
end

