-- ==== Sys2Proof/Laws/Handover.lean ====
section
/-! SUPPORT. What composing and exposure read, the part's invariant without the conflict check, and that a handover and a
conflict check restore the whole of it. -/

set_option linter.unusedSimpArgs false

namespace Sys2Proof.Machine

/-! ### What the derived values read -/

theorem activeTable_congr {s t : State} (h : t.safety.active = s.safety.active) : activeTable t = activeTable s := by
  unfold activeTable; rw [h]

theorem outRec_congr {s t : State} (h : t.safety.active = s.safety.active) (o : OutputId) : outRec t o = outRec s o := by
  unfold outRec; rw [activeTable_congr h]

theorem conflict_congr {s t : State} (h : t.safety.active = s.safety.active) (l g : GroupId) :
    conflict t l g = conflict s l g := by
  unfold conflict; rw [activeTable_congr h]

theorem conflict_symm (s : State) (l g : GroupId) : conflict s l g = conflict s g l := by
  unfold conflict conflictIn; exact Bool.and_comm _ _

/-- A commanded state reads the service state, the trip of its card, the active table and its group's aspect (R66). -/
theorem commandOf_congr {s t : State} (hs : t.service.state = s.service.state) (hc : t.cable.cards = s.cable.cards)
    (ha : t.safety.active = s.safety.active)
    (hg : ∀ g : GroupId, t.seq.groups[g].aspect = s.seq.groups[g].aspect) (o : OutputId) :
    commandOf t o = commandOf s o := by
  have e := hg (outRec s o).group
  unfold commandOf
  simp only [hs, hc, outRec_congr ha o, e]

/-- An exposure reads the service state, its group's aspect, the active table and the proving states (R79). -/
theorem exposedNow_congr {s t : State} (hs : t.service.state = s.service.state)
    (ha : t.safety.active = s.safety.active) (g : GroupId) (hg : t.seq.groups[g].aspect = s.seq.groups[g].aspect)
    (ho : ∀ o : OutputId, t.proving.outputs[o].state = s.proving.outputs[o].state) : exposedNow t g = exposedNow s g := by
  have serve : ∀ o, serves t o g .green = serves s o g .green := by
    intro o; unfold serves; rw [outRec_congr ha]
  unfold exposedNow
  rw [hs, hg]
  congr 2
  funext o
  rw [serve, ho o]

/-- The bar set reads the stage table, the active table and the red statuses (R145). -/
theorem barsNow_congr {s t : State} (hn : t.stages = s.stages) (ha : t.safety.active = s.safety.active)
    (hr : ∀ g : GroupId, t.proving.groups[g].red = s.proving.groups[g].red) : barsNow t = barsNow s := by
  unfold barsNow barredSet facesLoss
  simp only [hn, conflict_congr ha, hr]

theorem BarsFresh.congr {s t : State} (h : BarsFresh s) (e : t.seq.bars = s.seq.bars) (hn : t.stages = s.stages)
    (ha : t.safety.active = s.safety.active)
    (hr : ∀ g : GroupId, t.proving.groups[g].red = s.proving.groups[g].red) : BarsFresh t :=
  e.trans (h.trans (barsNow_congr hn ha hr).symm)

/-- An operation of a decision event that leaves the bar set leaves it as R145 gives it. -/
theorem BarsFresh.stays {s t : State} (h : BarsFresh s) (k : Stays s t) (e : t.seq.bars = s.seq.bars) : BarsFresh t :=
  h.congr e k.stages (congrArg SafetyUnit.active k.safety) k.reds

/-- In HANDED_OVER every output is composed OFF (R66). -/
theorem commandOf_handedOver {s : State} (h : s.service.state = .handedOver) (o : OutputId) : commandOf s o = false := by
  unfold commandOf; simp [h]

/-- In the aspect GREEN outside HANDED_OVER a group is exposed (R79). -/
theorem exposedNow_green {s : State} {g : GroupId} (h : s.seq.groups[g].aspect = .green)
    (hs : s.service.state ≠ .handedOver) : exposedNow s g = true := by
  unfold exposedNow
  simp only [h, beq_self_eq_true, Bool.true_and]
  have : (s.service.state != .handedOver) = true := by simpa using hs
  simp [this]

/-! ### The exposed pair (R80) -/

theorem all16_mem (g : Fin 16) : g ∈ all16 := List.mem_finRange g

/-- With no exposed pair no two conflicting groups are exposed. -/
theorem apart_of_noPair {s : State} (h : exposedPair s = none) (l g : GroupId) (n : l ≠ g)
    (c : conflict s l g = true) : ¬(s.proving.groups[l].exposed = true ∧ s.proving.groups[g].exposed = true) := by
  have key : ∀ a b : GroupId, a < b → conflict s a b = true →
      ¬(s.proving.groups[a].exposed = true ∧ s.proving.groups[b].exposed = true) := by
    intro a b lt cab ⟨ea, eb⟩
    have := List.find?_eq_none.mp h (a, b)
      (List.mem_flatMap.mpr ⟨a, all16_mem a, List.mem_map.mpr ⟨b, all16_mem b, rfl⟩⟩)
    simp only [cab, ea, eb] at this
    simp [lt] at this
  rcases Nat.lt_or_gt_of_ne (fun e => n (Fin.ext e)) with lt | lt
  · exact key l g lt c
  · rintro ⟨el, eg⟩
    exact key g l lt (conflict_symm s l g ▸ c) ⟨eg, el⟩

/-! ### The invariant of the part, part by part -/

/-- The outputs that meet a test are commanded as R66 composes them. A card that trips, or leaves its trip, has its outputs
recomposed one after another (R75), and the test holds for those done. -/
def CommandsOn (Q : OutputId → Prop) (s : State) : Prop :=
  ∀ o : OutputId, Q o → s.proving.outputs[o].commanded = commandOf s o

/-- The part's invariant, with the composed commands of the outputs that meet a test alone. -/
structure PartOn (Q : OutputId → Prop) (s : State) : Prop where
  outputs : OutputsFollow s
  service : ServiceOk s
  roles : RolesReady s
  calls : CallsOk s
  greens : GreensApart s
  commands : CommandsOn Q s
  table : TableOk s.faults
  investigations : InvestigationsOk s
  patterns : PatternsOk s
  bars : BarsFresh s

/-- The same but for the conflict check of R80. -/
structure PartBut (Q : OutputId → Prop) (s : State) : Prop where
  outputs : OutputsFollow s
  service : ServiceOk s
  roles : RolesReady s
  calls : CallsOk s
  fresh : ∀ g : GroupId, s.proving.groups[g].exposed = exposedNow s g
  live : ∀ g : GroupId, s.seq.groups[g].aspect = .green → s.service.state ≠ .handedOver
  commands : CommandsOn Q s
  table : TableOk s.faults
  investigations : InvestigationsOk s
  patterns : PatternsOk s
  bars : BarsFresh s

variable {Q : OutputId → Prop}

theorem PartOk.on {s : State} (h : PartOk s) : PartOn Q s :=
  ⟨h.outputs, h.service, h.roles, h.calls, h.greens, fun o _ => h.commands o, h.table, h.investigations, h.patterns, h.bars⟩

theorem PartOn.all {s : State} (h : PartOn Q s) (q : ∀ o, Q o) : PartOk s :=
  ⟨h.outputs, h.service, h.roles, h.calls, h.greens, fun o => h.commands o (q o), h.table, h.investigations,
    h.patterns, h.bars⟩

theorem PartOk.whole {s : State} (h : PartOk s) : PartOn (fun _ => True) s := h.on

theorem PartOn.ok {s : State} (h : PartOn (fun _ => True) s) : PartOk s := h.all fun _ => trivial

theorem PartOn.mono {s : State} {P : OutputId → Prop} (h : PartOn Q s) (q : ∀ o, P o → Q o) : PartOn P s :=
  ⟨h.outputs, h.service, h.roles, h.calls, h.greens, fun o p => h.commands o (q o p), h.table, h.investigations,
    h.patterns, h.bars⟩

theorem PartOn.but {s : State} (h : PartOn Q s) : PartBut Q s :=
  ⟨h.outputs, h.service, h.roles, h.calls, h.greens.fresh, h.greens.service, h.commands, h.table, h.investigations,
    h.patterns, h.bars⟩

theorem PartBut.ok {s : State} (h : PartBut Q s)
    (apart : s.service.state ≠ .handedOver →
      ∀ l g : GroupId, l ≠ g → conflict s l g = true →
        ¬(s.proving.groups[l].exposed = true ∧ s.proving.groups[g].exposed = true)) : PartOn Q s :=
  ⟨h.outputs, h.service, h.roles, h.calls, ⟨h.fresh, h.live, apart⟩, h.commands, h.table, h.investigations,
    h.patterns, h.bars⟩

/-- What the blocks hold in a service state reads the service controller, the plan memory and the sequencer alone. -/
theorem ServiceOk.congr {s t : State} (h : ServiceOk s) (e : t.service = s.service) (p : t.plans = s.plans)
    (q : t.seq = s.seq) : ServiceOk t := by
  constructor
  · rw [e, p, q]; exact h.stopped
  · rw [e, p, q]; exact h.starting
  · rw [e, q]; exact h.serving
  · rw [e, p]; exact h.active
  · rw [e]; exact h.timed

/-! ### The fault table's operations on the whole part -/

theorem PartOn.post {s : State} (h : PartOn Q s) (k : FaultKind) (x : Subject) (b : Bool) (d : Option (List Word16)) :
    PartOn Q (post k x b d s) :=
  ⟨h.outputs, h.service.congr rfl rfl rfl, h.roles, h.calls,
    ⟨h.greens.fresh, h.greens.service, h.greens.apart⟩, h.commands, h.table.post _ k x b d, h.investigations,
    h.patterns, h.bars⟩

theorem PartOn.endFault {s : State} (h : PartOn Q s) (k : FaultKind) (x : Subject) : PartOn Q (endFault k x s) :=
  ⟨h.outputs, h.service.congr rfl rfl rfl, h.roles, h.calls,
    ⟨h.greens.fresh, h.greens.service, h.greens.apart⟩, h.commands, h.table.ended _ k x, h.investigations, h.patterns, h.bars⟩

theorem PartOn.redetail {s : State} (h : PartOn Q s) (k : FaultKind) (x : Subject) (d : List Word16) :
    PartOn Q (redetail k x d s) :=
  ⟨h.outputs, h.service.congr rfl rfl rfl, h.roles, h.calls,
    ⟨h.greens.fresh, h.greens.service, h.greens.apart⟩, h.commands, h.table.redetailed k x d, h.investigations,
    h.patterns, h.bars⟩

/-- Table operations alone, for a state that has no more than a sound table. -/
theorem table_post (k : FaultKind) (x : Subject) (b : Bool) (d : Option (List Word16)) (s : State)
    (h : TableOk s.faults) : TableOk (Machine.post k x b d s).faults := TableOk.post h _ k x b d

theorem table_abandonSlot (i : InvSlot) (s : State) (h : TableOk s.faults) : TableOk (abandonSlot i s).faults := by
  unfold abandonSlot
  split
  · exact h.ended _ _ _
  · exact h

/-- An invariant kept by an operation is kept by doing it for each of a list. -/
theorem eachOf_keeps {α : Type} {P : State → Prop} (xs : List α) (f : α → State → State)
    (h : ∀ x u, P u → P (f x u)) (s : State) (hs : P s) : P (eachOf xs f s) := by
  unfold eachOf
  induction xs generalizing s with
  | nil => exact hs
  | cons x xs ih => exact ih (f x s) (h x s hs)

theorem table_abandonAll (s : State) (h : TableOk s.faults) : TableOk (abandonAll s).faults :=
  eachOf_keeps (P := fun u => TableOk u.faults) _ _ (fun i u hu => table_abandonSlot i u hu) s h

theorem table_postAllUnproven (s : State) (h : TableOk s.faults) : TableOk (postAllUnproven s).faults := by
  refine eachOf_keeps (P := fun u => TableOk u.faults) _ _ (fun o u hu => ?_) s h
  split
  · exact hu.post _ _ _ _ _
  · exact hu

/-- Abandoning every investigation leaves only the table and the investigations changed, and no slot open (R102). -/
theorem abandonAll_eq (s : State) :
    abandonAll s =
      { s with
        faults := (abandonAll s).faults
        cable := { s.cable with investigations := (abandonAll s).cable.investigations } } := by
  refine eachOf_keeps (P := fun u => u = { s with faults := u.faults, cable := { s.cable with investigations := u.cable.investigations } })
    _ _ (fun i u hu => ?_) s rfl
  unfold abandonSlot
  split
  · rw [hu]; rfl
  · exact hu

theorem abandonSlot_free (i j : InvSlot) (s : State) (h : i = j ∨ s.cable.investigations[j] = none) :
    (abandonSlot i s).cable.investigations[j] = none := by
  unfold abandonSlot
  split
  · simp only [setInvestigation, endFault, vset_get]
    rcases h with h | h
    · simp [h]
    · split
      · rfl
      · exact h
  · rename_i e
    rcases h with h | h
    · exact h ▸ e
    · exact h

theorem abandonAll_free (s : State) (j : InvSlot) : (abandonAll s).cable.investigations[j] = none := by
  have : ∀ (xs : List InvSlot) (u : State), j ∈ xs ∨ u.cable.investigations[j] = none →
      (eachOf xs abandonSlot u).cable.investigations[j] = none := by
    intro xs
    induction xs with
    | nil =>
      rintro u (h | h)
      · simp at h
      · exact h
    | cons x xs ih =>
      intro u h
      refine ih (abandonSlot x u) ?_
      rcases h with h | h
      · rcases List.mem_cons.mp h with e | m
        · exact Or.inr (abandonSlot_free x j u (Or.inl e.symm))
        · exact Or.inl m
      · exact Or.inr (abandonSlot_free x j u (Or.inr h))
  exact this _ s (Or.inl (List.mem_finRange j))

/-- Posting for the outputs in LIT_UNWANTED leaves only the table changed (R159). -/
theorem postAllUnproven_eq (s : State) : postAllUnproven s = { s with faults := (postAllUnproven s).faults } := by
  refine eachOf_keeps (P := fun u => u = { s with faults := u.faults }) _ _ (fun o u hu => ?_) s rfl
  split
  · rw [hu]; rfl
  · exact hu

/-! ### Handovers -/

theorem vext {α : Type} {n : Nat} {v w : Vector α n} (h : ∀ i : Fin n, v[i] = w[i]) : v = w :=
  Vector.ext fun i hi => h ⟨i, hi⟩

theorem groupStopped_idem (u v : Nat) (r : GroupSeq) : groupStopped v (groupStopped u r) = groupStopped u r := by
  simp [groupStopped]

theorem sequencerStopped_idem (q : Sequencer) : sequencerStopped (sequencerStopped q) = sequencerStopped q := by
  have : (vgen fun g : GroupId =>
      { groupStopped (sequencerStopped q).units (sequencerStopped q).groups[g] with hold := 0 }) =
      (sequencerStopped q).groups := by
    apply vext
    intro g
    rw [vgen_get]
    simp only [sequencerStopped, vgen_get]
    simp [groupStopped]
  unfold sequencerStopped at this ⊢
  simp only at this ⊢
  rw [this]

theorem handoverBlocks_faults (s : State) : (handoverBlocks s).faults = s.faults := by
  simp [handoverBlocks, recomposeAll, driveHold, judgeFeedback]

theorem postAllUnproven_cable (s : State) : (postAllUnproven s).cable = s.cable := by
  have h := postAllUnproven_eq s
  generalize (postAllUnproven s).faults = F at h
  rw [h]

/-- What a handover leaves, but for the fault table and the abandoned investigations (R156). -/
theorem handover_eq (c : Cause) (d : List Word16) (s : State) (h : s.service.state ≠ .handedOver) :
    handover c d s =
      { handoverBlocks s with
        faults := (handover c d s).faults
        cable := { s.cable with investigations := (handover c d s).cable.investigations } } := by
  have e : (s.service.state == .handedOver) = false := by simpa using h
  unfold handover
  simp only [e, if_false, Bool.false_eq_true]
  generalize hu : Machine.post .handover (.cause c) (causeLatched c)
    (some (d ++ [word (stateCode s.service.state)])) (abandonAll (handoverBlocks s)) = u
  have h1 := postAllUnproven_eq u
  have h2 := abandonAll_eq (handoverBlocks s)
  generalize (postAllUnproven u).faults = F at h1
  rw [h1]
  generalize abandonAll (handoverBlocks s) = v at h2 hu
  rw [← hu]
  generalize v.cable.investigations = I at h2
  rw [h2]
  rfl

theorem handover_free (c : Cause) (d : List Word16) (s : State) (h : s.service.state ≠ .handedOver) (j : InvSlot) :
    (handover c d s).cable.investigations[j] = none := by
  have e : (s.service.state == .handedOver) = false := by simpa using h
  unfold handover
  simp only [e, if_false, Bool.false_eq_true]
  simp only [postAllUnproven_cable, post_cable]
  exact abandonAll_free _ j

theorem handover_table (c : Cause) (d : List Word16) (s : State) (h : TableOk s.faults) :
    TableOk (handover c d s).faults := by
  unfold handover
  split
  · exact h
  · have a : TableOk (handoverBlocks s).faults := by rw [handoverBlocks_faults]; exact h
    exact table_postAllUnproven _ (table_post _ _ _ _ _ (table_abandonAll _ a))

theorem handover_seq (c : Cause) (d : List Word16) (s : State) (h : s.service.state ≠ .handedOver) :
    (handover c d s).seq = sequencerStopped s.seq := by
  rw [handover_eq c d s h]; rfl

theorem handover_plans (c : Cause) (d : List Word16) (s : State) (h : s.service.state ≠ .handedOver) :
    (handover c d s).plans = { s.plans with active := none, pending := none } := by
  rw [handover_eq c d s h]; rfl

/-- After a handover the state is HANDED_OVER, whatever it was. -/
theorem handover_state (c : Cause) (d : List Word16) (s : State) : (handover c d s).service.state = .handedOver := by
  by_cases h : s.service.state = .handedOver
  · have : handover c d s = s := by unfold handover; simp [h]
    rw [this, h]
  · rw [handover_eq c d s h]; rfl

/-- A handover in HANDED_OVER is not taken (R155). -/
theorem handover_same (c : Cause) (d : List Word16) (s : State) (h : s.service.state = .handedOver) :
    handover c d s = s := by unfold handover; simp [h]

/-- A handover taken gives the whole invariant, from a sound table, FLSEL and pattern list alone (R156). -/
theorem handover_ok (c : Cause) (d : List Word16) (s : State) (h : s.service.state ≠ .handedOver)
    (hf : s.service.flsel = (match s.safety.active with | some t => t.aspect | none => .dark)) (ht : TableOk s.faults)
    (hp : PatternsOk s) (hb : BarsFresh s) : PartOk (handover c d s) := by
  have st := handover_state c d s
  have sq := handover_seq c d s h
  have pl := handover_plans c d s h
  have k := stays_handover c d s
  have eq := handover_eq c d s h
  have asp : ∀ g : GroupId, (handover c d s).seq.groups[g].aspect = .red := by
    intro g; rw [sq]; simp only [sequencerStopped, vgen_get]; rfl
  constructor
  · constructor
    · rw [st, eq]; rfl
    · rw [k.flsel, k.safety]; exact hf
  · constructor
    · intro _
      refine ⟨by rw [sq]; exact sequencerStopped_idem _, by rw [pl], by rw [pl], ?_, ?_, ?_⟩ <;> rw [eq] <;> rfl
    · intro e; rw [st] at e; cases e
    · intro e; rw [st] at e; cases e
    · intro e; exact absurd st e
    · rw [st]; exact ⟨nofun, nofun, fun e => absurd rfl e⟩
  · intro p e
    simp [planInUse, pl] at e
  · constructor
    · rw [sq]; simp [sequencerStopped]
    · rw [sq]; simp [sequencerStopped]
  · constructor
    · intro g
      have e : (handover c d s).proving = (handoverBlocks s).proving := by rw [eq]
      rw [e]
      have : (handoverBlocks s).proving.groups[g].exposed =
          exposedNow (recomposeAll (modPlans (modSeq (driveHold false (modService s fun r =>
            { r with state := .handedOver, start := none, vouch := none, twoKey := none })) sequencerStopped) fun p =>
              { p with active := none, pending := none })) g := by
        unfold handoverBlocks
        simp only [reexposeAll, vgen_get]
      rw [this]
      refine exposedNow_congr ?_ ?_ g ?_ ?_
      · rw [st]; rfl
      · rw [k.safety]; rfl
      · rw [sq]; rfl
      · intro o
        rw [e]
        rfl
    · intro g e; rw [asp g] at e; cases e
    · intro e; exact absurd st e
  · intro o
    rw [commandOf_handedOver st]
    have e : (handover c d s).proving = (handoverBlocks s).proving := by rw [eq]
    rw [e]
    unfold handoverBlocks
    simp only [reexposeAll, recomposeAll, recompose, vgen_get, if_true]
    exact commandOf_handedOver rfl o
  · exact handover_table c d s ht
  · intro i j v w e
    rw [handover_free c d s h i] at e; cases e
  · unfold PatternsOk; rw [k.line]; exact hp
  · exact hb.stays k (by rw [sq]; rfl)

theorem PartOn.handover {s : State} (h : PartOn Q s) (c : Cause) (d : List Word16) : PartOn Q (handover c d s) := by
  by_cases e : s.service.state = .handedOver
  · rw [handover_same c d s e]; exact h
  · exact (handover_ok c d s e h.outputs.2 h.table h.patterns h.bars).on

/-- The conflict check restores the whole invariant (R80). -/
theorem PartBut.checked {s : State} (h : PartBut Q s) : PartOn Q (conflictCheck s) := by
  unfold conflictCheck
  split
  · rename_i e
    exact h.ok fun n => absurd (by simpa using e) n
  · rename_i e
    split
    · exact (handover_ok _ _ s (by simpa using e) h.outputs.2 h.table h.patterns h.bars).on
    · rename_i p
      exact h.ok fun _ l g n c => apart_of_noPair p l g n c

end Sys2Proof.Machine
end

