-- ==== Sys2Proof/Laws/Sequencer.lean ====
section
/-! SUPPORT. The sequencer's operations, each with the one lemma that it keeps the part's invariant. -/

set_option linter.unusedSimpArgs false

namespace Sys2Proof.Machine

variable {Q : OutputId → Prop}

/-! ### The invariant in SERVICE, whatever the phase -/

/-- The part's invariant in SERVICE, but for the phase and the conflict check. -/
structure LiveBut (Q : OutputId → Prop) (s : State) : Prop where
  state : s.service.state = .service
  outputs : OutputsFollow s
  active : s.service.offer = none ∧ s.plans.active.isSome
  timed : s.service.start = none ∧ s.service.vouch.isSome
  roles : RolesReady s
  calls : CallsOk s
  fresh : ∀ g : GroupId, s.proving.groups[g].exposed = exposedNow s g
  commands : CommandsOn Q s
  table : TableOk s.faults
  investigations : InvestigationsOk s
  patterns : PatternsOk s
  bars : BarsFresh s

/-- The same with the conflict check's outcome. -/
structure Live (Q : OutputId → Prop) (s : State) : Prop extends LiveBut Q s where
  apart : ∀ l g : GroupId, l ≠ g → conflict s l g = true →
    ¬(s.proving.groups[l].exposed = true ∧ s.proving.groups[g].exposed = true)

theorem LiveBut.but {s : State} (h : LiveBut Q s) (p : s.seq.phase = .interstage ∨ s.seq.phase = .stage) : PartBut Q s := by
  have n : s.service.state ≠ .handedOver := by rw [h.state]; decide
  exact ⟨h.outputs,
    ⟨fun e => absurd e n, fun e => (by rw [h.state] at e; cases e), fun _ => p, fun _ => h.active,
      ⟨fun e => (by rw [h.state] at e; cases e), fun _ => h.timed.1, fun _ => h.timed.2⟩⟩, h.roles, h.calls,
    h.fresh, fun _ _ => n, h.commands, h.table, h.investigations, h.patterns, h.bars⟩

theorem Live.ok {s : State} (h : Live Q s) (p : s.seq.phase = .interstage ∨ s.seq.phase = .stage) : PartOn Q s :=
  (h.toLiveBut.but p).ok fun _ => h.apart

theorem PartOn.live {s : State} (h : PartOn Q s) (e : s.service.state = .service) : Live Q s := by
  have n : s.service.state ≠ .handedOver := by rw [e]; decide
  exact ⟨⟨e, h.outputs, h.service.active n, ⟨h.service.timed.2.1 e, h.service.timed.2.2 n⟩, h.roles, h.calls,
    h.greens.fresh, h.commands, h.table, h.investigations, h.patterns, h.bars⟩, h.greens.apart n⟩

/-- Outside SERVICE no group is anything but RED at rest. -/
theorem PartOn.rest {s : State} (h : PartOn Q s) (n : s.service.state ≠ .service) (g : GroupId) :
    groupStopped s.seq.units s.seq.groups[g] = s.seq.groups[g] := by
  cases e : s.service.state with
  | service => exact absurd e n
  | starting => exact (h.service.starting e).2.2 g
  | handedOver =>
    have st := (h.service.stopped e).1
    have : (sequencerStopped s.seq).groups[g] = s.seq.groups[g] := by rw [st]
    simp only [sequencerStopped, vgen_get] at this
    rw [← this]
    simp [groupStopped]

theorem PartOn.service_of_greenAt {s : State} (h : PartOn Q s) (g : GroupId) (e : s.seq.groups[g].greenAt ≠ none) :
    s.service.state = .service := by
  by_cases c : s.service.state = .service
  · exact c
  · exact absurd (by rw [← h.rest c g]; rfl) e

theorem PartOn.service_of_redAmberAt {s : State} (h : PartOn Q s) (g : GroupId) (e : s.seq.groups[g].redAmberAt ≠ none) :
    s.service.state = .service := by
  by_cases c : s.service.state = .service
  · exact c
  · exact absurd (by rw [← h.rest c g]; rfl) e

theorem PartOn.service_of_endAt {s : State} (h : PartOn Q s) (g : GroupId) (e : s.seq.groups[g].endAt ≠ none) :
    s.service.state = .service := by
  by_cases c : s.service.state = .service
  · exact c
  · exact absurd (by rw [← h.rest c g]; rfl) e

/-- Outside SERVICE the phase is neither INTERSTAGE nor STAGE. -/
theorem PartOn.service_of_phase {s : State} (h : PartOn Q s) (p : s.seq.phase = .interstage ∨ s.seq.phase = .stage) :
    s.service.state = .service := by
  cases e : s.service.state with
  | service => rfl
  | starting =>
    have := (h.service.starting e).1
    rw [this] at p
    rcases p with p | p <;> cases p
  | handedOver =>
    have := (h.service.stopped e).1
    rw [← this] at p
    rcases p with p | p <;> cases p

theorem PartOn.phase {s : State} (h : PartOn Q s) (e : s.service.state = .service) :
    s.seq.phase = .interstage ∨ s.seq.phase = .stage := h.service.serving e

/-! ### Changes of the sequencer that keep every aspect -/

theorem LiveBut.modSeq {s : State} (h : LiveBut Q s) (f : Sequencer → Sequencer)
    (hg : ∀ g : GroupId, (f s.seq).groups[g].aspect = s.seq.groups[g].aspect)
    (hc : (f s.seq).calls.length ≤ 4 ∧ ((f s.seq).calls.map (·.stage)).Nodup)
    (hb : (f s.seq).bars = s.seq.bars := by rfl) : LiveBut Q (modSeq s f) := by
  refine ⟨h.state, h.outputs, h.active, h.timed, h.roles, hc, fun g => ?_, fun o => ?_, h.table, h.investigations,
    h.patterns, hb.trans h.bars⟩
  · rw [exposedNow_congr (s := s) (t := Machine.modSeq s f) rfl rfl g (hg g) fun _ => rfl]
    exact h.fresh g
  · rw [commandOf_congr (s := s) (t := Machine.modSeq s f) rfl rfl rfl hg o]
    exact h.commands o

theorem Live.modSeq {s : State} (h : Live Q s) (f : Sequencer → Sequencer)
    (hg : ∀ g : GroupId, (f s.seq).groups[g].aspect = s.seq.groups[g].aspect)
    (hc : (f s.seq).calls.length ≤ 4 ∧ ((f s.seq).calls.map (·.stage)).Nodup)
    (hb : (f s.seq).bars = s.seq.bars := by rfl) : Live Q (modSeq s f) :=
  ⟨h.toLiveBut.modSeq f hg hc hb, h.apart⟩

/-- A state that differs in the sequencer alone, with the same aspects and bars, keeps the invariant with its calls. -/
theorem Live.ofSeq {s t : State} (h : Live Q s) (e : t = { s with seq := t.seq })
    (hg : ∀ g : GroupId, t.seq.groups[g].aspect = s.seq.groups[g].aspect) (hc : CallsOk t)
    (hb : t.seq.bars = s.seq.bars := by rfl) : Live Q t := by
  have k : t = Machine.modSeq s fun _ => t.seq := e
  rw [k]
  exact h.modSeq _ hg hc hb

theorem modGroup_aspect (s : State) (g : GroupId) (f : GroupSeq → GroupSeq) (hf : ∀ r, (f r).aspect = r.aspect)
    (k : GroupId) : (modGroup s g f).seq.groups[k].aspect = s.seq.groups[k].aspect := by
  simp only [modGroup_seq, vmod_get]
  split
  · exact hf _
  · rfl

theorem LiveBut.modGroup {s : State} (h : LiveBut Q s) (g : GroupId) (f : GroupSeq → GroupSeq)
    (hf : ∀ r, (f r).aspect = r.aspect) : LiveBut Q (modGroup s g f) :=
  h.modSeq (fun q => { q with groups := vmod q.groups g f }) (modGroup_aspect s g f hf) h.calls

theorem Live.modGroup {s : State} (h : Live Q s) (g : GroupId) (f : GroupSeq → GroupSeq)
    (hf : ∀ r, (f r).aspect = r.aspect) : Live Q (modGroup s g f) := ⟨h.toLiveBut.modGroup g f hf, h.apart⟩

/-- The same over a record of one group's timers, its aspect kept. -/
theorem Live.group {s t : State} (h : Live Q s) (g : GroupId) (f : GroupSeq → GroupSeq)
    (hf : ∀ r, (f r).aspect = r.aspect) (e : t = Machine.modGroup s g f) : Live Q t := e ▸ h.modGroup g f hf

theorem CallsOk.filter {s : State} (h : CallsOk s) (p : Call → Bool) :
    (s.seq.calls.filter p).length ≤ 4 ∧ ((s.seq.calls.filter p).map (·.stage)).Nodup :=
  ⟨Nat.le_trans (List.length_filter_le _ _) h.1, h.2.sublist (List.filter_sublist.map _)⟩

/-! ### Aspects (R127) -/

theorem setAspect_aspect (g : GroupId) (a : Aspect) (s : State) (k : GroupId) :
    (setAspect g a s).seq.groups[k].aspect = if g = k then a else s.seq.groups[k].aspect := by
  simp only [setAspect, reexpose_seq, recompose_seq, modGroup_seq, vmod_get]
  split <;> rfl

@[simp] theorem setAspect_phase (g : GroupId) (a : Aspect) (s : State) :
    (setAspect g a s).seq.phase = s.seq.phase := by simp [setAspect]
@[simp] theorem setAspect_calls (g : GroupId) (a : Aspect) (s : State) :
    (setAspect g a s).seq.calls = s.seq.calls := by simp [setAspect]
@[simp] theorem setAspect_bars (g : GroupId) (a : Aspect) (s : State) :
    (setAspect g a s).seq.bars = s.seq.bars := by simp [setAspect]
@[simp] theorem setAspect_service (g : GroupId) (a : Aspect) (s : State) :
    (setAspect g a s).service = s.service := by simp [setAspect]
@[simp] theorem setAspect_safety (g : GroupId) (a : Aspect) (s : State) :
    (setAspect g a s).safety = s.safety := by simp [setAspect]
@[simp] theorem setAspect_plans (g : GroupId) (a : Aspect) (s : State) :
    (setAspect g a s).plans = s.plans := by simp [setAspect]
@[simp] theorem setAspect_cable (g : GroupId) (a : Aspect) (s : State) :
    (setAspect g a s).cable = s.cable := by simp [setAspect]
@[simp] theorem setAspect_faults (g : GroupId) (a : Aspect) (s : State) :
    (setAspect g a s).faults = s.faults := by simp [setAspect]
@[simp] theorem setAspect_line (g : GroupId) (a : Aspect) (s : State) :
    (setAspect g a s).line = s.line := by simp [setAspect]

/-- The exposures after an aspect change: the group's own recomputed, the others kept (R79). -/
theorem setAspect_exposed (g : GroupId) (a : Aspect) (s : State) (k : GroupId) :
    (setAspect g a s).proving.groups[k].exposed =
      if g = k then exposedNow (setAspect g a s) k else s.proving.groups[k].exposed := by
  have e : (setAspect g a s).proving.groups[k].exposed =
      if g = k then exposedNow (recompose (fun o => (outRec s o).group == g)
        (modGroup s g fun r =>
          { r with
            aspect := a
            greenStart := if a == .green && r.aspect != .green then some s.seq.units else r.greenStart
            lastEnd := if r.aspect == .green && a != .green then some s.seq.units else r.lastEnd })) g
      else s.proving.groups[k].exposed := by
    have oc : ∀ o, outRec (modGroup s g fun r =>
          { r with
            aspect := a
            greenStart := if a == .green && r.aspect != .green then some s.seq.units else r.greenStart
            lastEnd := if r.aspect == .green && a != .green then some s.seq.units else r.lastEnd }) o = outRec s o :=
      fun o => rfl
    simp only [setAspect, reexpose, modGroupProof, vmod_get, oc]
    split <;> rfl
  rw [e]
  split
  · rename_i c
    subst c
    refine (exposedNow_congr ?_ ?_ g ?_ fun o => ?_).symm
    · simp
    · simp
    · simp [setAspect]
    · rfl
  · rfl

theorem fresh_setAspect {s : State} (h : ∀ g : GroupId, s.proving.groups[g].exposed = exposedNow s g) (g : GroupId)
    (a : Aspect) (k : GroupId) :
    (setAspect g a s).proving.groups[k].exposed = exposedNow (setAspect g a s) k := by
  rw [setAspect_exposed]
  split
  · rfl
  · rename_i c
    rw [h k]
    refine (exposedNow_congr (by simp) (by simp) k ?_ fun o => ?_).symm
    · rw [setAspect_aspect, if_neg c]
    · rw [(stays_setAspect g a s).outputs o]

theorem commands_setAspect {s : State} (h : CommandsOn Q s) (g : GroupId) (a : Aspect) :
    CommandsOn Q (setAspect g a s) := by
  intro o q
  have out : (setAspect g a s).proving.outputs[o].commanded =
      if (outRec s o).group == g then commandOf (setAspect g a s) o else s.proving.outputs[o].commanded := by
    have e : (setAspect g a s).proving.outputs[o] =
        (recompose (fun o => (outRec s o).group == g)
          (modGroup s g fun r =>
            { r with
              aspect := a
              greenStart := if a == .green && r.aspect != .green then some s.seq.units else r.greenStart
              lastEnd := if r.aspect == .green && a != .green then some s.seq.units else r.lastEnd })).proving.outputs[o] := by
      have oc : ∀ o, outRec (modGroup s g fun r =>
            { r with
              aspect := a
              greenStart := if a == .green && r.aspect != .green then some s.seq.units else r.greenStart
              lastEnd := if r.aspect == .green && a != .green then some s.seq.units else r.lastEnd }) o = outRec s o :=
        fun o => rfl
      simp only [setAspect, reexpose_outputs, oc]
    rw [e]
    simp only [recompose, vgen_get]
    split
    · refine (commandOf_congr ?_ ?_ ?_ ?_ o).symm
      · simp
      · simp
      · simp
      · intro k; simp [setAspect]
    · rfl
  rw [out]
  split
  · rfl
  · rename_i c
    rw [h o q]
    have ne : ¬(g = (outRec s o).group) := by
      intro e; exact c (by simp [e])
    have asp := setAspect_aspect g a s (outRec s o).group
    rw [if_neg ne] at asp
    have or : outRec (setAspect g a s) o = outRec s o := outRec_congr (by simp) o
    unfold commandOf
    simp only [or, asp, setAspect_service, setAspect_cable]

/-- A change of aspect in SERVICE keeps the invariant but for the conflict check. -/
theorem LiveBut.setAspect {s : State} (h : LiveBut Q s) (g : GroupId) (a : Aspect) : LiveBut Q (setAspect g a s) := by
  refine ⟨by simp [h.state], ?_, by simpa using h.active, by simpa using h.timed, ?_, ?_, fresh_setAspect h.fresh g a,
    commands_setAspect h.commands g a, by simpa using h.table, ?_, ?_, h.bars.stays (stays_setAspect g a s) (by simp)⟩
  · have k := h.outputs
    unfold OutputsFollow at k ⊢
    simpa using k
  · intro p e
    rw [setAspect_plans]
    exact h.roles p (by simpa [planInUse] using e)
  · have k := h.calls
    unfold CallsOk at k ⊢
    simpa using k
  · have k := h.investigations
    unfold InvestigationsOk at k ⊢
    simpa using k
  · have k := h.patterns
    unfold PatternsOk at k ⊢
    simpa using k

/-- A change of aspect to any but GREEN exposes no group that was not (R79). -/
theorem Live.setAspect {s : State} (h : Live Q s) (g : GroupId) (a : Aspect) (n : a ≠ .green) : Live Q (setAspect g a s) := by
  refine ⟨h.toLiveBut.setAspect g a, ?_⟩
  have mono : ∀ k : GroupId, (Machine.setAspect g a s).proving.groups[k].exposed = true →
      s.proving.groups[k].exposed = true := by
    intro k e
    rw [setAspect_exposed] at e
    split at e
    · rename_i c
      subst c
      rw [h.fresh g]
      unfold exposedNow at e ⊢
      have asp := setAspect_aspect g a s g
      simp only [if_true] at asp
      have na : (a == Aspect.green) = false := by simpa using n
      simp only [asp, na, Bool.false_and, Bool.false_or] at e
      have serve : ∀ o, serves (Machine.setAspect g a s) o g .green = serves s o g .green := by
        intro o; unfold serves; rw [outRec_congr (s := s) (t := Machine.setAspect g a s) (by simp)]
      have st : ∀ o : OutputId, (Machine.setAspect g a s).proving.outputs[o].state = s.proving.outputs[o].state := by
        intro o; rw [(stays_setAspect g a s).outputs o]
      simp only [serve, st] at e
      rw [e, Bool.or_true]
    · exact e
  intro l k ne c ⟨el, ek⟩
  refine h.apart l k ne ?_ ⟨mono l el, mono k ek⟩
  rw [← c]
  exact (conflict_congr (by simp) l k).symm

/-! ### Interstages (R129 to R131) -/

theorem Live.endGreen {s : State} (h : Live Q s) (g : GroupId) : Live Q (endGreen g s) := by
  unfold Machine.endGreen
  simp only
  split
  · exact (h.setAspect g _ (by decide)).modGroup g _ fun _ => rfl
  · split <;> exact (h.setAspect g _ (by decide)).modGroup g _ fun _ => rfl

@[simp] theorem endGreen_phase (g : GroupId) (s : State) : (endGreen g s).seq.phase = s.seq.phase := by
  unfold endGreen
  simp only
  split
  · simp
  · split <;> simp

theorem PartOn.tryRedAmber {s : State} (h : PartOn Q s) (g : GroupId) : PartOn Q (tryRedAmber g s) := by
  unfold Machine.tryRedAmber
  split
  · rename_i r
    have e : s.service.state = .service := h.service_of_redAmberAt g (by
      intro c; rw [c] at r; simp [reached] at r)
    refine Live.ok (((h.live e).setAspect g .redAmber (by decide)).modGroup g
      (fun q => { q with redAmberAt := none }) fun _ => rfl) ?_
    simpa using h.phase e
  · exact h

/-- Green-off gating keeps the invariant (R131, R80). -/
theorem PartOn.tryGreen {s : State} (h : PartOn Q s) (g : GroupId) : PartOn Q (tryGreen g s) := by
  unfold Machine.tryGreen
  split
  · rename_i r
    have e : s.service.state = .service := h.service_of_greenAt g (by
      intro c; rw [c] at r; simp [reached] at r)
    refine PartBut.checked (LiveBut.but (((h.live e).toLiveBut.setAspect g .green).modGroup g
      (fun q => { q with redAmberAt := none, greenAt := none, deadline := none }) fun _ => rfl) ?_)
    simpa using h.phase e
  · exact h

theorem PartOn.tryGreens {s : State} (h : PartOn Q s) : PartOn Q (tryGreens s) :=
  eachOf_keeps _ _ (fun g _ hu => hu.tryGreen g) s h

theorem Live.runInterstage {s : State} (h : Live Q s) (t : Target) : PartOn Q (runInterstage t s) := by
  unfold Machine.runInterstage
  simp only
  have h0 : Live Q (Machine.modSeq s (enterInterstage t)) ∧
      (Machine.modSeq s (enterInterstage t)).seq.phase = .interstage :=
    ⟨h.ofSeq rfl (fun _ => rfl) h.calls, rfl⟩
  refine PartOn.tryGreens (eachOf_keeps _ _ (fun g u hu => hu.tryRedAmber g) _ ?_)
  have h2 := eachOf_keeps (P := fun u => Live Q u ∧ u.seq.phase = .interstage) all16
    (fun g u => if has s.seq.current g && !has (targetSet s t) g then Machine.endGreen g u else u)
    (fun g u hu => by
      split
      · exact ⟨hu.1.endGreen g, by rw [endGreen_phase]; exact hu.2⟩
      · exact hu) _ h0
  have h3 := eachOf_keeps (P := fun u => Live Q u ∧ u.seq.phase = .interstage) all16
    (fun g u => if has (targetSet s t) g && !has s.seq.current g then schedule g u else u)
    (fun g u hu => by
      split
      · exact ⟨hu.1.modGroup g _ fun _ => rfl, hu.2⟩
      · exact hu) _ h2
  exact h3.1.ok (Or.inl h3.2)

/-! ### Completion (R132, R147) -/

theorem Live.startStep {s : State} (h : Live Q s) (n : StepNo) : Live Q (startStep n s) := by
  unfold Machine.startStep
  split
  · exact h.ofSeq rfl (fun _ => rfl) h.calls
  · exact h

@[simp] theorem startStep_phase (n : StepNo) (s : State) : (startStep n s).seq.phase = s.seq.phase := by
  unfold startStep
  split <;> rfl

theorem Live.callIntoService {s : State} (h : Live Q s) (n : StageId) : Live Q (callIntoService n s) := by
  unfold Machine.callIntoService
  split
  · exact h.ofSeq rfl (fun _ => rfl) (h.calls.filter _)
  · exact h

@[simp] theorem callIntoService_phase (n : StageId) (s : State) : (callIntoService n s).seq.phase = s.seq.phase := by
  unfold callIntoService
  split <;> rfl

theorem Live.complete {s : State} (h : Live Q s) (t : Target) : PartOn Q (complete t s) := by
  have h1 : Live Q (Machine.modSeq s fun q => { q with phase := .stage, current := targetSet s t, target := none }) :=
    h.ofSeq rfl (fun _ => rfl) h.calls
  unfold Machine.complete
  cases t with
  | s0 => exact Live.ok (h1.ofSeq rfl (fun _ => rfl) h1.calls) (Or.inr rfl)
  | step n g =>
    refine Live.ok ?_ (Or.inr ?_)
    · simp only
      refine Live.callIntoService ?_ g
      exact (h1.startStep n).ofSeq rfl (fun _ => rfl) (h1.startStep n).calls
    · simp
  | call g =>
    refine Live.ok ?_ (Or.inr ?_)
    · simp only
      refine Live.callIntoService ?_ g
      exact h1.ofSeq rfl (fun _ => rfl) h1.calls
    · simp

theorem Live.completeResidual {s : State} (h : Live Q s) : PartOn Q (completeResidual s) :=
  Live.ok (h.ofSeq rfl (fun _ => rfl) h.calls) (Or.inr rfl)

theorem PartOn.settle {s : State} (h : PartOn Q s) (decide : State → State) (hd : ∀ u, PartOn Q u → PartOn Q (decide u)) :
    PartOn Q (settle decide s) := by
  unfold Machine.settle
  split
  · rename_i p
    have l := h.live (h.service_of_phase (Or.inl (by simpa using p)))
    split
    · split
      · simp only
        split
        · exact hd _ (l.complete _)
        · exact l.complete _
      · exact h
    · split
      · exact hd _ l.completeResidual
      · exact h
  · exact h

/-! ### Decisions (R133 to R137) -/

/-- A due transfer taken makes the pending plan, which is READY, the active one (R118). -/
theorem Live.takeTransfer {s : State} (h : Live Q s) : Live Q (takeTransfer s) := by
  unfold Machine.takeTransfer
  split
  · rename_i q e
    refine Live.modSeq (s := Machine.modPlans s fun m => { m with active := some q.plan, pending := none }) ?_ _
      (fun _ => rfl) h.calls
    refine ⟨⟨h.state, h.outputs, ⟨h.active.1, rfl⟩, h.timed, ?_, h.calls, h.fresh, h.commands, h.table, h.investigations,
      h.patterns, h.bars⟩, h.apart⟩
    intro p u
    have : q.plan = p := by simpa [planInUse] using u
    subst this
    exact h.roles q.plan (by simp [planInUse, e])
  · exact h

@[simp] theorem takeTransfer_phase (s : State) : (takeTransfer s).seq.phase = s.seq.phase := by
  unfold takeTransfer
  split <;> rfl

theorem Live.takeStep {s : State} (h : Live Q s) (p : s.seq.phase = .stage) (n : StepNo) (g : StageId) :
    PartOn Q (takeStep n g s) := by
  unfold Machine.takeStep
  simp only
  have key : ∀ u : State, Live Q u → u.seq.phase = .stage → PartOn Q
      (Machine.callIntoService g (Machine.modSeq (Machine.startStep n u) fun q =>
        { q with latches := setDrop q.latches g, service := q.service.filter (·.stage == g) })) := by
    intro u hu pu
    refine Live.ok (Live.callIntoService ?_ g) (Or.inr ?_)
    · exact (hu.startStep n).ofSeq rfl (fun _ => rfl) (hu.startStep n).calls
    · simpa using pu
  split
  · exact key _ h.takeTransfer (by simpa using p)
  · exact key _ h p

theorem Live.postOverrun {s : State} (h : Live Q s) (t : Target) (x : Set16) : Live Q (postOverrun t x s) := by
  unfold Machine.postOverrun
  split
  · split
    · exact ⟨⟨h.state, h.outputs, h.active, h.timed, h.roles, h.calls, h.fresh, h.commands, h.table.post _ _ _ _ _,
        h.investigations, h.patterns, h.bars⟩, h.apart⟩
    · exact h
  · exact h

theorem Live.terminate {s : State} (h : Live Q s) (t : Target) (x : Set16) : PartOn Q (terminate t x s) := by
  unfold Machine.terminate
  have h1 := h.postOverrun t x
  cases t with
  | s0 => exact h1.runInterstage _
  | call n => exact h1.runInterstage _
  | step n g =>
    simp only
    split
    · exact h1.takeTransfer.runInterstage _
    · exact h1.runInterstage _

theorem PartOn.holdResume {s : State} (h : PartOn Q s) (p : s.seq.phase = .stage) (t : Target) (b : Bool) :
    PartOn Q (holdResume t b s) := by
  have l := h.live (h.service_of_phase (Or.inr p))
  unfold Machine.holdResume
  split
  · split
    · split
      · exact Live.ok (l.ofSeq rfl (fun _ => rfl) l.calls) (Or.inr p)
      · exact h
    · exact Live.ok (l.ofSeq rfl (fun _ => rfl) l.calls) (Or.inr p)
  · exact h

theorem holdResume_phase (t : Target) (b : Bool) (s : State) : (holdResume t b s).seq.phase = s.seq.phase := by
  unfold holdResume
  split
  · split
    · split <;> rfl
    · rfl
  · rfl

theorem PartOn.decideOnce {s : State} (h : PartOn Q s) (next : State → State) (hn : ∀ u, PartOn Q u → PartOn Q (next u)) :
    PartOn Q (decideOnce next s) := by
  unfold Machine.decideOnce
  split
  · rename_i p
    have p : s.seq.phase = .stage := by simpa using p
    simp only
    split
    · split
      · exact h.handover _ _
      · exact h
    · rename_i t _
      have h1 := h.holdResume p t (barredSet s s.seq.current)
      have p1 : (Machine.holdResume t (barredSet s s.seq.current) s).seq.phase = .stage := by
        rw [holdResume_phase]; exact p
      have l1 := h1.live (h1.service_of_phase (Or.inr p1))
      split
      · split
        · split
          · exact l1.takeStep p1 _ _
          · exact h1
        · exact h1
      · split
        · exact (l1.terminate t _).settle next hn
        · exact h1
  · exact h

theorem PartOn.decideUpTo {s : State} (h : PartOn Q s) (n : Nat) : PartOn Q (decideUpTo n s) := by
  induction n generalizing s with
  | zero => exact h
  | succ k ih => exact h.decideOnce _ fun u hu => ih hu

/-- A decision event keeps the part's invariant (R135 to R137). -/
theorem PartOn.decision {s : State} (h : PartOn Q s) : PartOn Q (decision s) := h.decideUpTo 8

theorem PartOn.settled {s : State} (h : PartOn Q s) : PartOn Q (settled s) := h.settle _ fun _ hu => hu.decision

/-- A change of exposures handed on restores and keeps the invariant (R80, R131). -/
theorem PartBut.exposureChanged {s : State} (h : PartBut Q s) : PartOn Q (exposureChanged s) :=
  h.checked.tryGreens.settled

/-! ### Bars (R145 to R147) -/

/-- The bar set replaced leaves what the blocks hold in the service state. -/
theorem ServiceOk.rebarred {s : State} (h : ServiceOk s) (b : Set16) :
    ServiceOk (Machine.modSeq s fun q => { q with bars := b }) := by
  refine ⟨fun e => ?_, h.starting, h.serving, h.active, h.timed⟩
  obtain ⟨a, k⟩ := h.stopped e
  refine ⟨?_, k⟩
  show { sequencerStopped s.seq with bars := b } = _
  rw [a]
  rfl

theorem PartOn.recomputeBars {s : State} (h : PartOn Q s) : PartOn Q (recomputeBars s) :=
  ⟨h.outputs, h.service.rebarred _, h.roles, h.calls, ⟨h.greens.fresh, h.greens.service, h.greens.apart⟩, h.commands,
    h.table, h.investigations, h.patterns, rfl⟩

theorem Live.withdrawGroup {s : State} (h : Live Q s) (g : GroupId) : Live Q (withdrawGroup g s) := by
  unfold Machine.withdrawGroup
  split
  · exact (h.setAspect g .red (by decide)).modGroup g _ fun _ => rfl
  · exact h

theorem withdrawGroup_phase (g : GroupId) (s : State) : (withdrawGroup g s).seq.phase = s.seq.phase := by
  unfold withdrawGroup
  split
  · simp
  · rfl

theorem Live.endFacing {s : State} (h : Live Q s) (p : s.seq.phase = .interstage) :
    Live Q (endFacing s) ∧ (endFacing s).seq.phase = .interstage := by
  unfold Machine.endFacing
  refine eachOf_keeps (P := fun u => Live Q u ∧ u.seq.phase = .interstage) _ _ (fun g u hu => ?_) s ⟨h, p⟩
  split
  · exact ⟨hu.1.endGreen g, by rw [endGreen_phase]; exact hu.2⟩
  · exact hu

theorem Live.withdraw {s : State} (h : Live Q s) (p : s.seq.phase = .interstage) (t : Target) : PartOn Q (withdraw t s) := by
  unfold Machine.withdraw
  have h1 := eachOf_keeps (P := fun u => Live Q u ∧ u.seq.phase = .interstage) all16 Machine.withdrawGroup
    (fun g u hu => ⟨hu.1.withdrawGroup g, by rw [withdrawGroup_phase]; exact hu.2⟩) s ⟨h, p⟩
  have h2 := h1.1.endFacing h1.2
  have h3 : Live Q (resumeAfterBar t (Machine.endFacing (eachOf all16 Machine.withdrawGroup s))) ∧
      (resumeAfterBar t (Machine.endFacing (eachOf all16 Machine.withdrawGroup s))).seq.phase = .interstage := by
    revert h2
    generalize Machine.endFacing (eachOf all16 Machine.withdrawGroup s) = v
    intro h2
    unfold resumeAfterBar
    split
    · exact ⟨h2.1.ofSeq rfl (fun _ => rfl) h2.1.calls, h2.2⟩
    · exact h2
  revert h3
  simp only
  generalize resumeAfterBar t (Machine.endFacing (eachOf all16 Machine.withdrawGroup s)) = v
  intro h3
  exact Live.ok (h3.1.ofSeq rfl (fun _ => rfl) h3.1.calls) (Or.inl h3.2)

/-- A change of red status handed to the sequencer restores the part's invariant, which the change has left but for the
bar set (R145 to R148). -/
theorem PartOn.redStatusChanged {s : State} (hb : PartOn Q (Machine.recomputeBars s)) : PartOn Q (redStatusChanged s) := by
  unfold Machine.redStatusChanged
  simp only
  split
  · split
    · exact hb.decision
    · exact hb
  · rename_i p
    have l := hb.live (hb.service_of_phase (Or.inl p))
    split
    · refine PartOn.settled ?_
      split
      · exact l.withdraw p _
      · exact (l.endFacing p).1.ok (Or.inl (l.endFacing p).2)
    · exact PartOn.settled ((l.endFacing p).1.ok (Or.inl (l.endFacing p).2))
  · exact hb

end Sys2Proof.Machine
end

