-- ==== Sys2Proof/Laws/Proving.lean ====
section
/-! SUPPORT. The proving unit's operations, each with the one lemma that it keeps the part's invariant. -/

set_option linter.unusedSimpArgs false

namespace Sys2Proof.Machine

variable {Q : OutputId → Prop}

/-! ### Red status (R76 to R78) -/

/-- A red status changed: the part's invariant holds once the bars are recomputed, whatever they were before. -/
theorem PartOn.modGroupProof {s : State} (h : PartOn Q (Machine.recomputeBars s)) (g : GroupId) (f : GroupProof → GroupProof)
    (hf : ∀ r, (f r).exposed = r.exposed) : PartOn Q (Machine.recomputeBars (modGroupProof s g f)) := by
  have e : ∀ k : GroupId, (Machine.modGroupProof s g f).proving.groups[k].exposed = s.proving.groups[k].exposed := by
    intro k
    simp only [Machine.modGroupProof, vmod_get]
    split
    · exact hf _
    · rfl
  have v := h.service.rebarred (barsNow (Machine.modGroupProof s g f))
  refine ⟨h.outputs, ⟨v.stopped, v.starting, v.serving, v.active, v.timed⟩, h.roles, h.calls,
    ⟨fun k => ?_, h.greens.service, fun n l k ne c => ?_⟩, h.commands, h.table, h.investigations, h.patterns, rfl⟩
  · exact (e k).trans (h.greens.fresh k)
  · exact fun x => h.greens.apart n l k ne c ⟨(e l).symm.trans x.1, (e k).symm.trans x.2⟩

theorem PartOn.redRecords {s : State} (h : PartOn Q s) (g : GroupId) (old new : RedStatus) :
    PartOn Q (redRecords g old new s) := by
  unfold Machine.redRecords
  split
  · simp only; split
    · exact (h.post _ _ _ _).endFault _ _
    · exact h.post _ _ _ _
  · simp only; split
    · exact (h.post _ _ _ _).endFault _ _
    · exact h.post _ _ _ _
  · exact (h.endFault _ _).endFault _ _
  · exact (h.endFault _ _).endFault _ _

/-- The records of a change of red status leave the bars to be recomputed as they were (R78, R145). -/
theorem recomputeBars_redRecords (g : GroupId) (old new : RedStatus) (s : State) :
    recomputeBars (redRecords g old new s) = redRecords g old new (recomputeBars s) := by
  unfold redRecords
  split
  · simp only; split <;> rfl
  · simp only; split <;> rfl
  · rfl
  · rfl

/-- A red status set leaves the part's invariant whole, even where the bars were still to be recomputed. -/
theorem PartOn.setRed_rebarred {s : State} (h : PartOn Q (Machine.recomputeBars s)) (g : GroupId) (r : RedStatus) :
    PartOn Q (Machine.recomputeBars (setRed g r s)) := by
  unfold Machine.setRed
  split
  · exact h
  · refine PartOn.recomputeBars (PartOn.redStatusChanged ?_)
    rw [recomputeBars_redRecords]
    exact (h.modGroupProof g (fun q => { q with red := r }) fun _ => rfl).redRecords g _ r

theorem PartOn.setRed {s : State} (h : PartOn Q s) (g : GroupId) (r : RedStatus) : PartOn Q (setRed g r s) := by
  unfold Machine.setRed
  split
  · exact h
  · refine PartOn.redStatusChanged ?_
    rw [recomputeBars_redRecords]
    exact (h.recomputeBars.modGroupProof g (fun q => { q with red := r }) fun _ => rfl).redRecords g _ r

theorem PartOn.evalRed {s : State} (h : PartOn Q s) (g : GroupId) : PartOn Q (evalRed g s) := h.setRed g _

/-! ### A change of proving state (R79, R80, R131) -/

/-- The part's invariant in the middle of a change of an output's proving state: the exposure of the group that the output
serves as a GREEN is still the one from before. -/
structure PartLess (Q : OutputId → Prop) (o : OutputId) (s : State) : Prop where
  outputs : OutputsFollow s
  service : ServiceOk s
  roles : RolesReady s
  calls : CallsOk s
  fresh : ∀ g : GroupId, serves s o g .green = false → s.proving.groups[g].exposed = exposedNow s g
  live : ∀ g : GroupId, s.seq.groups[g].aspect = .green → s.service.state ≠ .handedOver
  apart : s.service.state ≠ .handedOver → ∀ l g : GroupId, l ≠ g → conflict s l g = true →
    ¬(s.proving.groups[l].exposed = true ∧ s.proving.groups[g].exposed = true)
  commands : CommandsOn Q s
  table : TableOk s.faults
  investigations : InvestigationsOk s
  patterns : PatternsOk s
  bars : BarsFresh s

/-- A group that an output does not serve as a GREEN is exposed by the other outputs alone (R79). -/
theorem exposedNow_others {s t : State} (o : OutputId) (g : GroupId) (n : serves s o g .green = false)
    (hs : t.service.state = s.service.state) (ha : t.safety.active = s.safety.active)
    (hg : t.seq.groups[g].aspect = s.seq.groups[g].aspect)
    (ho : ∀ p : OutputId, p ≠ o → t.proving.outputs[p].state = s.proving.outputs[p].state) :
    exposedNow t g = exposedNow s g := by
  have serve : ∀ p, serves t p g .green = serves s p g .green := by
    intro p; unfold serves; rw [outRec_congr ha]
  unfold exposedNow
  rw [hs, hg]
  congr 2
  funext p
  rw [serve]
  by_cases e : p = o
  · rw [e, n]; rfl
  · rw [ho p e]

/-- The proving fields of the outputs replaced, the proving state of one alone changed. -/
theorem PartOn.replaced {s : State} (h : PartOn Q s) (o : OutputId) (O : Vector OutputProof 64)
    (hs : ∀ p : OutputId, p ≠ o → O[p].state = s.proving.outputs[p].state) {P : OutputId → Prop}
    (hc : ∀ p : OutputId, P p → O[p].commanded = commandOf s p) :
    PartLess P o { s with proving := { s.proving with outputs := O } } := by
  refine ⟨h.outputs, h.service.congr rfl rfl rfl, h.roles, h.calls,
    fun g n => ?_, h.greens.service, h.greens.apart, hc, h.table, h.investigations, h.patterns, h.bars⟩
  exact (h.greens.fresh g).trans (exposedNow_others (s := s)
    (t := { s with proving := { s.proving with outputs := O } }) o g n rfl rfl rfl hs).symm

theorem PartLess.post {s : State} {o : OutputId} (h : PartLess Q o s) (k : FaultKind) (x : Subject) (b : Bool)
    (d : Option (List Word16)) : PartLess Q o (post k x b d s) :=
  ⟨h.outputs, h.service.congr rfl rfl rfl, h.roles, h.calls, h.fresh,
    h.live, h.apart, h.commands, h.table.post _ k x b d, h.investigations, h.patterns, h.bars⟩

theorem PartLess.redetail {s : State} {o : OutputId} (h : PartLess Q o s) (k : FaultKind) (x : Subject)
    (d : List Word16) : PartLess Q o (redetail k x d s) :=
  ⟨h.outputs, h.service.congr rfl rfl rfl, h.roles, h.calls, h.fresh,
    h.live, h.apart, h.commands, h.table.redetailed k x d, h.investigations, h.patterns, h.bars⟩

/-- The part's invariant where the output is no used GREEN, whose change of proving state exposes no group. -/
theorem PartLess.plain {s : State} {o : OutputId} (h : PartLess Q o s) (n : ∀ g, serves s o g .green = false) :
    PartOn Q s :=
  ⟨h.outputs, h.service, h.roles, h.calls, ⟨fun g => h.fresh g (n g), h.live, h.apart⟩, h.commands, h.table,
    h.investigations, h.patterns, h.bars⟩

/-- What follows a GREEN's change of proving state restores the part's invariant. -/
theorem PartLess.greenChanged {s : State} {o : OutputId} (h : PartLess Q o s) : PartOn Q (greenChanged o s) := by
  unfold Machine.greenChanged
  simp only
  split
  · have ex : ∀ k : GroupId, (reexpose (outRec s o).group s).proving.groups[k].exposed =
        if (outRec s o).group = k then exposedNow s (outRec s o).group else s.proving.groups[k].exposed := by
      intro k
      simp only [reexpose, Machine.modGroupProof, vmod_get]
      split <;> rfl
    have fresh : ∀ k : GroupId,
        (reexpose (outRec s o).group s).proving.groups[k].exposed = exposedNow (reexpose (outRec s o).group s) k := by
      intro k
      rw [ex k, exposedNow_congr (s := s) (t := reexpose (outRec s o).group s) rfl rfl k rfl fun _ => rfl]
      split
      · rename_i e; rw [e]
      · rename_i e
        refine h.fresh k ?_
        have : ((outRec s o).group == k) = false := by simpa using e
        unfold serves
        simp [this]
    have but : PartBut Q (reexpose (outRec s o).group s) :=
      ⟨h.outputs, h.service.congr rfl rfl rfl, h.roles, h.calls,
        fresh, h.live, h.commands, h.table, h.investigations, h.patterns, h.bars.stays (stays_reexpose _ s) rfl⟩
    split
    · rename_i same
      have same : (reexpose (outRec s o).group s).proving.groups[(outRec s o).group].exposed =
        s.proving.groups[(outRec s o).group].exposed := by simpa using same
      have all : ∀ k : GroupId, (reexpose (outRec s o).group s).proving.groups[k].exposed =
          s.proving.groups[k].exposed := by
        intro k
        by_cases e : (outRec s o).group = k
        · rw [← e]; exact same
        · rw [ex k, if_neg e]
      refine but.ok fun n l k ne c => ?_
      rw [all l, all k]
      exact h.apart n l k ne c
    · exact but.exposureChanged
  · rename_i c
    refine h.plain fun g => ?_
    unfold serves
    cases hu : (outRec s o).used <;> cases hc : (outRec s o).colour <;> simp_all

/-- What follows a change of proving state restores and keeps the part's invariant. -/
theorem PartLess.stateChanged {s : State} {o : OutputId} (h : PartLess Q o s) (old : ProvingState) :
    PartOn Q (stateChanged o old s) := by
  unfold Machine.stateChanged
  simp only
  split
  · rename_i c
    have p : PartOn Q s := h.plain fun g => by
      have : (outRec s o).colour = .red := by
        cases hc : (outRec s o).colour <;> simp_all
      unfold serves
      simp [this]
    split
    · exact p.evalRed _
    · exact p
  · exact h.greenChanged

theorem PartOn.modProofLess {s : State} (h : PartOn Q s) (o : OutputId) (f : OutputProof → OutputProof)
    (hc : ∀ r, (f r).commanded = r.commanded) : PartLess Q o (modProof s o f) := by
  refine h.replaced o (vmod s.proving.outputs o f) (fun p n => ?_) fun p q => ?_
  · rw [vmod_get, if_neg (fun e => n e.symm)]
  · rw [vmod_get]
    split
    · rename_i e; subst e; rw [hc]; exact h.commands _ q
    · exact h.commands p q

theorem PartOn.setProving {s : State} (h : PartOn Q s) (o : OutputId) (f : OutputProof → OutputProof)
    (hc : ∀ r, (f r).commanded = r.commanded) : PartOn Q (setProving o f s) := (h.modProofLess o f hc).stateChanged _

/-- The fields of an output changed but for its proving state and its command. -/
theorem PartOn.modProof {s : State} (h : PartOn Q s) (o : OutputId) (f : OutputProof → OutputProof)
    (hs : ∀ r, (f r).state = r.state) (hc : ∀ r, (f r).commanded = r.commanded) : PartOn Q (modProof s o f) := by
  have l := h.modProofLess o f hc
  refine ⟨l.outputs, l.service, l.roles, l.calls, ⟨fun g => ?_, l.live, l.apart⟩, l.commands, l.table,
    l.investigations, l.patterns, l.bars⟩
  rw [exposedNow_congr (s := s) (t := Machine.modProof s o f) rfl rfl g rfl fun p => ?_]
  · exact h.greens.fresh g
  · simp only [Machine.modProof, vmod_get]
    split
    · rename_i e; subst e; exact hs _
    · rfl

/-! ### Echo, applied state and sense count (R67, R68, R73) -/

theorem PartOn.checkEcho {s : State} (h : PartOn Q s) (o : OutputId) (b : Bool) (c : Option Bool) :
    PartOn Q (checkEcho o b c s) := by
  unfold Machine.checkEcho
  split
  · exact h
  · simp only
    rename_i c
    have p := h.modProof o (fun r => { r with echo := c != b }) (fun _ => rfl) fun _ => rfl
    split
    · split
      · exact p
      · exact p.post _ _ _ _
    · split
      · exact p.endFault _ _
      · exact p

theorem PartOn.storeApplied {s : State} (h : PartOn Q s) (o : OutputId) (b : Bool) : PartOn Q (storeApplied o b s) := by
  unfold Machine.storeApplied
  split
  · split
    · exact h.modProof _ _ (fun _ => rfl) fun _ => rfl
    · split
      · exact h.setProving _ _ fun _ => rfl
      · exact h.modProof _ _ (fun _ => rfl) fun _ => rfl
    · exact h.setProving _ _ fun _ => rfl
  · exact h.modProof _ _ (fun _ => rfl) fun _ => rfl

theorem PartOn.countSense {s : State} (h : PartOn Q s) (o : OutputId) (b : Bool) : PartOn Q (countSense o b s) := by
  unfold Machine.countSense
  split
  · exact h
  · exact h.modProof _ _ (fun _ => rfl) fun _ => rfl
  · simp only
    generalize (if b = true then 0 else min 50 (s.proving.outputs[o].sense + 1)) = n
    split
    · exact h.setProving _ _ fun _ => rfl
    · exact h.modProof _ _ (fun _ => rfl) fun _ => rfl

/-! ### Cards (R74, R75) -/

theorem mem_outputsOf (o : OutputId) : o ∈ outputsOf (cardOf o) :=
  List.mem_map.mpr ⟨⟨o.val % 8, by omega⟩, List.mem_finRange _, Fin.ext (by simp [outputAt, cardOf]; omega)⟩

theorem PartOn.senseLoseCard {s : State} (h : PartOn Q s) (c : CardId) : PartOn Q (senseLoseCard c s) :=
  eachOf_keeps _ _ (fun o u hu => by
    split
    · exact hu
    · exact hu.setProving _ _ fun _ => rfl) s h

theorem PartOn.senseLoseRemoved {s : State} (h : PartOn Q s) (c : CardId) : PartOn Q (senseLoseRemoved c s) :=
  eachOf_keeps _ _ (fun _ _ hu => hu.setProving _ _ fun _ => rfl) s h

theorem PartOn.senseRegainCard {s : State} (h : PartOn Q s) (c : CardId) : PartOn Q (senseRegainCard c s) :=
  eachOf_keeps _ _ (fun o u hu => by
    split
    · exact hu.setProving _ _ fun _ => rfl
    · exact hu) s h

/-- Outputs composed afresh are commanded as R66 gives. -/
theorem PartOn.recompose {s : State} (h : PartOn Q s) (p : OutputId → Bool) :
    PartOn (fun o => Q o ∨ p o = true) (recompose p s) := by
  have st : ∀ o : OutputId, (Machine.recompose p s).proving.outputs[o].state = s.proving.outputs[o].state := by
    intro o
    simp only [Machine.recompose, vgen_get]
    split <;> rfl
  refine ⟨h.outputs, h.service.congr rfl rfl rfl, h.roles, h.calls,
    ⟨fun g => ?_, h.greens.service, h.greens.apart⟩, fun o q => ?_, h.table, h.investigations, h.patterns, h.bars⟩
  · rw [exposedNow_congr (s := s) (t := Machine.recompose p s) rfl rfl g rfl st]
    exact h.greens.fresh g
  · show (Machine.recompose p s).proving.outputs[o].commanded = commandOf s o
    simp only [Machine.recompose, vgen_get]
    split
    · rfl
    · rename_i n
      rcases q with q | q
      · exact h.commands o q
      · exact absurd q n

/-- A card that has entered TRIPPED: with its outputs isolated every output is commanded as R66 gives (R75). -/
theorem PartOn.isolateCard {s : State} {c : CardId} (h : PartOn (fun o => cardOf o ≠ c) s) : PartOk (isolateCard c s) := by
  have step : ∀ (xs : List OutputId) (u : State), PartOn (fun o => o ∉ xs) u →
      PartOn (fun _ => True) (eachOf xs
        (fun o t =>
          stateChanged o t.proving.outputs[o].state
            (Machine.recompose (· == o)
              (Machine.modProof t o fun r => { r with state := .isolated, failing := 0, sense := 0 }))) u) := by
    intro xs
    induction xs with
    | nil => exact fun u hu => hu.mono fun o _ => by simp
    | cons x xs ih =>
      intro u hu
      refine ih _ (PartLess.stateChanged ?_ _)
      refine hu.replaced x
        (Machine.recompose (· == x)
          (Machine.modProof u x fun r => { r with state := .isolated, failing := 0, sense := 0 })).proving.outputs
        (fun p n => ?_) fun p q => ?_
      · have n' : (p == x) = false := by simpa using n
        simp only [Machine.recompose, vgen_get, n', Machine.modProof, vmod_get, if_neg (fun e => n (Eq.symm e))]
        rfl
      · by_cases e : p = x
        · subst e
          simp only [Machine.recompose, vgen_get, beq_self_eq_true, if_true]
          rfl
        · have n' : (p == x) = false := by simpa using e
          simp only [Machine.recompose, vgen_get, n', Machine.modProof, vmod_get, if_neg (fun k => e (Eq.symm k))]
          exact hu.commands p fun m => by
            rcases List.mem_cons.mp m with k | k
            · exact e k
            · exact q k
  exact (step (outputsOf c) s (h.mono fun o n e => n (e ▸ mem_outputsOf o))).all fun _ => trivial

/-- A card that has left TRIPPED: with its outputs recomposed every output is commanded as R66 gives (R75). -/
theorem PartOn.releaseCard {s : State} {c : CardId} (h : PartOn (fun o => cardOf o ≠ c) s) : PartOk (releaseCard c s) := by
  unfold Machine.releaseCard
  refine ((eachOf_keeps _ _ (fun o u hu => ?_) s h : PartOn (fun o => cardOf o ≠ c) _).recompose _).all fun o => ?_
  · exact (hu.modProofLess _ _ fun r => by split <;> rfl).greenChanged
  · by_cases e : cardOf o = c
    · exact Or.inr (by simp [e])
    · exact Or.inl e

/-! ### Investigations and measurements (R69 to R72, R95) -/

/-- A slot written keeps the investigations apart where its output is under no other one. -/
theorem investigationsOk_set {s : State} (h : InvestigationsOk s) (i : InvSlot) (v : Option Investigation)
    (n : ∀ (w : Investigation) (j : InvSlot) (u : Investigation), v = some w → j ≠ i →
      s.cable.investigations[j] = some u → u.x ≠ w.x) : InvestigationsOk (setInvestigation s i v) := by
  intro a b p q ea eb x
  simp only [setInvestigation, vset_get] at ea eb
  split at ea
  · split at eb
    · rename_i e1 e2; rw [← e1, ← e2]
    · rename_i e1 e2
      exact absurd x.symm (n p b q ea (fun k => e2 k.symm) eb)
  · split at eb
    · rename_i e1 e2
      exact absurd x (n q a p eb (fun k => e1 k.symm) ea)
    · exact h a b p q ea eb x

theorem investigationOf_none {s : State} {o : OutputId} (h : investigationOf s o = none) (i : InvSlot)
    (v : Investigation) (e : s.cable.investigations[i] = some v) : v.x ≠ o := by
  have := List.find?_eq_none.mp h i (List.mem_finRange i)
  simp only [e] at this
  simpa using this

theorem PartLess.openInvestigation {s : State} {o : OutputId} (h : PartLess Q o s) (x : OutputId) :
    PartLess Q o (openInvestigation x s) := by
  unfold Machine.openInvestigation
  split
  · exact h
  · rename_i none
    split
    · refine ⟨h.outputs, h.service.congr rfl rfl rfl, h.roles, h.calls,
        h.fresh, h.live, h.apart, h.commands, h.table, ?_, h.patterns, h.bars⟩
      refine investigationsOk_set h.investigations _ _ fun w j u e _ ej => ?_
      cases e
      exact investigationOf_none none j u ej
    · exact h.redetail _ _ _

theorem PartOn.settleLampRecords {s : State} (h : PartOn Q s) (m : CoreMeas) : PartOn Q (settleLampRecords m s) := by
  unfold Machine.settleLampRecords
  simp only
  split
  · split
    · exact h.endFault _ _
    · exact (h.endFault _ _).post _ _ _ _
  · exact (h.endFault _ _).endFault _ _

theorem PartOn.measuredLit {s : State} (h : PartOn Q s) (m : CoreMeas) : PartOn Q (measuredLit m s) := by
  unfold Machine.measuredLit
  have p := h.setProving m.output (fun r => { r with state := .provedOn, failing := 0 }) fun _ => rfl
  simp only
  split
  · exact p.settleLampRecords m
  · exact p

theorem PartOn.measuredDark {s : State} (h : PartOn Q s) (m : CoreMeas) : PartOn Q (measuredDark m s) := by
  unfold Machine.measuredDark
  simp only
  split
  · exact h.setProving _ _ fun _ => rfl
  · have p := h.setProving m.output (fun r => { r with failing := 2, state := .failedDark }) fun _ => rfl
    split
    · exact p.post _ _ _ _
    · exact p

theorem PartOn.measuredOff {s : State} (h : PartOn Q s) (m : CoreMeas) : PartOn Q (measuredOff m s) := by
  unfold Machine.measuredOff
  simp only
  split
  · exact (h.endFault _ _).setProving _ _ fun _ => rfl
  · exact h.setProving _ _ fun _ => rfl

theorem PartOn.measuredUnwanted {s : State} (h : PartOn Q s) (m : CoreMeas) : PartOn Q (measuredUnwanted m s) := by
  unfold Machine.measuredUnwanted
  simp only
  split
  · exact h.modProof _ _ (fun _ => rfl) fun _ => rfl
  · have p := ((h.modProofLess m.output
      (fun r => { r with state := .litUnwanted, failing := 0, entryIp := m.ip }) fun _ => rfl).post
        .unwantedCurrent (.output m.output) false (some [wordInt m.ip])).openInvestigation m.output
    split
    · exact PartLess.stateChanged (p.post _ _ _ _) _
    · exact p.stateChanged _

/-- A completed core measurement handed to the proving unit keeps the part's invariant (R69 to R76). -/
theorem PartOn.prove {s : State} (h : PartOn Q s) (m : CoreMeas) : PartOn Q (prove m s) := by
  unfold Machine.prove
  split
  · exact h
  · simp only
    have p : PartOn Q (if m.applied then if m.fail then Machine.measuredDark m s else Machine.measuredLit m s
        else if m.unwanted then Machine.measuredUnwanted m s
        else Machine.measuredOff m s) := by
      split
      · split
        · exact h.measuredDark m
        · exact h.measuredLit m
      · split
        · exact h.measuredUnwanted m
        · exact h.measuredOff m
    revert p
    generalize (if m.applied then if m.fail then Machine.measuredDark m s else Machine.measuredLit m s
        else if m.unwanted then Machine.measuredUnwanted m s
        else Machine.measuredOff m s) = u
    intro p
    split
    · exact p.evalRed _
    · exact p

end Sys2Proof.Machine
end

