-- ==== Sys2Proof/Laws/Cable.lean ====
section
/-! SUPPORT. The cable supervisor's operations, each with the one lemma that it keeps the part's invariant. -/

set_option linter.unusedSimpArgs false

namespace Sys2Proof.Machine

variable {Q : OutputId → Prop}

/-! ### Fields that no invariant reads -/

/-- The card line replaced but for its sent patterns. -/
theorem PartOn.setLine {s : State} (h : PartOn Q s) (L : CardLine) (p : L.patterns.length ≤ 3) :
    PartOn Q { s with line := L } :=
  ⟨h.outputs, h.service.congr rfl rfl rfl, h.roles, h.calls,
    ⟨h.greens.fresh, h.greens.service, h.greens.apart⟩, h.commands, h.table, h.investigations, p, h.bars⟩

/-- The measurement engine replaced. -/
theorem PartOn.setEngine {s : State} (h : PartOn Q s) (E : Engine) : PartOn Q { s with engine := E } :=
  ⟨h.outputs, h.service.congr rfl rfl rfl, h.roles, h.calls,
    ⟨h.greens.fresh, h.greens.service, h.greens.apart⟩, h.commands, h.table, h.investigations, h.patterns, h.bars⟩

theorem PartOn.modFeeder {s : State} (h : PartOn Q s) (o : OutputId) (f : Feeder → Feeder) :
    PartOn Q (modFeeder s o f) :=
  ⟨h.outputs, h.service.congr rfl rfl rfl, h.roles, h.calls,
    ⟨h.greens.fresh, h.greens.service, h.greens.apart⟩, h.commands, h.table, h.investigations, h.patterns, h.bars⟩

theorem PartOn.modExchange {s : State} (h : PartOn Q s) (f : Exchange → Exchange) : PartOn Q (modExchange s f) :=
  h.setLine _ h.patterns

/-- A card's trip and leakage fields changed: the commands of the other cards' outputs stay as composed. -/
theorem PartOn.modCableOthers {s : State} (h : PartOn Q s) (c : CardId) (f : CableCard → CableCard) :
    PartOn (fun o => Q o ∧ cardOf o ≠ c) (modCable s c f) := by
  refine ⟨h.outputs, h.service.congr rfl rfl rfl, h.roles, h.calls,
    ⟨h.greens.fresh, h.greens.service, h.greens.apart⟩, fun o q => ?_, h.table, h.investigations, h.patterns, h.bars⟩
  rw [show (modCable s c f).proving.outputs[o].commanded = s.proving.outputs[o].commanded from rfl, h.commands o q.1]
  unfold commandOf
  have e : (modCable s c f).cable.cards[cardOf o] = s.cable.cards[cardOf o] := by
    simp only [modCable, vmod_get]
    rw [if_neg fun e => q.2 e.symm]
  rw [e]
  rfl

/-- The same where the card's trip is as it was. -/
theorem PartOn.modCable {s : State} (h : PartOn Q s) (c : CardId) (f : CableCard → CableCard)
    (hf : ∀ r, (f r).tripped = r.tripped) : PartOn Q (modCable s c f) := by
  refine ⟨h.outputs, h.service.congr rfl rfl rfl, h.roles, h.calls,
    ⟨h.greens.fresh, h.greens.service, h.greens.apart⟩, fun o q => ?_, h.table, h.investigations, h.patterns, h.bars⟩
  rw [show (Machine.modCable s c f).proving.outputs[o].commanded = s.proving.outputs[o].commanded from rfl,
    h.commands o q]
  unfold commandOf
  have e : (Machine.modCable s c f).cable.cards[cardOf o].tripped = s.cable.cards[cardOf o].tripped := by
    simp only [Machine.modCable, vmod_get]
    split
    · rename_i k; subst k; exact hf _
    · rfl
  rw [e]
  rfl

/-! ### Feeders and leakage (R87 to R89) -/

theorem PartOn.feederTest {s : State} (h : PartOn Q s) (m : CoreMeas) : PartOn Q (feederTest m s) := by
  unfold Machine.feederTest
  simp only
  split
  · split
    · exact (h.modFeeder _ _).post _ _ _ _
    · exact h.modFeeder _ _
  · split
    · exact (h.modFeeder _ _).endFault _ _
    · exact h.modFeeder _ _

theorem PartOn.leakAlarmTest {s : State} (h : PartOn Q s) (c : CardId) (n : Nat) : PartOn Q (leakAlarmTest c n s) := by
  unfold Machine.leakAlarmTest
  simp only
  split
  · split
    · exact h.modCable _ _ fun _ => rfl
    · split
      · exact h.modCable _ _ fun _ => rfl
      · refine PartOn.endFault ?_ _ _
        exact h.modCable _ _ fun _ => rfl
  · split
    · split
      · exact h.modCable _ _ fun _ => rfl
      · refine PartOn.post ?_ _ _ _ _
        exact h.modCable _ _ fun _ => rfl
    · exact h.modCable _ _ fun _ => rfl

/-! ### Trips (R90 to R94) -/

theorem PartOk.trip {s : State} (h : PartOk s) (c : CardId) (n : Nat) : PartOk (trip c n s) :=
  (((h.whole.modCableOthers c _).post _ _ _ _).mono fun _ q => ⟨trivial, q⟩).isolateCard

theorem PartOk.leakTripTest {s : State} (h : PartOk s) (c : CardId) (n : Nat) : PartOk (leakTripTest c n s) := by
  unfold Machine.leakTripTest
  simp only
  split
  · exact h
  · split
    · split
      · exact PartOn.ok (h.whole.modCable _ _ fun _ => rfl)
      · exact h.trip c n
    · exact PartOn.ok (h.whole.modCable _ _ fun _ => rfl)

theorem PartOk.evaluateLeak {s : State} (h : PartOk s) (m : ResMeas) : PartOk (evaluateLeak m s) :=
  PartOk.leakTripTest (PartOn.ok (PartOn.leakAlarmTest
    (h.whole.modCable m.card (fun r => { r with lastL := some m.leak }) fun _ => rfl) _ _)) _ _

theorem PartOk.endTrip {s : State} (h : PartOk s) (c : CardId) : PartOk (endTrip c s) :=
  (((h.whole.modCableOthers c _).endFault _ _).mono fun _ q => ⟨trivial, q⟩).releaseCard

/-! ### Investigations (R96 to R102) -/

theorem PartOn.setInvestigation {s : State} (h : PartOn Q s) (i : InvSlot) (v : Option Investigation)
    (n : ∀ (w : Investigation) (j : InvSlot) (u : Investigation), v = some w → j ≠ i →
      s.cable.investigations[j] = some u → u.x ≠ w.x) : PartOn Q (setInvestigation s i v) :=
  ⟨h.outputs, h.service.congr rfl rfl rfl, h.roles, h.calls,
    ⟨h.greens.fresh, h.greens.service, h.greens.apart⟩, h.commands, h.table,
    investigationsOk_set h.investigations i v n, h.patterns, h.bars⟩

/-- A slot made FREE. -/
theorem PartOn.freeInvestigation {s : State} (h : PartOn Q s) (i : InvSlot) : PartOn Q (Machine.setInvestigation s i none) :=
  h.setInvestigation i none fun _ _ _ e => by cases e

/-- A slot's investigation changed but for its output. -/
theorem PartOn.keepInvestigation {s : State} (h : PartOn Q s) (i : InvSlot) (v w : Investigation)
    (e : s.cable.investigations[i] = some v) (x : w.x = v.x) : PartOn Q (Machine.setInvestigation s i (some w)) := by
  refine h.setInvestigation i _ fun p j u ep n ej k => n ?_
  cases ep
  exact h.investigations j i u v ej e (k.trans x)

theorem PartOn.abandonSlot {s : State} (h : PartOn Q s) (i : InvSlot) : PartOn Q (abandonSlot i s) := by
  unfold Machine.abandonSlot
  split
  · exact (h.endFault _ _).freeInvestigation i
  · exact h

theorem PartOn.postFinding {s : State} (h : PartOn Q s) (x : OutputId) (n : Int) (v : Investigation) (d : Finding) :
    PartOn Q (postFinding x n v d s) := by
  unfold Machine.postFinding
  split <;> exact h.post _ _ _ _

theorem PartOn.closeInvestigation {s : State} (h : PartOn Q s) (i : InvSlot) (n : Int) (v : Investigation)
    (d : Finding) : PartOn Q (closeInvestigation i n v d s) := by
  unfold Machine.closeInvestigation
  simp only
  have p := ((h.postFinding v.x n v d).endFault .unwantedCurrent (.output v.x)).freeInvestigation i
  split
  · split
    · exact p.handover _ _
    · exact p
  · exact p

theorem updateInvestigation_x (s : State) (m : CoreMeas) (v : Investigation) : (updateInvestigation s m v).x = v.x := by
  unfold updateInvestigation
  split
  · rfl
  · split <;> rfl

theorem PartOn.investigate {s : State} (h : PartOn Q s) (m : CoreMeas) : PartOn Q (investigate m s) := by
  unfold Machine.investigate
  split
  · split
    · rename_i v e
      simp only
      split
      · exact h.closeInvestigation _ _ _ _
      · exact h.keepInvestigation _ v _ e (updateInvestigation_x s m v)
    · exact h
  · exact h

/-! ### Delivery (R86) -/

theorem PartOn.deliverCore {s : State} (h : PartOn Q s) (m : CoreMeas) : PartOn Q (deliverCore m s) := by
  unfold Machine.deliverCore
  split
  · exact h.feederTest m
  · exact h.investigate m

/-- A delivery keeps the part's invariant (R86). -/
theorem PartOk.deliver {s : State} (h : PartOk s) : PartOk (deliver s) := by
  unfold Machine.deliver
  simp only
  have p := (h.whole.modExchange fun e => { e with cores := [], residuals := [] }).ok
  split
  · exact eachOf_keeps _ _ (fun m _ hu => hu.evaluateLeak m) _
      (eachOf_keeps _ _ (fun m _ hu => (hu.whole.deliverCore m).ok) _ p)
  · exact p

/-! ### SERVICE RESTART and CARD SET (R103) -/

/-- In HANDED_OVER every output is commanded OFF, so a card's trip may change. -/
theorem PartOn.modCableOff {s : State} (h : PartOn Q s) (e : s.service.state = .handedOver) (c : CardId)
    (f : CableCard → CableCard) : PartOn Q (Machine.modCable s c f) := by
  refine ⟨h.outputs, h.service.congr rfl rfl rfl, h.roles, h.calls,
    ⟨h.greens.fresh, h.greens.service, h.greens.apart⟩, fun o q => ?_, h.table, h.investigations, h.patterns, h.bars⟩
  rw [commandOf_handedOver (s := Machine.modCable s c f) e]
  exact (h.commands o q).trans (commandOf_handedOver e o)

theorem PartOn.cancelAll {s : State} (h : PartOn Q s) (e : s.service.state = .handedOver) : PartOn Q (cancelAll s) := by
  refine ⟨h.outputs, h.service.congr rfl rfl rfl, h.roles, h.calls,
    ⟨h.greens.fresh, h.greens.service, h.greens.apart⟩, fun o q => ?_, h.table, fun i j v w ei _ _ => ?_, h.patterns, h.bars⟩
  · rw [commandOf_handedOver (s := Machine.cancelAll s) e]
    exact (h.commands o q).trans (commandOf_handedOver e o)
  · simp [Machine.cancelAll] at ei

theorem PartOn.dropFromSlot {s : State} (h : PartOn Q s) (c : CardId) (i : InvSlot) : PartOn Q (dropFromSlot c i s) := by
  unfold Machine.dropFromSlot
  split
  · rename_i v e
    split
    · exact h.abandonSlot i
    · exact h.keepInvestigation i v _ e rfl
  · exact h

theorem PartOn.dropCard {s : State} (h : PartOn Q s) (e : s.service.state = .handedOver) (c : CardId) :
    PartOn Q (dropCard c s) := by
  unfold Machine.dropCard
  simp only
  exact eachOf_keeps _ _ (fun i _ hu => hu.dropFromSlot c i) _
    (eachOf_keeps _ _ (fun o _ hu => (hu.modFeeder o _).endFault _ _) _
      (((h.modCableOff e c _).endFault _ _).endFault _ _))

end Sys2Proof.Machine
end

