-- ==== Sys2Proof/Laws/CardLine.lean ====
section
/-! SUPPORT. The operations of the measurement engine and of the card line controller, each with the one lemma that it
keeps the part's invariant. -/

set_option linter.unusedSimpArgs false

namespace Sys2Proof.Machine

variable {Q : OutputId → Prop}

/-! ### Records that no invariant reads -/

theorem PartOn.modCore {s : State} (h : PartOn Q s) (o : OutputId) (f : CoreRec → CoreRec) : PartOn Q (modCore s o f) :=
  h.setEngine _

theorem PartOn.modRes {s : State} (h : PartOn Q s) (c : CardId) (f : ResRec → ResRec) : PartOn Q (modRes s c f) :=
  h.setEngine _

theorem PartOn.modCard {s : State} (h : PartOn Q s) (c : CardId) (f : CardRec → CardRec) : PartOn Q (modCard s c f) :=
  h.setLine _ h.patterns

theorem PartOn.modLine {s : State} (h : PartOn Q s) (l : LineId) (f : LineRec → LineRec) : PartOn Q (modLine s l f) :=
  h.setLine _ h.patterns

theorem PartOn.modMains {s : State} (h : PartOn Q s) (f : Mains → Mains) : PartOn Q (modMains s f) :=
  h.setLine _ h.patterns

theorem PartOn.modSlot {s : State} (h : PartOn Q s) (f : Slot → Slot) : PartOn Q (modSlot s f) := h.modExchange _

theorem PartOn.restartAll {s : State} (h : PartOn Q s) : PartOn Q (restartAll s) := h.setEngine _

theorem PartOn.ageHistory {s : State} (h : PartOn Q s) (n : CycleNo) : PartOn Q (ageHistory n s) := h.setEngine _

theorem PartOn.forget {s : State} (h : PartOn Q s) (p : OutputId → Bool) : PartOn Q (forget p s) := h.setEngine _

theorem PartOn.restartCard {s : State} (h : PartOn Q s) (c : CardId) : PartOn Q (restartCard c s) := by
  unfold Machine.restartCard
  exact PartOn.modRes (eachOf_keeps (P := PartOn Q) _ _ (fun o _ hu => hu.modCore o _) s h) c _

/-- The proving fields of every output replaced but for its proving state and its command. -/
theorem PartOn.mapOutputs {s : State} (h : PartOn Q s) (O : Vector OutputProof 64)
    (hs : ∀ p : OutputId, O[p].state = s.proving.outputs[p].state)
    (hc : ∀ p : OutputId, O[p].commanded = s.proving.outputs[p].commanded) :
    PartOn Q { s with proving := { s.proving with outputs := O } } := by
  refine ⟨h.outputs, h.service.congr rfl rfl rfl, h.roles, h.calls,
    ⟨fun g => ?_, h.greens.service, h.greens.apart⟩, fun p q => (hc p).trans (h.commands p q), h.table,
    h.investigations, h.patterns, h.bars⟩
  exact (h.greens.fresh g).trans (exposedNow_congr (s := s)
    (t := { s with proving := { s.proving with outputs := O } }) rfl rfl g rfl hs).symm

/-! ### Measurements (R50 to R58) -/

theorem PartOn.settleOverrange {s : State} (h : PartOn Q s) (x : Subject) (b : Bool) (n : Int) :
    PartOn Q (settleOverrange x b n s) := by
  unfold Machine.settleOverrange
  split
  · exact h.post _ _ _ _
  · exact h.endFault _ _

theorem PartOn.settleReversed {s : State} (h : PartOn Q s) (m : CoreMeas) : PartOn Q (settleReversed m s) := by
  unfold Machine.settleReversed
  split
  · exact h.post _ _ _ _
  · split
    · exact h.endFault _ _
    · exact h

theorem PartOn.completeCore {s : State} (h : PartOn Q s) (o : OutputId) (b : Bool) (n : CycleNo) :
    PartOn Q (completeCore o b n s) := by
  unfold Machine.completeCore
  simp only
  refine PartOn.modExchange ?_ _
  have p := PartOn.prove (PartOn.settleReversed (PartOn.settleOverrange (h.modCore o fun c =>
    { c with acc := completedAccum c.acc, figures := some (figuresOf s.engine.cores[o].acc) })
      (.output o) s.engine.cores[o].acc.overrange (figuresOf s.engine.cores[o].acc).ip)
      (measurementOf s o b s.engine.cores[o].acc.overrange (figuresOf s.engine.cores[o].acc) n))
      (measurementOf s o b s.engine.cores[o].acc.overrange (figuresOf s.engine.cores[o].acc) n)
  split
  · exact p.modCore _ _
  · exact p

theorem PartOn.completeResidualMeas {s : State} (h : PartOn Q s) (c : CardId) : PartOn Q (completeResidualMeas c s) := by
  unfold Machine.completeResidualMeas
  simp only
  exact PartOn.modExchange (PartOn.settleOverrange (h.modRes c _) _ _ _) _

theorem PartOn.deliveredCore {s : State} (h : PartOn Q s) (o : OutputId) (b : Bool) (c : Option Bool) (n : CycleNo)
    (xs : List Int) : PartOn Q (deliveredCore o b c n xs s) := by
  unfold Machine.deliveredCore
  simp only
  refine PartOn.countSense ?_ _ _
  have p : PartOn Q (Machine.modCore (setHistory o n (some b) (Machine.storeApplied o b (Machine.checkEcho o b c s))) o
      fun r => { r with acc := takeSamples r.acc b n xs }) := ((((h.checkEcho o b c).storeApplied o b).modCore o _).modCore o _)
  split
  · exact p.completeCore o b n
  · exact p

theorem PartOn.missingCore {s : State} (h : PartOn Q s) (o : OutputId) (n : CycleNo) : PartOn Q (missingCore o n s) :=
  PartOn.countSense ((h.modCore o _).modCore o _) _ _

theorem PartOn.residualWindow {s : State} (h : PartOn Q s) (c : CardId) (xs : List Bool) (n : CycleNo) (ys : List Int) :
    PartOn Q (residualWindow c xs n ys s) := by
  unfold Machine.residualWindow
  simp only
  split
  · exact (h.modRes c _).completeResidualMeas c
  · exact h.modRes c _

/-- A window taken keeps the part's invariant (R50). -/
theorem PartOn.takeWindow {s : State} (h : PartOn Q s) (c : CardId) (w : Window) : PartOn Q (takeWindow c w s) := by
  unfold Machine.takeWindow
  simp only
  refine PartOn.residualWindow (eachOf_keeps (P := PartOn Q) _ _ (fun o u hu => ?_) s h) _ _ _ _
  split
  · exact hu.deliveredCore _ _ _ _ _
  · exact hu.missingCore _ _

theorem PartOn.missingWindow {s : State} (h : PartOn Q s) (c : CardId) (n : CycleNo) : PartOn Q (missingWindow c n s) :=
  PartOn.modRes (eachOf_keeps (P := PartOn Q) _ _ (fun o _ hu => hu.missingCore o n) s h) c _

/-! ### Cards and lines (R39 to R44) -/

theorem PartOn.goodReply {s : State} (h : PartOn Q s) (c : CardId) : PartOn Q (goodReply c s) := by
  unfold Machine.goodReply
  simp only
  split
  · exact h.modCard _ _
  · split
    · exact h.modCard _ _
    · exact PartOn.senseRegainCard ((h.modCard _ _).endFault _ _) _

theorem PartOn.noReply {s : State} (h : PartOn Q s) (c : CardId) : PartOn Q (noReply c s) := by
  unfold Machine.noReply
  simp only
  have p := h.modCard c fun r => { r with missing := min 255 (r.missing + 1), goodRun := 0 }
  split
  · split
    · exact PartOn.senseLoseCard ((p.post _ _ _ _).modCard _ _) _
    · exact p.post _ _ _ _
  · exact p

theorem PartOn.settleMismatch {s : State} (h : PartOn Q s) (c : CardId) (a b : Verdict) (t : Bool) :
    PartOn Q (settleMismatch c a b t s) := by
  unfold Machine.settleMismatch
  simp only
  split
  · split
    · exact h.modCard _ _
    · exact (h.modCard _ _).post _ _ _ _
  · split
    · exact (h.modCard _ _).endFault _ _
    · exact h

theorem PartOn.clearFaultedRuns {s : State} (h : PartOn Q s) (l : LineId) : PartOn Q (clearFaultedRuns l s) :=
  h.setLine _ h.patterns

theorem PartOn.jam {s : State} (h : PartOn Q s) (l : LineId) : PartOn Q (jam l s) := by
  unfold Machine.jam
  simp only
  have p := (PartOn.clearFaultedRuns (h.modLine l fun r => { r with state := .jammed, goodRun := 0 }) l).post
    .lineJammed (.line l) false none
  split
  · exact h
  · split
    · exact p.endFault _ _
    · exact p

theorem PartOn.countCopy {s : State} (h : PartOn Q s) (l : LineId) (c : CardId) (k : CopyClass) :
    PartOn Q (countCopy l c k s) := by
  unfold Machine.countCopy
  split
  · exact PartOn.modCard (h.modLine l _) _ _
  · exact PartOn.modCard (h.modLine l _) _ _
  · exact h

theorem PartOn.settleLine {s : State} (h : PartOn Q s) (l : LineId) (b : Bool) : PartOn Q (settleLine l b s) := by
  unfold Machine.settleLine
  simp only
  split
  · split
    · exact PartOn.post (h.modLine l _) _ _ _ _
    · exact h
  · split
    · exact PartOn.endFault (PartOn.clearFaultedRuns (h.modLine l _) l) _ _
    · exact h
  · split
    · exact PartOn.endFault (PartOn.clearFaultedRuns (h.modLine l _) l) _ _
    · exact h

/-! ### Slots and exchanges (R35, R37, R45) -/

theorem PartOn.notifyMissing {s : State} (h : PartOn Q s) (c : CardId) (n : CycleNo) :
    PartOn Q (notifyMissing c n s) := by
  unfold Machine.notifyMissing
  split
  · exact h.missingWindow c n
  · exact h

theorem PartOn.acceptWindow {s : State} (h : PartOn Q s) (x : Slot) (w : Window) : PartOn Q (acceptWindow x w s) := by
  unfold Machine.acceptWindow
  simp only
  have p := h.modSlot fun x => { x with took := true }
  refine PartOn.modCard ?_ _ _
  split
  · exact p.takeWindow _ _
  · exact p

/-- The close of a slot keeps the part's invariant (R35). -/
theorem PartOn.closeSlot {s : State} (h : PartOn Q s) (x : Slot) : PartOn Q (closeSlot x s) := by
  unfold Machine.closeSlot
  simp only
  refine PartOn.modExchange ?_ _
  have p := h.modCard x.card fun r => { r with lastSlotTook := x.took }
  have q : PartOn Q (if x.took then Machine.goodReply x.card (Machine.modCard s x.card fun r =>
      { r with lastSlotTook := x.took }) else Machine.noReply x.card (Machine.modCard s x.card fun r =>
      { r with lastSlotTook := x.took })) := by
    split
    · exact p.goodReply _
    · exact p.noReply _
  revert q
  generalize (if x.took then Machine.goodReply x.card (Machine.modCard s x.card fun r =>
      { r with lastSlotTook := x.took }) else Machine.noReply x.card (Machine.modCard s x.card fun r =>
      { r with lastSlotTook := x.took })) = u
  intro q
  have r := fun k l a b => PartOn.settleLine (PartOn.countCopy (PartOn.settleLine (PartOn.countCopy
    (PartOn.settleMismatch q x.card (finalVerdict s x .a) (finalVerdict s x .b) x.took) .a x.card k) .a a) .b x.card l) .b b
  split
  · exact r _ _ _ _
  · exact PartOn.notifyMissing (r _ _ _ _) _ _

theorem PartOk.endExchange {s : State} (h : PartOk s) : PartOk (endExchange s) :=
  PartOk.deliver (h.whole.modExchange _).ok

theorem PartOk.endIfDone {s : State} (h : PartOk s) : PartOk (endIfDone s) := by
  unfold Machine.endIfDone
  simp only
  split
  · exact h.endExchange
  · exact h

theorem PartOk.cutShort {s : State} (h : PartOk s) : PartOk (cutShort s) := by
  unfold Machine.cutShort
  simp only
  split
  · have p := ((eachOf_keeps (P := PartOn fun _ => True) (s.line.exchange.toPoll.filter fun c => s.line.cards[c].configured)
      (fun c t => Machine.notifyMissing c (cycleBack s.line.mains.c 1) (Machine.noReply c t))
      (fun c _ hu => (hu.noReply c).notifyMissing c _) s h.whole).modSlot fun x => { x with old := true }).ok
    split
    · exact p.deliver
    · exact p
  · exact h

/-- A cycle start keeps the part's invariant (R27, R45). -/
theorem PartOk.cycleStart {s : State} (h : PartOk s) : PartOk (cycleStart s) := by
  unfold Machine.cycleStart
  simp only
  exact PartOn.ok (PartOn.modExchange (PartOn.ageHistory (h.cutShort.whole.modMains _) _) _)

/-! ### Mains (R26 to R29) -/

/-- The loss of the mains keeps the part's invariant (R28). -/
theorem PartOn.loseMains {s : State} (h : PartOn Q s) : PartOn Q (loseMains s) := by
  unfold Machine.loseMains
  simp only
  refine PartOn.mapOutputs (PartOn.restartAll (PartOn.handover (h.modMains _) _ _)) _ (fun p => ?_) fun p => ?_
  · rw [vgen_get]
  · rw [vgen_get]

theorem PartOn.countPeriod {s : State} (h : PartOn Q s) (n : Nat) : PartOn Q (countPeriod n s) := by
  unfold Machine.countPeriod
  split
  · simp only
    split
    · exact PartOn.modMains (h.modMains _) _
    · exact h.modMains _
  · simp only
    split
    · exact PartOn.loseMains (h.modMains _)
    · exact h.modMains _

theorem PartOk.crossing {s : State} (h : PartOk s) (a b : Nat) : PartOk (crossing a b s) := by
  unfold Machine.crossing
  split
  · split
    · exact h
    · simp only
      split
      · exact (h.whole.countPeriod a).ok.cycleStart
      · exact (h.whole.countPeriod a).ok
  · exact (h.whole.modMains _).ok

/-! ### Frames sent and received (R32, R33, R36) -/

theorem PartOn.sendFrame {s : State} (h : PartOn Q s) (xs : List Byte) : PartOn Q (sendFrame xs s) := by
  unfold Machine.sendFrame
  simp only
  have put : ∀ (l : LineId) (u : State), PartOn Q u →
      PartOn Q (if (u.line.lines.get l).state == .jammed then u else Machine.modLine u l fun r => { r with sent := xs }) := by
    intro l u hu
    split
    · exact hu
    · exact hu.modLine _ _
  exact put .b _ (put .a s h)

/-- The SWITCH of a cycle keeps the part's invariant (R33). -/
theorem PartOk.sendSwitch {s : State} (h : PartOk s) : PartOk (sendSwitch s) := by
  unfold Machine.sendSwitch
  simp only
  have p := h.whole.sendFrame (switchFrame (cycleNext s.line.mains.c) (carriedStates s))
  refine PartOk.endIfDone (PartOn.ok (PartOn.modExchange (PartOn.setLine p _ ?_) _))
  simp only [List.length_cons, List.length_take]
  omega

theorem PartOn.openSlot {s : State} (h : PartOn Q s) (c : CardId) (xs : List CardId) : PartOn Q (openSlot c xs s) := by
  unfold Machine.openSlot
  simp only
  exact PartOn.modExchange (h.sendFrame _) _

theorem PartOn.receiveFrame {s : State} (h : PartOn Q s) (l : LineId) (rx : RxFrame) (x : Slot) :
    PartOn Q (receiveFrame l rx x s) := by
  unfold Machine.receiveFrame
  simp only
  split
  · split
    · exact h.modSlot _
    · exact h
  · split
    · exact h
    · split
      · exact PartOn.acceptWindow (h.modSlot _) _ _
      · exact h.modSlot _

theorem PartOn.jamLine {s : State} (h : PartOn Q s) (l : LineId) : PartOn Q (jamLine l s) := (h.jam l).modSlot _

end Sys2Proof.Machine
end

