-- ==== Sys2Proof/Laws/Commands.lean ====
section
/-! SUPPORT. What the commands share: the taking of a request, the judging of timers and holds, the timing unit, the
installation of a table and the changes of service state, each with the one lemma that it keeps the part's invariant. -/

set_option linter.unusedSimpArgs false

namespace Sys2Proof.Machine

variable {Q : OutputId → Prop}

/-! ### Requests (R200 to R206) -/

theorem PartOn.modPort {s : State} (h : PartOn Q s) (l : Link) (f : Port → Port) : PartOn Q (modPort s l f) :=
  ⟨h.outputs, h.service.congr rfl rfl rfl, h.roles, h.calls,
    ⟨h.greens.fresh, h.greens.service, h.greens.apart⟩, h.commands, h.table, h.investigations, h.patterns, h.bars⟩

theorem PartOn.modInput {s : State} (h : PartOn Q s) (i : InputId) (f : Input → Input) : PartOn Q (modInput s i f) :=
  ⟨h.outputs, h.service.congr rfl rfl rfl, h.roles, h.calls,
    ⟨h.greens.fresh, h.greens.service, h.greens.apart⟩, h.commands, h.table, h.investigations, h.patterns, h.bars⟩

/-- A request keeps the part's invariant where its handling does (R200, R203). -/
theorem PartOn.takeRequest {s : State} (h : PartOn Q s) (l : Link) (code : Byte) (f : Fields) (handle : State → Answer)
    (hh : ∀ u, PartOn Q u → PartOn Q (handle u).state) : PartOn Q (takeRequest l code f handle s) := by
  unfold Machine.takeRequest
  simp only
  refine PartOn.modPort ?_ l _
  have p : PartOn Q (receive l code f s) := h.modPort l _
  split
  · exact hh _ p
  · exact p

/-- A read keeps the part's invariant (R206). -/
theorem PartOn.readItem {s : State} (h : PartOn Q s) (l : Link) (code : Byte) (f : Fields)
    (item : State → Option (List Word16)) : PartOn Q (readItem l code f item s).state := by
  unfold Machine.readItem
  split
  · split
    · rename_i words _
      exact h.modPort l fun p =>
        { p with snapshot := some { code := code, subject := f.subject, index := f.index, words := words } }
    · exact h
  · split
    · exact h
    · split <;> exact h

/-! ### Timers that follow HOLD and the inputs (R160, R169, R144) -/

theorem PartOn.judgeFeedback {s : State} (h : PartOn Q s) : PartOn Q (judgeFeedback s) :=
  ⟨h.outputs, ⟨h.service.stopped, h.service.starting, h.service.serving, h.service.active, h.service.timed⟩, h.roles, h.calls,
    ⟨h.greens.fresh, h.greens.service, h.greens.apart⟩, h.commands, h.table, h.investigations, h.patterns, h.bars⟩

theorem judgeKeys_stopped {s : State} (e : s.service.state = .handedOver) : (judgeKeys s).service.twoKey = none := by
  simp [judgeKeys, modService, e]

theorem PartBut.judgeKeys {s : State} (h : PartBut Q s) : PartBut Q (judgeKeys s) :=
  ⟨h.outputs,
    ⟨fun e => by
      obtain ⟨a, b, c, d, f, _⟩ := h.service.stopped e
      exact ⟨a, b, c, d, f, judgeKeys_stopped e⟩, h.service.starting, h.service.serving, h.service.active, h.service.timed⟩,
    h.roles, h.calls, h.fresh, h.live, h.commands, h.table, h.investigations, h.patterns, h.bars⟩

theorem PartOn.judgeKeys {s : State} (h : PartOn Q s) : PartOn Q (judgeKeys s) :=
  h.but.judgeKeys.ok h.greens.apart

theorem PartOn.holdJudged {s : State} (h : PartOn Q s) (b : Bool) : PartOn Q (holdJudged b s) := by
  unfold Machine.holdJudged
  split
  · exact h
  · exact h.decision

/-- The sequencer changed outside HANDED_OVER but for its phase, its groups, its unit count and its bars. -/
theorem PartOn.modSeqAwake {s : State} (h : PartOn Q s) (n : s.service.state ≠ .handedOver) (f : Sequencer → Sequencer)
    (hp : (f s.seq).phase = s.seq.phase) (hg : (f s.seq).groups = s.seq.groups) (hu : (f s.seq).units = s.seq.units)
    (hc : (f s.seq).calls.length ≤ 4 ∧ ((f s.seq).calls.map (·.stage)).Nodup)
    (hb : (f s.seq).bars = s.seq.bars := by rfl) : PartOn Q (modSeq s f) := by
  have a : ∀ g : GroupId, (Machine.modSeq s f).seq.groups[g].aspect = s.seq.groups[g].aspect := fun g => by
    show (f s.seq).groups[g].aspect = _
    rw [hg]
  refine ⟨h.outputs, ⟨fun e => absurd e n, fun e => ?_, fun e => ?_, h.service.active, h.service.timed⟩, h.roles, hc,
    ⟨fun g => ?_, fun _ _ => n, h.greens.apart⟩, fun o q => ?_, h.table, h.investigations, h.patterns, hb.trans h.bars⟩
  · obtain ⟨p, q, r⟩ := h.service.starting e
    refine ⟨hp.trans p, q, fun g => ?_⟩
    show groupStopped (f s.seq).units (f s.seq).groups[g] = (f s.seq).groups[g]
    rw [hg, hu]
    exact r g
  · show (f s.seq).phase = _ ∨ (f s.seq).phase = _
    rw [hp]
    exact h.service.serving e
  · rw [exposedNow_congr (s := s) (t := Machine.modSeq s f) rfl rfl g (a g) fun _ => rfl]
    exact h.greens.fresh g
  · rw [commandOf_congr (s := s) (t := Machine.modSeq s f) rfl rfl rfl a o]
    exact h.commands o q

/-- A demand taken in STARTING or SERVICE keeps the part's invariant (R139). -/
theorem PartOn.takeDemand {s : State} (h : PartOn Q s) (e : s.service.state ≠ .handedOver) (n : StageId) :
    PartOn Q (takeDemand n s) := by
  unfold Machine.takeDemand
  split
  · exact h
  · exact PartOn.decision (h.modSeqAwake e _ rfl rfl rfl h.calls)

/-! ### The timing unit (R124, R149) -/

theorem tickSequencer_stopped {q : Sequencer} (h : sequencerStopped q = q) :
    sequencerStopped (tickSequencer q) = tickSequencer q := by
  have e : (tickSequencer (sequencerStopped q)).groups = (sequencerStopped (tickSequencer (sequencerStopped q))).groups := by
    apply vext
    intro g
    simp only [tickSequencer, sequencerStopped, vgen_get]
    simp [groupStopped]
  rw [← h]
  generalize hv : (sequencerStopped (tickSequencer (sequencerStopped q))).groups = v at e
  have : sequencerStopped (tickSequencer (sequencerStopped q)) =
      { tickSequencer (sequencerStopped q) with groups := v } := by
    rw [← hv]
    simp [tickSequencer, sequencerStopped]
  rw [this, ← e]

theorem tickSequencer_aspect (q : Sequencer) (g : GroupId) : (tickSequencer q).groups[g].aspect = q.groups[g].aspect := by
  unfold tickSequencer
  simp only
  rw [vgen_get]

theorem tickSequencer_calls (q : Sequencer) :
    (tickSequencer q).calls.length = q.calls.length ∧ (tickSequencer q).calls.map (·.stage) = q.calls.map (·.stage) := by
  unfold tickSequencer
  simp only
  split
  · exact ⟨rfl, rfl⟩
  · exact ⟨by simp, by simp [List.map_map, Function.comp_def]⟩

theorem PartOn.tickSequencer {s : State} (h : PartOn Q s) : PartOn Q (modSeq s tickSequencer) := by
  have a : ∀ g : GroupId, (modSeq s Machine.tickSequencer).seq.groups[g].aspect = s.seq.groups[g].aspect :=
    tickSequencer_aspect s.seq
  refine ⟨h.outputs, ⟨fun e => ?_, fun e => ?_, h.service.serving, h.service.active, h.service.timed⟩, h.roles, ?_,
    ⟨fun g => ?_, fun g e => h.greens.service g ((a g).symm.trans e), h.greens.apart⟩, fun o q => ?_, h.table,
    h.investigations, h.patterns, h.bars⟩
  · obtain ⟨p, r⟩ := h.service.stopped e
    exact ⟨tickSequencer_stopped p, r⟩
  · obtain ⟨p, q, r⟩ := h.service.starting e
    refine ⟨p, q, fun g => ?_⟩
    have k := r g
    show groupStopped (s.seq.units + 1) (Machine.tickSequencer s.seq).groups[g] = (Machine.tickSequencer s.seq).groups[g]
    simp only [Machine.tickSequencer, vgen_get]
    rw [← k]
    simp [groupStopped]
  · obtain ⟨x, y⟩ := tickSequencer_calls s.seq
    show (Machine.tickSequencer s.seq).calls.length ≤ 4 ∧ ((Machine.tickSequencer s.seq).calls.map (·.stage)).Nodup
    rw [x, y]
    exact h.calls
  · rw [exposedNow_congr (s := s) (t := modSeq s Machine.tickSequencer) rfl rfl g (a g) fun _ => rfl]
    exact h.greens.fresh g
  · rw [commandOf_congr (s := s) (t := modSeq s Machine.tickSequencer) rfl rfl rfl a o]
    exact h.commands o q

theorem PartOn.tickService {s : State} (h : PartOn Q s) : PartOn Q (modService s tickService) := by
  refine ⟨h.outputs, ⟨fun e => ?_, h.service.starting, h.service.serving, fun n => ?_, fun e => ?_, fun e => ?_,
    fun n => ?_⟩, h.roles, h.calls,
    ⟨h.greens.fresh, h.greens.service, h.greens.apart⟩, h.commands, h.table, h.investigations, h.patterns, h.bars⟩
  · obtain ⟨a, b, c, d, f, g⟩ := h.service.stopped e
    refine ⟨a, b, c, ?_, ?_, ?_⟩
    · show tick s.service.start = none; rw [d]; rfl
    · show tick s.service.vouch = none; rw [f]; rfl
    · show tick s.service.twoKey = none; rw [g]; rfl
  · obtain ⟨a, b⟩ := h.service.active n
    refine ⟨?_, b⟩
    show tick s.service.offer = none
    rw [a]; rfl
  · show (tick s.service.start).isSome = true
    unfold tick
    rw [Option.isSome_map]
    exact h.service.timed.1 e
  · show tick s.service.start = none
    rw [h.service.timed.2.1 e]; rfl
  · show (tick s.service.vouch).isSome = true
    unfold tick
    rw [Option.isSome_map]
    exact h.service.timed.2.2 n

theorem PartOn.tickCable {s : State} (h : PartOn Q s) :
    PartOn Q { s with cable := { s.cable with cards := vgen fun c => tickCable s.cable.cards[c] } } := by
  refine ⟨h.outputs, h.service.congr rfl rfl rfl, h.roles, h.calls,
    ⟨h.greens.fresh, h.greens.service, h.greens.apart⟩, fun o q => ?_, h.table, h.investigations, h.patterns, h.bars⟩
  refine (h.commands o q).trans ?_
  unfold commandOf
  simp only [vgen_get]
  rfl

/-- Outside HANDED_OVER a plan is active, and only there. -/
theorem PartOn.awake_of_active {s : State} (h : PartOn Q s) (n : s.plans.active ≠ none) :
    s.service.state ≠ .handedOver := fun e => n (h.service.stopped e).2.1

theorem PartOn.reportWrap {s : State} (h : PartOn Q s) (n : s.service.state ≠ .handedOver) : PartOn Q (reportWrap s) := by
  refine ⟨h.outputs, ⟨fun e => absurd e n, fun e => ?_, h.service.serving, h.service.active, h.service.timed⟩, fun p u => ?_, h.calls,
    ⟨h.greens.fresh, h.greens.service, h.greens.apart⟩, h.commands, h.table, h.investigations, h.patterns, h.bars⟩
  · obtain ⟨a, b, c⟩ := h.service.starting e
    refine ⟨a, ?_, c⟩
    show s.plans.pending.map _ = none
    rw [b]; rfl
  · refine h.roles p ?_
    revert u
    unfold planInUse Machine.reportWrap modPlans
    simp only
    cases s.plans.pending <;> exact fun u => u

theorem PartOn.passPoints {s : State} (h : PartOn Q s) (n : s.service.state ≠ .handedOver) (f : Nat → Bool) :
    PartOn Q (passPoints f s) := by
  unfold Machine.passPoints
  split
  · split
    · split
      · exact h.modSeqAwake n _ rfl rfl rfl h.calls
      · exact h
    · exact h
  · exact h

theorem positionNow_none {s : State} (e : s.plans.active = none) : positionNow s = none := by
  simp [positionNow, activePlan, e]

/-- The cycle position recomputed (R149). -/
theorem PartOn.position {s : State} (h : PartOn Q s) : PartOn Q (modSeq s fun q => { q with position := positionNow s }) := by
  by_cases e : s.service.state = .handedOver
  · obtain ⟨a, b, _⟩ := h.service.stopped e
    have k : s.seq.position = none := by rw [← a]; rfl
    have : (modSeq s fun q => { q with position := positionNow s }) = s := by
      rw [positionNow_none b]
      show { s with seq := { s.seq with position := none } } = s
      rw [← k]
    rw [this]
    exact h
  · exact h.modSeqAwake e _ rfl rfl rfl h.calls

theorem PartOn.advancePosition {s : State} (h : PartOn Q s) : PartOn Q (advancePosition s) := by
  unfold Machine.advancePosition
  simp only
  have p := h.position
  split
  · rename_i x e
    have n : s.service.state ≠ .handedOver := fun k => by
      rw [positionNow_none (h.service.stopped k).2.1] at e; cases e
    split
    · split
      · exact PartOn.passPoints (p.reportWrap n) n _
      · exact p.passPoints n _
    · exact p.passPoints n _
  · exact p

/-- A timing unit keeps the part's invariant (R124). -/
theorem PartOn.timingUnit {s : State} (h : PartOn Q s) : PartOn Q (timingUnit s) :=
  PartOn.decision (PartOn.advancePosition (PartOn.tickCable (PartOn.tickService h.tickSequencer)))

/-! ### Commands and exposures composed afresh (R66, R79) -/

/-- A state composed and exposed afresh has every command and exposure that R66 and R79 give. -/
theorem partBut_afresh {s : State} (outputs : OutputsFollow s) (service : ServiceOk s) (roles : RolesReady s)
    (calls : CallsOk s) (live : ∀ g : GroupId, s.seq.groups[g].aspect = .green → s.service.state ≠ .handedOver)
    (table : TableOk s.faults) (investigations : InvestigationsOk s) (patterns : PatternsOk s) (bars : BarsFresh s) :
    PartBut (fun _ => True) (reexposeAll (recomposeAll s)) := by
  refine ⟨outputs, ⟨service.stopped, service.starting, service.serving, service.active, service.timed⟩, roles, calls,
    fun g => ?_, live, fun o _ => ?_, table, investigations, patterns,
    bars.stays ((stays_recompose _ s).trans (stays_reexposeAll _)) rfl⟩
  · have e : (reexposeAll (recomposeAll s)).proving.groups[g].exposed = exposedNow (recomposeAll s) g := by
      simp only [reexposeAll, vgen_get]
    rw [e]
    exact (exposedNow_congr (s := recomposeAll s) (t := reexposeAll (recomposeAll s)) rfl rfl g rfl fun _ => rfl).symm
  · show (recomposeAll s).proving.outputs[o].commanded = _
    simp only [recomposeAll, recompose, vgen_get, if_true]
    rfl

/-- Composing and exposing afresh leave the bars to be recomputed as they were. -/
theorem recomputeBars_afresh (s : State) :
    recomputeBars (reexposeAll (recomposeAll s)) = reexposeAll (recomposeAll (recomputeBars s)) := by
  have e : barsNow (reexposeAll (recomposeAll s)) = barsNow s :=
    barsNow_congr rfl rfl ((stays_recompose _ s).trans (stays_reexposeAll _)).reds
  unfold recomputeBars
  rw [e]
  rfl

/-! ### Installation and the stage table (R16 to R19, R23, R24) -/

/-- The installation of a table keeps the part's invariant (R16, R19, R82). -/
theorem PartOk.install {s : State} (h : PartOk s) (e : s.service.state = .handedOver) (t : SafetyTable) :
    PartOk (install t s) := by
  unfold Machine.install
  simp only
  refine PartOn.ok (eachOf_keeps (P := fun u => PartOn (fun _ => True) (Machine.recomputeBars u)) _ _
    (fun g u hu => ?_) _ ?_)
  · split
    · exact hu.setRed_rebarred g _
    · exact hu
  · rw [recomputeBars_afresh]
    refine PartBut.ok (partBut_afresh ?_ ?_ h.roles h.calls h.greens.service h.table h.investigations h.patterns rfl) ?_
    · exact ⟨h.outputs.1, rfl⟩
    · exact ⟨(h.service.rebarred _).stopped, h.service.starting, h.service.serving, h.service.active, h.service.timed⟩
    · exact fun n => absurd e n

/-- A stage record written keeps the part's invariant (R23, R24, R145). -/
theorem PartOn.setStage {s : State} (h : PartOn Q s) (n : StageId) (r : StageRec) : PartOn Q (setStage n r s) := by
  have v := h.service.rebarred (barsNow { s with stages := s.stages.set n r })
  exact ⟨h.outputs, ⟨v.stopped, v.starting, v.serving, v.active, v.timed⟩, h.roles, h.calls,
    ⟨h.greens.fresh, h.greens.service, h.greens.apart⟩, h.commands, h.table, h.investigations, h.patterns, rfl⟩

/-! ### Changes of service state (R164, R165, R170) -/

/-- Where no plan is pending and the active plan is READY, each plan in a role is READY. -/
theorem rolesReady_active {s : State} {p : PlanId} (hp : s.plans.pending = none) (ha : s.plans.active = some p)
    (hr : s.plans.plans[p].state = .ready) : RolesReady s := by
  intro x u
  unfold planInUse at u
  simp only [hp, ha, Bool.or_false, beq_iff_eq, Option.some.injEq] at u
  exact u ▸ hr

/-- The entry to STARTING, with its conflict check, keeps the part's invariant (R164). -/
theorem PartOk.enterStarting {s : State} (h : PartOk s) (e : s.service.state = .handedOver)
    (r : readyStart s ≠ none) : PartOk (conflictCheck (enterStarting s)) := by
  obtain ⟨q, a, b, _⟩ := h.service.stopped e
  obtain ⟨p, hp⟩ := Option.ne_none_iff_exists'.mp r
  have start : s.plans.start = some p ∧ s.plans.plans[p].state = .ready := by
    unfold readyStart at hp
    obtain ⟨x, y⟩ := Option.filter_eq_some_iff.mp hp
    exact ⟨x, by simpa using y⟩
  obtain ⟨x, y, same⟩ : ∃ x y,
      Machine.enterStarting s =
        Machine.judgeKeys
          (reexposeAll
            (recomposeAll
              { s with
                service :=
                  { s.service with
                    state := .starting, offer := none, start := some (activeTable s).startPeriod
                    vouch := some s.service.checkPeriod, hold := true, changeover := x }
                plans := { s.plans with active := s.plans.start }
                seq := { sequencerStartRed s.seq with position := y } })) := ⟨_, _, rfl⟩
  rw [same]
  refine PartOn.ok (PartBut.checked (PartBut.judgeKeys (partBut_afresh ?_ ?_ ?_ ?_ ?_ h.table h.investigations h.patterns
    (h.bars.congr rfl rfl rfl fun _ => rfl))))
  · exact ⟨rfl, h.outputs.2⟩
  · refine ⟨fun k => (by cases k), fun _ => ⟨rfl, b, fun g => ?_⟩, fun k => (by cases k), fun _ => ⟨rfl, ?_⟩, ?_⟩
    · show groupStopped s.seq.units (sequencerStartRed s.seq).groups[g] = (sequencerStartRed s.seq).groups[g]
      simp only [sequencerStartRed]
      rw [vgen_get]
      exact groupStopped_idem _ _ _
    · show s.plans.start.isSome = true
      rw [start.1]; rfl
    · exact ⟨fun _ => rfl, nofun, fun _ => rfl⟩
  · exact rolesReady_active (p := p) b start.1 start.2
  · exact h.calls
  · intro g _ k; cases k

/-- The start of service from an empty current set keeps the part's invariant (R151). -/
theorem Live.startService {s : State} (h : Live Q s) : PartOn Q (startService s) := by
  unfold Machine.startService
  simp only
  have l : Live Q (Machine.modSeq s fun q => { q with current := 0, resume := some 0 }) :=
    h.modSeq _ (fun _ => rfl) h.calls
  split
  · exact (l.runInterstage _).settled
  · exact Live.ok (l.modSeq _ (fun _ => rfl) l.calls) (Or.inr rfl)

/-- In STARTING no group is GREEN, so becoming SERVICE changes no exposure (R165, R79). -/
theorem PartOk.served {s v : State} (h : PartOk s) (e : s.service.state = .starting)
    (hv : v = { s with service := { s.service with start := none, state := .service } }) :
    Live (fun _ => True) (reexposeAll (recomposeAll v)) := by
  have n : s.service.state ≠ .handedOver := by rw [e]; decide
  have st : v.service.state = .service := by rw [hv]
  have sa : v.safety = s.safety := by rw [hv]
  have sq : v.seq = s.seq := by rw [hv]
  have pg : v.proving = s.proving := by rw [hv]
  have red : ∀ g : GroupId, (v.seq.groups[g].aspect == Aspect.green) = false := fun g => by
    have c := (h.service.starting e).2.2 g
    rw [sq, ← c]; rfl
  have outs : ∀ o : OutputId, (recomposeAll v).proving.outputs[o].state = s.proving.outputs[o].state := by
    intro o
    simp only [recomposeAll, recompose, vgen_get, if_true, pg]
  have same : ∀ g : GroupId, exposedNow (recomposeAll v) g = exposedNow s g := by
    intro g
    have serve : ∀ p, serves (recomposeAll v) p g .green = serves s p g .green := by
      intro p
      unfold serves
      rw [outRec_congr (s := s) (t := recomposeAll v) (show v.safety.active = _ by rw [sa])]
    have k : ((recomposeAll v).seq.groups[g].aspect == Aspect.green) = false := red g
    have k' : (s.seq.groups[g].aspect == Aspect.green) = false := by rw [← sq]; exact red g
    unfold exposedNow
    rw [k, k', Bool.false_and, Bool.false_and]
    congr 2
    funext o
    rw [serve, outs o]
  have ex : ∀ g : GroupId,
      (reexposeAll (recomposeAll v)).proving.groups[g].exposed = s.proving.groups[g].exposed := by
    intro g
    rw [h.greens.fresh g, ← same g]
    simp only [reexposeAll, vgen_get]
  have outputs : OutputsFollow v := by
    refine ⟨?_, ?_⟩
    · rw [st, show v.service.hold = s.service.hold by rw [hv], h.outputs.1, e]; rfl
    · rw [sa, show v.service.flsel = s.service.flsel by rw [hv]]; exact h.outputs.2
  have active : v.service.offer = none ∧ v.plans.active.isSome := by
    have a := h.service.active n
    rw [show v.service.offer = s.service.offer by rw [hv], show v.plans = s.plans by rw [hv]]
    exact a
  have roles : RolesReady v := by
    have r := h.roles
    unfold RolesReady planInUse at r ⊢
    rw [show v.plans = s.plans by rw [hv]]
    exact r
  have calls : CallsOk v := by
    have r := h.calls
    unfold CallsOk at r ⊢
    rw [sq]
    exact r
  have table : TableOk v.faults := by rw [show v.faults = s.faults by rw [hv]]; exact h.table
  have inv : InvestigationsOk v := by
    have r := h.investigations
    unfold InvestigationsOk at r ⊢
    rw [show v.cable = s.cable by rw [hv]]
    exact r
  have timed : v.service.start = none ∧ v.service.vouch.isSome := by
    rw [hv]
    exact ⟨rfl, h.service.timed.2.2 n⟩
  have bars : BarsFresh v := by
    rw [hv]
    exact h.bars
  have pat : PatternsOk v := by
    have r := h.patterns
    unfold PatternsOk at r ⊢
    rw [show v.line = s.line by rw [hv]]
    exact r
  clear hv
  refine ⟨⟨st, outputs, active, timed, roles, calls, fun g => ?_, fun o _ => ?_, table, inv, pat,
    bars.stays ((stays_recompose _ v).trans (stays_reexposeAll _)) rfl⟩, fun l g ne k => ?_⟩
  · rw [ex g, h.greens.fresh g, ← same g]
    exact (exposedNow_congr (s := recomposeAll v) (t := reexposeAll (recomposeAll v)) rfl rfl g rfl fun _ => rfl).symm
  · show (recomposeAll v).proving.outputs[o].commanded = _
    simp only [recomposeAll, recompose, vgen_get, if_true]
    rfl
  · rw [ex l, ex g]
    refine h.greens.apart n l g ne ?_
    rw [← k]
    exact (conflict_congr (s := s) (t := reexposeAll (recomposeAll v)) (show v.safety.active = _ by rw [sa]) l g).symm

/-- The start check keeps the part's invariant (R165). -/
theorem PartOk.startCheck {s : State} (h : PartOk s) (e : s.service.state = .starting) : PartOk (startCheck s) := by
  have n : s.service.state ≠ .handedOver := by rw [e]; decide
  unfold Machine.startCheck
  simp only
  split
  · exact handover_ok _ _ _ n h.outputs.2 h.table h.patterns h.bars
  · exact (h.served e rfl).startService.ok

/-! ### SERVICE RESTART and CARD SET (R170, R46) -/

/-- The proving unit at SERVICE RESTART, which HANDED_OVER alone takes (R82). -/
theorem PartOk.provingRestarted {s : State} (h : PartOk s) (e : s.service.state = .handedOver) :
    PartOk (provingRestarted s) := by
  unfold Machine.provingRestarted
  simp only
  refine ⟨h.outputs, ⟨(h.service.rebarred _).stopped, h.service.starting, h.service.serving, h.service.active,
    h.service.timed⟩, h.roles, h.calls, ⟨fun g => ?_, h.greens.service, fun n => absurd e n⟩, fun o => ?_, h.table,
    h.investigations, h.patterns, rfl⟩
  · simp only [Machine.recomputeBars, modSeq_proving, reexposeAll, vgen_get]
    exact (exposedNow_congr (s := _) rfl rfl g rfl fun _ => rfl).symm
  · refine Eq.trans (b := false) ?_ (Eq.symm (commandOf_handedOver ?_ o))
    · simp only [Machine.recomputeBars, modSeq_proving, reexposeAll, vgen_get]
      exact (h.commands o).trans (commandOf_handedOver e o)
    · exact e

/-- The emptied fault table (R197). -/
theorem PartOn.emptied {s : State} (h : PartOn Q s) : PartOn Q { s with faults := emptyTable s.faults } :=
  ⟨h.outputs, h.service.congr rfl rfl rfl, h.roles, h.calls,
    ⟨h.greens.fresh, h.greens.service, h.greens.apart⟩, h.commands, emptyTable_ok _, h.investigations, h.patterns, h.bars⟩

theorem PartOn.repostLine {s : State} (h : PartOn Q s) (l : LineId) : PartOn Q (repostLine l s) := by
  unfold Machine.repostLine
  split
  · exact h
  · exact h.post _ _ _ _
  · exact h.post _ _ _ _

theorem PartOn.repostDoor {s : State} (h : PartOn Q s) (i : InputId) : PartOn Q (repostDoor i s) := by
  unfold Machine.repostDoor
  split
  · exact h.post _ _ _ _
  · exact h

/-- SERVICE RESTART keeps the part's invariant (R170). -/
theorem PartOk.serviceRestart {s : State} (h : PartOk s) (e : s.service.state = .handedOver) :
    PartOk (serviceRestart s) := by
  unfold Machine.serviceRestart
  simp only
  refine eachOf_keeps (P := PartOk) _ _ (fun c u hu => ?_) _ ?_
  · split
    · exact hu
    · exact (hu.whole.senseLoseCard c).ok
  · refine PartOn.ok (eachOf_keeps (P := PartOn fun _ => True) _ _ (fun i u hu => hu.repostDoor i) _
      (PartOn.repostLine (PartOn.repostLine ?_ _) _))
    refine PartOk.whole (PartOk.provingRestarted ?_ e)
    have p : PartOk (Machine.restartAll { Machine.cancelAll { s with faults := emptyTable s.faults } with
        line := { (Machine.cancelAll { s with faults := emptyTable s.faults }).line with
          cards := vgen fun c => cardRestarted s.line.cards[c] } }) :=
      PartOn.ok (PartOn.restartAll (PartOn.setLine (h.whole.emptied.cancelAll e) _ h.patterns))
    exact ⟨p.outputs, ⟨fun k => p.service.stopped k, p.service.starting, p.service.serving,
      fun k => absurd e k, p.service.timed⟩, p.roles, p.calls, ⟨p.greens.fresh, p.greens.service, p.greens.apart⟩, p.commands, p.table,
      p.investigations, p.patterns, p.bars⟩

theorem restartCard_service (c : CardId) (s : State) : (restartCard c s).service = s.service := by
  unfold restartCard
  exact eachOf_keeps (P := fun u => u.service = s.service) (outputsOf c)
    (fun o t => modCore t o fun r => { r with acc := restartAccum r.acc }) (fun _ _ hu => hu) s rfl

/-- CARD SET's present keeps the part's invariant in HANDED_OVER, which alone takes it (R46). -/
theorem PartOk.setPresent {s : State} (h : PartOk s) (e : s.service.state = .handedOver) (c : CardId) (b : Bool) :
    PartOk (setPresent c b s) := by
  unfold Machine.setPresent
  split
  · exact h
  · split
    · exact (h.whole.modCard c _).ok
    · unfold removeCard
      simp only
      have p := PartOn.restartCard (((h.whole.modCard c fun r =>
        { r with
          configured := false, online := false, lastCycle := none, missing := 0, goodRun := 0, mismatch := false,
          faulted := ⟨0, 0⟩, lastSlotTook := false }).endFault .cardSilent (.card c)).endFault .addressMismatch (.card c)) c
      have q := p.dropCard ((congrArg Service.state (restartCard_service c _)).trans e) c
      exact (q.senseLoseRemoved c).ok

end Sys2Proof.Machine
end

