-- ==== Sys2Proof/Laws/Link.lean ====
section
/-! SUPPORT. What the link ports' operations do, said once: a taken frame, a composed response, a request answered, a
request refused for want of a right, and a read. -/

namespace Sys2Proof.Machine

@[simp] theorem receive_pending (l : Link) (code : Byte) (f : Fields) (s : State) :
    (receive l code f s).pending = s.pending := rfl
@[simp] theorem receive_safety (l : Link) (code : Byte) (f : Fields) (s : State) :
    (receive l code f s).safety = s.safety := rfl
@[simp] theorem receive_stages (l : Link) (code : Byte) (f : Fields) (s : State) :
    (receive l code f s).stages = s.stages := rfl
@[simp] theorem receive_line (l : Link) (code : Byte) (f : Fields) (s : State) :
    (receive l code f s).line = s.line := rfl
@[simp] theorem receive_engine (l : Link) (code : Byte) (f : Fields) (s : State) :
    (receive l code f s).engine = s.engine := rfl
@[simp] theorem receive_proving (l : Link) (code : Byte) (f : Fields) (s : State) :
    (receive l code f s).proving = s.proving := rfl
@[simp] theorem receive_cable (l : Link) (code : Byte) (f : Fields) (s : State) :
    (receive l code f s).cable = s.cable := rfl
@[simp] theorem receive_plans (l : Link) (code : Byte) (f : Fields) (s : State) :
    (receive l code f s).plans = s.plans := rfl
@[simp] theorem receive_seq (l : Link) (code : Byte) (f : Fields) (s : State) :
    (receive l code f s).seq = s.seq := rfl
@[simp] theorem receive_service (l : Link) (code : Byte) (f : Fields) (s : State) :
    (receive l code f s).service = s.service := rfl
@[simp] theorem receive_inputs (l : Link) (code : Byte) (f : Fields) (s : State) :
    (receive l code f s).inputs = s.inputs := rfl
@[simp] theorem receive_faults (l : Link) (code : Byte) (f : Fields) (s : State) :
    (receive l code f s).faults = s.faults := rfl

/-- The summary reads nothing of the ports (R202). -/
theorem summaryOf_ports (l : Link) (b : Bool) (s : State) (p : PerLink Port) :
    summaryOf l b { s with ports := p } = summaryOf l b s := rfl

/-- A composed response touches its own port alone. -/
theorem compose_frame (l : Link) (code : Byte) (a : Answer) :
    compose l code a = { a.state with ports := (compose l code a).ports } := rfl

/-- The answer to a request whose handling leaves the ports as the frame left them. -/
theorem compose_answered (l : Link) (code : Byte) (f : Fields) (a : Answer) (s : State)
    (hp : a.state.ports = (receive l code f s).ports) :
    Answered l code f a.result a.value s (compose l code a) := by
  have hs : summaryOf l (s.ports.get l).frameError (compose l code a) =
      summaryOf l (s.ports.get l).frameError a.state := rfl
  constructor
  · cases l <;> simp [compose, modPort, hp, receive, otherLink, PerLink.get, PerLink.set]
  · rw [hs]
    cases l <;> simp [compose, modPort, hp, receive, PerLink.get, PerLink.set]

/-- The answer to a read, whose handling has set its own port's snapshot to x. -/
theorem compose_readAnswered (l : Link) (code : Byte) (f : Fields) (a : Answer) (x : Option Snapshot) (s : State)
    (hp : a.state.ports = (setSnapshot l x (receive l code f s)).ports) :
    ReadAnswered l code f a.result a.value x s (compose l code a) := by
  have hs : summaryOf l (s.ports.get l).frameError (compose l code a) =
      summaryOf l (s.ports.get l).frameError a.state := rfl
  constructor
  · cases l <;> simp [compose, modPort, hp, receive, setSnapshot, otherLink, PerLink.get, PerLink.set]
  · rw [hs]
    cases l <;> simp [compose, modPort, hp, receive, setSnapshot, PerLink.get, PerLink.set]

/-- A granted request, whose handling answers r with v and leaves everything but the ports as in u. -/
theorem responds_of_handled (i : Instr) (l : Link) (code : Byte) (f : Fields) (handle : State → Answer) (s u : State)
    (r : Result) (v : Word16) (he : exec i s = .next (takeRequest l code f handle s)) (hg : granted l code = true)
    (ha : handle (receive l code f s) =
      { result := r, value := v, state := { u with ports := (receive l code f s).ports } }) :
    Responds i l code f r v s u := by
  have e : takeRequest l code f handle s = compose l code (handle (receive l code f s)) := by
    simp only [takeRequest, hg, if_true]
  refine ⟨_, he, ?_, ?_⟩
  · rw [e]
    have := compose_answered l code f (handle (receive l code f s)) s (by rw [ha])
    rw [ha] at this ⊢
    exact this
  · rw [e, compose_frame, ha]

/-- A request over a link without the right to it is refused, and nothing but its port changes (R203). -/
theorem responds_of_noRight (i : Instr) (l : Link) (code : Byte) (f : Fields) (handle : State → Answer) (s : State)
    (he : exec i s = .next (takeRequest l code f handle s)) (hg : granted l code = false) :
    Responds i l code f .refusedRight 0 s s := by
  have e : takeRequest l code f handle s = compose l code (refuse .refusedRight 0 (receive l code f s)) := by
    simp [takeRequest, hg]
  refine ⟨_, he, ?_, ?_⟩
  · rw [e]
    exact compose_answered l code f (refuse .refusedRight 0 (receive l code f s)) s rfl
  · rw [e]
    rfl

/-- A granted read, whose handling answers r with v and sets its port's snapshot to x. -/
theorem reads_of_handled (i : Instr) (l : Link) (code : Byte) (f : Fields) (handle : State → Answer) (s : State)
    (r : Result) (v : Word16) (x : Option Snapshot) (he : exec i s = .next (takeRequest l code f handle s))
    (hg : granted l code = true)
    (ha : handle (receive l code f s) =
      { result := r, value := v, state := setSnapshot l x (receive l code f s) }) :
    Reads i l code f r v x s := by
  have e : takeRequest l code f handle s = compose l code (handle (receive l code f s)) := by
    simp only [takeRequest, hg, if_true]
  refine ⟨_, he, ?_, ?_⟩
  · rw [e]
    have := compose_readAnswered l code f (handle (receive l code f s)) x s (by rw [ha])
    rw [ha] at this ⊢
    exact this
  · rw [e, compose_frame, ha]
    rfl

/-- A snapshot set to the one it is changes nothing. -/
theorem setSnapshot_same (l : Link) (s : State) : setSnapshot l (s.ports.get l).snapshot s = s := by
  cases l <;> rfl

/-- The four answers of a read, where it reads an item (R206). -/
theorem readItem_cases (l : Link) (code : Byte) (f : Fields) (item : State → Option (List Word16)) (s : State) :
    readItem l code f item s =
      if f.value = 0 then
        match item s with
        | some words =>
          { result := .done, value := words.headD 0,
            state := setSnapshot l (some { code := code, subject := f.subject, index := f.index, words := words }) s }
        | none => { result := .badSubject, value := 0, state := s }
      else
        match snapshotWord l code f s with
        | some w => { result := .done, value := w, state := s }
        | none => { result := if (item s).isSome then .badValue else .badSubject, value := 0, state := s } := by
  unfold readItem
  by_cases h : f.value = 0
  · simp only [h, beq_self_eq_true, if_true]
    cases item s <;> rfl
  · have : (f.value == 0) = false := by simpa using h
    simp only [h, this, if_false, Bool.false_eq_true]
    cases snapshotWord l code f s with
    | some w => rfl
    | none => cases item s <;> rfl

end Sys2Proof.Machine
end

