-- ==== Sys2Proof/Tests/Slice0.lean ====
section
/-! SUPPORT. The model's own tests: the well-formedness smoke tests, frames decoded by hand from R200 and R203, one-step
tests, and a witness for the hypotheses of every statement that has any. -/

set_option maxRecDepth 20000
set_option Elab.async false

namespace Sys2Proof.Tests

open Sys2Proof.Machine

/-! ### Helpers and small states -/

/-- The state a command leads to. -/
def run (i : Instr) (s : State) : State :=
  match exec i s with
  | .next t => t
  | _ => s

/-- What a link's port answers with. -/
def answer (l : Link) (s : State) : Result × Word16 := ((s.ports.get l).response.result, (s.ports.get l).response.value)

/-- Fields that name nothing. -/
def noFields : Fields := ⟨0, 0, 0⟩

/-- Two conflicting vehicle groups, each with a red and a green. -/
def table2 : SafetyTable :=
  { SafetyTable.empty with
    groups := vgen fun g => { SafetyTable.empty.groups[g] with defined := decide (g.val < 2) }
    conflicts := vgen fun g => if g.val = 0 then 2 else if g.val = 1 then 1 else 0
    intergreens := vgen fun l => vgen fun g => if l.val + g.val = 1 then 31 else 0
    outputs := vgen fun o =>
      { SafetyTable.empty.outputs[o] with
        used := decide (o.val = 0 ∨ o.val = 1 ∨ o.val = 8 ∨ o.val = 9)
        group := if o.val < 8 then 0 else 1
        colour := if o.val % 2 = 0 then .red else .green } }

/-- A READY plan of two steps, for stages S1 and S2. -/
def plan2 : Plan :=
  { Plan.empty with
    state := .ready
    stepCount := 2
    steps := vgen fun k => { Step.empty with stage := if k.val = 0 then some 0 else if k.val = 1 then some 1 else none } }

/-- Commanded states and exposures as R66 and R79 give them. -/
def composed (s : State) : State := reexposeAll (recomposeAll s)

/-- HANDED_OVER with a table, two stages, a start plan, two cards ONLINE, VALID mains and every lamp proved off. -/
def loaded : State :=
  let r := State.reset
  composed
    { r with
      safety := { r.safety with copies := ⟨table2, table2⟩, active := some table2 }
      stages := vgen fun n => if n.val < 2 then { defined := true, members := if n.val = 0 then 1 else 2 } else r.stages[n]
      line :=
        { r.line with
          mains := { r.line.mains with state := .valid, pace := false, crossed := true }
          cards := vgen fun c => { CardRec.initial with configured := decide (c.val < 2), online := decide (c.val < 2) } }
      proving := { r.proving with outputs := vgen fun o => { r.proving.outputs[o] with state := .provedOff } }
      plans := { r.plans with plans := r.plans.plans.set 0 plan2, start := some 0 } }

/-- The same with a restore offer. -/
def offered : State := { loaded with service := { loaded.service with offer := some 100 } }

/-- STARTING, its start timer at 0, both reds proved lit. -/
def starting : State :=
  composed
    { loaded with
      service := { loaded.service with state := .starting, hold := true, start := some 0, vouch := some 10 }
      plans := { loaded.plans with active := some 0 }
      seq := { loaded.seq with phase := .startRed }
      proving :=
        { outputs := vgen fun o =>
            { loaded.proving.outputs[o] with state := if o.val % 8 = 0 then .provedOn else .provedOff }
          groups := vgen fun g => { loaded.proving.groups[g] with red := if g.val < 2 then .ok else .untested } } }

/-- SERVICE, in STAGE with step 1: G1 GREEN, G2 RED. -/
def serving : State :=
  composed
    { starting with
      service := { starting.service with state := .service, start := none }
      seq :=
        { starting.seq with
          phase := .stage
          designation := some .step
          current := 1
          stepIndex := some 0
          groups := vgen fun g =>
            if g.val = 0 then { starting.seq.groups[g] with aspect := .green, greenStart := some 0 }
            else starting.seq.groups[g] } }

/-! ### The parts of PartOk on states whose table and investigations are empty -/

theorem tableOk_reset : TableOk State.reset.faults := by
  have none (i : SlotId) : State.reset.faults.slots[i] = .none := by
    have : ∀ i : SlotId, State.reset.faults.slots[i] = .none := by decide +kernel
    exact this i
  refine ⟨fun i j r q e => ?_, fun i => ?_, by decide +kernel, fun i r e => ?_, fun l => by cases l <;> decide +kernel⟩
  · rw [none i] at e; cases e
  · rw [none i]
    constructor
    · intro h
      have : State.reset.faults.order = [] := rfl
      rw [this] at h
      cases h
    · intro h; cases h
  · rw [none i] at e; cases e

theorem investigationsOk_of_reset {s : State} (e : s.cable = State.reset.cable) : InvestigationsOk s := by
  intro i j v w h
  have all : ∀ i : InvSlot, State.reset.cable.investigations[i] = .none := by decide +kernel
  rw [e, all i] at h
  cases h

/-- STARTING meets every invariant. -/
theorem test_partOk_starting : PartOk starting := by
  refine ⟨?_, ⟨?_, ?_, ?_, ?_, ?_⟩, ?_, ?_, ⟨?_, ?_, ?_⟩, ?_, tableOk_reset, investigationsOk_of_reset rfl, ?_, ?_⟩ <;>
    first
    | decide +kernel
    | (unfold OutputsFollow; decide +kernel)
    | (unfold RolesReady; decide +kernel)
    | (unfold CallsOk; decide +kernel)
    | (unfold CommandsFresh; decide +kernel)
    | (unfold PatternsOk; decide +kernel)
    | (unfold BarsFresh; decide +kernel)

/-- SERVICE meets every invariant. -/
theorem test_partOk_serving : PartOk serving := by
  refine ⟨?_, ⟨?_, ?_, ?_, ?_, ?_⟩, ?_, ?_, ⟨?_, ?_, ?_⟩, ?_, tableOk_reset, investigationsOk_of_reset rfl, ?_, ?_⟩ <;>
    first
    | decide +kernel
    | (unfold OutputsFollow; decide +kernel)
    | (unfold RolesReady; decide +kernel)
    | (unfold CallsOk; decide +kernel)
    | (unfold CommandsFresh; decide +kernel)
    | (unfold PatternsOk; decide +kernel)
    | (unfold BarsFresh; decide +kernel)

/-- HANDED_OVER with a table meets every invariant. -/
theorem test_partOk_loaded : PartOk loaded := by
  refine ⟨?_, ⟨?_, ?_, ?_, ?_, ?_⟩, ?_, ?_, ⟨?_, ?_, ?_⟩, ?_, tableOk_reset, investigationsOk_of_reset rfl, ?_, ?_⟩ <;>
    first
    | decide +kernel
    | (unfold OutputsFollow; decide +kernel)
    | (unfold RolesReady; decide +kernel)
    | (unfold CallsOk; decide +kernel)
    | (unfold CommandsFresh; decide +kernel)
    | (unfold PatternsOk; decide +kernel)
    | (unfold BarsFresh; decide +kernel)


/-- The queue is no part of the invariants. -/
theorem partOk_queue {s : State} (h : PartOk s) (q : List Instr) : PartOk { s with pending := q } :=
  ⟨h.outputs, ⟨h.service.stopped, h.service.starting, h.service.serving, h.service.active, h.service.timed⟩, h.roles,
    h.calls, ⟨h.greens.fresh, h.greens.service, h.greens.apart⟩, h.commands, h.table, h.investigations, h.patterns,
    h.bars⟩

/-! ### Well-formedness: an ill-formed term for each check, which the check refuses -/

theorem test_wf_unknownRequest_with_a_right : WellFormed (.unknownRequest .plan 0x00 noFields) = false := by decide +kernel
theorem test_wf_unknownRequest : WellFormed (.unknownRequest .plan 0x43 noFields) = true := by decide +kernel
theorem test_wf_discardedFrame_of_40 : WellFormed (.discardedFrame .plan 40) = false := by decide +kernel
theorem test_wf_window_without_characters : WellFormed (.window .a ⟨[], true⟩) = false := by decide +kernel
theorem test_wf_inputSet_without_right : WellFormed (.inputSet .check noFields .opened 0) = false := by decide +kernel
theorem test_wf_inputSet_late : WellFormed (.inputSet .plan noFields .opened 16) = false := by decide +kernel
theorem test_wf_readInput_late : WellFormed (.readInput .check noFields 16) = false := by decide +kernel
theorem test_wf_request_without_right :
    ([.stageWrite .check noFields, .cardSet .check noFields, .setLayout .check noFields, .planWrite .check noFields,
        .planClose .check noFields, .planErase .check noFields, .startPlan .check noFields, .selectPlan .check noFields,
        .demand .check noFields, .extend .check noFields, .priorityCall .check noFields,
        .cancelPriority .check noFields, .allRed .check noFields, .setClock .check noFields, .restoreOffer .plan noFields,
        .restore .check noFields, .vouch .plan noFields, .serviceRestart .plan noFields] : List Instr).all
      (fun i => !WellFormed i) = true := by decide +kernel

/-- An ill-formed term that spells another row is refused by name. -/
theorem test_refusals :
    (∃ s, exec (.unknownRequest .plan 0x00 noFields) s = .refused .notThisRow) ∧
      ∃ s, exec (.discardedFrame .check 40) s = .refused .notThisRow := ⟨⟨State.reset, rfl⟩, ⟨State.reset, rfl⟩⟩

/-! ### Frames written out from R200 and R203 -/

/-- 0x10, group G1, index 2, value 30: SAFETY WRITE of the amber period of G1. -/
theorem test_decode_safetyWrite : decodeFrame .check 0x100102001E#40 .opened 0 = .safetyWrite .check ⟨1, 2, 30⟩ := by decide +kernel
/-- 0x43 comes from the check link alone. -/
theorem test_decode_vouch :
    decodeFrame .check 0x430000BEEF#40 .opened 0 = .vouch .check ⟨0, 0, 0xBEEF⟩ ∧
      decodeFrame .plan 0x430000BEEF#40 .opened 0 = .unknownRequest .plan 0x43 ⟨0, 0, 0xBEEF⟩ := by decide +kernel
/-- 0x21, plan P2's step, index 0x25, value 100: PLAN WRITE. -/
theorem test_decode_planWrite : decodeFrame .plan 0x2182250064#40 .opened 0 = .planWrite .plan ⟨0x82, 0x25, 100⟩ := by decide +kernel
/-- 0x88: READ INPUT of every input. -/
theorem test_decode_readInput : decodeFrame .plan 0x88FF000001#40 .closed 3 = .readInput .plan ⟨0xFF, 0, 1⟩ 3 := by decide +kernel

/-! ### The CRC (R31) and the canonical order (R210) -/

/-- The CRC of the nine characters "1" to "9" under the polynomial and initial value of R31. -/
theorem test_crc_check_value : crcOf [49, 50, 51, 52, 53, 54, 55, 56, 57] = 0x29B1#16 := by decide +kernel
/-- A table's canonical layout is 978 bytes long (R210). -/
theorem test_canonical_length : (canonical table2).length = 978 := by decide +kernel
/-- A POLL of card 3 closes with its CRC. -/
theorem test_poll_frame : crcHolds (pollFrame 2) = true ∧ (pollFrame 2).take 2 = [0x2D, 3] := by decide +kernel
/-- Samples of 12 bits, two in three characters, two's complement (R209). -/
theorem test_samples : samplesOf ([0x80, 0x07, 0xFF, 0x00, 0x1F, 0xFF] ++ List.replicate 6 0) = [-2048, 2047, 1, -1, 0, 0, 0, 0] := by decide +kernel

/-! ### One step at a time -/

theorem test_nop : answer .plan (run (.nop .plan noFields) loaded) = (.done, 0) := by decide +kernel
theorem test_discardedFrame : answer .plan (run (.discardedFrame .plan 39) loaded) = (.frameError, 39) := by decide +kernel
theorem test_unknownRequest : answer .plan (run (.unknownRequest .plan 0xFF noFields) loaded) = (.refusedRight, 0) := by decide +kernel
theorem test_response_bits : responseBits ((run (.nop .check noFields) offered).ports.get .check).response = 0x0004000000#40 := by decide +kernel
theorem test_safetyWrite : (run (.safetyWrite .check ⟨0x40, 5, 14⟩) loaded).safety.copies.check.outputs[0].failNum = 14 := by decide +kernel
theorem test_activate_waits : answer .plan (run (.activate .plan noFields) loaded) = (.done, 1) := by decide +kernel
theorem test_stageWrite_conflict : answer .plan (run (.stageWrite .plan ⟨3, 0, 3⟩) loaded) = (.conflict, 0) := by decide +kernel
theorem test_cardSet : (run (.cardSet .plan ⟨3, 0, 1⟩) loaded).line.cards[2].configured = true := by decide +kernel
theorem test_inputSet : (run (.inputSet .plan ⟨4, 0, 5⟩ .opened 0) loaded).faults.order = [0] := by decide +kernel
theorem test_setLayout : (run (.setLayout .plan ⟨0, 0, 2⟩) loaded).plans.plans[0].state = .empty := by decide +kernel
theorem test_planWrite : (run (.planWrite .plan ⟨1, 2, 59⟩) loaded).plans.plans[0].state = .opened := by decide +kernel
theorem test_planClose_empty : answer .plan (run (.planClose .plan ⟨2, 0, 0⟩) loaded) = (.badValue, 0x0100) := by decide +kernel
theorem test_planErase : (run (.planErase .plan ⟨1, 0, 0⟩) loaded).plans.plans[0] = Plan.empty := by decide +kernel
theorem test_startPlan : (run (.startPlan .plan ⟨8, 0, 0⟩) loaded).plans.start = some 7 := by decide +kernel
theorem test_selectPlan : answer .plan (run (.selectPlan .plan ⟨2, 0, 0⟩) serving) = (.badValue, 0) := by decide +kernel
theorem test_demand : has (run (.demand .plan ⟨2, 0, 0⟩) serving).seq.latches 1 = true := by decide +kernel
theorem test_extend : answer .plan (run (.extend .plan ⟨1, 0, 500⟩) serving) = (.done, 100) := by decide +kernel
theorem test_priorityCall : (run (.priorityCall .plan ⟨2, 0, 10⟩) serving).seq.calls = [⟨1, 50, 0⟩] := by decide +kernel
theorem test_cancelPriority : answer .plan (run (.cancelPriority .plan ⟨2, 0, 0⟩) serving) = (.done, 0) := by decide +kernel
theorem test_allRed : holdActive (run (.allRed .plan ⟨0, 0, 1⟩) serving) = true := by decide +kernel
theorem test_setClock : (run (.setClock .plan ⟨0, 13, 0x2EFF⟩) serving).seq.clock = 863999 := by decide +kernel
theorem test_restoreOffer : answer .check (run (.restoreOffer .check ⟨0, 0, 20⟩) loaded) = (.done, 20) := by decide +kernel
theorem test_restore : (run (.restore .plan noFields) offered).service.state = .starting := by decide +kernel
theorem test_handover : (run (.handover .check noFields) serving).service.state = .handedOver := by decide +kernel
theorem test_vouch : answer .check (run (.vouch .check ⟨0, 0, 0⟩) serving) = (.done, 10) := by decide +kernel
theorem test_serviceRestart : (run (.serviceRestart .check noFields) offered).service.offer = none := by decide +kernel
theorem test_relearn : answer .plan (run (.relearn .plan ⟨65, 0, 0⟩) loaded) = (.badSubject, 0) := by decide +kernel
theorem test_setAttention : ((run (.setAttention .check ⟨0, 0, 7⟩) loaded).faults.attention.get .check).threshold = 7 := by decide +kernel
theorem test_readGroup : answer .plan (run (.readGroup .plan ⟨1, 0, 0⟩) serving) = (.done, 1) := by decide +kernel
theorem test_readOutput : answer .plan (run (.readOutput .plan ⟨1, 1, 0⟩) serving) = (.done, 1) := by decide +kernel
theorem test_readCard : answer .plan (run (.readCard .plan ⟨1, 0, 0⟩) serving) = (.done, 1) := by decide +kernel
theorem test_readInput : answer .plan (run (.readInput .plan ⟨16, 0, 0⟩ 0) serving) = (.done, 0) := by decide +kernel
theorem test_readNextNotice : answer .plan (run (.readNextNotice .plan noFields) serving) = (.done, 0xFFFF) := by decide +kernel
theorem test_readRecord : answer .plan (run (.readRecord .plan ⟨47, 0, 0⟩) serving) = (.done, 0) := by decide +kernel
/-- A plan's SUMMARY is item 2 of READ PLAN's table (R121, R206); a close reason's absent step is 0xFFFF (R207). -/
theorem test_readPlan_summary :
    (planRecordItem 8 { plan2 with closeReason := some (.emptyPlan, none) } 2).map (·.drop 5) = some [1, 0xFFFF] ∧
      (planRecordItem 8 { plan2 with closeReason := some (.maxBelowMin, some 1) } 2).map (·.drop 5) = some [5, 2] ∧
      (planRecordItem 8 plan2 2).map (·.drop 5) = some [0, 0xFFFF] ∧
    (run (.readPlan .plan ⟨1, 0, 0⟩) serving).ports.plan.response.result = .badSubject ∧
      (run (.readPlan .plan ⟨1, 2, 0⟩) serving).ports.plan.response.result = .done := by decide +kernel
/-- An absent item of DETAIL carries the flag 0 before it, one held the flag 1 (R194, R207). -/
theorem test_detail_flag : detailItem [0xFFFF] 0 = [1, 0xFFFF] ∧ detailItem [0xFFFF] 1 = [0, 0] := by decide
/-- A card released on a SILENT line leaves its group's RED_LOSS standing (R75, R77). -/
theorem test_release_keeps_red :
    (releaseCard 0
        (modCard (modGroupProof (modProof loaded 0 fun r => { r with state := .isolated }) 0 fun r => { r with red := .loss }) 0
          fun r => { r with online := false })).proving.groups[0].red = .loss := by decide +kernel
theorem test_mainsCrossing : (run (.mainsCrossing 160000 160000) loaded).line.mains.c = 1 := by decide +kernel
theorem test_mainsTimeout : (run .mainsTimeout serving).service.state = .handedOver := by decide +kernel
theorem test_timingUnit : (run .timingUnit serving).seq.minCount = 1 := by decide +kernel
theorem test_startTimerExpiry : (run .startTimerExpiry starting).seq.phase = .interstage := by decide +kernel
theorem test_vouchTimerExpiry_early : run .vouchTimerExpiry serving = serving := by decide +kernel
theorem test_inputSample : (run (.inputSample 3 .closed) loaded).inputs[3].wetting = .holding := by decide +kernel

/-! ### Witnesses: a state and operands that meet the hypotheses of each statement, clause by clause -/

theorem test_hyps_StepTakesTheFrontCommand : State.reset.pending = [] := rfl

theorem test_hyps_NopAndDiscardedFrame : (39 : Nat) ≠ 40 ∧ (41 : Nat) ≠ 40 := by decide

theorem test_hyps_RequestWithoutRightIsRefused :
    requestParts (.vouch .plan noFields) = some (.plan, 0x43, noFields) ∧ granted .plan 0x43 = false ∧
      requestParts (.unknownRequest .check 0xFF noFields) = some (.check, 0xFF, noFields) ∧
      granted .check 0xFF = false := by decide +kernel

theorem test_hyps_DecodeOfEncodedRequestIsTheRequest :
    WellFormed (.inputSet .plan ⟨16, 0, 6⟩ .closed 15) = true ∧
      encodeFrame (.inputSet .plan ⟨16, 0, 6⟩ .closed 15) = some (.plan, 0x1910000006#40) := by decide +kernel

theorem test_hyps_EncodeOfDecodedFrameIsTheFrame : (15 : Nat) < 16 := by decide

/-- A state whose plan link holds the snapshot of READ CLOCK. -/
def clockRead : State := run (.readClock .plan noFields) loaded

theorem test_hyps_ReadsAnswerThroughTheSnapshot :
    isRead (.readClock .plan noFields) = true ∧
      readWords (.readClock .plan noFields) loaded = some [0, 0, 0xFFFF] ∧
      readWords (.readClock .plan ⟨0, 1, 0⟩) loaded = none ∧
      (clockRead.ports.get .plan).snapshot = some ⟨0x8B, 0, 0, [0, 0, 0xFFFF]⟩ ∧
      ([0, 0, 0xFFFF] : List Word16)[2]? = some 0xFFFF ∧ ([0, 0, 0xFFFF] : List Word16)[3]? = none ∧
      (loaded.ports.get .plan).snapshot = none := by decide +kernel

theorem test_hyps_ItemsHoldTheirWords : loaded.cable.investigations[3] = none := by decide +kernel

theorem test_hyps_SafetyWriteChangesOwnCopy :
    (match writeCopy table2 ⟨0, 0, 100⟩ with | .ok t => t.startPeriod | .error _ => 0) = 100 ∧
      (match writeCopy table2 ⟨0, 0, 101⟩ with | .ok _ => none | .error r => some r) = some .badValue := by decide +kernel

/-- Both copies equal and the check link's marked. -/
def paired : State := { loaded with safety := { loaded.safety with marks := ⟨false, true⟩ } }

/-- The copies differ in G2's record. -/
def differing : State :=
  { paired with
    safety := { paired.safety with copies := ⟨table2, { table2 with groups := table2.groups.set 1 table2.groups[5] }⟩ } }

/-- Equal copies that define no group. -/
def invalid : State := { paired with safety := { paired.safety with copies := ⟨SafetyTable.empty, SafetyTable.empty⟩ } }

theorem test_hyps_SafetyWriteFieldRangesAndActivate :
    (16 : Word16).toNat = number (15 : GroupId) ∧ 16 < (17 : Word16).toNat ∧
      serving.service.state ≠ .handedOver ∧
      (loaded.service.state = .handedOver ∧ loaded.safety.marks.get .check = false) ∧
      (differing.service.state = .handedOver ∧ differing.safety.marks.get .check = true ∧
        differing.safety.copies.plan ≠ differing.safety.copies.check ∧
        firstDifference differing.safety.copies.plan differing.safety.copies.check = some [1, 2]) ∧
      invalid.service.state = .handedOver ∧ invalid.safety.marks.get .check = true ∧
      invalid.safety.copies.plan = invalid.safety.copies.check ∧
      validate invalid.safety.copies.plan invalid.stages = some (.noGroup, .none) := by decide +kernel

theorem test_hyps_ActivateInstallsEqualCopies :
    paired.service.state = .handedOver ∧ paired.seq.phase = .stopped ∧ paired.safety.marks.get .check = true ∧
      paired.safety.copies.plan = paired.safety.copies.check ∧
      validate paired.safety.copies.plan paired.stages = none := by decide +kernel

theorem test_hyps_StageWriteDefinesAndUndefines :
    starting.service.state ≠ .handedOver ∧
      (loaded.service.state = .handedOver ∧
        ∀ t, loaded.safety.active = some t →
          (∀ g : GroupId, has 2 g = true → t.groups[g].defined = true) ∧
            ∀ g h : GroupId, has 2 g = true → has 2 h = true → conflictIn t g h = false) ∧
      namedByReady loaded 15 = false ∧ namedByReady loaded 0 = true ∧
      answer .plan (run (.stageWrite .plan ⟨3, 0, 5⟩) loaded) = (.badValue, 0) := by
  refine ⟨by decide +kernel, ⟨by decide +kernel, fun t h => ?_⟩, by decide +kernel⟩
  have e : loaded.safety.active = some table2 := rfl
  rw [e] at h
  cases h
  decide +kernel

theorem test_hyps_CardSetStoresOneField :
    starting.service.state ≠ .handedOver ∧ loaded.service.state = .handedOver ∧
      loaded.line.cards[7].configured = false ∧ loaded.line.cards[0].configured = true ∧
      (8 : Word16).toNat < loaded.line.cards[7].leakTrip ∧ (249 : Word16).toNat < loaded.line.cards[7].leakTrip ∧
      loaded.line.cards[7].leakAlarm < (61 : Word16).toNat ∧
      loaded.line.cards[7].leakAlarm < (2000 : Word16).toNat ∧
      (run (.cardSet .plan ⟨1, 0, 0⟩) loaded).proving.outputs[7].state = .senseLost ∧
      (run (.cardSet .plan ⟨1, 0, 0⟩) loaded).proving.outputs[8].state = .provedOff := by decide +kernel

/-- LOST mains that have counted seven periods in range. -/
def nearlyValid : State := modMains loaded fun m => { m with state := .lost, inRun := 7, pace := true }

/-- VALID mains with two periods out of range. -/
def nearlyLost : State := modMains serving fun m => { m with outRun := 2 }

theorem test_hyps_MainsCrossingCountsPeriods :
    State.reset.line.mains.crossed = false ∧ loaded.line.mains.crossed = true ∧
      loaded.line.mains.state = .valid ∧ (63999 : Nat) < 64000 ∧
      nearlyValid.line.mains.crossed = true ∧ nearlyValid.line.mains.state = .lost ∧
      nearlyValid.line.mains.inRun = 7 ∧
      (modMains nearlyValid fun m => { m with inRun := 6 }).line.mains.inRun < 7 ∧
      ((123076 : Nat) < 123077 ∧ 64000 ≤ 123076) ∧ (177777 : Nat) < 177778 ∧ loaded.line.mains.outRun < 2 ∧
      (run (.mainsCrossing 123076 64000) loaded).line.mains.c = 1 ∧
      (run (.mainsCrossing 123076 63999) loaded).line.mains.c = 0 ∧
      (run (.mainsCrossing 177777 64000) nearlyValid).line.mains.c = 1 ∧
      (run (.mainsCrossing 177777 63999) nearlyValid).line.mains.c = 0 := by
  decide +kernel

theorem test_hyps_MainsLossHandsOver :
    nearlyValid.line.mains.state = .lost ∧ nearlyLost.line.mains.state = .valid ∧
      nearlyLost.line.mains.crossed = true ∧ nearlyLost.line.mains.outRun = 2 ∧
      (run (.mainsCrossing 64000 0) nearlyLost).service.state = .handedOver := by decide +kernel

/-- A cycle begun: its SWITCH waits. -/
def cycleBegun : State := run .paceTimerExpiry nearlyValid

/-- Its SWITCH sent: two cards are left to poll. -/
def switchSent : State := run .switch cycleBegun

/-- The slot of card 1 open, for cycle 0. -/
def slotOpen : State := run .poll switchSent

/-- The pace timer expires in the exchange: card 2 is left to poll, after the missing replies given. -/
def shortened (missing : Nat) (s : State) : State := run .paceTimerExpiry (modCard s 1 fun r => { r with missing := missing })

theorem test_hyps_PaceTimerStartsACycle :
    serving.line.mains.pace = false ∧ nearlyValid.line.mains.pace = true ∧ nearlyValid.line.exchange.running = false ∧
      (slotOpen.line.mains.pace = true ∧ slotOpen.line.exchange.running = true ∧
        slotOpen.line.exchange.toPoll = [1] ∧ slotOpen.line.exchange.slot ≠ none ∧ slotOpen.line.mains.state = .lost) ∧
      (switchSent.line.exchange.running = true ∧ switchSent.line.exchange.toPoll.Nodup ∧
        switchSent.line.exchange.slot = none ∧ (modMains switchSent fun m => { m with state := .valid }).line.mains.state = .valid) ∧
      (shortened 9 slotOpen).line.cards[1].online = false ∧ (shortened 8 slotOpen).line.cards[1].online = true ∧
      ((shortened 8 slotOpen).line.exchange.slot.map (·.old)) = some true ∧
      (shortened 9 slotOpen).line.cards[0] = slotOpen.line.cards[0] ∧ (shortened 8 switchSent).line.cards[0].missing = 1 := by
  decide +kernel

/-- The same with an output commanded on of a card that is configured, and one of a card that is not. -/
def switchMasked : State :=
  let on (o : OutputId) (s : State) : State := modProof s o fun r => { r with commanded := true }
  run .switch (on 16 (on 0 cycleBegun))

theorem test_hyps_SwitchAndPollRunTheExchange :
    loaded.line.exchange.running = false ∧
      (cycleBegun.line.exchange.running = true ∧ cycleBegun.line.exchange.switchSent = false ∧
        cycleBegun.line.exchange.slot = none ∧ cycleBegun.line.exchange.toPoll ≠ []) ∧
      switchSent.line.exchange.running = true ∧ switchSent.line.exchange.switchSent = true ∧
      switchSent.line.exchange.slot = none ∧ switchSent.line.exchange.toPoll = [0, 1] ∧
      (switchMasked.line.patterns.head?.map fun x => (x.states[0], x.states[16])) = some (true, false) ∧
      (switchMasked.line.lines.get .b).sent.getD 2 0 = 1 ∧ (switchMasked.line.lines.get .b).sent.getD 4 0 = 0 := by
  decide +kernel

/-- A WINDOW of card 1 with one core, for cycle 0. -/
def window1 : RxFrame := { chars := withCrc ([0x3C, 1, 0, 1, 0] ++ List.replicate 24 0), sound := true }

theorem test_hyps_WindowIsTakenFromTheFirstGoodCopy :
    loaded.line.exchange.slot = none ∧
      (slotOpen.line.exchange.slot.map fun x => (x.card, x.expect.val, x.took, x.verdict.get .a)) =
        some (0, 0, false, none) ∧
      (slotOpen.line.lines.get .a).state ≠ .jammed ∧ judgeFrame 0 0 window1 = .good ∧
      judgeFrame 0 1 window1 ≠ .good ∧ judgeFrame 1 0 window1 = .mismatch 1 ∧ slotOpen.line.mains.state = .lost := by
  decide +kernel

/-- The open slot with its window taken or not, its card SILENT or ONLINE with the counts given. -/
def slotWith (took online : Bool) (missing goodRun : Nat) : State :=
  modCard (modSlot slotOpen fun x => { x with took := took }) 0 fun r =>
    { r with online := online, missing := missing, goodRun := goodRun }

theorem test_hyps_SlotCloseMovesTheCardState :
    ((slotWith true false 9 2).line.exchange.slot.map (·.took)) = some true ∧
      (slotWith true false 9 2).line.cards[0].online = false ∧ (slotWith true false 9 2).line.cards[0].goodRun = 2 ∧
      (slotWith true false 9 1).line.cards[0].goodRun < 2 ∧
      ((slotWith false true 9 0).line.exchange.slot.map (·.took)) = some false ∧
      (slotWith false true 9 0).line.cards[0].missing = 9 ∧
      (run .pollSlotClose (slotWith true false 9 2)).line.cards[0].online = true ∧
      (run .pollSlotClose (slotWith false true 9 0)).line.cards[0].online = false := by decide +kernel

/-- The slot of card 1 at its close: line A in a state with its good-copy run, and card 1's faulted run there; the two
copies as given, and A's good enough for a JAMMED line or not. -/
def closing (state : LineState) (goodRun faulted : Nat) (a : Verdict) (back : Bool) : State :=
  modCard
    (modLine
      (modSlot slotOpen fun x =>
        { x with took := true, verdict := ⟨some a, some .good⟩, recovered := ⟨back, false⟩ })
      .a fun r => { r with state := state, goodRun := goodRun })
    0 fun r => { r with faulted := ⟨faulted, 0⟩ }

/-- How line A stands once that slot is closed, and whether card 1's mismatch flag is set. -/
def closed (s : State) : LineState × Nat × Nat × Bool :=
  let t := run .pollSlotClose s
  ((t.line.lines.get .a).state, (t.line.lines.get .a).errors, t.line.cards[0].faulted.get .a, t.line.cards[0].mismatch)

theorem test_hyps_SlotCloseMovesTheLines :
    closed (closing .good 0 15 .bad false) = (.degraded, 1, 16, false) ∧
      closed (closing .good 0 14 (.mismatch 5) false) = (.good, 1, 15, true) ∧
      closed (closing .degraded 63 0 .good false) = (.good, 0, 0, false) ∧
      closed (closing .degraded 62 0 .good false) = (.degraded, 0, 0, false) ∧
      closed (closing .jammed 0 0 .missing true) = (.good, 0, 0, false) ∧
      (closed (closing .jammed 0 0 .missing false)).1 = .jammed := by decide +kernel

theorem test_hyps_JamAndSilenceOnALine :
    (loaded.line.lines.get .b).state ≠ .jammed ∧
      ((run (.lineJam .b) loaded).line.lines.get .b).state = .jammed := by decide +kernel

/-- The slot of card 1 open in VALID mains, its first core's accumulation at a count of 3 or 2, following on cycle 15. -/
def measuring (count : Nat) : State :=
  modCore (modMains slotOpen fun m => { m with state := .valid }) 0 fun c =>
    { c with
      acc :=
        { settling := false, count := count, sumA := 1024, sumB := -1025, overrange := false, held := some false,
          lastCycle := some 15 } }

/-- What a window of card 1 with one core leaves of it. -/
def measured (count : Nat) : State := run (.window .a window1) (measuring count)

theorem test_hyps_MeasurementTestsAndLearning :
    (measurementOf loaded 0 true false ⟨39, 0⟩ 0).fail = true ∧ (measurementOf loaded 0 true false ⟨40, 0⟩ 0).fail = false ∧
      (measurementOf loaded 0 false false ⟨25, 0⟩ 0).unwanted = true ∧
      (measurementOf loaded 0 false false ⟨24, 0⟩ 0).unwanted = false ∧
      learn (some 100) 116 = some 101 ∧ learn (some 100) 85 = some 100 ∧
      ((measuring 3).line.exchange.slot.map fun x => (x.card, x.expect.val, x.took, x.verdict.get .a)) =
        some (0, 0, false, none) ∧
      (measuring 3).line.mains.state = .valid ∧ ((measuring 3).line.lines.get .a).state ≠ .jammed ∧
      min (windowOf window1.chars 0).coreCount (measuring 3).line.cards[0].coreCount = 1 ∧
      (measuring 3).engine.cores[0].acc.lastCycle = some (cycleBack 0 1) ∧
      (measured 3).engine.cores[0].figures = some { ip := 1, qf := -1 } ∧
      (measured 2).engine.cores[0].figures = none ∧ (measured 2).engine.cores[0].acc.count = 3 ∧
      (run .pollSlotClose (measuring 3)).engine.cores[0].acc.settling = true := by decide +kernel

/-- The slot of card 1 at its close, with cards left to poll: one open-feeder measurement and one leakage figure wait. -/
def ending (mains : MainsState) (left : List CardId) : State :=
  modExchange (modMains slotOpen fun m => { m with state := mains }) fun e =>
    { e with
      toPoll := left
      cores := [{ measurementOf slotOpen 8 true false ⟨30, 0⟩ 3 with openFeeder := true }]
      residuals := [{ card := 1, leak := 100 }] }

/-- What that close delivers and leaves: the feeder's count, the card's last L, and how the exchange stands. -/
def ended (mains : MainsState) (left : List CardId) : Nat × Option Nat × Bool × Nat :=
  let t := run .pollSlotClose (ending mains left)
  (t.cable.feeders[8].count, t.cable.cards[1].lastL, t.line.exchange.running, t.line.exchange.cores.length)

theorem test_hyps_SlotCloseMovesTheCardState_exchange :
    (ending .valid []).line.exchange.running = true ∧ (ending .valid []).line.exchange.switchSent = true ∧
      ended .valid [] = (1, some 100, false, 0) ∧ ended .lost [] = (0, none, false, 0) ∧
      ended .valid [1] = (0, none, true, 1) := by decide +kernel

theorem test_hyps_MeasurementTestsAndLearning_sense :
    (measuring 3).proving.outputs[0].sense = 0 ∧ (measured 3).proving.outputs[0].sense = 0 ∧
      (measured 2).proving.outputs[0].sense = 1 ∧ (measured 3).proving.outputs[1].sense = 1 ∧
      (run .pollSlotClose (measuring 3)).proving.outputs[0].sense = 1 ∧
      ((measured 3).line.exchange.cores.map (·.cycles)) = [[13, 14, 15, 0]] := by decide +kernel

theorem test_hyps_MeasurementsMoveTheProvingState :
    (∃ o : OutputId, State.reset.proving.outputs[o].state = .senseLost ∧
        State.reset.line.cards[cardOf o].online = false) ∧
      (serving.proving.outputs[0].state ≠ .isolated ∧ serving.proving.outputs[0].state ≠ .senseLost) ∧
      serving.proving.outputs[0].applied = none ∧ (measured 3).proving.outputs[0].applied = some (!true) ∧
      (modProof serving 0 fun r => { r with state := .isolated }).proving.outputs[0].state = .isolated ∧
      serving.proving.outputs[0].echo = false ∧
      (modProof serving 0 fun r => { r with echo := true }).proving.outputs[0].echo = true ∧
      (1 < serving.line.cards[0].senseTimeout ∧ serving.line.cards[0].senseTimeout ≤ 12) ∧
      (prove { measurementOf serving 0 true false ⟨0, 0⟩ 0 with fail := true }
          (modProof serving 0 fun r => { r with failing := 1 })).proving.outputs[0].state = .failedDark := by
  decide +kernel

theorem test_hyps_RelearnForgetsTheReferences : 64 < (65 : Byte).toNat ∧ (65 : Byte) ≠ 0xFF := by decide

/-- The records that stand after a state's last events, ACTIVE or not. -/
def recordsOf (s : State) : List (FaultKind × Bool) :=
  s.faults.order.filterMap fun i => (s.faults.slots[i]).map fun r => (r.kind, r.active)

/-- The slot of card 1 with a good copy on both lines, and an ADDRESS_MISMATCH of it ACTIVE although its flag is clear. -/
def mismatchHeld : State := post .addressMismatch (.card 0) false (some [5]) (closing .good 0 0 .good false)

theorem test_mismatchRecord_endsWithAClearFlag :
    mismatchHeld.line.cards[0].mismatch = false ∧ recordsOf mismatchHeld = [(.addressMismatch, true)] ∧
      recordsOf (run .pollSlotClose mismatchHeld) = [(.addressMismatch, false)] := by decide +kernel

/-- A measurement of output 1 (a RED of G1) with its fail, dim and unwanted tests as given. -/
def lampMeas (applied fail dim : Bool) : CoreMeas :=
  { measurementOf serving 0 applied false ⟨30, 0⟩ 3 with fail := fail, dim := dim, unwanted := !applied }

/-- SERVICE with output 1 used, its REF at 100 and its failing count and state as given. -/
def proving (failing : Nat) (state : ProvingState) : State :=
  modCore (modProof serving 0 fun r => { r with failing := failing, state := state }) 0 fun c => { c with ref := some 100 }

/-- All four investigations OPEN, none of them for output 1. -/
def allOpen : State :=
  { proving 0 .provedOff with
    cable :=
      { serving.cable with
        investigations := vgen fun i =>
          some
            { x := (Fin.ofNat 64 (i.val + 9)), openTime := 0, firstPending := true, meas := 0, lit := 0, dark := 0,
              consecutive := 0, candidates := [] } } }

theorem test_hyps_MeasurementsMoveTheProvingState_records :
    (outRec serving 0).used = true ∧ (outRec serving 5).used = false ∧
      faultActive (prove (lampMeas true false true) (proving 0 .provedOn)) .lampDim (.output 0) = true ∧
      recordsOf (measuredLit (lampMeas true false false) (prove (lampMeas true false true) (proving 0 .provedOn))) =
        [(.lampDim, false)] ∧
      recordsOf (measuredDark (lampMeas true true false) (proving 0 .provedOn)) = [] ∧
      recordsOf (measuredDark (lampMeas true true false) (proving 1 .unproved)) = [(.lampDark, true)] ∧
      recordsOf (measuredDark (lampMeas true true false) (proving 1 .failedDark)) = [] ∧
      recordsOf (measuredOff (lampMeas false false false) (measuredUnwanted (lampMeas false false false) allOpen)) =
        [(.unwantedCurrent, false)] ∧
      ((measuredUnwanted (lampMeas false false false) allOpen).faults.slots[0].map (·.detail)) = some [0x8000] ∧
      investigationOf (measuredUnwanted (lampMeas false false false) (proving 0 .provedOff)) 0 = some 0 ∧
      recordsOf (measuredUnwanted (lampMeas false false false) loaded) =
        [(.unwantedCurrent, true), (.handoverUnproven, true)] := by decide +kernel

/-- How G1 and G2 stand after an output's change of proving state, and the kinds posted. -/
def evaluated (o : OutputId) (x : ProvingState) (s : State) : RedStatus × Bool × List (FaultKind × Bool) :=
  let t := setProving o (fun r => { r with state := x }) s
  (t.proving.groups[(outRec s o).group].red, t.proving.groups[(outRec s o).group].exposed, recordsOf t)

theorem test_hyps_RedEvaluationOutcome :
    ((outRec serving 0).colour = .red ∧ (outRec serving 0).group = 0 ∧ (outRec serving 9).colour = .green ∧
        serving.seq.groups[0].aspect = .green ∧ serving.seq.groups[1].aspect = .red) ∧
      unmeasured serving 8 = false ∧
      evaluated 0 .isolated serving = (.loss, true, [(.redLoss, true)]) ∧
      evaluated 0 .failedDark serving = (.ok, true, []) ∧
      evaluated 9 .provedOn (modProof loaded 9 fun r => { r with state := .provedOff }) = (.untested, true, []) ∧
      recordsOf (setRed 0 .ok (setRed 0 .loss loaded)) = [(.redLoss, false)] ∧
      recordsOf (setRed 0 .degraded (setRed 0 .loss loaded)) = [(.redDegraded, true), (.redLoss, false)] ∧
      (prove { lampMeas true true false with output := 8 } (modProof serving 8 fun r => { r with failing := 1 })).proving.groups[1].red =
        .loss ∧
      darkReds (modProof serving 0 fun r => { r with state := .provedOff, echo := true }) 0 = [0] ∧
      darkReds (modProof serving 0 fun r => { r with state := .provedOff, echo := false }) 0 = [] := by decide +kernel

/-- Card 1 after two figures at its trip threshold. -/
def nearTrip : State := modCable serving 0 fun r => { r with tripRun := 2 }

/-- Card 1 tripped, its timer as given. -/
def tripTimers (retry watch : Option Nat) : State :=
  modCable loaded 0 fun r => { r with tripped := true, retryTimer := retry, watchTimer := watch }

theorem test_hyps_CardTripsAndTheirTimers :
    (nearTrip.cable.cards[0].tripped = false ∧ nearTrip.line.cards[0].leakTrip ≤ 250 ∧
        nearTrip.cable.cards[0].tripRun = 2) ∧
      (tripTimers (some 1) (some 1)).cable.cards[0].retryTimer ≠ some 0 ∧
      (tripTimers (some 1) (some 1)).cable.cards[0].watchTimer ≠ some 0 ∧
      (tripTimers (some 0) none).cable.cards[0].retryTimer = some 0 ∧
      (tripTimers none (some 0)).cable.cards[0].watchTimer = some 0 ∧
      (leakTripTest 0 250 nearTrip).cable.cards[0].retryTimer = some 600 ∧
      (leakTripTest 0 249 nearTrip).cable.cards[0].tripRun = 0 ∧ (leakTripTest 0 250 serving).cable.cards[0].tripRun = 1 ∧
      leakTripTest 0 250 (tripTimers none none) = tripTimers none none := by decide +kernel

/-- An investigation of output 2 (a GREEN of group 1), with its counts and candidates. -/
def investigating (first : Bool) (dark consecutive meas : Nat) (candidates : List OutputId) : State :=
  { serving with
    cable :=
      { serving.cable with
        investigations := serving.cable.investigations.set 0
          (some
            { x := 1, openTime := 0, firstPending := first, meas := meas, lit := 1, dark := dark,
              consecutive := consecutive, candidates := candidates }) } }

/-- The end of output 2's core measurement whose sums give the IP and QF named, saturated or not. -/
def completing (ip qf : Int) (saturated : Bool) (s : State) : State :=
  completeCore 1 true 3
    (modCore s 1 fun c => { c with acc := { c.acc with sumA := 1024 * ip, sumB := 1024 * qf, overrange := saturated } })

theorem test_hyps_MeasurementTestsAndLearning_learning :
    (completing 500 16 false serving).engine.cores[1].ref = some 500 ∧
      (completing 500 16 false serving).engine.cores[1].qref = some 16 ∧
      (completing 500 15 false serving).engine.cores[1].qref = none ∧
      (completing 500 16 false (modFeeder serving 1 fun r => { r with opened := true })).engine.cores[1].ref = none ∧
      learningFrozen (investigating false 0 0 1 []) 1 = true ∧ learningFrozen serving 1 = false ∧
      (completing 1 16 false serving).engine.cores[1].ref = none ∧
      (completing 500 16 false (modProof serving 1 fun r => { r with state := .isolated })).engine.cores[1].ref = none ∧
      recordsOf (completing (-64) 0 true serving) = [(.currentOverrange, true), (.senseReversed, true)] ∧
      recordsOf (completing (-63) 0 false (completing (-64) 0 true serving)) =
        [(.currentOverrange, false), (.senseReversed, false), (.lampDark, true)] ∧
      (measurementOf serving 1 true false ⟨-63, 0⟩ 3).reversed = false := by decide +kernel

/-- A dark or lit OFF measurement of that output. -/
def offMeas (lit : Bool) : CoreMeas := { measurementOf serving 1 false false ⟨30, 0⟩ 3 with unwanted := lit }

/-- Which verdicts a measurement brings. -/
def verdicts (m : CoreMeas) (s : State) : List FaultKind :=
  (investigate m s).faults.order.filterMap fun i => ((investigate m s).faults.slots[i]).map (·.kind)

theorem test_hyps_DeliveriesMoveFeedersLeakageAndInvestigations :
    (serving.cable.feeders[0].count = 0 ∧ (modFeeder serving 0 fun r => { r with count := 1 }).cable.feeders[0].count = 1) ∧
      (59 < serving.line.cards[0].leakAlarm ∧ serving.line.cards[0].leakAlarm ≤ 60) ∧
      (serving.cable.cards[0].alarm = false ∧ serving.cable.cards[0].alarmRun = 0) ∧
      (modCable serving 0 fun r => { r with alarm := true, clearRun := 3 }).cable.cards[0].clearRun = 3 ∧
      investigationOf (investigating false 7 7 8 [9, 10]) 1 = some 0 ∧
      (offMeas false).cycles ≠ [] ∧
      (∃ o ∈ others serving 1, ∃ n ∈ (offMeas true).cycles, serving.engine.cores[o].history[n] ≠ some false) ∧
      verdicts (offMeas false) (investigating false 0 0 1 []) = [.crossUnresolved] ∧
      verdicts (offMeas false) (investigating false 0 0 1 [9]) = [.cross, .handover] ∧
      verdicts (offMeas true) (investigating false 1 0 1 [9]) = [.cross, .handover] ∧
      verdicts (offMeas true) (investigating false 0 0 1 [9]) = [] ∧
      verdicts (offMeas false) (investigating false 7 7 8 [9, 10]) = [.currentTransient] ∧
      verdicts (offMeas false) (investigating false 6 6 8 [9, 10]) = [] ∧
      verdicts (offMeas true) (investigating false 1 0 63 [9, 10]) = [.crossUnresolved] ∧
      verdicts (offMeas true) (investigating false 1 0 62 [9, 10]) = [] := by
  decide +kernel

theorem test_hyps_LayoutAndEraseEmptyPlans :
    starting.service.state ≠ .handedOver ∧ loaded.service.state = .handedOver ∧ valueLayout 2 = some .l4x32 ∧
      2 < (3 : Word16).toNat ∧ planInUse starting 0 = true ∧ planInUse loaded 7 = false ∧
      (8 : Byte).toNat = number (7 : PlanId) ∧ planCount loaded.plans.layout = 8 ∧
      planCount loaded.plans.layout < (9 : Byte).toNat := by decide +kernel

theorem test_hyps_PlanWriteStoresOneField :
    number (7 : PlanId) ≤ planCount loaded.plans.layout ∧ planInUse serving 0 = true ∧ planInUse loaded 7 = false ∧
      (15 : StepNo).val < slotSize loaded.plans.layout ∧ planCount loaded.plans.layout < number (8 : PlanId) ∧
      (3 < (4 : Byte).toNat ∧ 4 < (0xA0 : Byte).toNat / 32 ∧ slotSize loaded.plans.layout ≤ (0x10 : Byte).toNat % 32) ∧
      ((planFields 16).map fun q => (q.index, q.least, q.most)) = [(1, 20, 240), (2, 0, 239), (3, 1, 16)] ∧
      (stepFields.map fun q => 32 * q.index.toNat + 15) = [47, 79] ∧ (0x6F : Byte).toNat = 96 + 15 ∧
      ((0x8F : Byte).toNat = 128 + 15 ∧ (239 : Word16).toNat ≤ 239 ∧ 239 < (240 : Word16).toNat) := by decide +kernel

/-- Plan 1 OPEN, its step 2 with a max green below its min green where asked. -/
def openPlan (bad : Bool) : State :=
  modPlan loaded 0 fun p =>
    { p with state := .opened, steps := p.steps.set 1 { p.steps[1] with minGreen := if bad then 301 else 300 } }

theorem test_hyps_PlanCloseValidatesThePlan :
    planInUse serving 0 = true ∧ loaded.plans.plans[0].state = .ready ∧ loaded.plans.plans[1].state = .empty ∧
      (openPlan false).plans.plans[0].state = .opened ∧
      closePlan (openPlan false) (openPlan false).plans.plans[0] = none ∧
      closePlan (openPlan true) (openPlan true).plans.plans[0] = some (.maxBelowMin, some 1) := by decide +kernel

/-- SERVICE with plan 2 READY, the active plan ISOLATED or LINKED. -/
def selecting (mode : PlanMode) : State :=
  modPlan (modPlan serving 1 fun _ => plan2) 0 fun p => { p with mode := mode }

/-- The state with plan 2 pending. -/
def selected (mode : PlanMode) : State :=
  { selecting mode with plans := { (selecting mode).plans with pending := some { plan := 1, wrap := false } } }

theorem test_hyps_StartAndSelectPlan :
    planCount loaded.plans.layout < (9 : Byte).toNat ∧ loaded.service.state ≠ .service ∧
      (selecting .linked).service.state = .service ∧ (selecting .linked).plans.active = some 0 ∧
      (selecting .linked).plans.active ≠ some 1 ∧ (selecting .linked).plans.plans[1].state = .ready ∧
      (selecting .linked).plans.plans[2].state ≠ .ready ∧ transferDue (selected .linked) = false ∧
      transferDue (selected .isolated) = true := by decide +kernel

theorem test_hyps_DemandAndExtend :
    loaded.service.state = .handedOver ∧ serving.service.state ≠ .handedOver ∧ serving.stages[15].defined = false ∧
      (serving.stages[0].defined = true ∧ serving.seq.phase = .stage ∧ runningStage serving = some 0) ∧
      (runningStage serving ≠ some 1 ∧ has serving.seq.latches 1 = false) ∧
      has (run (.demand .plan ⟨2, 0, 0⟩) serving).seq.latches 1 = true ∧
      (groupRec serving 15).defined = false ∧ (groupRec serving 0).defined = true := by decide +kernel

/-- SERVICE with listed calls. -/
def calling (calls : List Call) : State := { serving with seq := { serving.seq with calls := calls } }

/-- SERVICE with a call in service. -/
def inService (units : Nat) : State := { serving with seq := { serving.seq with service := some ⟨0, units⟩ } }

theorem test_hyps_PriorityCallsListServeAndCancel :
    serving.stages[15].defined = false ∧ serving.stages[1].defined = true ∧ runsNow serving 1 = false ∧
      (∀ c ∈ serving.seq.calls, c.stage ≠ 1) ∧ serving.seq.calls.length < 4 ∧
      4 ≤ (calling [⟨2, 50, 0⟩, ⟨3, 50, 0⟩, ⟨4, 50, 0⟩, ⟨5, 50, 0⟩]).seq.calls.length ∧
      (∃ c ∈ (calling [⟨1, 50, 0⟩]).seq.calls, c.stage = 1 ∧ c.duration ≠ max 50 (min 600 (51 : Word16).toNat)) ∧
      (∀ c ∈ (calling [⟨1, 600, 0⟩]).seq.calls, c.stage = 1 → c.duration = max 50 (min 600 (601 : Word16).toNat)) ∧
      (runsNow serving 0 = true ∧ serving.stages[0].defined = true ∧ serving.seq.service = none) ∧
      (inService 50).seq.service = some { stage := 0, units := max 50 (min 600 (49 : Word16).toNat) } ∧
      (inService 1).seq.service = some { stage := 0, units := 1 } ∧
      (inService 0).seq.service = some ⟨0, 0⟩ ∧
      (run (.cancelPriority .plan ⟨1, 0, 0⟩) (inService 50)).seq.service ≠ some ⟨0, 50⟩ := by decide +kernel

theorem test_hyps_AllRedAndSetClock :
    1 < (2 : Word16).toNat ∧
      holdActive { serving with seq := { serving.seq with allRed := false } } = holdActive serving ∧
      holdActive { serving with seq := { serving.seq with allRed := true } } ≠ holdActive serving ∧
      863999 < 65536 * (13 : Byte).toNat + (0x2F00 : Word16).toNat ∧
      65536 * (13 : Byte).toNat + (0x2EFF : Word16).toNat ≤ 863999 ∧ loaded.plans.active = none := by decide +kernel

/-- SERVICE under a LINKED plan of 20 s, its position and the clock at a; plan 2 is pending, and step 1's force-off at 5 s
is WAITING. -/
def linked (a : Nat) : State :=
  let p : Plan :=
    { plan2 with
      mode := .linked, cycle := 20, steps := plan2.steps.set 0 { plan2.steps[0] with forceOff := some 5, maxGreen := 9 } }
  let s := modPlan (selected .linked) 0 fun _ => p
  { s with seq := { s.seq with position := some a, clock := a, forceOff := .waiting } }

/-- SET CLOCK to n from there: the kinds posted, whether the wrap flag stands, and the force-off state. -/
def moved (i : Instr) (a : Nat) : List FaultKind × Option Bool × ForceOff :=
  let t := run i (linked a)
  (t.faults.order.filterMap fun k => (t.faults.slots[k]).map (·.kind), t.plans.pending.map (·.wrap), t.seq.forceOff)

theorem test_hyps_AllRedAndSetClock_linked :
    ((linked 0).plans.active = some 0 ∧ ((linked 0).plans.plans[0]).mode = .linked ∧ (linked 0).seq.position = some 0) ∧
      ((linked 0).plans.plans[0]).offset < ((linked 0).plans.plans[0]).cycle ∧
      positionIn (linked 0).plans.plans[0] 99 = 99 ∧ transferDue (linked 0) = false ∧
      moved (.setClock .plan ⟨0, 0, 100⟩) 0 = ([.planResync], some false, .waiting) ∧
      moved (.setClock .plan ⟨0, 0, 99⟩) 0 = ([], some false, .reached 0) ∧
      moved (.setClock .plan ⟨0, 0, 49⟩) 0 = ([], some false, .waiting) ∧
      (run (.setClock .plan ⟨0, 0, 210⟩) (linked 150)).seq.position = some 10 := by decide +kernel

theorem test_hyps_TimingUnitCountsDown :
    (loaded.service.state = .handedOver ∧ loaded.seq.phase = .stopped ∧ loaded.plans.active = none) ∧
      activePlan loaded = none ∧ (activePlan (linked 0)).map (·.mode) = some .linked ∧
      (positionIn (linked 199).plans.plans[0] 200 = 0 ∧ (linked 199).seq.position = some 199) ∧
      moved .timingUnit 49 = ([], some false, .reached 1) ∧ moved .timingUnit 48 = ([], some false, .waiting) ∧
      (run .timingUnit (linked 49)).seq.overrun = true := by decide +kernel

/-- An interstage in which G1 ends its green and G2 waits for its own, at a unit count. -/
def between (units : Nat) : State :=
  modGroup
    (modGroup { serving with seq := { serving.seq with phase := .interstage, target := some (.step 1 1), units := units } }
      0 fun r => { r with endAt := some 5 })
    1 fun r => { r with redAmberAt := some 5, greenAt := some 5, deadline := some 5 }

/-- The same with G1 already dark. -/
def betweenDark (units : Nat) : State :=
  composed
    (modGroup { between units with proving := { (between units).proving with groups := loaded.proving.groups } } 0
      fun r => { r with aspect := .amber })

theorem test_hyps_InterstageTimes :
    (∀ n, (between 5).seq.groups[0].endAt = some n → n ≤ (between 5).seq.units) ∧
      (∀ n, (between 4).seq.groups[0].endAt = some n → (between 4).seq.units < n) ∧
      (between 5).seq.groups[0].endAt = some 5 ∧ (between 5).seq.groups[1].redAmberAt = some 5 ∧
      (between 5).seq.groups[1].greenAt = some 5 ∧ (between 5).seq.groups[1].deadline = some 5 ∧
      (∃ l : GroupId, conflict (between 5) l 1 = true ∧ (between 5).proving.groups[l].exposed = true) ∧
      ∀ l : GroupId, conflict (betweenDark 5) l 1 = true → (betweenDark 5).proving.groups[l].exposed = false := by
  have e5 : (between 5).seq.groups[0].endAt = some 5 := by decide +kernel
  have e4 : (between 4).seq.groups[0].endAt = some 5 := by decide +kernel
  refine ⟨fun n h => ?_, fun n h => ?_, e5, by decide +kernel, by decide +kernel, by decide +kernel, by decide +kernel,
    by decide +kernel⟩
  · rw [e5] at h
    cases h
    decide +kernel
  · rw [e4] at h
    cases h
    decide +kernel

/-- An interstage in which no group waits any more, toward a target or withdrawn, with S2 latched or not. -/
def arriving (target : Option Target) (latched : Bool) : State :=
  { serving with
    seq :=
      { serving.seq with
        phase := .interstage, target := target, designation := none, latches := if latched then 2 else 0 } }

/-- The same with G1 in RED_LOSS, which bars S2. -/
def g1Lost (s : State) : State := modGroupProof s 0 fun r => { r with red := .loss }

theorem test_hyps_InterstageTimes_completion :
    (between 5).seq.phase = .interstage ∧ (between 5).seq.target = some (.step 1 1) ∧ serving.seq.phase ≠ .interstage ∧
      (∀ g : GroupId,
        (arriving (some (.step 1 1)) true).seq.groups[g].greenAt = none ∧
          (arriving (some (.step 1 1)) true).seq.groups[g].endAt = none) ∧
      ((settled (arriving (some (.step 1 1)) true)).seq.stepIndex, (settled (arriving (some (.step 1 1)) true)).seq.latches) =
        (some 1, 0) ∧
      (∀ g : GroupId, (arriving none false).seq.groups[g].endAt = none) ∧
      ((completeResidual (arriving none false)).seq.designation, (completeResidual (arriving none false)).seq.current) =
        (some .residual, 1) ∧
      (barsNow (g1Lost serving), barsNow serving) = (2, 0) ∧ loaded.seq.phase = .stopped ∧ starting.seq.phase = .startRed ∧
      ((redStatusChanged (g1Lost (between 4))).seq.target, (redStatusChanged (g1Lost (between 4))).seq.resume,
          (redStatusChanged (g1Lost (between 4))).seq.groups[1].greenAt) = (none, some 0, none) ∧
      (redStatusChanged (modGroupProof (between 4) 1 fun r => { r with red := .loss })).seq.target = some (.step 1 1) ∧
      (redStatusChanged (modGroupProof (between 4) 1 fun r => { r with red := .loss })).seq.groups[0].aspect = .amber := by
  decide +kernel

/-- SERVICE with step 1's min green elapsed, and what its targets are. -/
def ripe : State := { serving with seq := { serving.seq with minCount := 300, maxCount := 300, units := 60 } }

theorem test_hyps_AspectsTargetsAndInterstages :
    (1 : GroupId) ≠ 0 ∧ serving.seq.groups[0].aspect = .green ∧
      (setAspect 0 .amber serving).seq.groups[0].lastEnd = some 0 ∧
      (holdActive serving = false ∧ holdActive { serving with seq := { serving.seq with allRed := true } } = true) ∧
      (has (calling [⟨0, 50, 0⟩, ⟨1, 50, 0⟩]).seq.bars 1 = false ∧ runningStage (calling [⟨0, 50, 0⟩]) = some 0) ∧
      choose (calling [⟨0, 50, 0⟩, ⟨1, 50, 0⟩]) = some (.call 1) ∧
      (transferDue (selected .isolated) = true ∧ (selected .isolated).plans.pending.map (·.plan) = some 1) ∧
      (transferDue serving = false ∧ activePlan serving = some plan2 ∧ 1 ≤ plan2.stepCount ∧ plan2.stepCount ≤ 32) ∧
      (serving.seq.designation = some .step ∧ serving.seq.stepIndex = some 0) ∧
      (State.reset.seq.designation ≠ some .step ∧ State.reset.seq.resume = none) ∧
      (loaded.seq.phase ≠ .stage ∧ serving.seq.phase = .stage) ∧
      choose serving = some (.step 1 1) ∧ targetSet serving (.step 1 1) = 2 ∧ serving.seq.current = 1 ∧
      (barredSet serving 1 = false ∧ mayEnd serving (.step 1 1) 1 = false ∧ mayEnd ripe (.step 1 1) 1 = true) ∧
      barredSet (modGroupProof serving 1 fun r => { r with red := .loss }) 1 = true ∧
      (∀ g : GroupId, has (1 : Set16) g = (has serving.seq.current g && !has (targetSet serving (.step 1 1)) g)) ∧
      choose { serving with seq := { serving.seq with allRed := true, designation := some .s0 } } = none ∧
      (decision ripe).seq.groups[0].endAt = some 90 ∧ (decision ripe).seq.groups[1].greenAt = some 91 := by
  decide +kernel

/-- The same where the next step has the set that runs, or where the due plan's first step has. -/
def sameSet (due : Bool) : State :=
  if due then { selected .isolated with seq := { (selected .isolated).seq with minCount := 300 } }
  else { ripe with stages := ripe.stages.set 1 { defined := true, members := 1 } }

theorem test_hyps_AspectsTargetsAndInterstages_sameSet :
    (choose (sameSet false) = some (.step 1 1) ∧ targetSet (sameSet false) (.step 1 1) = (sameSet false).seq.current ∧
        mayEnd (sameSet false) (.step 1 1) 0 = true ∧ transferDue (sameSet false) = false) ∧
      (choose (sameSet true) = some (.step 0 0) ∧ targetSet (sameSet true) (.step 0 0) = (sameSet true).seq.current ∧
        mayEnd (sameSet true) (.step 0 0) 0 = true ∧ transferDue (sameSet true) = true) ∧
      (decision (sameSet false)).seq.stepIndex = some 1 ∧ (decision (sameSet false)).seq.minCount = 0 ∧
      (decision (sameSet true)).plans.active = some 1 ∧ (decision (sameSet true)).plans.pending = none := by
  decide +kernel

theorem test_hyps_SequencerExpiriesDecide :
    (inService 0).seq.service = some ⟨0, 0⟩ ∧ serving.seq.service = none ∧
      (∀ c ∈ (calling [⟨1, 50, 1199⟩]).seq.calls, c.stage = 1 → c.wait < 1200) ∧
      ∃ c ∈ (calling [⟨1, 50, 1200⟩]).seq.calls, c.stage = 1 ∧ 1200 ≤ c.wait := by decide +kernel

theorem test_hyps_RestoreOfferOpensTheWindow :
    starting.service.state ≠ .handedOver ∧ loaded.service.state = .handedOver ∧
      (2 ≤ (2 : Word16).toNat ∧ (20 : Word16).toNat ≤ 20) ∧ (1 : Word16).toNat = 1 ∧ 20 < (21 : Word16).toNat := by
  decide +kernel

theorem test_hyps_RestoreConditions : restoreFails loaded = none ∧ restoreFails State.reset = some (.noTable, 0) := by
  decide +kernel

theorem test_hyps_RestoreStartsThePart :
    serving.service.state ≠ .handedOver ∧ loaded.service.offer = none ∧ offered.service.state = .handedOver ∧
      offered.service.offer ≠ none ∧ restoreFails offered = none ∧ exposedPair (enterStarting offered) = none ∧
      restoreFails (modMains offered fun m => { m with state := .lost }) = some (.mainsInvalid, 0) := by decide +kernel

theorem test_hyps_HandoverTakesEveryBlock :
    loaded.service.state = .handedOver ∧ serving.service.state ≠ .handedOver ∧
      ∀ o : OutputId, serving.proving.outputs[o].state ≠ .litUnwanted := by decide +kernel

theorem test_hyps_HandoverRequest : loaded.service.state = .handedOver ∧ serving.service.state ≠ .handedOver := by
  decide +kernel

theorem test_hyps_VouchKeepsThePartInService :
    loaded.service.state = .handedOver ∧ serving.service.state ≠ .handedOver ∧ (0 : Word16) = serving.safety.signature ∧
      (1 : Word16) ≠ serving.safety.signature := by decide +kernel

/-- Input 1 holds CHANGEOVER_FEEDBACK, and the changeover timer stands at 0. -/
def feedback (s : State) : State :=
  modService (modInput s 0 fun r => { r with function := .changeover }) fun r => { r with changeover := some 0 }

/-- Inputs 1 and 2 are panel keys, the second closed or not. -/
def keyed (x : Level) (s : State) : State :=
  modInput (modInput s 0 fun r => { r with function := .panelKey, level := .closed }) 1 fun r =>
    { r with function := .panelKey, level := x, lastSample := some x, sampleCount := 2 }

theorem test_hyps_RestoreAndHandoverJudgeTheTimers :
    ((∀ j : InputId, (feedback offered).inputs[j].function = .changeover → j = 0) ∧
        restoreFails (feedback offered) = none ∧ exposedPair (enterStarting (feedback offered)) = none) ∧
      (run (.restore .plan noFields) (feedback offered)).service.changeover = some 5 ∧
      (keysClosed (keyed .closed offered) = true ∧ keysClosed (keyed .opened offered) = false) ∧
      (run (.restore .plan noFields) (keyed .closed offered)).service.twoKey = some 10 ∧
      (handover .planRequest [] (modInput (feedback serving) 0 fun r => { r with level := .closed })).service.changeover =
        some 5 ∧
      (∀ i : InputId, serving.inputs[i].function ≠ .changeover) := by decide +kernel

theorem test_hyps_ServiceTimersExpire :
    loaded.service.changeover ≠ some 0 ∧ (feedback serving).service.changeover = some 0 ∧
      feedbackInput (feedback serving) = some 0 ∧ (feedback serving).service.state ≠ .handedOver ∧
      (feedback loaded).service.state = .handedOver ∧ feedbackInput (feedback loaded) = some 0 ∧
      feedbackInput (modService loaded fun r => { r with changeover := some 0 }) = none := by decide +kernel

/-- STARTING with G2's red status not RED_OK. -/
def unprovedStart : State := modGroupProof starting 1 fun r => { r with red := .untested }

theorem test_hyps_StartCheckDecidesTheService :
    serving.service.state ≠ .starting ∧ starting.service.state = .starting ∧ starting.service.start = some 0 ∧
      (0 < redCount unprovedStart 1 ∧ unprovedStart.proving.groups[1].red ≠ .ok ∧
        ∀ h : GroupId, h < 1 → redCount unprovedStart h = 0 ∨ unprovedStart.proving.groups[h].red = .ok) ∧
      PartOk starting ∧
      ∀ g : GroupId,
        starting.proving.groups[g].red ≠ .loss ∧ (redCount starting g = 0 ∨ starting.proving.groups[g].red = .ok) :=
  ⟨by decide +kernel, by decide +kernel, by decide +kernel, by decide +kernel, test_partOk_starting, by decide +kernel⟩

theorem test_hyps_ServiceRestartCancelsTheFaults :
    serving.service.state ≠ .handedOver ∧ loaded.service.state = .handedOver ∧ PartOk loaded ∧
      (run (.serviceRestart .check noFields) (modCard loaded 0 fun r => { r with online := false, lastSlotTook := true })
        ).line.cards[0].online = true :=
  ⟨by decide +kernel, by decide +kernel, test_partOk_loaded, by decide +kernel⟩

/-- Input 1 sampled, with a function, a level and a sample count. -/
def sampled (fn : InputFunction) (x : Level) (count : Nat) : State :=
  modInput loaded 0 fun r => { r with function := fn, lastSample := some x, level := x, sampleCount := count }

theorem test_hyps_InputSamplesAndInputSet :
    (loaded.inputs[0].lastSample = none ∧ (sampled .plain .opened 0).inputs[0].lastSample ≠ none ∧
        (sampled .plain .opened 1).inputs[0].sampleCount + 1 < (sampled .plain .opened 1).inputs[0].filter ∧
        (sampled .plain .opened 2).inputs[0].filter ≤ (sampled .plain .opened 2).inputs[0].sampleCount + 1 ∧
        (sampled .none .opened 2).inputs[0].function = .none ∧ (sampled .door .closed 2).inputs[0].function = .door) ∧
      (run (.inputSample 0 .closed) (sampled .plain .opened 2)).inputs[0].cleaning = some 20 ∧
      loaded.inputs[0].cleaning = none ∧ (run (.inputSample 0 .opened) (sampled .door .closed 2)).faults.order = [0] ∧
      (wettingControl .openSense 250 = .low ∧ wettingControl .openSense 251 = .none) ∧
      ((16 : Word16).toNat = number (15 : StageId) ∧ (16 : Word16).toNat ∈ [1, 2, 4, 8, 16] ∧
        (16 : Word16).toNat ≠ loaded.inputs[15].interval ∧ (15 : Word16).toNat ≠ loaded.inputs[15].filter ∧
        (2 : Word16).toNat ≠ loaded.inputs[15].filter) ∧
      (4 < (5 : Byte).toNat ∧ 6 < (7 : Word16).toNat ∧ 16 < (17 : Word16).toNat ∧ 1 < (2 : Word16).toNat ∧
        (3 : Word16).toNat ∉ [1, 2, 4, 8, 16] ∧ (1 : Word16).toNat < 2 ∧ 15 < (16 : Word16).toNat) ∧
      (sampled .plain .opened 0).inputs[0].function = .plain ∧ loaded.inputs[0].function = .none ∧
      otherFeedback (feedback loaded) 15 = some 0 := by
  decide +kernel

/-- Input 1 in SERVICE, with a function and a level against which the next sample is an edge. -/
def edged (fn : InputFunction) (x : Level) : State :=
  modInput serving 0 fun r =>
    { r with function := fn, lastSample := some x, level := x, sampleCount := 2, edge := .closed, stage := 1 }

theorem test_hyps_InputSamplesAndInputSet_functions :
    (has (run (.inputSample 0 .closed) (edged .demand .opened)).seq.latches 1 = true ∧
        (run (.inputSample 0 .opened) (edged .demand .closed)).seq.latches = 0 ∧ (edged .demand .opened).inputs[0].stage = 1 ∧
        runningStage serving = some 0 ∧ has serving.seq.latches 1 = false) ∧
      (holdActive (run (.inputSample 0 .closed) (edged .allRed .opened)) = true ∧ holdActive (edged .allRed .opened) = false) ∧
      (run (.inputSample 0 .opened) (edged .changeover .closed)).service.changeover = some 5 ∧
      (run (.inputSample 0 .closed) (edged .changeover .opened)).service.changeover = none ∧
      (run (.inputSample 1 .closed) (keyed .opened serving)).service.twoKey = some 10 ∧
      (keysClosed (keyed .closed serving) = true ∧ keysClosed (edged .panelKey .closed) = false) ∧
      (run (.inputSet .plan ⟨2, 0, 4⟩ .closed 0) (edged .panelKey .closed)).service.twoKey = some 10 ∧
      (run (.inputSet .plan ⟨1, 0, 1⟩ .closed 0) (feedback serving)).service.changeover = none ∧
      (run (.inputSet .plan ⟨1, 0, 6⟩ .opened 0) (edged .plain .opened)).service.changeover = some 5 ∧
      holdActive (run (.inputSet .plan ⟨1, 0, 3⟩ .closed 0) serving) = true ∧
      otherFeedback (feedback serving) 0 = none ∧
      run (.inputSet .plan ⟨1, 0, 5⟩ .opened 0) (edged .door .closed) =
        { edged .door .closed with ports := (run (.inputSet .plan ⟨1, 0, 5⟩ .opened 0) (edged .door .closed)).ports } := by
  decide +kernel

/-- A table with one latched record whose condition has ended, in slot 0. -/
def oneRecord : FaultTable := postRecord 7 .cross (.output 0) true (some [9]) State.reset.faults

/-- The same, cleared by the check link. -/
def halfCleared : State := { loaded with faults := clearSlot 8 .check 0 oneRecord }

theorem test_hyps_PostingCreatesOrReoccurs :
    endsAtPosting .lampDark = false ∧ findRecord State.reset.faults .lampDark (.output 63) = none ∧
      State.reset.faults.slots[0] = none ∧
      findRecord (postRecord 7 .lampDark (.output 63) false (some []) State.reset.faults) .lampDark (.output 63) = some 0 := by
  decide +kernel

/-- A full table of LAMP_DIM records, in slot order; slot 5's is CLEARED, or every one latched or not. -/
def fullTable (cleared latched : Bool) : FaultTable :=
  { State.reset.faults with
    slots := vgen fun i =>
      let r := newRecord i.val .lampDim (.output (Fin.ofNat 64 i.val)) latched []
      some (if i.val = 5 then { r with active := !cleared, ended := cleared } else r)
    order := allSlots }

/-- The slot that a record of output 64 takes, and the overflow flag. -/
def taken (k : FaultKind) (t : FaultTable) : Option SlotId × Bool :=
  let u := postRecord 99 k (.output 63) false (some []) t
  (findRecord u k (.output 63), u.overflow)

theorem test_hyps_PostingCreatesOrReoccurs_full :
    (∀ j : SlotId, (fullTable true true).slots[j] ≠ none) ∧ findRecord (fullTable true true) .doorOpen (.output 63) = none ∧
      taken .doorOpen (fullTable true true) = (some 5, false) ∧
      (levelOf .lampDim (.output 0), levelOf .earthLeak (.output 0), levelOf .doorOpen (.output 0)) = (2, 3, 1) ∧
      taken .earthLeak (fullTable false false) = (some 0, false) ∧ taken .lampDim (fullTable false false) = (none, true) ∧
      taken .redLoss (fullTable false true) = (none, true) ∧
      ((postRecord 99 .crossUnresolved (.output 0) false (some []) State.reset.faults).slots[0].map (·.active)) = some false ∧
      (oneRecord.slots[0].map fun r => (r.active, r.ended)) = some (true, true) ∧
      ((postRecord 99 .cardSilent (.card 0) false none State.reset.faults).slots[0].map (·.detail)) = some [] := by
  decide +kernel

/-- Card 1 in a latched trip, its record in slot 0, with the check link's mark or without. -/
def latchedTrip (marked : Bool) : State :=
  let s := modCable loaded 0 fun r => { r with tripped := true, latched := true }
  let t := postRecord 7 .cardTrip (.card 0) true (some [300]) State.reset.faults
  { s with faults := if marked then clearSlot 8 .check 0 t else t }

theorem test_hyps_ClearRecordSetsTheMark_trip (b : Bool) :
    ((latchedTrip b).faults.slots[0].map fun r => (r.kind, r.subject, r.active, r.latched, r.clear.check)) =
        some (.cardTrip, .card 0, true, true, b) ∧
      findRecord (latchedTrip b).faults .cardTrip (.card 0) = some 0 ∧
      (latchedTrip b).cable.cards[0].tripped = true ∧ (latchedTrip b).cable.cards[0].latched = true ∧
      TableOk (latchedTrip b).faults := by
  have t : TableOk (postRecord 7 .cardTrip (.card 0) true (some [300]) State.reset.faults) :=
    TableOk.post tableOk_reset 7 .cardTrip (.card 0) true (some [300])
  have u : TableOk (latchedTrip b).faults := by
    cases b
    · exact t
    · exact TableOk.cleared t 8 .check 0
  refine ⟨?_, ?_, ?_, ?_, u⟩ <;> cases b <;> decide +kernel

theorem test_hyps_ClearRecordSetsTheMark :
    loaded.faults.slots[47] = none ∧ 47 < (48 : Byte).toNat ∧
      (halfCleared.faults.slots[0].map fun r =>
          (r.kind, r.subject, r.active, r.ended, r.latched, r.clear.check)) =
        some (.cross, .output 0, true, true, true, true) ∧
      kindCode .cross = (12 : Byte).toNat ∧ kindCode .cross ≠ (13 : Byte).toNat ∧
      findRecord halfCleared.faults .cross (.output 0) = some 0 ∧
      (oneRecord.slots[0].map fun r => (r.active, r.latched, r.clear.check)) = some (true, true, false) ∧
      answer .plan (run (.clearRecord .plan ⟨0, 12, 0⟩) halfCleared) = (.done, 1) ∧
      answer .plan (run (.clearRecord .plan ⟨0, BitVec.ofNat 8 (kindCode .cardTrip), 0⟩) (latchedTrip true)) = (.done, 1) ∧
      (run (.clearRecord .plan ⟨0, BitVec.ofNat 8 (kindCode .cardTrip), 0⟩) (latchedTrip true)).cable.cards[0].watchTimer =
        some 6000 := by decide +kernel

/-- The cleared record of an unlatched kind, and an unlatched trip's record with its card tripped. -/
def clearedOnes : State :=
  { modCable loaded 0 fun r => { r with tripped := true, latched := false } with
    faults :=
      postRecord 8 .cardTrip (.card 0) false (some [300])
        (postRecord 7 .crossUnresolved (.output 0) false (some []) State.reset.faults) }

theorem test_hyps_ClearRecordSetsTheMark_cleared :
    (clearedOnes.faults.slots[0].map fun r => (r.kind, r.active)) = some (.crossUnresolved, false) ∧
      (clearedOnes.faults.slots[1].map fun r => (r.kind, r.active, r.ended, r.latched)) = some (.cardTrip, true, false, false) ∧
      clearedOnes.cable.cards[0].latched = false ∧
      findRecord clearedOnes.faults .crossUnresolved (.output 0) = some 0 ∧
      findRecord clearedOnes.faults .cardTrip (.card 0) = some 1 ∧
      answer .plan (run (.clearRecord .plan ⟨0, BitVec.ofNat 8 (kindCode .crossUnresolved), 0⟩) clearedOnes) = (.done, 1) ∧
      answer .plan (run (.clearRecord .plan ⟨1, BitVec.ofNat 8 (kindCode .cardTrip), 0⟩) clearedOnes) = (.done, 0) := by
  decide +kernel

theorem test_hyps_AttentionThresholdAndRelease : 7 < (8 : Word16).toNat ∧ (7 : Word16).toNat ≤ 7 := by decide

/-- READ NEXT NOTICE requests taken one after another from the table with one record. -/
def noticed (xs : List Fields) : State :=
  xs.foldl (fun t f => run (.readNextNotice .plan f) t) { loaded with faults := oneRecord }

theorem test_hyps_NextNoticeReadsTheWeightiest :
    nextNotice loaded.faults .plan = none ∧ (nextNotice oneRecord .plan).map (·.1) = some 0 ∧
      (nextNotice (postRecord 8 .cross (.output 1) true (some [9]) oneRecord) .plan).map (·.1) = some 0 ∧
      answer .plan (noticed [⟨0, 0, 0⟩, ⟨0, 0, 1⟩]) = (.done, 12) ∧
      answer .plan (noticed [⟨0, 0, 0⟩, ⟨0, 0, 5⟩]) = (.badValue, 0) ∧ answer .plan (noticed [⟨0, 1, 0⟩]) = (.badSubject, 0) ∧
      answer .plan (noticed [⟨0, 1, 1⟩]) = (.badSubject, 0) := by decide +kernel

/-- A timing unit in SERVICE meets the hypotheses of every invariant's statement. -/
theorem test_hyps_StepKeeps :
    PartOk { serving with pending := [.timingUnit] } ∧
      ∃ t, step { serving with pending := [.timingUnit] } = .next t :=
  ⟨partOk_queue test_partOk_serving _, _, rfl⟩

end Sys2Proof.Tests
end

section
/-! PROOFS. Chapter 1, the junction configuration and the safety table: the reset, SAFETY WRITE, ACTIVATE with its
comparison, checks and installation, and STAGE WRITE. -/

namespace Sys2Proof.Machine

/-! ### The reset (R153, R172) -/

/-- An entry of a vector of equal entries, by its number. -/
theorem replicate_get {α : Type} {n : Nat} (a : α) (i : Fin n) : (Vector.replicate n a)[i] = a :=
  Vector.getElem_replicate i.isLt

/-- POWER_ON_RESET changes nothing of the reset state but the queue and the inputs (R153). -/
theorem exec_powerOnReset (contacts : Set16) (s : State) :
    exec (.powerOnReset contacts) s = .next (firstSamples contacts { State.reset with pending := s.pending }) := rfl

/-- The first sample of an input at its power-on value (R172). -/
theorem firstSamples_reset_inputs (contacts : Set16) (p : List Instr) (i : InputId) :
    (firstSamples contacts { State.reset with pending := p }).inputs[i] =
      filterReset (if has contacts i then .closed else .opened) Input.initial := by
  simp only [firstSamples, vgen_get]
  exact congrArg (filterReset _) (replicate_get Input.initial i)

/-- Settles O2: each vector of the reset state is a vector of equal entries, and POWER_ON_RESET is a filter reset of each
input from there. -/
theorem resetHoldings : Obligations.ResetHoldings := by
  refine ⟨⟨rfl, rfl, rfl, rfl, fun g => ⟨replicate_get _ g, replicate_get _ g, fun h => ?_⟩,
      fun o => replicate_get _ o, fun n => replicate_get _ n⟩,
    ⟨rfl, rfl, fun c => replicate_get _ c, fun l => by cases l <;> rfl, rfl,
      fun o => ⟨replicate_get _ o, replicate_get _ o, replicate_get _ o⟩,
      fun c => ⟨replicate_get _ c, replicate_get _ c⟩, fun g => replicate_get _ g, fun i => replicate_get _ i⟩,
    ⟨rfl, rfl, rfl, rfl, fun p => replicate_get _ p, rfl, fun i => replicate_get _ i, fun i => replicate_get _ i, rfl,
      rfl, fun l => by cases l <;> exact ⟨rfl, rfl⟩, rfl⟩,
    fun contacts s => ⟨_, exec_powerOnReset contacts s, rfl, fun i => ?_⟩⟩
  · exact (congrArg (fun row : Vector Nat 16 => row[h]) (replicate_get _ g)).trans (replicate_get _ h)
  · rw [firstSamples_reset_inputs]
    split <;> rfl

/-! ### Operands of SAFETY WRITE and STAGE WRITE (R205, R210) -/

theorem oneBased_number {n : Nat} (i : Fin n) : oneBased n (number i) = some i := by
  simp [oneBased, number]

theorem oneBased_none {n k : Nat} (h : k = 0 ∨ n < k) : oneBased n k = none :=
  dif_neg (by omega)

theorem zeroBased_val {n : Nat} (i : Fin n) : zeroBased n i.val = some i := by
  simp [zeroBased]

/-- A number below 256 is read back from its byte (R205). -/
theorem byte_toNat {n : Nat} (h : n < 256) : (BitVec.ofNat 8 n).toNat = n := by
  rw [BitVec.toNat_ofNat]
  exact Nat.mod_eq_of_lt h

theorem number16_toNat (g : Fin 16) : (BitVec.ofNat 8 (number g)).toNat = number g :=
  byte_toNat (Nat.lt_of_le_of_lt g.isLt (by decide))

theorem subject16_number (g : Fin 16) : subject16 (BitVec.ofNat 8 (number g)) = some g := by
  rw [subject16, number16_toNat]
  exact oneBased_number g

theorem valueBool_eq (v : Word16) :
    valueBool v = if v = 0 then some false else if v = 1 then some true else none := by
  unfold valueBool
  split
  case h_1 h => rw [if_pos (BitVec.eq_of_toNat_eq h)]
  case h_2 h =>
    obtain rfl : v = 1 := BitVec.eq_of_toNat_eq h
    rfl
  case h_3 h0 h1 =>
    have n0 : v ≠ 0 := fun e => h0 (e ▸ rfl)
    have n1 : v ≠ 1 := fun e => h1 (e ▸ rfl)
    rw [if_neg n0, if_neg n1]

/-- A group kind is coded as a field of two values (R210). -/
theorem valueKind_eq_valueBool (v : Word16) :
    valueKind v = (valueBool v).map fun b => if b then .crossing else .vehicle := by
  unfold valueKind valueBool
  match v.toNat with
  | 0 => rfl
  | 1 => rfl
  | _ + 2 => rfl

/-- A handover aspect is coded as a field of two values (R210). -/
theorem valueAspect_eq_valueBool (v : Word16) :
    valueAspect v = (valueBool v).map fun b => if b then .flash else .dark := by
  unfold valueAspect valueBool
  match v.toNat with
  | 0 => rfl
  | 1 => rfl
  | _ + 2 => rfl

theorem valueColour_eq (v : Word16) :
    valueColour v =
      if v = 0 then some .red else if v = 1 then some .amber else if v = 2 then some .green else none := by
  unfold valueColour
  split
  case h_1 h => rw [if_pos (BitVec.eq_of_toNat_eq h)]
  case h_2 h =>
    obtain rfl : v = 1 := BitVec.eq_of_toNat_eq h
    rfl
  case h_3 h =>
    obtain rfl : v = 2 := BitVec.eq_of_toNat_eq h
    rfl
  case h_4 h0 h1 h2 =>
    have n0 : v ≠ 0 := fun e => h0 (e ▸ rfl)
    have n1 : v ≠ 1 := fun e => h1 (e ▸ rfl)
    have n2 : v ≠ 2 := fun e => h2 (e ▸ rfl)
    rw [if_neg n0, if_neg n1, if_neg n2]

/-! ### One field written (R2 to R7) -/

theorem stored_valueBool {β : Type} (v : Word16) (f : Bool → β) :
    stored (valueBool v) f = if v = 0 then .ok (f false) else if v = 1 then .ok (f true) else .error .badValue := by
  rw [valueBool_eq]
  split
  · rfl
  · split <;> rfl

theorem stored_map {α β γ : Type} (v : Option α) (g : α → β) (f : β → γ) :
    stored (v.map g) f = stored v (f ∘ g) := by
  cases v <;> rfl

theorem stored_valueKind {β : Type} (v : Word16) (f : GroupKind → β) :
    stored (valueKind v) f =
      if v = 0 then .ok (f .vehicle) else if v = 1 then .ok (f .crossing) else .error .badValue := by
  rw [valueKind_eq_valueBool, stored_map, stored_valueBool]
  rfl

theorem stored_valueAspect {β : Type} (v : Word16) (f : HandAspect → β) :
    stored (valueAspect v) f =
      if v = 0 then .ok (f .dark) else if v = 1 then .ok (f .flash) else .error .badValue := by
  rw [valueAspect_eq_valueBool, stored_map, stored_valueBool]
  rfl

theorem stored_valueColour {β : Type} (v : Word16) (f : Colour → β) :
    stored (valueColour v) f =
      if v = 0 then .ok (f .red) else if v = 1 then .ok (f .amber) else if v = 2 then .ok (f .green)
      else .error .badValue := by
  rw [valueColour_eq]
  split
  · rfl
  · split
    · rfl
    · split <;> rfl

theorem stored_valueIn {β : Type} (lo hi : Nat) (v : Word16) (f : Nat → β) :
    stored (valueIn lo hi v) f = if lo ≤ v.toNat ∧ v.toNat ≤ hi then .ok (f v.toNat) else .error .badValue := by
  unfold valueIn
  split <;> rfl

/-- A written record put back into its table. -/
theorem map_stored {α β γ : Type} (v : Option α) (f : α → β) (g : β → γ) :
    (stored v f).map g = stored v fun a => g (f a) := by
  cases v <;> rfl

theorem writeCopy_global (t : SafetyTable) (i : Byte) (v : Word16) :
    writeCopy t ⟨0, i, v⟩ = writeGlobal t i.toNat v := rfl

theorem writeCopy_group (t : SafetyTable) (g : GroupId) (i : Byte) (v : Word16) :
    writeCopy t ⟨BitVec.ofNat 8 (number g), i, v⟩ = writeGroup t g i.toNat v := by
  have nonzero : number g ≠ 0 := Nat.succ_ne_zero _
  simp only [writeCopy, number16_toNat, oneBased_number, if_neg nonzero]

theorem writeCopy_output (t : SafetyTable) (o : OutputId) (i : Byte) (v : Word16) :
    writeCopy t ⟨BitVec.ofNat 8 (0x40 + o.val), i, v⟩ =
      (writeOutputField t.outputs[o] i.toNat v).map fun r => { t with outputs := t.outputs.set o r } := by
  have subject : (BitVec.ofNat 8 (0x40 + o.val)).toNat = 0x40 + o.val := byte_toNat (by omega)
  have nonzero : 0x40 + o.val ≠ 0 := by omega
  have noGroup : oneBased 16 (0x40 + o.val) = none := oneBased_none (by omega)
  simp only [writeCopy, subject, if_neg nonzero, noGroup, Nat.add_sub_cancel_left, zeroBased_val, Nat.le_add_right,
    if_true]

theorem writeGroup_record (t : SafetyTable) (g : GroupId) (v : Word16) {n : Nat} (h : n < 6) :
    writeGroup t g n v = (writeGroupField t.groups[g] n v).map fun r => { t with groups := t.groups.set g r } := by
  have notRow : n ≠ 6 := by omega
  have low : n - 0x10 = (0 : Fin 16).val := by simp; omega
  have notIntergreen : ¬0x10 ≤ n := by omega
  simp only [writeGroup, if_neg notRow, low, zeroBased_val, if_neg notIntergreen]

theorem writeGroup_intergreen (t : SafetyTable) (g h : GroupId) (v : Word16) :
    writeGroup t g (0x10 + h.val) v =
      stored (valueIn 0 255 v) fun n => { t with intergreens := t.intergreens.set g (t.intergreens[g].set h n) } := by
  have notRow : 0x10 + h.val ≠ 6 := by omega
  simp only [writeGroup, if_neg notRow, Nat.add_sub_cancel_left, zeroBased_val, Nat.le_add_right, if_true]
  rfl

/-- Every numeric field of a group record is stored within its range (R3). -/
theorem writeGroupField_numeric (a : GroupRec) (v : Word16) :
    ∀ r ∈ groupFields, r.index.toNat < 6 ∧
      writeGroupField a r.index.toNat v = stored (valueIn r.least r.most v) fun n => r.put n a := by
  simp only [groupFields, List.forall_mem_cons]
  exact ⟨⟨by decide, rfl⟩, ⟨by decide, rfl⟩, ⟨by decide, rfl⟩, ⟨by decide, rfl⟩, nofun⟩

/-- Every numeric field of an output map record is stored within its range (R6). -/
theorem writeOutputField_numeric (a : OutputRec) (v : Word16) :
    ∀ r ∈ outputFields,
      writeOutputField a r.index.toNat v = stored (valueIn r.least r.most v) fun n => r.put n a := by
  simp only [outputFields, List.forall_mem_cons]
  exact ⟨rfl, rfl, rfl, rfl, rfl, nofun⟩

theorem writeCopy_groupField (t : SafetyTable) (g : GroupId) (i : Byte) (v : Word16) (h : i.toNat < 6) :
    writeCopy t ⟨BitVec.ofNat 8 (number g), i, v⟩ =
      (writeGroupField t.groups[g] i.toNat v).map fun r => { t with groups := t.groups.set g r } := by
  rw [writeCopy_group, writeGroup_record t g v h]

theorem writeCopy_groupDefined (t : SafetyTable) (g : GroupId) (v : Word16) :
    writeCopy t ⟨BitVec.ofNat 8 (number g), 0, v⟩ =
      if v = 0 then .ok { t with groups := t.groups.set g { t.groups[g] with defined := false } }
      else if v = 1 then .ok { t with groups := t.groups.set g { t.groups[g] with defined := true } }
      else .error .badValue := by
  rw [writeCopy_groupField t g 0 v (by decide)]
  exact (map_stored _ _ _).trans (stored_valueBool v _)

theorem writeCopy_groupKind (t : SafetyTable) (g : GroupId) (v : Word16) :
    writeCopy t ⟨BitVec.ofNat 8 (number g), 1, v⟩ =
      if v = 0 then .ok { t with groups := t.groups.set g { t.groups[g] with kind := .vehicle } }
      else if v = 1 then .ok { t with groups := t.groups.set g { t.groups[g] with kind := .crossing } }
      else .error .badValue := by
  rw [writeCopy_groupField t g 1 v (by decide)]
  exact (map_stored _ _ _).trans (stored_valueKind v _)

theorem writeCopy_groupNumber (t : SafetyTable) (g : GroupId) (v : Word16) (r : NumField GroupRec)
    (h : r ∈ groupFields) :
    writeCopy t ⟨BitVec.ofNat 8 (number g), r.index, v⟩ =
      if r.least ≤ v.toNat ∧ v.toNat ≤ r.most then
        .ok { t with groups := t.groups.set g (r.put v.toNat t.groups[g]) }
      else .error .badValue := by
  obtain ⟨index, field⟩ := writeGroupField_numeric t.groups[g] v r h
  rw [writeCopy_groupField t g r.index v index, field, map_stored, stored_valueIn]

theorem writeCopy_conflicts (t : SafetyTable) (g : GroupId) (v : Word16) :
    writeCopy t ⟨BitVec.ofNat 8 (number g), 6, v⟩ = .ok { t with conflicts := t.conflicts.set g v } := by
  rw [writeCopy_group]
  rfl

theorem writeCopy_intergreen (t : SafetyTable) (g h : GroupId) (v : Word16) :
    writeCopy t ⟨BitVec.ofNat 8 (number g), BitVec.ofNat 8 (0x10 + h.val), v⟩ =
      if v.toNat ≤ 255 then
        .ok { t with intergreens := t.intergreens.set g (t.intergreens[g].set h v.toNat) }
      else .error .badValue := by
  have index : (BitVec.ofNat 8 (0x10 + h.val)).toNat = 0x10 + h.val := byte_toNat (by omega)
  rw [writeCopy_group, index, writeGroup_intergreen, stored_valueIn]
  simp only [Nat.zero_le, true_and]

theorem writeCopy_outputUsed (t : SafetyTable) (o : OutputId) (v : Word16) :
    writeCopy t ⟨BitVec.ofNat 8 (0x40 + o.val), 0, v⟩ =
      if v = 0 then .ok { t with outputs := t.outputs.set o { t.outputs[o] with used := false } }
      else if v = 1 then .ok { t with outputs := t.outputs.set o { t.outputs[o] with used := true } }
      else .error .badValue := by
  rw [writeCopy_output]
  exact (map_stored _ _ _).trans (stored_valueBool v _)

theorem writeCopy_outputGroup (t : SafetyTable) (o : OutputId) (v : Word16) :
    writeCopy t ⟨BitVec.ofNat 8 (0x40 + o.val), 1, v⟩ =
      stored (oneBased 16 v.toNat) fun g => { t with outputs := t.outputs.set o { t.outputs[o] with group := g } } := by
  rw [writeCopy_output]
  exact map_stored _ _ _

theorem writeCopy_outputColour (t : SafetyTable) (o : OutputId) (v : Word16) :
    writeCopy t ⟨BitVec.ofNat 8 (0x40 + o.val), 2, v⟩ =
      if v = 0 then .ok { t with outputs := t.outputs.set o { t.outputs[o] with colour := .red } }
      else if v = 1 then .ok { t with outputs := t.outputs.set o { t.outputs[o] with colour := .amber } }
      else if v = 2 then .ok { t with outputs := t.outputs.set o { t.outputs[o] with colour := .green } }
      else .error .badValue := by
  rw [writeCopy_output]
  exact (map_stored _ _ _).trans (stored_valueColour v _)

theorem writeCopy_outputNumber (t : SafetyTable) (o : OutputId) (v : Word16) (r : NumField OutputRec)
    (h : r ∈ outputFields) :
    writeCopy t ⟨BitVec.ofNat 8 (0x40 + o.val), r.index, v⟩ =
      if r.least ≤ v.toNat ∧ v.toNat ≤ r.most then
        .ok { t with outputs := t.outputs.set o (r.put v.toNat t.outputs[o]) }
      else .error .badValue := by
  rw [writeCopy_output, writeOutputField_numeric t.outputs[o] v r h, map_stored, stored_valueIn]

/-! ### SAFETY WRITE and ACTIVATE as requests (R7, R9 to R11) -/

/-- Both links have the right to SAFETY WRITE (R203). -/
theorem granted_safetyWrite (l : Link) : granted l 0x10 = true := by cases l <;> decide

/-- Both links have the right to ACTIVATE (R203). -/
theorem granted_activate (l : Link) : granted l 0x11 = true := by cases l <;> decide

theorem safetyWriteOp_ok {l : Link} {f : Fields} {s : State} {t : SafetyTable}
    (h : writeCopy (s.safety.copies.get l) f = .ok t) :
    safetyWriteOp l f s =
      done 0
        { s with
          safety := { s.safety with copies := s.safety.copies.set l t, marks := s.safety.marks.set l false } } := by
  simp only [safetyWriteOp, h]

theorem safetyWriteOp_error {l : Link} {f : Fields} {s : State} {r : Result}
    (h : writeCopy (s.safety.copies.get l) f = .error r) : safetyWriteOp l f s = refuse r 0 s := by
  simp only [safetyWriteOp, h]

/-- Settles O10: the write is the one field that writeCopy stores, or nothing where it refuses. -/
theorem safetyWriteChangesOwnCopy : Obligations.SafetyWriteChangesOwnCopy := by
  intro l f s
  constructor
  · intro t h
    exact responds_of_handled _ l _ f (safetyWriteOp l f) s _ _ _ rfl (granted_safetyWrite l)
      (safetyWriteOp_ok (s := receive l 0x10 f s) h)
  · intro r h
    exact responds_of_handled _ l _ f (safetyWriteOp l f) s s _ _ rfl (granted_safetyWrite l)
      (safetyWriteOp_error (s := receive l 0x10 f s) h)

/-! #### The comparison of the copies (R10) -/

/-- The first entry in which two vectors differ is missing only where they are equal. -/
theorem find_differing_none {α : Type} [BEq α] [LawfulBEq α] {n : Nat} (v w : Vector α n) :
    ((List.finRange n).find? fun i => v[i] != w[i]) = none ↔ v = w := by
  constructor
  · intro h
    refine vext fun i => ?_
    have same := List.find?_eq_none.mp h i (List.mem_finRange i)
    simpa using same
  · rintro rfl
    exact List.find?_eq_none.mpr fun i _ => by simp

/-- The comparison finds a part that differs, unless the tables are equal (R10). -/
theorem firstDifference_eq_none (a b : SafetyTable) : firstDifference a b = none ↔ a = b := by
  constructor
  · intro h
    unfold firstDifference at h
    split at h
    case isTrue => nomatch h
    case isFalse global =>
    split at h
    case h_1 => nomatch h
    case h_2 groups =>
    split at h
    case h_1 => nomatch h
    case h_2 conflicts =>
    split at h
    case h_1 => nomatch h
    case h_2 intergreens =>
    split at h
    case h_1 => nomatch h
    case h_2 outputs =>
    obtain ⟨period, aspect⟩ : a.startPeriod = b.startPeriod ∧ a.aspect = b.aspect := by simpa using global
    cases a
    cases b
    simp only [SafetyTable.mk.injEq]
    exact ⟨period, aspect, (find_differing_none _ _).mp groups, (find_differing_none _ _).mp conflicts,
      (find_differing_none _ _).mp intergreens, (find_differing_none _ _).mp outputs⟩
  · rintro rfl
    have never {α : Type} (xs : List α) : xs.find? (fun _ => false) = none := List.find?_eq_none.mpr fun _ _ => nofun
    simp [firstDifference, never]

theorem firstDifference_self (a : SafetyTable) : firstDifference a a = none := (firstDifference_eq_none a a).mpr rfl

theorem firstDifference_of_ne {a b : SafetyTable} (h : a ≠ b) : ∃ d, firstDifference a b = some d :=
  Option.ne_none_iff_exists'.mp fun e => h ((firstDifference_eq_none a b).mp e)

theorem completePair_mismatch {s : State} {d : List Word16}
    (h : firstDifference s.safety.copies.plan s.safety.copies.check = some d) :
    completePair s = refuse .mismatch 0 (post .matrixMismatch .none false (some d) (activationFails .mismatch s)) := by
  simp only [completePair, h]

theorem completePair_invalid {s : State} {c : CheckFail} {e : Element}
    (same : s.safety.copies.plan = s.safety.copies.check)
    (h : validate s.safety.copies.plan s.stages = some (c, e)) :
    completePair s =
      refuse .badValue (word (256 * reasonCode c + elementCode e))
        (activationFails (.invalid c e) (endFault .matrixMismatch .none s)) := by
  simp only [completePair, ← same, firstDifference_self, endFault_safety, endFault_stages, h]

theorem completePair_valid {s : State} (same : s.safety.copies.plan = s.safety.copies.check)
    (h : validate s.safety.copies.plan s.stages = none) :
    completePair s = done 2 (install s.safety.copies.plan (endFault .matrixMismatch .none s)) := by
  simp only [completePair, ← same, firstDifference_self, endFault_safety, endFault_stages, h]

/-! #### ACTIVATE (R9) -/

/-- The requesting link's mark set (R9). -/
def marked (l : Link) (s : State) : State :=
  { s with safety := { s.safety with marks := s.safety.marks.set l true } }

theorem activateOp_refused {l : Link} {s : State} (h : s.service.state ≠ .handedOver) :
    activateOp l s = refuse .refusedState 0 s := by
  simp [activateOp, h]

theorem activateOp_waiting {l : Link} {s : State} (h : s.service.state = .handedOver)
    (hm : s.safety.marks.get (otherLink l) = false) : activateOp l s = done 1 (marked l s) := by
  simp [activateOp, h, hm, marked]

theorem activateOp_pair {l : Link} {s : State} (h : s.service.state = .handedOver)
    (hm : s.safety.marks.get (otherLink l) = true) : activateOp l s = completePair (marked l s) := by
  simp [activateOp, h, hm, marked]

/-- The marks that a failing comparison clears hide the one just set (R10). -/
theorem activateOp_mismatch {l : Link} {s : State} {d : List Word16} (h : s.service.state = .handedOver)
    (hm : s.safety.marks.get (otherLink l) = true)
    (first : firstDifference s.safety.copies.plan s.safety.copies.check = some d) :
    activateOp l s = refuse .mismatch 0 (post .matrixMismatch .none false (some d) (activationFails .mismatch s)) :=
  (activateOp_pair h hm).trans (completePair_mismatch first)

/-- The marks that a failing check clears hide the one just set (R11). -/
theorem activateOp_invalid {l : Link} {s : State} {c : CheckFail} {e : Element} (h : s.service.state = .handedOver)
    (hm : s.safety.marks.get (otherLink l) = true) (same : s.safety.copies.plan = s.safety.copies.check)
    (invalid : validate s.safety.copies.plan s.stages = some (c, e)) :
    activateOp l s =
      refuse .badValue (word (256 * reasonCode c + elementCode e))
        (activationFails (.invalid c e) (endFault .matrixMismatch .none s)) :=
  (activateOp_pair h hm).trans (completePair_invalid same invalid)

/-- ACTIVATE answers as its handling of the frame's state does. -/
theorem responds_activate {l : Link} {f : Fields} {s u : State} {r : Result} {v : Word16}
    (h : activateOp l (receive l 0x11 f s) =
      { result := r, value := v, state := { u with ports := (receive l 0x11 f s).ports } }) :
    Responds (.activate l f) l 0x11 f r v s u :=
  responds_of_handled _ l _ f (activateOp l) s u r v rfl (granted_activate l) h

/-- Settles O11: each field through its writeCopy lemma, ACTIVATE through the cases of activateOp and completePair. -/
theorem safetyWriteFieldRangesAndActivate : Obligations.SafetyWriteFieldRangesAndActivate := by
  refine ⟨fun t v => ⟨?_, ?_, fun g => ⟨?_, ?_, ?_, ?_, ?_⟩, fun o => ⟨?_, ?_, ?_, ?_, ?_⟩⟩, fun l f s => ⟨?_, ?_⟩,
    fun l f s handed paired => ⟨fun differ => ?_, fun c e same invalid => ?_⟩⟩
  · exact (writeCopy_global t 0 v).trans (stored_valueIn 30 100 v _)
  · exact (writeCopy_global t 1 v).trans (stored_valueAspect v _)
  · exact writeCopy_groupDefined t g v
  · exact writeCopy_groupKind t g v
  · exact writeCopy_groupNumber t g v
  · exact writeCopy_conflicts t g v
  · exact fun h => writeCopy_intergreen t g h v
  · exact writeCopy_outputUsed t o v
  · intro g value
    rw [writeCopy_outputGroup, value, oneBased_number]
    rfl
  · intro value
    have none : v.toNat = 0 ∨ 16 < v.toNat := value.imp_left fun (e : v = 0) => e ▸ rfl
    rw [writeCopy_outputGroup, oneBased_none none]
    rfl
  · exact writeCopy_outputColour t o v
  · exact writeCopy_outputNumber t o v
  · exact fun h => responds_activate (activateOp_refused (s := receive l 0x11 f s) h)
  · exact fun h hm => responds_activate (activateOp_waiting (s := receive l 0x11 f s) h hm)
  · obtain ⟨d, first⟩ := firstDifference_of_ne differ
    exact ⟨d, first, responds_activate (activateOp_mismatch (s := receive l 0x11 f s) handed paired first)⟩
  · exact responds_activate (activateOp_invalid (s := receive l 0x11 f s) handed paired same invalid)

/-! ### The installation of a table (R16 to R19) -/

/-- While the sequencer is stopped a change of red status brings the bars alone (R145). -/
theorem redStatusChanged_stopped {s : State} (h : s.seq.phase = .stopped) : redStatusChanged s = recomputeBars s := by
  have stopped : (recomputeBars s).seq.phase = .stopped := h
  simp only [redStatusChanged, stopped]

/-- The records of a change of red status are all that it posts and ends (R78). -/
theorem redRecords_eq (g : GroupId) (old new : RedStatus) (s : State) :
    redRecords g old new s = { s with faults := (redRecords g old new s).faults } := by
  unfold redRecords
  cases new with
  | untested => rfl
  | ok => rfl
  | degraded => simp only; split <;> rfl
  | loss => simp only; split <;> rfl

/-- What red statuses set while the sequencer is stopped leave: everything but the groups' proving fields, the bars and the
fault table. -/
structure KeepsButReds (s t : State) : Prop where
  pending : t.pending = s.pending
  ports : t.ports = s.ports
  safety : t.safety = s.safety
  stages : t.stages = s.stages
  line : t.line = s.line
  engine : t.engine = s.engine
  cable : t.cable = s.cable
  plans : t.plans = s.plans
  phase : t.seq.phase = s.seq.phase
  service : t.service = s.service
  inputs : t.inputs = s.inputs

theorem KeepsButReds.refl (s : State) : KeepsButReds s s := by
  constructor <;> rfl

theorem KeepsButReds.trans {s t u : State} (a : KeepsButReds s t) (b : KeepsButReds t u) : KeepsButReds s u where
  pending := b.pending.trans a.pending
  ports := b.ports.trans a.ports
  safety := b.safety.trans a.safety
  stages := b.stages.trans a.stages
  line := b.line.trans a.line
  engine := b.engine.trans a.engine
  cable := b.cable.trans a.cable
  plans := b.plans.trans a.plans
  phase := b.phase.trans a.phase
  service := b.service.trans a.service
  inputs := b.inputs.trans a.inputs

theorem keepsButReds_recomputeBars (s : State) : KeepsButReds s (recomputeBars s) := by
  constructor <;> rfl

theorem keepsButReds_setRed {s : State} (h : s.seq.phase = .stopped) (g : GroupId) (r : RedStatus) :
    KeepsButReds s (setRed g r s) := by
  unfold setRed
  split
  case isTrue => exact KeepsButReds.refl s
  case isFalse =>
    rw [redRecords_eq, redStatusChanged_stopped (by exact h)]
    constructor <;> rfl

theorem setRed_red {s : State} (h : s.seq.phase = .stopped) (g i : GroupId) (r : RedStatus) :
    (setRed g r s).proving.groups[i].red = if g = i then r else s.proving.groups[i].red := by
  unfold setRed
  split
  case isTrue same =>
    have held : s.proving.groups[g].red = r := eq_of_beq same
    split
    case isTrue e => rw [← e, held]
    case isFalse => rfl
  case isFalse =>
    rw [redRecords_eq, redStatusChanged_stopped (by exact h)]
    show (vmod s.proving.groups g _)[i].red = _
    rw [vmod_get]
    split <;> rfl

/-- One red status set for the groups of a list that meet a test, while the sequencer is stopped. -/
theorem eachOf_setRed_stopped (p : GroupId → Bool) (r : RedStatus) (xs : List GroupId) (s : State)
    (h : s.seq.phase = .stopped) :
    KeepsButReds s (eachOf xs (fun g u => if p g then setRed g r u else u) s) ∧
      ∀ i : GroupId, (eachOf xs (fun g u => if p g then setRed g r u else u) s).proving.groups[i].red =
        if i ∈ xs ∧ p i = true then r else s.proving.groups[i].red := by
  induction xs generalizing s with
  | nil => exact ⟨KeepsButReds.refl s, fun i => by rw [if_neg fun m => nomatch m.1]; rfl⟩
  | cons x xs ih =>
    have step : eachOf (x :: xs) (fun g u => if p g then setRed g r u else u) s =
        eachOf xs (fun g u => if p g then setRed g r u else u) (if p x then setRed x r s else s) := rfl
    rw [step]
    cases hx : p x with
    | true =>
      have first := keepsButReds_setRed h x r
      obtain ⟨rest, reds⟩ := ih (setRed x r s) (first.phase.trans h)
      refine ⟨first.trans rest, fun i => ?_⟩
      rw [if_pos rfl, reds i, setRed_red h]
      grind
    | false =>
      obtain ⟨rest, reds⟩ := ih s h
      refine ⟨rest, fun i => ?_⟩
      rw [if_neg Bool.false_ne_true, reds i]
      grind

/-- The table installed, before the changed groups go to RED_UNTESTED (R16, R18, R19, R82). -/
def placed (t : SafetyTable) (s : State) : State :=
  reexposeAll
    (recomposeAll
      (forget (outputChanged s.safety.active t)
        { s with
          safety :=
            { s.safety with
              active := some t, signature := signatureOf t, marks := ⟨false, false⟩, outcome := .activated }
          service := { s.service with flsel := t.aspect } }))

theorem install_eq (t : SafetyTable) (s : State) :
    install t s =
      recomputeBars
        (eachOf all16 (fun g u => if groupChanged s.safety.active t g then setRed g .untested u else u) (placed t s)) :=
  rfl

theorem install_keeps {t : SafetyTable} {s : State} (h : s.seq.phase = .stopped) :
    KeepsButReds (placed t s) (install t s) := by
  rw [install_eq]
  exact (eachOf_setRed_stopped _ _ all16 (placed t s) h).1.trans (keepsButReds_recomputeBars _)

theorem install_red {t : SafetyTable} {s : State} (h : s.seq.phase = .stopped) (g : GroupId) :
    (install t s).proving.groups[g].red =
      if groupChanged s.safety.active t g then .untested else s.proving.groups[g].red := by
  have reds := (eachOf_setRed_stopped (groupChanged s.safety.active t) .untested all16 (placed t s) h).2 g
  have kept : (placed t s).proving.groups[g].red = s.proving.groups[g].red :=
    ((stays_recompose _ _).trans (stays_reexposeAll _)).reds g
  rw [kept] at reds
  simp only [all16_mem, true_and] at reds
  exact reds

theorem placed_cores (t : SafetyTable) (s : State) (o : OutputId) :
    (placed t s).engine.cores[o] =
      if outputChanged s.safety.active t o then { s.engine.cores[o] with ref := none, qref := none }
      else s.engine.cores[o] := by
  show (vgen _)[o] = _
  exact vgen_get _ o

theorem activateOp_installs {l : Link} {s : State} (h : s.service.state = .handedOver)
    (hm : s.safety.marks.get (otherLink l) = true) (same : s.safety.copies.plan = s.safety.copies.check)
    (valid : validate s.safety.copies.plan s.stages = none) :
    activateOp l s =
      done 2 (install s.safety.copies.plan (endFault .matrixMismatch .none (marked l s))) :=
  (activateOp_pair h hm).trans (completePair_valid same valid)

/-- Settles O13: the request's state is the installation's but for its port. -/
theorem activateInstallsEqualCopies : Obligations.ActivateInstallsEqualCopies := by
  intro l f s handed stopped paired same valid
  let u := endFault .matrixMismatch .none (marked l (receive l 0x11 f s))
  let t := install s.safety.copies.plan u
  have keeps : KeepsButReds (placed s.safety.copies.plan u) t := install_keeps stopped
  have answer : takeRequest l 0x11 f (activateOp l) s = compose l 0x11 (done 2 t) := by
    simp only [takeRequest, granted_activate, if_true]
    rw [activateOp_installs (s := receive l 0x11 f s) handed paired same valid]
    rfl
  refine ⟨compose l 0x11 (done 2 t), congrArg Host.Outcome.next answer,
    compose_answered l 0x11 f (done 2 t) s keeps.ports, keeps.safety, keeps.service, fun o => ?_,
    install_red (s := u) stopped, keeps.stages, keeps.line, keeps.cable, keeps.plans, keeps.inputs, keeps.pending⟩
  show t.engine.cores[o] = _
  rw [keeps.engine]
  exact placed_cores s.safety.copies.plan u o

/-! ### The checks of an activation (R11 to R15) -/

theorem all16_all {p : Fin 16 → Bool} : all16.all p = true ↔ ∀ g, p g = true := by
  simp [all16]

theorem all16_any {p : Fin 16 → Bool} : all16.any p = true ↔ ∃ g, p g = true := by
  simp [all16]

theorem all16_any_false {p : Fin 16 → Bool} : all16.any p = false ↔ ∀ g, p g = false := by
  simp [all16]

theorem all16_findSome_none {α : Type} {f : Fin 16 → Option α} : all16.findSome? f = none ↔ ∀ g, f g = none := by
  simp [all16]

theorem allOutputs_findSome_none {α : Type} {f : OutputId → Option α} :
    allOutputs.findSome? f = none ↔ ∀ o, f o = none := by
  simp [allOutputs]

theorem firstFailing_nil (e : Element) : firstFailing [] e = none := rfl

theorem firstFailing_cons_none {b : Bool} {c : CheckFail} {checks : List (Bool × CheckFail)} {e : Element} :
    firstFailing ((b, c) :: checks) e = none ↔ b = false ∧ firstFailing checks e = none := by
  cases b <;> simp [firstFailing]

/-- A set is empty where it has no member. -/
theorem set16_eq_zero {x : Set16} : x = 0 ↔ ∀ g : Fin 16, has x g = false := by
  constructor
  · rintro rfl g
    simp [has]
  · intro h
    refine BitVec.eq_of_getLsbD_eq fun i hi => ?_
    simpa [has] using h ⟨i, hi⟩

/-- Pass 1: some group is defined (R12). -/
theorem passTable_none {t : SafetyTable} : passTable t = none ↔ ∃ g : GroupId, t.groups[g].defined = true := by
  rw [passTable, firstFailing_cons_none, firstFailing_nil, ← Bool.not_eq_true, all16_all]
  simp

theorem and_not_false {a b : Bool} : (a && !b) = false ↔ (a = true → b = true) := by
  cases a <;> simp

theorem and_false_of_left {a b : Bool} : (a && b) = false ↔ (a = true → b = false) := by
  cases a <;> simp

/-- The second check of pass 2: an undefined group names none, a defined one names defined groups (R12). -/
theorem namesDefined_iff {t : SafetyTable} {g : GroupId} :
    (if t.groups[g].defined then all16.any fun h => has t.conflicts[g] h && !t.groups[h].defined
      else t.conflicts[g] != 0) = false ↔
      ∀ h : GroupId, has t.conflicts[g] h = true → t.groups[g].defined = true ∧ t.groups[h].defined = true := by
  cases hg : t.groups[g].defined with
  | true => simp only [if_true, all16_any_false, and_not_false, true_and]
  | false =>
    simp only [Bool.false_eq_true, if_false, bne_eq_false_iff_eq, set16_eq_zero, false_and, imp_false,
      Bool.not_eq_true]

/-- Pass 2 on one group: it names defined groups other than itself that name it too, and none while undefined (R12). -/
theorem passGroup_none {t : SafetyTable} {g : GroupId} :
    passGroup t g = none ↔
      ∀ h : GroupId, has t.conflicts[g] h = true →
        h ≠ g ∧ t.groups[g].defined = true ∧ t.groups[h].defined = true ∧ has t.conflicts[h] g = true := by
  simp only [passGroup, firstFailing_cons_none, firstFailing_nil, namesDefined_iff, all16_any_false, and_not_false,
    and_true]
  constructor
  · rintro ⟨self, defined, symmetric⟩ h named
    obtain ⟨hg, hh⟩ := defined h named
    have other : h ≠ g := by
      rintro rfl
      exact Bool.false_ne_true (self.symm.trans named)
    exact ⟨other, hg, hh, symmetric h named⟩
  · intro allowed
    refine ⟨Bool.eq_false_iff.mpr fun named => (allowed g named).1 rfl, fun h named => ?_, fun h named => ?_⟩
    · obtain ⟨-, hg, hh, -⟩ := allowed h named
      exact ⟨hg, hh⟩
    · obtain ⟨-, -, -, symmetric⟩ := allowed h named
      exact symmetric

/-- Pass 3 on one ordered pair (R13). -/
theorem passPair_none {t : SafetyTable} {l g : GroupId} :
    passPair t l g = none ↔
      (conflictIn t l g = true → endingPeriod t.groups[l] + 1 ≤ t.intergreens[l][g]) ∧
      (conflictIn t l g = false → t.intergreens[l][g] = 0) := by
  rw [passPair, firstFailing_cons_none, firstFailing_cons_none, firstFailing_nil]
  cases conflictIn t l g <;> simp

/-- Pass 4 on one output (R14). -/
theorem passOutput_none {t : SafetyTable} {o : OutputId} :
    passOutput t o = none ↔
      (t.outputs[o].used = true →
        t.groups[t.outputs[o].group].defined = true ∧
        ¬(t.outputs[o].colour = .amber ∧ t.groups[t.outputs[o].group].kind = .crossing) ∧
        t.outputs[o].failNum < t.outputs[o].dimNum) := by
  simp only [passOutput]
  cases t.outputs[o].used with
  | true => simp [firstFailing_cons_none, firstFailing_nil]
  | false => simp

/-- Pass 5 on one group (R14). -/
theorem passCounts_none {t : SafetyTable} {g : GroupId} :
    passCounts t g = none ↔
      (t.groups[g].defined = true →
        countOf t g .red ≤ 2 ∧ (t.groups[g].kind = .vehicle → 1 ≤ countOf t g .red) ∧ 1 ≤ countOf t g .green) := by
  unfold passCounts
  cases t.groups[g].defined with
  | true => simp [firstFailing_cons_none, firstFailing_nil, Nat.one_le_iff_ne_zero]
  | false => simp

theorem memberUndefined_false {t : SafetyTable} {x : Set16} :
    memberUndefined t x = false ↔ ∀ g : GroupId, has x g = true → t.groups[g].defined = true := by
  simp only [memberUndefined, all16_any_false, and_not_false]

theorem membersConflict_false {t : SafetyTable} {x : Set16} :
    membersConflict t x = false ↔
      ∀ g h : GroupId, has x g = true → has x h = true → conflictIn t g h = false := by
  simp only [membersConflict, all16_any_false, and_false_of_left]
  exact ⟨fun apart g h hg hh => apart g hg h hh, fun apart g hg h hh => apart g h hg hh⟩

/-- Pass 6 on one stage (R15). -/
theorem passStage_none {t : SafetyTable} {stages : Vector StageRec 16} {n : StageId} :
    passStage t stages n = none ↔
      (stages[n].defined = true →
        ∀ g : GroupId, has stages[n].members g = true →
          t.groups[g].defined = true ∧
          ∀ h : GroupId, has stages[n].members h = true → conflictIn t g h = false) := by
  unfold passStage
  cases stages[n].defined with
  | true =>
    simp only [if_true, firstFailing_cons_none, firstFailing_nil, memberUndefined_false, membersConflict_false,
      and_true, true_imp_iff]
    exact ⟨fun ⟨defined, apart⟩ g hg => ⟨defined g hg, fun h hh => apart g h hg hh⟩,
      fun allowed => ⟨fun g hg => (allowed g hg).1, fun g h hg hh => (allowed g hg).2 h hh⟩⟩
  | false => simp

/-- Settles O14: validate is none where each of its six passes is (R11). -/
theorem validationPassesExactlyTheAllowedTables : Obligations.ValidationPassesExactlyTheAllowedTables := by
  intro t stages
  simp only [validate, Option.or_eq_none_iff, all16_findSome_none, allOutputs_findSome_none, passTable_none,
    passGroup_none, passPair_none, passOutput_none, passCounts_none, passStage_none]

/-! ### STAGE WRITE (R23, R24) -/

theorem defineStage_taken {n : StageId} {x : Set16} {s : State}
    (h : ∀ t, s.safety.active = some t → memberUndefined t x = false ∧ membersConflict t x = false) :
    defineStage n x s = done 0 (setStage n { defined := true, members := x } s) := by
  unfold defineStage
  split
  case h_1 t active =>
    obtain ⟨defined, apart⟩ := h t active
    simp only [defined, apart, Bool.false_eq_true, if_false]
  case h_2 => rfl

theorem defineStage_undefined {n : StageId} {x : Set16} {s : State} {t : SafetyTable}
    (active : s.safety.active = some t) (h : memberUndefined t x = true) :
    defineStage n x s = refuse .badValue 0 s := by
  simp only [defineStage, active, h, if_true]

theorem defineStage_conflict {n : StageId} {x : Set16} {s : State} {t : SafetyTable}
    (active : s.safety.active = some t) (defined : memberUndefined t x = false) (h : membersConflict t x = true) :
    defineStage n x s = refuse .conflict 0 s := by
  simp only [defineStage, active, defined, h, Bool.false_eq_true, if_false, if_true]

theorem stageWriteOp_refused {f : Fields} {s : State} (h : s.service.state ≠ .handedOver) :
    stageWriteOp f s = refuse .refusedState 0 s := by
  simp [stageWriteOp, h]

/-- STAGE WRITE over the plan link, which has the right to it, answers as its handling of the frame's state does. -/
theorem responds_stageWrite {f : Fields} {s u : State} {r : Result}
    (h : stageWriteOp f (receive .plan 0x12 f s) =
      { result := r, value := 0, state := { u with ports := (receive .plan 0x12 f s).ports } }) :
    Responds (.stageWrite .plan f) .plan 0x12 f r 0 s u :=
  responds_of_handled _ .plan _ f (stageWriteOp f) s u r 0 rfl (by decide) h

theorem memberUndefined_true {t : SafetyTable} {x : Set16} :
    memberUndefined t x = true ↔ ∃ g : GroupId, has x g = true ∧ t.groups[g].defined = false := by
  rw [← Bool.not_eq_false, memberUndefined_false]
  simp only [not_forall, exists_prop, Bool.not_eq_true]

theorem membersConflict_true {t : SafetyTable} {x : Set16} :
    membersConflict t x = true ↔ ∃ g h : GroupId, has x g = true ∧ has x h = true ∧ conflictIn t g h = true := by
  rw [← Bool.not_eq_false, membersConflict_false]
  simp only [not_forall, exists_prop, Bool.not_eq_false]

/-- STAGE WRITE of index 0 in HANDED_OVER answers as defineStage does (R23, R205). -/
theorem responds_define {n : StageId} {v : Word16} {s u : State} {r : Result} (h : s.service.state = .handedOver)
    (hd : ∀ p : PerLink Port, defineStage n v { s with ports := p } =
      { result := r, value := 0, state := { u with ports := p } }) :
    Responds (.stageWrite .plan ⟨BitVec.ofNat 8 (number n), 0, v⟩) .plan 0x12 ⟨BitVec.ofNat 8 (number n), 0, v⟩ r 0 s u := by
  refine responds_stageWrite (Eq.trans ?_ (hd _))
  simp only [stageWriteOp, receive_service, h, bne_self_eq_false, Bool.false_eq_true, if_false, subject16_number]
  rfl

/-- STAGE WRITE of index 1 in HANDED_OVER answers as undefineStage does (R24, R205). -/
theorem responds_undefine {n : StageId} {v : Word16} {s u : State} {r : Result} (h : s.service.state = .handedOver)
    (hd : ∀ p : PerLink Port, undefineStage n { s with ports := p } =
      { result := r, value := 0, state := { u with ports := p } }) :
    Responds (.stageWrite .plan ⟨BitVec.ofNat 8 (number n), 1, v⟩) .plan 0x12 ⟨BitVec.ofNat 8 (number n), 1, v⟩ r 0 s u := by
  refine responds_stageWrite (Eq.trans ?_ (hd _))
  simp only [stageWriteOp, receive_service, h, bne_self_eq_false, Bool.false_eq_true, if_false, subject16_number]
  rfl

/-- Settles O15: the cases of defineStage and undefineStage, each as the request's answer. -/
theorem stageWriteDefinesAndUndefines : Obligations.StageWriteDefinesAndUndefines := by
  intro n v s
  refine ⟨fun h f => ?_, fun h allowed => ?_, fun t h active => ⟨fun undefined => ?_, fun defined conflict => ?_⟩,
    fun h unnamed => ?_, fun h named => ?_⟩
  · exact responds_stageWrite (stageWriteOp_refused (s := receive .plan 0x12 f s) h)
  · refine responds_define h fun p => defineStage_taken (s := { s with ports := p }) fun t active => ?_
    obtain ⟨defined, apart⟩ := allowed t active
    exact ⟨memberUndefined_false.mpr defined, membersConflict_false.mpr apart⟩
  · exact responds_define h fun p =>
      defineStage_undefined (s := { s with ports := p }) active (memberUndefined_true.mpr undefined)
  · exact responds_define h fun p =>
      defineStage_conflict (s := { s with ports := p }) active (memberUndefined_false.mpr defined)
        (membersConflict_true.mpr conflict)
  · exact responds_undefine h fun _ => if_neg (Bool.eq_false_iff.mp unnamed)
  · exact responds_undefine h fun _ => if_pos named

end Sys2Proof.Machine
end

section
/-! PROOFS. Chapter 2, the frames of the card line: the CRC that closes a frame. -/

namespace Sys2Proof.Machine

/-! ### The CRC (R31) -/

theorem force_eq {α : Type} (n : Nat) (k : Nat → α) : force n k = k n := by
  cases n <;> rfl

theorem crcBits_succ (n c : Nat) : crcBits (n + 1) c = crcBits n (crcBit c) := force_eq _ _

theorem crcRun_cons (b : Nat) (rest : List Nat) (c : Nat) :
    crcRun (b :: rest) c = crcRun rest (crcBits 8 (c ^^^ (256 * b))) := force_eq _ _

theorem crcBit_lt {c : Nat} (h : c < 65536) : crcBit c < 65536 := by
  unfold crcBit
  split
  · omega
  · exact Nat.xor_lt_two_pow (n := 16) (by omega) (by decide)

theorem crcBits_lt (n : Nat) {c : Nat} (h : c < 65536) : crcBits n c < 65536 := by
  induction n generalizing c with
  | zero => exact h
  | succ n ih => rw [crcBits_succ]; exact ih (crcBit_lt h)

/-- The register stays a 16-bit word over bytes. -/
theorem crcRun_lt {bytes : List Nat} (hb : ∀ b ∈ bytes, b < 256) {c : Nat} (h : c < 65536) : crcRun bytes c < 65536 := by
  induction bytes generalizing c with
  | nil => exact h
  | cons b rest ih =>
    obtain ⟨first, others⟩ := List.forall_mem_cons.mp hb
    rw [crcRun_cons]
    exact ih others (crcBits_lt 8 (Nat.xor_lt_two_pow (n := 16) h (by omega)))

theorem crcRun_append (xs ys : List Nat) (c : Nat) : crcRun (xs ++ ys) c = crcRun ys (crcRun xs c) := by
  induction xs generalizing c with
  | nil => rfl
  | cons x xs ih => rw [List.cons_append, crcRun_cons, crcRun_cons, ih]

/-- While no bit leaves the register, the generator does not enter and the bits are shifted alone. -/
theorem crcBits_shift (n : Nat) {c : Nat} (h : 2 ^ n * c < 65536) : crcBits n c = 2 ^ n * c := by
  induction n generalizing c with
  | zero => exact (Nat.one_mul c).symm
  | succ n ih =>
    have low : c < 32768 := by
      have : 1 * c ≤ 2 ^ n * c := Nat.mul_le_mul_right c Nat.one_le_two_pow
      rw [Nat.pow_succ, Nat.mul_right_comm] at h
      omega
    have doubled : 2 ^ n * (2 * c) = 2 ^ (n + 1) * c := by rw [Nat.pow_succ, Nat.mul_assoc]
    rw [crcBits_succ, crcBit, if_pos low, ih (by rwa [doubled]), doubled]

/-- A register combined with its own high byte leaves its low byte. -/
theorem xor_high_byte (c : Nat) : c ^^^ (256 * (c / 256)) = c % 256 := by
  refine Nat.eq_of_testBit_eq fun i => ?_
  have high : (256 * (c / 256)).testBit i = (decide (8 ≤ i) && c.testBit i) := by
    rw [show 256 = 2 ^ 8 from rfl, Nat.testBit_two_pow_mul, Nat.testBit_div_two_pow]
    by_cases h : 8 ≤ i
    · rw [Nat.sub_add_cancel h]
    · simp [h]
  rw [Nat.testBit_xor, high, show 256 = 2 ^ 8 from rfl, Nat.testBit_mod_two_pow]
  by_cases h : i < 8
  · simp [h, Nat.not_le_of_lt h]
  · simp [h, Nat.le_of_not_lt h]

/-- The register's own two bytes shifted in, the high one first, leave 0. -/
theorem crcRun_own_bytes {c : Nat} (_ : c < 65536) : crcRun [c / 256, c % 256] c = 0 := by
  have first : crcBits 8 (c % 256) = 256 * (c % 256) := crcBits_shift 8 (by omega)
  have last : 256 * (c % 256) ^^^ 256 * (c % 256) = 0 := Nat.xor_self _
  rw [crcRun_cons, crcRun_cons, xor_high_byte, first, last]
  rfl

/-- Settles O21: the two characters that close a frame are the bytes of the register itself. -/
theorem framesSentPassTheirCrc : Obligations.FramesSentPassTheirCrc := by
  intro chars
  have bound : crcRun (chars.map (·.toNat)) 0xFFFF < 65536 := by
    refine crcRun_lt (fun b hb => ?_) (by decide)
    obtain ⟨x, -, rfl⟩ := List.mem_map.mp hb
    exact x.isLt
  generalize hc : crcRun (chars.map (·.toNat)) 0xFFFF = c at bound
  have crc : crcOf (chars.map (·.toNat)) = BitVec.ofNat 16 c := congrArg (BitVec.ofNat 16) hc
  have high : ((BitVec.ofNat 16 c).extractLsb' 8 8).toNat = c / 256 := by
    simp [BitVec.extractLsb'_toNat, Nat.shiftRight_eq_div_pow]; omega
  have low : ((BitVec.ofNat 16 c).extractLsb' 0 8).toNat = c % 256 := by
    simp [BitVec.extractLsb'_toNat]
  have run : crcRun ((withCrc chars).map (·.toNat)) 0xFFFF = 0 := by
    simp only [withCrc, crc, List.map_append, crcRun_append, List.map_cons, List.map_nil, high, low, hc,
      crcRun_own_bytes bound]
  simp [crcHolds, crcOf, run]

end Sys2Proof.Machine
end

section
/-! PROOFS. Chapter 2, what the operations of the other blocks leave as it is: those that take no notice of the exchange,
and what proving, measuring and delivering leave. -/

namespace Sys2Proof.Machine

/-! ### Operations that take no notice of the exchange -/

/-- The state with another exchange. -/
def withExchange (e : Exchange) (s : State) : State := modExchange s fun _ => e

/-- An operation that neither reads nor writes the exchange. -/
def Blind (f : State → State) : Prop := ∀ e s, f (withExchange e s) = withExchange e (f s)

theorem Blind.comp {f g : State → State} (hg : Blind g) (hf : Blind f) : Blind fun s => g (f s) := fun e s =>
  (congrArg g (hf e s)).trans (hg e (f s))

/-- A blind operation chosen by something else than the exchange. -/
theorem Blind.read {α : Type} (sel : State → α) (hs : ∀ e s, sel (withExchange e s) = sel s) {f : α → State → State}
    (hf : ∀ a, Blind (f a)) : Blind fun s => f (sel s) s := fun e s => by
  simp only [hs, hf _ e s]

theorem Blind.ite {c : State → Prop} [∀ s, Decidable (c s)] (hc : ∀ e s, c (withExchange e s) = c s)
    {f g : State → State} (hf : Blind f) (hg : Blind g) : Blind fun s => if c s then f s else g s := fun e s => by
  by_cases h : c s
  · simp only [hc, h, if_true, hf e s]
  · simp only [hc, h, if_false, hg e s]

theorem Blind.eachOf {α : Type} (xs : List α) {f : α → State → State} (hf : ∀ x, Blind (f x)) :
    Blind (eachOf xs f) := fun e s => by
  induction xs generalizing s with
  | nil => rfl
  | cons x xs ih => exact (congrArg (Machine.eachOf xs f) (hf x e s)).trans (ih (f x s))

/-- A blind operation that in HANDED_OVER leaves the cable supervisor and the service controller as they are. -/
structure Aside (f : State → State) : Prop where
  blind : Blind f
  handed : ∀ s, s.service.state = .handedOver → (f s).cable = s.cable ∧ (f s).service = s.service

theorem Aside.id : Aside fun s => s := ⟨fun _ _ => rfl, fun _ _ => ⟨rfl, rfl⟩⟩

/-- An operation that never touches the cable supervisor or the service controller. -/
theorem Aside.of_keeps {f : State → State} (blind : Blind f) (cable : ∀ s, (f s).cable = s.cable)
    (service : ∀ s, (f s).service = s.service) : Aside f := ⟨blind, fun s _ => ⟨cable s, service s⟩⟩

theorem Aside.comp {f g : State → State} (hg : Aside g) (hf : Aside f) : Aside fun s => g (f s) := by
  refine ⟨hg.blind.comp hf.blind, fun s h => ?_⟩
  obtain ⟨cable, service⟩ := hf.handed s h
  obtain ⟨cable', service'⟩ := hg.handed (f s) (by rw [service]; exact h)
  exact ⟨cable'.trans cable, service'.trans service⟩

theorem Aside.read {α : Type} (sel : State → α) (hs : ∀ e s, sel (withExchange e s) = sel s) {f : α → State → State}
    (hf : ∀ a, Aside (f a)) : Aside fun s => f (sel s) s :=
  ⟨Blind.read sel hs fun a => (hf a).blind, fun s => (hf (sel s)).handed s⟩

theorem Aside.ite {c : State → Prop} [∀ s, Decidable (c s)] (hc : ∀ e s, c (withExchange e s) = c s)
    {f g : State → State} (hf : Aside f) (hg : Aside g) : Aside fun s => if c s then f s else g s := by
  refine ⟨Blind.ite hc hf.blind hg.blind, fun s h => ?_⟩
  by_cases hs : c s
  · simp only [hs, if_true]; exact hf.handed s h
  · simp only [hs, if_false]; exact hg.handed s h

theorem Aside.eachOf {α : Type} (xs : List α) {f : α → State → State} (hf : ∀ x, Aside (f x)) :
    Aside (eachOf xs f) := by
  refine ⟨Blind.eachOf xs fun x => (hf x).blind, fun s h => ?_⟩
  induction xs generalizing s with
  | nil => exact ⟨rfl, rfl⟩
  | cons x xs ih =>
    obtain ⟨cable, service⟩ := (hf x).handed s h
    obtain ⟨cable', service'⟩ := ih (f x s) (by rw [service]; exact h)
    exact ⟨cable'.trans cable, service'.trans service⟩

/-! #### Handovers (R156) -/

theorem aside_modSeq (f : State → Sequencer → Sequencer) (hf : ∀ e s, f (withExchange e s) = f s) :
    Aside fun s => modSeq s (f s) :=
  .of_keeps (fun e s => by rw [hf]; rfl) (fun _ => rfl) fun _ => rfl

theorem aside_modGroup (g : GroupId) (f : State → GroupSeq → GroupSeq) (hf : ∀ e s, f (withExchange e s) = f s) :
    Aside fun s => modGroup s g (f s) :=
  .of_keeps (fun e s => by rw [hf]; rfl) (fun _ => rfl) fun _ => rfl

theorem aside_modPlans (f : PlanMemory → PlanMemory) : Aside fun s => modPlans s f :=
  .of_keeps (fun _ _ => rfl) (fun _ => rfl) fun _ => rfl

theorem aside_post (k : FaultKind) (x : Subject) (b : Bool) (d : Option (List Word16)) : Aside (post k x b d) :=
  .of_keeps (fun _ _ => rfl) (fun _ => rfl) fun _ => rfl

theorem aside_endFault (k : FaultKind) (x : Subject) : Aside (endFault k x) :=
  .of_keeps (fun _ _ => rfl) (fun _ => rfl) fun _ => rfl

theorem aside_recompose (p : State → OutputId → Bool) (hp : ∀ e s, p (withExchange e s) = p s) :
    Aside fun s => recompose (p s) s :=
  .of_keeps (fun e s => by rw [hp]; rfl) (fun _ => rfl) fun _ => rfl

theorem aside_reexpose (g : GroupId) : Aside (reexpose g) := .of_keeps (fun _ _ => rfl) (fun _ => rfl) fun _ => rfl

theorem blind_abandonSlot (i : InvSlot) : Blind (abandonSlot i) := by
  refine .read (fun s => s.cable.investigations[i]) (fun _ _ => rfl)
    (f := fun v s =>
      match v with
      | some v => setInvestigation (endFault .unwantedCurrent (.output v.x) s) i none
      | none => s) fun v => ?_
  cases v <;> exact fun _ _ => rfl

theorem blind_postAllUnproven : Blind postAllUnproven :=
  .eachOf _ fun o => .ite (fun _ _ => rfl)
    (.read (fun s => [wordInt s.proving.outputs[o].entryIp]) (fun _ _ => rfl)
      (f := fun d => post .handoverUnproven (.output o) true (some d)) fun _ => (aside_post _ _ _ _).blind)
    Aside.id.blind

theorem blind_handoverBlocks : Blind handoverBlocks := fun _ _ => rfl

theorem aside_handover (c : Cause) (d : List Word16) : Aside (handover c d) := by
  refine ⟨.ite (fun _ _ => rfl) Aside.id.blind ?_, fun s h => by rw [handover_same c d s h]; exact ⟨rfl, rfl⟩⟩
  exact blind_postAllUnproven.comp
    (.read (fun s => [word (stateCode s.service.state)]) (fun _ _ => rfl)
      (f := fun x s => post .handover (.cause c) (causeLatched c) (some (d ++ x)) (abandonAll (handoverBlocks s)))
      fun _ => (aside_post _ _ _ _).blind.comp ((Blind.eachOf _ blind_abandonSlot).comp blind_handoverBlocks))

theorem aside_conflictCheck : Aside conflictCheck := by
  refine .ite (fun _ _ => rfl) .id (.read exposedPair (fun _ _ => rfl)
    (f := fun p s =>
      match p with
      | some p => handover .conflict [word (number p.1), word (number p.2)] s
      | none => s) fun p => ?_)
  cases p with
  | none => exact .id
  | some p => exact aside_handover _ _

/-! #### The sequencer (chapter 7) -/

theorem aside_setAspect (g : GroupId) (a : Aspect) : Aside (setAspect g a) :=
  (aside_reexpose g).comp ((aside_recompose (fun s o => (outRec s o).group == g) fun _ _ => rfl).comp
    (aside_modGroup g _ fun _ _ => rfl))

/-- An aspect set, with a change of the group's times that is judged before it. -/
theorem aside_setAspect_then (g : GroupId) (a : Aspect) (f : State → GroupSeq → GroupSeq)
    (hf : ∀ e s, f (withExchange e s) = f s) : Aside fun s => modGroup (setAspect g a s) g (f s) :=
  .read f hf (f := fun q s => modGroup (setAspect g a s) g q) fun q =>
    (aside_modGroup g (fun _ => q) fun _ _ => rfl).comp (aside_setAspect g a)

theorem aside_endGreen (g : GroupId) : Aside (endGreen g) := by
  refine .read (fun s => groupRec s g) (fun _ _ => rfl)
    (f := fun r s =>
      match r.kind with
      | .vehicle => modGroup (setAspect g .amber s) g fun q => { q with endAt := some (s.seq.units + endingPeriod r) }
      | .crossing =>
        if r.blackout = 0 then modGroup (setAspect g .red s) g fun q => { q with endAt := none }
        else modGroup (setAspect g .blackout s) g fun q => { q with endAt := some (s.seq.units + endingPeriod r) })
    fun r => ?_
  cases r.kind with
  | vehicle => exact aside_setAspect_then g .amber _ fun _ _ => rfl
  | crossing =>
    exact .ite (fun _ _ => rfl) (aside_setAspect_then g .red _ fun _ _ => rfl)
      (aside_setAspect_then g .blackout _ fun _ _ => rfl)

theorem aside_schedule (g : GroupId) : Aside (schedule g) := aside_modGroup g _ fun _ _ => rfl

theorem aside_tryRedAmber (g : GroupId) : Aside (tryRedAmber g) :=
  .ite (fun _ _ => rfl) (aside_setAspect_then g .redAmber _ fun _ _ => rfl) .id

theorem aside_tryGreen (g : GroupId) : Aside (tryGreen g) :=
  .ite (fun _ _ => rfl) (aside_conflictCheck.comp (aside_setAspect_then g .green _ fun _ _ => rfl)) .id

theorem aside_tryGreens : Aside tryGreens := .eachOf _ aside_tryGreen

theorem aside_startStep (n : StepNo) : Aside (startStep n) := by
  refine .read activePlan (fun _ _ => rfl)
    (f := fun p s =>
      match p with
      | some p =>
        modSeq s fun q =>
          { q with
            designation := some .step, stepIndex := some n, resume := none, minCount := 0, maxCount := 0,
            forceOff := (forceOffAtStart p p.steps[n] s.seq.position s.seq.units).1,
            overrun := (forceOffAtStart p p.steps[n] s.seq.position s.seq.units).2 }
      | none => s) fun p => ?_
  cases p with
  | none => exact .id
  | some p => exact aside_modSeq _ fun _ _ => rfl

theorem aside_callIntoService (n : StageId) : Aside (callIntoService n) := by
  refine .read (fun s => s.seq.calls.find? (·.stage == n)) (fun _ _ => rfl)
    (f := fun c s =>
      match c with
      | some c =>
        modSeq s fun q =>
          { q with
            calls := q.calls.filter (·.stage != n)
            service := some { stage := n, units := c.duration } }
      | none => s) fun c => ?_
  cases c with
  | none => exact .id
  | some c => exact aside_modSeq _ fun _ _ => rfl

theorem aside_takeTransfer : Aside takeTransfer := by
  refine .read (fun s => s.plans.pending) (fun _ _ => rfl)
    (f := fun p s =>
      match p with
      | some q =>
        modSeq (modPlans s fun m => { m with active := some q.plan, pending := none }) fun r =>
          { r with position := positionNow (modPlans s fun m => { m with active := some q.plan, pending := none }) }
      | none => s) fun p => ?_
  cases p with
  | none => exact .id
  | some q =>
    exact (aside_modSeq (fun s r => { r with position := positionNow s }) fun _ _ => rfl).comp (aside_modPlans _)

theorem aside_takeDueTransfer : Aside fun s => if transferDue s then takeTransfer s else s :=
  .ite (fun _ _ => rfl) aside_takeTransfer .id

theorem aside_postOverrun (t : Target) (x : Set16) : Aside (postOverrun t x) := by
  refine .read (fun s => (s.plans.active, s.seq.stepIndex, s.seq.forceOff)) (fun _ _ => rfl)
    (f := fun held s =>
      match t, held.1, held.2.1, held.2.2 with
      | .step _ _, some p, some n, .reached at_ =>
        if s.seq.overrun && forcedOff s x then
          post .cycleOverrun (.plan p) false (some [word (number n), word (s.seq.units - at_)]) s
        else s
      | _, _, _, _ => s) fun held => ?_
  split
  · rename_i p n at_ _ _ _
    exact .ite (fun _ _ => rfl)
      (.read (fun s => [word (number n), word (s.seq.units - at_)]) (fun _ _ => rfl)
        (f := fun d => post .cycleOverrun (.plan p) false (some d)) fun _ => aside_post _ _ _ _) .id
  · exact .id

theorem aside_holdResume (t : Target) (b : Bool) : Aside (holdResume t b) := by
  refine .read (fun s => (s.seq.designation, activePlan s, s.seq.stepIndex)) (fun _ _ => rfl)
    (f := fun held s =>
      match held.1, held.2.1, held.2.2 with
      | some .step, some p, some n =>
        match t with
        | .step _ _ =>
          if b then modSeq s fun q => { q with resume := q.resume.orElse fun _ => some (stepAfter p n) } else s
        | _ => modSeq s fun q => { q with resume := q.resume.orElse fun _ => some (stepAfter p n) }
      | _, _, _ => s) fun held => ?_
  split
  · split
    · exact .ite (fun _ _ => rfl) (aside_modSeq _ fun _ _ => rfl) .id
    · exact aside_modSeq _ fun _ _ => rfl
  · exact .id

theorem aside_runInterstage (t : Target) : Aside (runInterstage t) :=
  .read (fun s => (s.seq.current, targetSet s t)) (fun _ _ => rfl)
    (f := fun x s =>
      tryGreens (eachOf all16 tryRedAmber
        (eachOf all16 (fun g u => if has x.2 g && !has x.1 g then schedule g u else u)
          (eachOf all16 (fun g u => if has x.1 g && !has x.2 g then endGreen g u else u)
            (modSeq s (enterInterstage t)))))) fun _ =>
    aside_tryGreens.comp ((Aside.eachOf _ aside_tryRedAmber).comp
      ((Aside.eachOf _ fun g => .ite (fun _ _ => rfl) (aside_schedule g) .id).comp
        ((Aside.eachOf _ fun g => .ite (fun _ _ => rfl) (aside_endGreen g) .id).comp
          (aside_modSeq _ fun _ _ => rfl))))

theorem aside_complete (t : Target) : Aside (complete t) := by
  have entered : Aside fun s => modSeq s fun q => { q with phase := .stage, current := targetSet s t, target := none } :=
    aside_modSeq _ fun _ _ => rfl
  cases t with
  | s0 => exact (aside_modSeq (fun _ q => { q with designation := some .s0 }) fun _ _ => rfl).comp entered
  | step n g =>
    exact (aside_callIntoService g).comp
      ((aside_modSeq (fun _ q => { q with latches := setDrop q.latches g }) fun _ _ => rfl).comp
        ((aside_startStep n).comp entered))
  | call g =>
    exact (aside_callIntoService g).comp
      ((aside_modSeq (fun _ q =>
        { q with
          designation := some .call
          service := some { stage := g, units := 0 }
          latches := setDrop q.latches g }) fun _ _ => rfl).comp entered)

theorem aside_settle {decide : State → State} (h : Aside decide) : Aside (settle decide) := by
  refine .ite (fun _ _ => rfl) (.read (fun s => s.seq.target) (fun _ _ => rfl)
    (f := fun t s =>
      match t with
      | some t =>
        if allSettled s.seq then
          if decisionDue s.seq (complete t s).seq then decide (complete t s) else complete t s
        else s
      | none => if noneEnding s.seq then decide (completeResidual s) else s) fun t => ?_) .id
  cases t with
  | none => exact .ite (fun _ _ => rfl) (h.comp (aside_modSeq _ fun _ _ => rfl)) .id
  | some t =>
    refine .ite (fun _ _ => rfl) (.ite (fun e s => ?_) (h.comp (aside_complete t)) (aside_complete t)) .id
    rw [(aside_complete t).blind e s]
    rfl

theorem aside_takeStep (n : StepNo) (g : StageId) : Aside (takeStep n g) :=
  (aside_callIntoService g).comp
    ((aside_modSeq (fun _ q =>
      { q with
        latches := setDrop q.latches g
        service := q.service.filter (·.stage == g) }) fun _ _ => rfl).comp
      ((aside_startStep n).comp aside_takeDueTransfer))

theorem aside_terminate (t : Target) (x : Set16) : Aside (terminate t x) := by
  cases t with
  | s0 => exact (aside_runInterstage _).comp (aside_postOverrun _ x)
  | call n => exact (aside_runInterstage _).comp (aside_postOverrun _ x)
  | step n g => exact (aside_runInterstage _).comp (aside_takeDueTransfer.comp (aside_postOverrun _ x))

/-- The groups that lose their green on the way to a target (R129). -/
def losingSet (s : State) (t : Target) : Set16 := setOf fun g => has s.seq.current g && !has (targetSet s t) g

/-- What a decision does toward a target with its losing groups known (R136, R137). -/
def endToward (next : State → State) (barred : Bool) (t : Target) (losing : Set16) (s : State) : State :=
  if targetSet s t == s.seq.current then
    match t with
    | .step n g => if mayEnd s t losing then takeStep n g s else s
    | _ => s
  else if barred || mayEnd s t losing then settle next (terminate t losing s)
  else s

/-- What a decision does with the target it has chosen (R135, R136, R146). -/
def decideToward (next : State → State) (barred : Bool) (t : Target) (s : State) : State :=
  endToward next barred t (losingSet (holdResume t barred s) t) (holdResume t barred s)

/-- What a decision does with its choice (R135, R146). -/
def afterChoice (next : State → State) (c : Option Target) (s : State) : State :=
  match c with
  | none => if barredSet s s.seq.current then handover .redLossNoStage [s.seq.current] s else s
  | some t => decideToward next (barredSet s s.seq.current) t s

theorem decideOnce_eq (next : State → State) (s : State) :
    decideOnce next s = if s.seq.phase == .stage then afterChoice next (choose s) s else s := by
  unfold decideOnce afterChoice
  cases choose s <;> rfl

theorem aside_endToward {next : State → State} (h : Aside next) (barred : Bool) (t : Target) (x : Set16) :
    Aside (endToward next barred t x) := by
  refine .ite (fun _ _ => rfl) ?_ (.ite (fun _ _ => rfl) ((aside_settle h).comp (aside_terminate t x)) .id)
  cases t with
  | s0 => exact .id
  | call n => exact .id
  | step n g => exact .ite (fun _ _ => rfl) (aside_takeStep n g) .id

theorem aside_decideToward {next : State → State} (h : Aside next) (barred : Bool) (t : Target) :
    Aside (decideToward next barred t) := by
  have chosen : Aside fun s => endToward next barred t (losingSet s t) s :=
    .read (fun s => losingSet s t) (fun _ _ => rfl) (aside_endToward h barred t)
  exact chosen.comp (aside_holdResume t barred)

theorem aside_afterChoice {next : State → State} (h : Aside next) (c : Option Target) :
    Aside (afterChoice next c) := by
  cases c with
  | none =>
    exact .ite (fun _ _ => rfl) (.read (fun s => s.seq.current) (fun _ _ => rfl)
      (f := fun x => handover .redLossNoStage [x]) fun _ => aside_handover _ _) .id
  | some t =>
    exact .read (fun s => barredSet s s.seq.current) (fun _ _ => rfl)
      (f := fun b => decideToward next b t) fun b => aside_decideToward h b t

theorem aside_decideOnce {next : State → State} (h : Aside next) : Aside (decideOnce next) := by
  rw [funext (decideOnce_eq next)]
  exact .ite (fun _ _ => rfl) (.read choose (fun _ _ => rfl) (aside_afterChoice h)) .id

theorem aside_decideUpTo (n : Nat) : Aside (decideUpTo n) := by
  induction n with
  | zero => exact .id
  | succ k ih => exact aside_decideOnce ih

theorem aside_decision : Aside decision := aside_decideUpTo 8

theorem aside_settled : Aside settled := aside_settle aside_decision

theorem aside_exposureChanged : Aside exposureChanged :=
  aside_settled.comp (aside_tryGreens.comp aside_conflictCheck)

theorem aside_resumeAfterBar (t : Target) : Aside (resumeAfterBar t) := by
  refine .read activePlan (fun _ _ => rfl)
    (f := fun p s =>
      match t, p with
      | .step n _, some p => modSeq s fun q => { q with resume := q.resume.orElse fun _ => some (stepAfter p n) }
      | _, _ => s) fun p => ?_
  split
  · exact aside_modSeq _ fun _ _ => rfl
  · exact .id

theorem aside_withdrawGroup (g : GroupId) : Aside (withdrawGroup g) :=
  .ite (fun _ _ => rfl) (aside_setAspect_then g .red _ fun _ _ => rfl) .id

theorem aside_endFacing : Aside endFacing :=
  .eachOf _ fun g => .ite (fun _ _ => rfl) (aside_endGreen g) .id

theorem aside_withdraw (t : Target) : Aside (withdraw t) :=
  (aside_modSeq (fun _ q => { q with target := none }) fun _ _ => rfl).comp
    ((aside_resumeAfterBar t).comp (aside_endFacing.comp (.eachOf _ aside_withdrawGroup)))

theorem aside_recomputeBars : Aside recomputeBars := aside_modSeq _ fun _ _ => rfl

/-- What recomputed bars bring, by the bars before them (R145). -/
def afterBars (bars : Set16) (u : State) : State :=
  match u.seq.phase with
  | .stage => if bars != u.seq.bars || barredSet u u.seq.current then decision u else u
  | .interstage =>
    match u.seq.target with
    | some t => settled (if targetBarred u t then withdraw t u else endFacing u)
    | none => settled (endFacing u)
  | _ => u

theorem redStatusChanged_eq (s : State) : redStatusChanged s = afterBars s.seq.bars (recomputeBars s) := rfl

theorem aside_afterBars (bars : Set16) : Aside (afterBars bars) := by
  refine .read (fun s => (s.seq.phase, s.seq.target)) (fun _ _ => rfl)
    (f := fun held u =>
      match held.1 with
      | .stage => if bars != u.seq.bars || barredSet u u.seq.current then decision u else u
      | .interstage =>
        match held.2 with
        | some t => settled (if targetBarred u t then withdraw t u else endFacing u)
        | none => settled (endFacing u)
      | _ => u) fun held => ?_
  obtain ⟨phase, target⟩ := held
  cases phase with
  | stopped => exact .id
  | startRed => exact .id
  | stage => exact .ite (fun _ _ => rfl) aside_decision .id
  | interstage =>
    cases target with
    | none => exact aside_settled.comp aside_endFacing
    | some t => exact aside_settled.comp (.ite (fun _ _ => rfl) (aside_withdraw t) aside_endFacing)

/-- A change of red status takes no notice of the exchange, and in HANDED_OVER leaves the supervisor (R145). -/
theorem aside_redStatusChanged : Aside redStatusChanged := by
  rw [funext redStatusChanged_eq]
  exact .read (fun s => s.seq.bars) (fun _ _ => rfl) (f := fun b s => afterBars b (recomputeBars s)) fun b =>
    (aside_afterBars b).comp aside_recomputeBars

/-! #### The proving unit (chapter 4) -/

theorem aside_modProof (o : OutputId) (f : OutputProof → OutputProof) : Aside fun s => modProof s o f :=
  .of_keeps (fun _ _ => rfl) (fun _ => rfl) fun _ => rfl

theorem aside_redRecords (g : GroupId) (old new : RedStatus) : Aside (redRecords g old new) := by
  have posted (k : FaultKind) : Aside fun s => post k (.group g) false (some (darkDetail s g)) s :=
    .read (fun s => darkDetail s g) (fun _ _ => rfl) (f := fun d => post k (.group g) false (some d))
      fun _ => aside_post _ _ _ _
  have settled (k : FaultKind) (b : Bool) : Aside fun s => if b then endFault k (.group g) s else s :=
    .ite (fun _ _ => rfl) (aside_endFault k (.group g)) .id
  have ended := (aside_endFault .redLoss (.group g)).comp (aside_endFault .redDegraded (.group g))
  cases new with
  | untested => exact ended
  | ok => exact ended
  | degraded => exact (settled .redLoss (old == .loss)).comp (posted .redDegraded)
  | loss => exact (settled .redDegraded (old == .degraded)).comp (posted .redLoss)

theorem aside_setRed (g : GroupId) (r : RedStatus) : Aside (setRed g r) := by
  refine .ite (fun _ _ => rfl) .id (.read (fun s => s.proving.groups[g].red) (fun _ _ => rfl)
    (f := fun old s => redStatusChanged (redRecords g old r (modGroupProof s g fun q => { q with red := r })))
    fun old => ?_)
  exact aside_redStatusChanged.comp ((aside_redRecords g old r).comp
    (.of_keeps (fun _ _ => rfl) (fun _ => rfl) fun _ => rfl))

theorem aside_evalRed (g : GroupId) : Aside (evalRed g) :=
  .read (fun s => redOutcome s g) (fun _ _ => rfl) (aside_setRed g)

/-- What a group's recomputed exposure brings, by the exposure before it (R79). -/
def afterExposure (g : GroupId) (was : Bool) (t : State) : State :=
  if t.proving.groups[g].exposed == was then t else exposureChanged t

theorem greenChanged_eq (o : OutputId) (s : State) :
    greenChanged o s =
      if (outRec s o).used && (outRec s o).colour == .green then
        afterExposure (outRec s o).group s.proving.groups[(outRec s o).group].exposed (reexpose (outRec s o).group s)
      else s := rfl

theorem aside_greenChanged (o : OutputId) : Aside (greenChanged o) := by
  rw [funext (greenChanged_eq o)]
  refine .ite (fun _ _ => rfl) (.read (fun s => ((outRec s o).group, s.proving.groups[(outRec s o).group].exposed))
    (fun _ _ => rfl) (f := fun held s => afterExposure held.1 held.2 (reexpose held.1 s)) fun held => ?_) .id
  exact Aside.comp (.ite (fun _ _ => rfl) .id aside_exposureChanged) (aside_reexpose _)

/-- What a change of proving state brings takes no notice of the exchange, and in HANDED_OVER leaves the supervisor. -/
theorem aside_stateChanged (o : OutputId) (old : ProvingState) : Aside (stateChanged o old) :=
  .ite (fun _ _ => rfl)
    (.ite (fun _ _ => rfl) (.read (fun s => (outRec s o).group) (fun _ _ => rfl) (f := evalRed) aside_evalRed) .id)
    (aside_greenChanged o)

theorem aside_setProving (o : OutputId) (f : OutputProof → OutputProof) : Aside (setProving o f) :=
  .read (fun s => s.proving.outputs[o].state) (fun _ _ => rfl)
    (f := fun old s => stateChanged o old (modProof s o f)) fun old =>
    (aside_stateChanged o old).comp (aside_modProof o f)

/-! #### The cable supervisor (chapter 5) -/

theorem blind_isolateCard (c : CardId) : Blind (isolateCard c) :=
  .eachOf _ fun o => .read (fun t => t.proving.outputs[o].state) (fun _ _ => rfl)
    (f := fun old t =>
      stateChanged o old
        (recompose (· == o) (modProof t o fun r => { r with state := .isolated, failing := 0, sense := 0 }))) fun old =>
    (aside_stateChanged o old).blind.comp fun _ _ => rfl

theorem blind_trip (c : CardId) (leak : Nat) : Blind (trip c leak) :=
  .read (fun s => tripLatches s c) (fun _ _ => rfl)
    (f := fun latch s =>
      isolateCard c
        (post .cardTrip (.card c) latch (some [word leak, wordBool latch])
          (modCable s c fun r =>
            { r with
              tripped := true
              tripRun := 0
              latched := latch
              retryTimer := if latch then none else some Config.retryUnits
              watchTimer := none }))) fun _ =>
    (blind_isolateCard c).comp fun _ _ => rfl

theorem blind_leakTripTest (c : CardId) (leak : Nat) : Blind (leakTripTest c leak) :=
  .ite (fun _ _ => rfl) (fun _ _ => rfl)
    (.ite (fun _ _ => rfl) (.ite (fun _ _ => rfl) (fun _ _ => rfl) (blind_trip c leak)) fun _ _ => rfl)

theorem blind_leakAlarmTest (c : CardId) (leak : Nat) : Blind (leakAlarmTest c leak) :=
  .ite (fun _ _ => rfl)
    (.ite (fun _ _ => rfl) (fun _ _ => rfl) (.ite (fun _ _ => rfl) (fun _ _ => rfl) fun _ _ => rfl))
    (.ite (fun _ _ => rfl) (.ite (fun _ _ => rfl) (fun _ _ => rfl) fun _ _ => rfl) fun _ _ => rfl)

theorem blind_evaluateLeak (m : ResMeas) : Blind (evaluateLeak m) :=
  (blind_leakTripTest m.card m.leak).comp ((blind_leakAlarmTest m.card m.leak).comp fun _ _ => rfl)

theorem blind_feederTest (m : CoreMeas) : Blind (feederTest m) := by
  refine .read (fun s => s.cable.feeders[m.output]) (fun _ _ => rfl)
    (f := fun r s =>
      if m.openFeeder then
        if min 2 (r.count + 1) = 2 && !r.opened then
          post .feederOpen (.output m.output) false
            (some (wordInt m.qf :: match m.qref with | some q => [wordInt q] | none => []))
            (modFeeder s m.output fun _ => { count := min 2 (r.count + 1), opened := true })
        else modFeeder s m.output fun q => { q with count := min 2 (r.count + 1) }
      else if r.opened then
        endFault .feederOpen (.output m.output) (modFeeder s m.output fun _ => { count := 0, opened := false })
      else modFeeder s m.output fun _ => { count := 0, opened := false }) fun r => ?_
  exact .ite (fun _ _ => rfl) (.ite (fun _ _ => rfl) (fun _ _ => rfl) fun _ _ => rfl)
    (.ite (fun _ _ => rfl) (fun _ _ => rfl) fun _ _ => rfl)

theorem blind_closeInvestigation (i : InvSlot) (ip : Int) (v : Investigation) (d : Finding) :
    Blind (closeInvestigation i ip v d) := by
  have freed : Blind fun s => setInvestigation (endFault .unwantedCurrent (.output v.x) (postFinding v.x ip v d s)) i none := by
    cases d <;> exact fun _ _ => rfl
  cases d with
  | stuck => exact freed
  | transient => exact freed
  | unclassified => exact freed
  | ambiguous => exact freed
  | cross y =>
    have reported : Blind fun s =>
        if crossConflicts s v.x y then handover .crossConflict [word (number v.x), word (number y)] s else s :=
      .ite (fun _ _ => rfl) (aside_handover _ _).blind Aside.id.blind
    exact reported.comp freed

/-- What a window leaves of an open investigation, its fields updated and its verdict taken (R99, R100). -/
def afterWindow (i : InvSlot) (ip : Int) (w : Investigation) (d : Option Finding) (s : State) : State :=
  match d with
  | some d => closeInvestigation i ip w d s
  | none => setInvestigation s i (some w)

/-- A window handed to the investigation of a slot, if there is one (R96 to R100). -/
def investigateIn (m : CoreMeas) (i : InvSlot) (v : Option Investigation) (s : State) : State :=
  match v with
  | some v =>
    afterWindow i m.ip (updateInvestigation s m v)
      (if stuckWindow s m v then some .stuck else verdictTests (updateInvestigation s m v)) s
  | none => s

theorem investigate_eq (m : CoreMeas) (s : State) :
    investigate m s =
      match investigationOf s m.output with
      | some i => investigateIn m i s.cable.investigations[i] s
      | none => s := by
  unfold investigate
  cases investigationOf s m.output with
  | none => rfl
  | some i =>
    simp only [investigateIn]
    cases s.cable.investigations[i] <;> rfl

theorem blind_afterWindow (i : InvSlot) (ip : Int) (w : Investigation) (d : Option Finding) :
    Blind (afterWindow i ip w d) := by
  cases d with
  | none => exact fun _ _ => rfl
  | some d => exact blind_closeInvestigation i ip w d

theorem blind_investigateIn (m : CoreMeas) (i : InvSlot) (v : Option Investigation) : Blind (investigateIn m i v) := by
  cases v with
  | none => exact Aside.id.blind
  | some v =>
    exact .read (fun s => (updateInvestigation s m v,
        if stuckWindow s m v then some .stuck else verdictTests (updateInvestigation s m v))) (fun _ _ => rfl)
      (f := fun x => afterWindow i m.ip x.1 x.2) fun x => blind_afterWindow i m.ip x.1 x.2

theorem blind_investigate (m : CoreMeas) : Blind (investigate m) := by
  intro e s
  have found : investigationOf (withExchange e s) m.output = investigationOf s m.output := rfl
  rw [investigate_eq, investigate_eq, found]
  cases investigationOf s m.output with
  | none => rfl
  | some i =>
    exact Blind.read (fun s => s.cable.investigations[i]) (fun _ _ => rfl) (blind_investigateIn m i) e s

/-- One core measurement's delivery takes no notice of the exchange (R86). -/
theorem blind_deliverCore (m : CoreMeas) : Blind (deliverCore m) :=
  .ite (fun _ _ => rfl) (blind_feederTest m) (blind_investigate m)

end Sys2Proof.Machine
end

section
/-! PROOFS. Chapter 2, what proving, measuring and delivering leave to the card line. -/

namespace Sys2Proof.Machine

/-! ### What a change of proving states leaves (R65 to R75) -/

/-- What follows a change of proving state leaves: what a decision leaves, and every output's proving fields but its
command. -/
structure ProofsStay (s t : State) : Prop extends DecisionKeeps s t where
  outputs : ∀ o : OutputId,
    t.proving.outputs[o] = { s.proving.outputs[o] with commanded := t.proving.outputs[o].commanded }

theorem Stays.proofs {s t : State} (h : Stays s t) : ProofsStay s t := ⟨h.toDecisionKeeps, h.outputs⟩

theorem DecisionKeeps.refl (s : State) : DecisionKeeps s s := (Stays.refl s).toDecisionKeeps

theorem ProofsStay.refl (s : State) : ProofsStay s s := (Stays.refl s).proofs

theorem ProofsStay.trans {s t u : State} (a : ProofsStay s t) (b : ProofsStay t u) : ProofsStay s u :=
  ⟨a.toDecisionKeeps.trans b.toDecisionKeeps, fun o => by rw [b.outputs o, a.outputs o]⟩

theorem stays_faults (s : State) (t : FaultTable) : Stays s { s with faults := t } := by
  refine ⟨?_, fun _ => rfl, fun _ => rfl, Or.inl rfl⟩
  constructor <;> rfl

theorem proofsStay_setRed (g : GroupId) (r : RedStatus) (s : State) : ProofsStay s (setRed g r s) := by
  unfold setRed
  split
  case isTrue => exact .refl s
  case isFalse =>
    have red : ProofsStay s (modGroupProof s g fun q => { q with red := r }) :=
      ⟨by constructor <;> rfl, fun _ => rfl⟩
    rw [redRecords_eq]
    exact red.trans ((stays_faults _ _).proofs.trans (stays_redStatusChanged _).proofs)

theorem proofsStay_greenChanged (o : OutputId) (s : State) : ProofsStay s (greenChanged o s) := by
  rw [greenChanged_eq]
  split
  · refine ProofsStay.trans (t := reexpose (outRec s o).group s) (stays_reexpose _ s).proofs ?_
    unfold afterExposure
    split
    · exact .refl _
    · exact (stays_exposureChanged _).proofs
  · exact .refl s

theorem proofsStay_stateChanged (o : OutputId) (old : ProvingState) (s : State) :
    ProofsStay s (stateChanged o old s) := by
  unfold stateChanged
  simp only
  split
  · split
    · exact proofsStay_setRed _ _ s
    · exact .refl s
  · exact proofsStay_greenChanged o s

theorem keeps_modProof (o : OutputId) (f : OutputProof → OutputProof) (s : State) : DecisionKeeps s (modProof s o f) := by
  constructor <;> rfl

theorem keeps_setProving (o : OutputId) (f : OutputProof → OutputProof) (s : State) :
    DecisionKeeps s (setProving o f s) :=
  (keeps_modProof o f s).trans (proofsStay_stateChanged o _ _).toDecisionKeeps

theorem modProof_output (o p : OutputId) (f : OutputProof → OutputProof) (s : State) :
    (modProof s o f).proving.outputs[p] = if o = p then f s.proving.outputs[p] else s.proving.outputs[p] :=
  vmod_get _ o p f

/-- The proving state that setProving gives is the one its change gives, whatever follows from it. -/
theorem setProving_state (o p : OutputId) (f : OutputProof → OutputProof) (s : State) :
    (setProving o f s).proving.outputs[p].state =
      if o = p then (f s.proving.outputs[p]).state else s.proving.outputs[p].state := by
  unfold setProving
  rw [(proofsStay_stateChanged o _ _).outputs p, modProof_output]
  split <;> rfl

theorem cardOf_outputAt (c : CardId) (k : Fin 8) : cardOf (outputAt c k) = c := by
  ext
  simp only [cardOf, outputAt]
  omega

theorem mem_outputsOf_iff (c : CardId) (o : OutputId) : o ∈ outputsOf c ↔ cardOf o = c := by
  constructor
  · intro h
    obtain ⟨k, -, rfl⟩ := List.mem_map.mp h
    exact cardOf_outputAt c k
  · rintro rfl
    exact mem_outputsOf o

theorem nodup_outputsOf (c : CardId) : (outputsOf c).Nodup := by
  refine (List.nodup_finRange 8).map fun j k h => Fin.ext ?_
  have : 8 * c.val + j.val = 8 * c.val + k.val := congrArg Fin.val h
  omega

/-- What each step of a row of operations leaves, the row leaves. -/
theorem eachOf_rel {α : Type} {R : State → State → Prop} (refl : ∀ s, R s s)
    (trans : ∀ {s t u}, R s t → R t u → R s u) {op : α → State → State} {xs : List α}
    (h : ∀ x ∈ xs, ∀ t, R t (op x t)) (s : State) : R s (eachOf xs op s) := by
  induction xs generalizing s with
  | nil => exact refl s
  | cons x xs ih =>
    obtain ⟨first, rest⟩ := List.forall_mem_cons.mp h
    exact trans (first s) (ih rest (op x s))

/-- In a row of operations for different numbers, what the others leave stands before and after the one of a number. -/
theorem eachOf_once {α : Type} {R : State → State → Prop} (refl : ∀ s, R s s)
    (trans : ∀ {s t u}, R s t → R t u → R s u) {op : α → State → State} {x : α}
    (miss : ∀ y t, y ≠ x → R t (op y t)) {xs : List α} (nodup : xs.Nodup) (mem : x ∈ xs) (s : State) :
    ∃ t, R s t ∧ R (op x t) (eachOf xs op s) := by
  induction xs generalizing s with
  | nil => exact absurd mem List.not_mem_nil
  | cons y ys ih =>
    obtain ⟨fresh, rest⟩ := List.nodup_cons.mp nodup
    rcases List.mem_cons.mp mem with e | later
    · subst e
      exact ⟨s, refl s, eachOf_rel refl trans (fun z hz t => miss z t fun e => fresh (e ▸ hz)) (op x s)⟩
    · have ne : y ≠ x := fun e => fresh (e ▸ later)
      obtain ⟨t, before, after⟩ := ih rest later (op y s)
      exact ⟨t, trans (miss y s ne) before, after⟩

/-- A row of operations for different numbers, seen at a field that only one of them touches. -/
theorem eachOf_at {α β : Type} [DecidableEq α] {field : State → β} {f : β → β} {x : α} {op : α → State → State}
    (hit : ∀ t, field (op x t) = f (field t)) (miss : ∀ y t, y ≠ x → field (op y t) = field t) {xs : List α}
    (nodup : xs.Nodup) (s : State) : field (eachOf xs op s) = if x ∈ xs then f (field s) else field s := by
  have trans {s t u : State} (a : field t = field s) (b : field u = field t) : field u = field s := b.trans a
  split
  case isTrue mem =>
    obtain ⟨t, before, after⟩ :=
      eachOf_once (R := fun s t => field t = field s) (fun _ => rfl) trans miss nodup mem s
    rw [after, hit, before]
  case isFalse fresh =>
    exact eachOf_rel (R := fun s t => field t = field s) (fun _ => rfl) trans
      (fun y hy t => miss y t fun e => fresh (e ▸ hy)) s

/-- The same for the outputs of a card. -/
theorem eachOutput_at {β : Type} {field : State → β} {f : β → β} {o : OutputId} {op : OutputId → State → State}
    (hit : ∀ t, field (op o t) = f (field t)) (miss : ∀ y t, y ≠ o → field (op y t) = field t) (c : CardId)
    (s : State) : field (eachOf (outputsOf c) op s) = if cardOf o = c then f (field s) else field s := by
  rw [eachOf_at hit miss (nodup_outputsOf c), if_congr (mem_outputsOf_iff c o) rfl rfl]

/-! ### What an event of one card leaves -/

/-- What no event of the card line changes: the queue, the ports, the tables and the inputs. -/
structure OutsideKept (s t : State) : Prop where
  pending : t.pending = s.pending
  ports : t.ports = s.ports
  safety : t.safety = s.safety
  stages : t.stages = s.stages
  inputs : t.inputs = s.inputs

theorem OutsideKept.refl (s : State) : OutsideKept s s := by constructor <;> rfl

theorem OutsideKept.trans {s t u : State} (a : OutsideKept s t) (b : OutsideKept t u) : OutsideKept s u where
  pending := b.pending.trans a.pending
  ports := b.ports.trans a.ports
  safety := b.safety.trans a.safety
  stages := b.stages.trans a.stages
  inputs := b.inputs.trans a.inputs

theorem DecisionKeeps.outside {s t : State} (h : DecisionKeeps s t) : OutsideKept s t :=
  ⟨h.pending, h.ports, h.safety, h.stages, h.inputs⟩

/-- What an event of one card leaves: besides what none changes, the rest of the card line, the trip and feeder fields, and
what the other cards' records, cores, residual channels and proving states hold. -/
structure OfCard (c : CardId) (s t : State) : Prop extends OutsideKept s t where
  mains : t.line.mains = s.line.mains
  lines : t.line.lines = s.line.lines
  patterns : t.line.patterns = s.line.patterns
  exchange : t.line.exchange = s.line.exchange
  cards : ∀ k : CardId, k ≠ c → t.line.cards[k] = s.line.cards[k]
  trips : t.cable.cards = s.cable.cards
  feeders : t.cable.feeders = s.cable.feeders
  cores : ∀ o : OutputId, cardOf o ≠ c → t.engine.cores[o] = s.engine.cores[o]
  residuals : ∀ k : CardId, k ≠ c → t.engine.residuals[k] = s.engine.residuals[k]
  states : ∀ o : OutputId, cardOf o ≠ c → t.proving.outputs[o].state = s.proving.outputs[o].state

theorem OfCard.refl (c : CardId) (s : State) : OfCard c s s := by
  constructor
  · exact .refl s
  all_goals intros; rfl

theorem OfCard.trans {c : CardId} {s t u : State} (a : OfCard c s t) (b : OfCard c t u) : OfCard c s u where
  toOutsideKept := a.toOutsideKept.trans b.toOutsideKept
  mains := b.mains.trans a.mains
  lines := b.lines.trans a.lines
  patterns := b.patterns.trans a.patterns
  exchange := b.exchange.trans a.exchange
  cards k h := (b.cards k h).trans (a.cards k h)
  trips := b.trips.trans a.trips
  feeders := b.feeders.trans a.feeders
  cores o h := (b.cores o h).trans (a.cores o h)
  residuals k h := (b.residuals k h).trans (a.residuals k h)
  states o h := (b.states o h).trans (a.states o h)

/-- What a decision leaves is more than what an event of one card leaves, but for the proving states. -/
theorem DecisionKeeps.ofCard {s t : State} (h : DecisionKeeps s t) (c : CardId)
    (states : ∀ o : OutputId, cardOf o ≠ c → t.proving.outputs[o].state = s.proving.outputs[o].state) :
    OfCard c s t where
  toOutsideKept := h.outside
  mains := by rw [h.line]
  lines := by rw [h.line]
  patterns := by rw [h.line]
  exchange := by rw [h.line]
  cards _ _ := by rw [h.line]
  trips := h.cards
  feeders := h.feeders
  cores _ _ := by rw [h.engine]
  residuals _ _ := by rw [h.engine]
  states := states

theorem Stays.ofCard {s t : State} (h : Stays s t) (c : CardId) : OfCard c s t :=
  h.toDecisionKeeps.ofCard c fun o _ => by rw [h.outputs o]

theorem ofCard_modCard (c : CardId) (f : CardRec → CardRec) (s : State) : OfCard c s (modCard s c f) := by
  constructor
  · constructor <;> rfl
  case cards => exact fun k h => (vmod_get _ c k f).trans (if_neg fun e => h e.symm)
  all_goals intros; rfl

theorem ofCard_modRes (c : CardId) (f : ResRec → ResRec) (s : State) : OfCard c s (modRes s c f) := by
  constructor
  · constructor <;> rfl
  case residuals => exact fun k h => (vmod_get _ c k f).trans (if_neg fun e => h e.symm)
  all_goals intros; rfl

theorem ofCard_modCore {c : CardId} {o : OutputId} (h : cardOf o = c) (f : CoreRec → CoreRec) (s : State) :
    OfCard c s (modCore s o f) := by
  constructor
  · constructor <;> rfl
  case cores => exact fun p hp => (vmod_get _ o p f).trans (if_neg fun e : o = p => hp (e ▸ h))
  all_goals intros; rfl

theorem ofCard_setProving {c : CardId} {o : OutputId} (h : cardOf o = c) (f : OutputProof → OutputProof) (s : State) :
    OfCard c s (setProving o f s) :=
  (keeps_setProving o f s).ofCard c fun p hp => (setProving_state o p f s).trans (if_neg fun e : o = p => hp (e ▸ h))

theorem ofCard_eachOutput {c : CardId} {op : OutputId → State → State}
    (h : ∀ o t, cardOf o = c → OfCard c t (op o t)) (s : State) : OfCard c s (eachOf (outputsOf c) op s) :=
  eachOf_rel (OfCard.refl c) OfCard.trans (fun o ho t => h o t ((mem_outputsOf_iff c o).mp ho)) s

theorem keeps_eachOutput {c : CardId} {op : OutputId → State → State} (h : ∀ o t, DecisionKeeps t (op o t)) (s : State) :
    DecisionKeeps s (eachOf (outputsOf c) op s) :=
  eachOf_rel DecisionKeeps.refl DecisionKeeps.trans (fun o _ t => h o t) s

/-! ### Cards that become SILENT or ONLINE (R74) -/

theorem keeps_senseLoseCard (c : CardId) (s : State) : DecisionKeeps s (senseLoseCard c s) :=
  keeps_eachOutput (fun o t => by
    split
    · exact .refl t
    · exact keeps_setProving o _ t) s

theorem keeps_senseRegainCard (c : CardId) (s : State) : DecisionKeeps s (senseRegainCard c s) :=
  keeps_eachOutput (fun o t => by
    split
    · exact keeps_setProving o _ t
    · exact .refl t) s

theorem ofCard_senseLoseCard (c : CardId) (s : State) : OfCard c s (senseLoseCard c s) :=
  ofCard_eachOutput (fun o t h => by
    split
    · exact .refl c t
    · exact ofCard_setProving h _ t) s

/-- An output's proving state, as a field of the whole part. -/
def provingState (o : OutputId) (s : State) : ProvingState := s.proving.outputs[o].state

/-- A proving state lost with its card's replies (R74). -/
def senseLost (p : ProvingState) : ProvingState := if p = .isolated then .isolated else .senseLost

/-- The outputs of a card that is lost are in SENSE_LOST, but for the ISOLATED ones (R74). -/
theorem senseLoseCard_state (c : CardId) (o : OutputId) (h : cardOf o = c) (s : State) :
    provingState o (senseLoseCard c s) = senseLost (provingState o s) := by
  refine (eachOutput_at (fun t => ?_) (fun y t ne => ?_) c s).trans (if_pos h)
  · unfold senseLost
    simp only [beq_iff_eq]
    split
    case isTrue isolated => exact isolated.trans (if_pos isolated).symm
    case isFalse other => exact ((setProving_state o o _ t).trans (if_pos rfl)).trans (if_neg other).symm
  · split
    · rfl
    · exact (setProving_state y o _ t).trans (if_neg ne)

/-! ### Replies (R39) and missing windows (R37, R50) -/

theorem vmod_vmod {α : Type} {n : Nat} (v : Vector α n) (i : Fin n) (f g : α → α) :
    vmod (vmod v i f) i g = vmod v i fun a => g (f a) := by
  refine vext fun j => ?_
  simp only [vmod_get]
  split <;> rfl

theorem vmod_congr {α : Type} {n : Nat} {v : Vector α n} {i : Fin n} {f g : α → α} (h : f v[i] = g v[i]) :
    vmod v i f = vmod v i g := by
  simp only [vmod, h]

/-- A card's record after a cycle without a good reply (R39). -/
def unanswered (r : CardRec) : CardRec :=
  { r with missing := min 255 (r.missing + 1), goodRun := 0, online := r.online && r.missing + 1 != 10 }

theorem unanswered_silent {r : CardRec} (h : r.online = false) :
    unanswered r = { r with missing := min 255 (r.missing + 1), goodRun := 0 } := by
  simp [unanswered, h]

theorem unanswered_early {r : CardRec} (h : r.missing ≠ 9) :
    unanswered r = { r with missing := min 255 (r.missing + 1), goodRun := 0 } := by
  simp [unanswered, h]

theorem unanswered_tenth {r : CardRec} (h : r.missing = 9) :
    unanswered r = { r with missing := min 255 (r.missing + 1), goodRun := 0, online := false } := by
  simp [unanswered, h]

/-- The missing reply counted, before what the tenth brings (R39). -/
def countMissing (c : CardId) (s : State) : State :=
  modCard s c fun r => { r with missing := min 255 (r.missing + 1), goodRun := 0 }

theorem noReply_early {c : CardId} {s : State} (h : s.line.cards[c].missing ≠ 9) :
    noReply c s = countMissing c s := if_neg fun tenth => h (Nat.succ.inj tenth)

theorem noReply_tenth {c : CardId} {s : State} (h : s.line.cards[c].missing = 9) :
    noReply c s =
      if s.line.cards[c].online then
        senseLoseCard c
          (modCard (post .cardSilent (.card c) false none (countMissing c s)) c fun r => { r with online := false })
      else post .cardSilent (.card c) false none (countMissing c s) := if_pos (congrArg Nat.succ h)

theorem ofCard_noReply (c : CardId) (s : State) : OfCard c s (noReply c s) := by
  have counted : OfCard c s (countMissing c s) := ofCard_modCard c _ s
  by_cases tenth : s.line.cards[c].missing = 9
  · have posted := counted.trans ((stays_post .cardSilent (.card c) false none (countMissing c s)).ofCard c)
    rw [noReply_tenth tenth]
    split
    · exact posted.trans ((ofCard_modCard c _ _).trans (ofCard_senseLoseCard c _))
    · exact posted
  · rw [noReply_early tenth]
    exact counted

theorem noReply_cards (c : CardId) (s : State) : (noReply c s).line.cards = vmod s.line.cards c unanswered := by
  by_cases tenth : s.line.cards[c].missing = 9
  · rw [noReply_tenth tenth]
    split
    case isTrue online =>
      rw [(keeps_senseLoseCard c _).line]
      simp only [modCard_line, post_line, countMissing, vmod_vmod]
      exact vmod_congr (unanswered_tenth tenth).symm
    case isFalse silent =>
      simp only [post_line, countMissing, modCard_line]
      exact vmod_congr (unanswered_silent (Bool.eq_false_iff.mpr silent)).symm
  · rw [noReply_early tenth]
    simp only [countMissing, modCard_line]
    exact vmod_congr (unanswered_early tenth).symm

/-- An output's core, as a field of the whole part. -/
def coreAt (o : OutputId) (s : State) : CoreRec := s.engine.cores[o]

/-- A core without samples for a cycle (R50). -/
def missed (n : CycleNo) (r : CoreRec) : CoreRec :=
  { r with acc := restartAccum r.acc, history := r.history.set n none }

/-- What a sense count does (R73): nothing, a change that leaves the proving state, or the entry to SENSE_LOST. -/
theorem countSense_cases (o : OutputId) (b : Bool) (s : State) :
    countSense o b s = s ∨
      (∃ f : OutputProof → OutputProof, (∀ r, (f r).state = r.state) ∧ countSense o b s = modProof s o f) ∨
      ∃ f : OutputProof → OutputProof, (∀ r, (f r).state = .senseLost) ∧ countSense o b s = setProving o f s := by
  unfold countSense
  split
  · exact Or.inl rfl
  · refine Or.inr (Or.inl ⟨_, ?_, rfl⟩)
    exact fun _ => rfl
  · by_cases late : s.line.cards[cardOf o].senseTimeout ≤ if b then 0 else min 50 (s.proving.outputs[o].sense + 1)
    · refine Or.inr (Or.inr ⟨_, ?_, if_pos late⟩)
      exact fun _ => rfl
    · refine Or.inr (Or.inl ⟨_, ?_, if_neg late⟩)
      exact fun _ => rfl

theorem keeps_countSense (o : OutputId) (b : Bool) (s : State) : DecisionKeeps s (countSense o b s) := by
  obtain same | ⟨f, -, counted⟩ | ⟨f, -, lost⟩ := countSense_cases o b s
  · rw [same]; exact .refl s
  · rw [counted]; exact keeps_modProof o f s
  · rw [lost]; exact keeps_setProving o f s

/-- A sense count moves no other output's proving state, and its own to SENSE_LOST alone (R73). -/
theorem countSense_state (o p : OutputId) (b : Bool) (s : State) :
    provingState p (countSense o b s) = provingState p s ∨ o = p ∧ provingState p (countSense o b s) = .senseLost := by
  obtain same | ⟨f, state, counted⟩ | ⟨f, state, lost⟩ := countSense_cases o b s
  · rw [same]; exact Or.inl rfl
  · rw [counted]
    refine Or.inl ((congrArg OutputProof.state (modProof_output o p f s)).trans ?_)
    split
    · exact state _
    · rfl
  · rw [lost]
    by_cases e : o = p
    · exact Or.inr ⟨e, ((setProving_state o p f s).trans (if_pos e)).trans (state _)⟩
    · exact Or.inl ((setProving_state o p f s).trans (if_neg e))

theorem ofCard_countSense {c : CardId} {o : OutputId} (h : cardOf o = c) (b : Bool) (s : State) :
    OfCard c s (countSense o b s) :=
  (keeps_countSense o b s).ofCard c fun p hp =>
    (countSense_state o p b s).resolve_right fun moved => hp (moved.1 ▸ h)

theorem ofCard_missingCore {c : CardId} {o : OutputId} (h : cardOf o = c) (n : CycleNo) (s : State) :
    OfCard c s (missingCore o n s) :=
  (ofCard_modCore h _ s).trans ((ofCard_modCore h _ _).trans (ofCard_countSense h _ _))

theorem missingCore_core (o p : OutputId) (n : CycleNo) (s : State) :
    coreAt p (missingCore o n s) = if o = p then missed n (coreAt p s) else coreAt p s := by
  unfold missingCore coreAt
  rw [(keeps_countSense o false _).engine]
  simp only [setHistory, modCore_engine, vmod_get]
  split <;> rfl

theorem ofCard_missingWindow (c : CardId) (n : CycleNo) (s : State) : OfCard c s (missingWindow c n s) :=
  (ofCard_eachOutput (fun _ t h => ofCard_missingCore h n t) s).trans (ofCard_modRes c _ _)

theorem missingCore_line (o : OutputId) (n : CycleNo) (s : State) : (missingCore o n s).line = s.line :=
  (keeps_countSense o false _).line

/-- A card's residual channel, as a field of the whole part. -/
def residualAt (c : CardId) (s : State) : ResRec := s.engine.residuals[c]

/-- A residual channel with its accumulation restarted (R64). -/
def restartedResidual (r : ResRec) : ResRec := { r with acc := restartAccum r.acc }

theorem missingCore_residual (o : OutputId) (c : CardId) (n : CycleNo) (s : State) :
    residualAt c (missingCore o n s) = residualAt c s := by
  unfold missingCore residualAt
  rw [(keeps_countSense o false _).engine]
  rfl

/-- The missing cores of a card, before its residual channel (R50). -/
def missingCores (c : CardId) (n : CycleNo) (s : State) : State := eachOf (outputsOf c) (fun o t => missingCore o n t) s

theorem missingWindow_eq (c : CardId) (n : CycleNo) (s : State) :
    missingWindow c n s = modRes (missingCores c n s) c restartedResidual := rfl

theorem missingCores_line (c : CardId) (n : CycleNo) (s : State) : (missingCores c n s).line = s.line :=
  eachOf_rel (R := fun s t => t.line = s.line) (fun _ => rfl) (fun a b => b.trans a)
    (fun o _ t => missingCore_line o n t) s

theorem missingCores_core (c : CardId) (o : OutputId) (h : cardOf o = c) (n : CycleNo) (s : State) :
    coreAt o (missingCores c n s) = missed n (coreAt o s) :=
  (eachOutput_at (fun t => (missingCore_core o o n t).trans (if_pos rfl))
    (fun y t ne => (missingCore_core y o n t).trans (if_neg ne)) c s).trans (if_pos h)

theorem missingCores_residual (c k : CardId) (n : CycleNo) (s : State) :
    residualAt k (missingCores c n s) = residualAt k s :=
  eachOf_rel (R := fun s t => residualAt k t = residualAt k s) (fun _ => rfl) (fun a b => b.trans a)
    (fun o _ t => missingCore_residual o k n t) s

theorem coreAt_modRes (o : OutputId) (c : CardId) (f : ResRec → ResRec) (s : State) :
    coreAt o (modRes s c f) = coreAt o s := rfl

theorem provingState_modRes (o : OutputId) (c : CardId) (f : ResRec → ResRec) (s : State) :
    provingState o (modRes s c f) = provingState o s := rfl

theorem residualAt_modRes (c : CardId) (f : ResRec → ResRec) (s : State) :
    residualAt c (modRes s c f) = f (residualAt c s) := vmod_same _ c f

theorem missingWindow_line (c : CardId) (n : CycleNo) (s : State) : (missingWindow c n s).line = s.line := by
  rw [missingWindow_eq, modRes_line, missingCores_line]

theorem missingWindow_core (c : CardId) (o : OutputId) (h : cardOf o = c) (n : CycleNo) (s : State) :
    coreAt o (missingWindow c n s) = missed n (coreAt o s) := by
  rw [missingWindow_eq, coreAt_modRes, missingCores_core c o h]

theorem missingWindow_residual (c : CardId) (n : CycleNo) (s : State) :
    residualAt c (missingWindow c n s) = restartedResidual (residualAt c s) := by
  rw [missingWindow_eq, residualAt_modRes, missingCores_residual]

/-- Once an output is in SENSE_LOST its card's missing windows leave it there (R73). -/
theorem missingWindow_senseLost (c : CardId) (o : OutputId) (n : CycleNo) (s : State)
    (h : provingState o s = .senseLost) : provingState o (missingWindow c n s) = .senseLost := by
  have cores : provingState o (missingCores c n s) = .senseLost := by
    refine eachOf_keeps (P := fun t => provingState o t = .senseLost) (outputsOf c) (fun o t => missingCore o n t)
      (fun p t ht => ?_) s h
    obtain same | ⟨-, lost⟩ := countSense_state p o false
      (modCore (setHistory p n none t) p fun r => { r with acc := restartAccum r.acc })
    · exact same.trans ht
    · exact lost
  rw [missingWindow_eq, provingState_modRes, cores]

/-! ### A card cut short (R45) -/

/-- What a cycle start that cuts the exchange short does to a card not yet polled (R45; log entry 62). -/
def cutCard (old : CycleNo) (c : CardId) (s : State) : State := notifyMissing c old (noReply c s)

theorem notifyMissing_valid {c : CardId} {n : CycleNo} {s : State} (h : s.line.mains.state = .valid) :
    notifyMissing c n s = missingWindow c n s := if_pos (beq_iff_eq.mpr h)

theorem notifyMissing_lost {c : CardId} {n : CycleNo} {s : State} (h : s.line.mains.state = .lost) :
    notifyMissing c n s = s := if_neg fun e => by rw [h] at e; exact absurd e (by decide)

theorem ofCard_notifyMissing (c : CardId) (n : CycleNo) (s : State) : OfCard c s (notifyMissing c n s) := by
  unfold notifyMissing
  split
  · exact ofCard_missingWindow c n s
  · exact .refl c s

theorem notifyMissing_line (c : CardId) (n : CycleNo) (s : State) : (notifyMissing c n s).line = s.line := by
  unfold notifyMissing
  split
  · exact missingWindow_line c n s
  · rfl

theorem ofCard_cutCard (old : CycleNo) (c : CardId) (s : State) : OfCard c s (cutCard old c s) :=
  (ofCard_noReply c s).trans (ofCard_notifyMissing c old _)

end Sys2Proof.Machine
end

section
/-! PROOFS. Chapter 2, the mains and the cycle: crossings, the loss of the mains, the delivery of an exchange's measurements
and the start of a cycle. -/

namespace Sys2Proof.Machine

/-! ### Crossings (R26 to R29) -/

theorem crossing_first {period since : Nat} {s : State} (h : s.line.mains.crossed = false) :
    crossing period since s = modMains s fun m => { m with crossed := true } :=
  if_neg (Bool.eq_false_iff.mp h)

theorem crossing_blind {period since : Nat} {s : State} (h : s.line.mains.crossed = true) (short : period < 64000) :
    crossing period since s = s := (if_pos h).trans (if_pos short)

/-- A recognised crossing, its period counted, starts a cycle in VALID where 8 ms have passed (R27, R29). -/
theorem crossing_counted {period since : Nat} {s : State} (h : s.line.mains.crossed = true) (long : 64000 ≤ period) :
    crossing period since s =
      if (countPeriod period s).line.mains.state = .valid ∧ 64000 ≤ since then cycleStart (countPeriod period s)
      else countPeriod period s := by
  have recognised : ¬period < Config.blindTicks := Nat.not_lt.mpr long
  simp only [crossing, h, if_true, if_neg recognised, Bool.and_eq_true, beq_iff_eq, decide_eq_true_eq]

/-- The counts of a period in range (R26). -/
def countIn (period : Nat) (s : State) : State :=
  modMains s fun m => { m with lastPeriod := period, outRun := 0, inRun := min 8 (m.inRun + 1) }

/-- The counts of a period out of range (R26). -/
def countOut (period : Nat) (s : State) : State :=
  modMains s fun m => { m with lastPeriod := period, outRun := min 3 (m.outRun + 1), inRun := 0 }

/-- A period in range (R26) makes the mains VALID where it is the eighth in LOST (R29). -/
theorem countPeriod_in {period : Nat} (low : 123077 ≤ period) (high : period ≤ 177777) (s : State) :
    countPeriod period s =
      if s.line.mains.state = .lost ∧ 7 ≤ s.line.mains.inRun then regainMains (countIn period s)
      else countIn period s := by
  have range : Config.periodMin ≤ period ∧ period ≤ Config.periodMax := ⟨low, high⟩
  have eighth : min 8 (s.line.mains.inRun + 1) = 8 ↔ 7 ≤ s.line.mains.inRun := by omega
  simp only [countPeriod, if_pos range, modMains_line, Bool.and_eq_true, beq_iff_eq, eighth]
  rfl

/-- A period out of range loses the mains where it is the third in a row in VALID (R28). -/
theorem countPeriod_out {period : Nat} (out : period < 123077 ∨ 177777 < period) (s : State) :
    countPeriod period s =
      if s.line.mains.state = .valid ∧ 2 ≤ s.line.mains.outRun then loseMains (countOut period s)
      else countOut period s := by
  have range : ¬(Config.periodMin ≤ period ∧ period ≤ Config.periodMax) := by
    simp only [Config.periodMin, Config.periodMax]
    omega
  have third : min 3 (s.line.mains.outRun + 1) = 3 ↔ 2 ≤ s.line.mains.outRun := by omega
  simp only [countPeriod, if_neg range, modMains_line, Bool.and_eq_true, beq_iff_eq, third]
  rfl

theorem crossing_in {period since : Nat} {s : State} (h : s.line.mains.crossed = true) (low : 123077 ≤ period)
    (high : period ≤ 177777) (same : s.line.mains.state = .valid ∨ s.line.mains.inRun < 7) :
    crossing period since s =
      if s.line.mains.state = .valid ∧ 64000 ≤ since then cycleStart (countIn period s) else countIn period s := by
  have counted : countPeriod period s = countIn period s := by
    refine (countPeriod_in low high s).trans (if_neg ?_)
    rintro ⟨lost, seven⟩
    rcases same with valid | few
    · rw [valid] at lost; exact absurd lost (by decide)
    · omega
  rw [crossing_counted h (by omega), counted]
  rfl

theorem crossing_eighth {period since : Nat} {s : State} (h : s.line.mains.crossed = true) (low : 123077 ≤ period)
    (high : period ≤ 177777) (lost : s.line.mains.state = .lost) (seven : s.line.mains.inRun = 7) :
    crossing period since s =
      if 64000 ≤ since then cycleStart (regainMains (countIn period s)) else regainMains (countIn period s) := by
  have counted : countPeriod period s = regainMains (countIn period s) :=
    (countPeriod_in low high s).trans (if_pos ⟨lost, seven.ge⟩)
  have valid : (regainMains (countIn period s)).line.mains.state = .valid := rfl
  rw [crossing_counted h (by omega), counted]
  simp only [valid, true_and]

theorem crossing_out {period since : Nat} {s : State} (h : s.line.mains.crossed = true) (long : 64000 ≤ period)
    (out : period < 123077 ∨ 177777 < period) (same : s.line.mains.state = .lost ∨ s.line.mains.outRun < 2) :
    crossing period since s =
      if s.line.mains.state = .valid ∧ 64000 ≤ since then cycleStart (countOut period s) else countOut period s := by
  have counted : countPeriod period s = countOut period s := by
    refine (countPeriod_out out s).trans (if_neg ?_)
    rintro ⟨valid, two⟩
    rcases same with lost | few
    · rw [lost] at valid; exact absurd valid (by decide)
    · omega
  rw [crossing_counted h long, counted]
  rfl

/-- The eighth period in range brings the mains back with these counts (R29). -/
theorem regainMains_countIn {period : Nat} {s : State} (seven : s.line.mains.inRun = 7) :
    regainMains (countIn period s) =
      modMains s fun m => { m with lastPeriod := period, outRun := 0, inRun := 8, state := .valid, pace := false } := by
  simp only [regainMains, countIn, modMains, seven]
  rfl

/-- Settles O17: a crossing is the count of its period, and a cycle start where R27 gives one. -/
theorem mainsCrossingCountsPeriods : Obligations.MainsCrossingCountsPeriods := by
  intro period since s
  have next {t : State} (h : crossing period since s = t) : exec (.mainsCrossing period since) s = .next t :=
    congrArg Host.Outcome.next h
  have notLost {m : MainsState} (h : m = .lost) : m ≠ .valid := by rw [h]; decide
  refine ⟨fun first => next (crossing_first first), fun h short => next (crossing_blind h short),
    fun h low high => ⟨fun valid early => ?_, fun valid late => ?_, fun lost few => ?_, fun lost seven early => ?_,
      fun lost seven late => ?_⟩,
    fun h long out => ⟨fun still => ?_, fun valid few late => ?_⟩⟩
  · exact next ((crossing_in h low high (.inl valid)).trans (if_neg fun c => by omega))
  · exact next ((crossing_in h low high (.inl valid)).trans (if_pos ⟨valid, late⟩))
  · refine next ((crossing_in h low high (.inr few)).trans ((if_neg fun c => notLost lost c.1).trans ?_))
    have eight : min 8 (s.line.mains.inRun + 1) = s.line.mains.inRun + 1 := by omega
    simp only [countIn, modMains, eight]
  · rw [← regainMains_countIn seven]
    exact next ((crossing_eighth h low high lost seven).trans (if_neg (by omega)))
  · rw [← regainMains_countIn seven]
    exact next ((crossing_eighth h low high lost seven).trans (if_pos late))
  · rcases still with lost | ⟨few, early⟩
    · exact next ((crossing_out h long out (.inl lost)).trans (if_neg fun c => notLost lost c.1))
    · exact next ((crossing_out h long out (.inr few)).trans (if_neg fun c => by omega))
  · exact next ((crossing_out h long out (.inr few)).trans (if_pos ⟨valid, late⟩))

/-! ### The loss of the mains (R28) -/

/-- The part handed over for the loss of its mains, before the accumulations and counts are restarted (R28). -/
def mainsHandedOver (s : State) : State :=
  handover .mainsLost [word (min 65535 (s.line.mains.lastPeriod / 8))]
    (modMains s fun m => { m with state := .lost, inRun := 0, pace := true })

/-- What the loss of the mains leaves and restarts (R28, R64, R82). -/
structure LosesMains (s t : State) : Prop extends OutsideKept s t where
  line : t.line = { s.line with mains := t.line.mains }
  cycle : t.line.mains.c = s.line.mains.c
  lost : t.line.mains.state = .lost ∧ t.line.mains.inRun = 0 ∧ t.line.mains.pace = true
  service : t.service.state = .handedOver
  outputs : ∀ o : OutputId,
    t.proving.outputs[o].sense = 0 ∧ t.proving.outputs[o].state = s.proving.outputs[o].state
  cores : ∀ o : OutputId, t.engine.cores[o] = { s.engine.cores[o] with acc := restartAccum s.engine.cores[o].acc }
  residuals : ∀ k : CardId,
    t.engine.residuals[k] = { s.engine.residuals[k] with acc := restartAccum s.engine.residuals[k].acc }
  plans : t.plans.plans = s.plans.plans

theorem loseMains_eq (s : State) :
    loseMains s =
      { restartAll (mainsHandedOver s) with
        proving :=
          { (mainsHandedOver s).proving with
            outputs := vgen fun o => { (mainsHandedOver s).proving.outputs[o] with sense := 0 } } } := rfl

theorem restartAll_core (s : State) (o : OutputId) :
    (restartAll s).engine.cores[o] = { s.engine.cores[o] with acc := restartAccum s.engine.cores[o].acc } :=
  vgen_get _ o

theorem restartAll_residual (s : State) (k : CardId) :
    (restartAll s).engine.residuals[k] =
      { s.engine.residuals[k] with acc := restartAccum s.engine.residuals[k].acc } := vgen_get _ k

theorem losesMains (s : State) : LosesMains s (loseMains s) := by
  have handed : Stays (modMains s fun m => { m with state := .lost, inRun := 0, pace := true }) (mainsHandedOver s) :=
    stays_handover _ _ _
  have line : (loseMains s).line = (modMains s fun m => { m with state := .lost, inRun := 0, pace := true }).line :=
    handed.line
  have engine : (loseMains s).engine = (restartAll (mainsHandedOver s)).engine := rfl
  constructor
  case toOutsideKept => exact ⟨handed.pending, handed.ports, handed.safety, handed.stages, handed.inputs⟩
  case line => rw [line]; rfl
  case cycle => rw [line]; rfl
  case lost => rw [line]; exact ⟨rfl, rfl, rfl⟩
  case service => exact handover_state _ _ _
  case plans => exact handed.plans
  case outputs =>
    intro o
    simp only [loseMains_eq, vgen_get]
    exact ⟨trivial, by rw [handed.outputs o]; rfl⟩
  case cores =>
    intro o
    rw [engine, restartAll_core, handed.engine]
    rfl
  case residuals =>
    intro k
    rw [engine, restartAll_residual, handed.engine]
    rfl

/-- Counting a period beforehand makes no difference to what the loss leaves. -/
theorem LosesMains.of_countOut {period : Nat} {s t : State} (h : LosesMains (countOut period s) t) : LosesMains s t :=
  ⟨⟨h.pending, h.ports, h.safety, h.stages, h.inputs⟩, h.line, h.cycle, h.lost, h.service, h.outputs, h.cores,
    h.residuals, h.plans⟩

/-- The third period out of range in VALID loses the mains, and starts no cycle (R28; log entry 24). -/
theorem crossing_loses {period since : Nat} {s : State} (crossed : s.line.mains.crossed = true)
    (valid : s.line.mains.state = .valid) (long : 64000 ≤ period) (out : period < 123077 ∨ 177777 < period)
    (two : s.line.mains.outRun = 2) : crossing period since s = loseMains (countOut period s) := by
  have counted : countPeriod period s = loseMains (countOut period s) :=
    (countPeriod_out out s).trans (if_pos ⟨valid, two.ge⟩)
  rw [crossing_counted crossed long, counted]
  refine if_neg fun c => ?_
  rw [(losesMains (countOut period s)).lost.1] at c
  exact absurd c.1 (by decide)

/-- Settles O18: the third period out of range and the timeout both lose the mains, and neither starts a cycle. -/
theorem mainsLossHandsOver : Obligations.MainsLossHandsOver := by
  intro c s
  constructor
  · intro lost
    refine congrArg Host.Outcome.next (if_neg ?_)
    rw [lost]; decide
  · intro valid cause
    have loss : ∃ t, exec c s = .next t ∧ LosesMains s t := by
      rcases cause with rfl | ⟨period, since, rfl, crossed, long, out, two⟩
      · exact ⟨_, congrArg Host.Outcome.next (if_pos (beq_iff_eq.mpr valid)), losesMains s⟩
      · exact ⟨_, congrArg Host.Outcome.next (crossing_loses crossed valid long out two), (losesMains _).of_countOut⟩
    obtain ⟨t, run, loses⟩ := loss
    obtain ⟨lost, none, pace⟩ := loses.lost
    refine ⟨t, run, lost, none, pace, loses.cycle, loses.service, fun o => ?_, loses.residuals, ?_, ?_, ?_, loses.ports,
      loses.safety, loses.stages, loses.inputs, loses.plans, loses.pending⟩
    · obtain ⟨sense, state⟩ := loses.outputs o
      exact ⟨sense, state, loses.cores o⟩
    all_goals rw [loses.line]

end Sys2Proof.Machine
end

section
/-! PROOFS. Chapter 2, the delivery of an exchange's measurements and the start of a cycle. -/

namespace Sys2Proof.Machine

/-! ### The delivery (R57, R86) -/

/-- What the delivery of a measurement leaves: the card line and the engine, besides what no event of the card line
changes. -/
structure DeliveryKeeps (s t : State) : Prop extends OutsideKept s t where
  line : t.line = s.line
  engine : t.engine = s.engine

theorem DeliveryKeeps.refl (s : State) : DeliveryKeeps s s := ⟨.refl s, rfl, rfl⟩

theorem DeliveryKeeps.trans {s t u : State} (a : DeliveryKeeps s t) (b : DeliveryKeeps t u) : DeliveryKeeps s u :=
  ⟨a.toOutsideKept.trans b.toOutsideKept, b.line.trans a.line, b.engine.trans a.engine⟩

theorem DecisionKeeps.delivery {s t : State} (h : DecisionKeeps s t) : DeliveryKeeps s t := ⟨h.outside, h.line, h.engine⟩

theorem Stays.delivery {s t : State} (h : Stays s t) : DeliveryKeeps s t := h.toDecisionKeeps.delivery

theorem delivery_modCable (c : CardId) (f : CableCard → CableCard) (s : State) : DeliveryKeeps s (modCable s c f) :=
  ⟨by constructor <;> rfl, rfl, rfl⟩

theorem delivery_modFeeder (o : OutputId) (f : Feeder → Feeder) (s : State) : DeliveryKeeps s (modFeeder s o f) :=
  ⟨by constructor <;> rfl, rfl, rfl⟩

theorem delivery_post (k : FaultKind) (x : Subject) (b : Bool) (d : Option (List Word16)) (s : State) :
    DeliveryKeeps s (post k x b d s) := (stays_post k x b d s).delivery

theorem delivery_endFault (k : FaultKind) (x : Subject) (s : State) : DeliveryKeeps s (endFault k x s) :=
  (stays_endFault k x s).delivery

theorem delivery_isolateCard (c : CardId) (s : State) : DeliveryKeeps s (isolateCard c s) :=
  eachOf_rel DeliveryKeeps.refl DeliveryKeeps.trans (fun o _ t =>
    (keeps_modProof o _ t).delivery.trans
      ((stays_recompose _ _).delivery.trans (proofsStay_stateChanged o _ _).toDecisionKeeps.delivery)) s

theorem delivery_trip (c : CardId) (leak : Nat) (s : State) : DeliveryKeeps s (trip c leak s) :=
  (delivery_modCable c _ s).trans ((delivery_post _ _ _ _ _).trans (delivery_isolateCard c _))

theorem delivery_leakTripTest (c : CardId) (leak : Nat) (s : State) : DeliveryKeeps s (leakTripTest c leak s) := by
  unfold leakTripTest
  dsimp only
  split
  · exact .refl s
  · split
    · split
      · exact delivery_modCable c _ s
      · exact delivery_trip c leak s
    · exact delivery_modCable c _ s

theorem delivery_leakAlarmTest (c : CardId) (leak : Nat) (s : State) : DeliveryKeeps s (leakAlarmTest c leak s) := by
  unfold leakAlarmTest
  dsimp only
  split
  · split
    · exact delivery_modCable c _ s
    · split
      · exact delivery_modCable c _ s
      · exact (delivery_modCable c _ s).trans (delivery_endFault _ _ _)
  · split
    · split
      · exact delivery_modCable c _ s
      · exact (delivery_modCable c _ s).trans (delivery_post _ _ _ _ _)
    · exact delivery_modCable c _ s

theorem delivery_evaluateLeak (m : ResMeas) (s : State) : DeliveryKeeps s (evaluateLeak m s) :=
  (delivery_modCable m.card _ s).trans
    ((delivery_leakAlarmTest m.card m.leak _).trans (delivery_leakTripTest m.card m.leak _))

theorem delivery_feederTest (m : CoreMeas) (s : State) : DeliveryKeeps s (feederTest m s) := by
  unfold feederTest
  dsimp only
  split
  · split
    · exact (delivery_modFeeder _ _ s).trans (delivery_post _ _ _ _ _)
    · exact delivery_modFeeder _ _ s
  · split
    · exact (delivery_modFeeder _ _ s).trans (delivery_endFault _ _ _)
    · exact delivery_modFeeder _ _ s

theorem delivery_postFinding (x : OutputId) (ip : Int) (v : Investigation) (d : Finding) (s : State) :
    DeliveryKeeps s (postFinding x ip v d s) := by
  cases d <;> exact delivery_post _ _ _ _ s

theorem delivery_closeInvestigation (i : InvSlot) (ip : Int) (v : Investigation) (d : Finding) (s : State) :
    DeliveryKeeps s (closeInvestigation i ip v d s) := by
  have freed : DeliveryKeeps s
      (setInvestigation (endFault .unwantedCurrent (.output v.x) (postFinding v.x ip v d s)) i none) :=
    (delivery_postFinding v.x ip v d s).trans
      ((delivery_endFault _ _ _).trans (stays_setInvestigation i none _).delivery)
  cases d with
  | stuck => exact freed
  | transient => exact freed
  | unclassified => exact freed
  | ambiguous => exact freed
  | cross y =>
    unfold closeInvestigation
    dsimp only
    split
    · exact freed.trans (stays_handover _ _ _).delivery
    · exact freed

theorem delivery_investigate (m : CoreMeas) (s : State) : DeliveryKeeps s (investigate m s) := by
  rw [investigate_eq]
  split
  · unfold investigateIn afterWindow
    split
    · split
      · exact delivery_closeInvestigation _ _ _ _ s
      · exact (stays_setInvestigation _ _ s).delivery
    · exact .refl s
  · exact .refl s

theorem delivery_deliverCore (m : CoreMeas) (s : State) : DeliveryKeeps s (deliverCore m s) := by
  unfold deliverCore
  split
  · exact delivery_feederTest m s
  · exact delivery_investigate m s

/-- The exchange without its measurements. -/
def withoutMeasurements (s : State) : State := modExchange s fun e => { e with cores := [], residuals := [] }

/-- The measurements of a delivery handed over one by one (R86). -/
def handOn (e : Exchange) (s : State) : State := eachOf e.residuals evaluateLeak (eachOf e.cores deliverCore s)

theorem delivery_handOn (e : Exchange) (s : State) : DeliveryKeeps s (handOn e s) :=
  (eachOf_rel DeliveryKeeps.refl DeliveryKeeps.trans (fun m _ t => delivery_deliverCore m t) s).trans
    (eachOf_rel DeliveryKeeps.refl DeliveryKeeps.trans (fun m _ t => delivery_evaluateLeak m t) _)

theorem blind_handOn (e : Exchange) : Blind (handOn e) :=
  (Blind.eachOf _ blind_evaluateLeak).comp (.eachOf _ blind_deliverCore)

/-- In VALID the delivery hands the measurements on (R86). -/
theorem deliver_valid {s : State} (h : s.line.mains.state = .valid) :
    deliver s = handOn s.line.exchange (withoutMeasurements s) := if_pos (beq_iff_eq.mpr h)

/-- In LOST the measurements reach nobody (log entry 25). -/
theorem deliver_lost {s : State} (h : s.line.mains.state = .lost) : deliver s = withoutMeasurements s :=
  if_neg (by show ¬(s.line.mains.state == .valid) = true; rw [h]; decide)

theorem mains_lost_or_valid (s : State) : s.line.mains.state = .lost ∨ s.line.mains.state = .valid := by
  cases s.line.mains.state with
  | lost => exact Or.inl rfl
  | valid => exact Or.inr rfl

/-- A delivery empties the exchange's lists, and leaves the rest of the card line and the engine. -/
theorem delivery_deliver (s : State) : DeliveryKeeps (withoutMeasurements s) (deliver s) := by
  rcases mains_lost_or_valid s with lost | valid
  · rw [deliver_lost lost]; exact .refl _
  · rw [deliver_valid valid]; exact delivery_handOn _ _

/-- An exchange whose old slot is gone ends where its SWITCH is sent and no card is left to poll (R35). -/
theorem endIfDone_ends {s : State} (running : s.line.exchange.running = true)
    (sent : s.line.exchange.switchSent = true) (polled : s.line.exchange.toPoll = [])
    (closed : s.line.exchange.slot = none) :
    endIfDone s = deliver (modExchange s fun e => { e with running := false }) := by
  simp only [endIfDone, running, sent, polled, closed]
  rfl

theorem endIfDone_goesOn {s : State}
    (h : s.line.exchange.running = false ∨ s.line.exchange.switchSent = false ∨ s.line.exchange.toPoll ≠ [] ∨
      s.line.exchange.slot ≠ none) : endIfDone s = s := by
  refine if_neg fun done => ?_
  simp only [Bool.and_eq_true, List.isEmpty_iff, Option.isNone_iff_eq_none] at done
  obtain ⟨⟨⟨running, sent⟩, polled⟩, closed⟩ := done
  rcases h with h | h | h | h
  · rw [running] at h; exact absurd h (by decide)
  · rw [sent] at h; exact absurd h (by decide)
  · exact h polled
  · exact h closed

end Sys2Proof.Machine
end

section
/-! PROOFS. Chapter 2, the start of a cycle: an exchange that still runs is cut short, and a new one begins. -/

namespace Sys2Proof.Machine

/-! ### The cards not yet polled (R45) -/

/-- What the cutting short of an exchange leaves, whichever cards are left: what no event of the card line changes, the
card line but for its card records, and the trip and feeder fields. -/
structure CutKeeps (s t : State) : Prop extends OutsideKept s t where
  mains : t.line.mains = s.line.mains
  lines : t.line.lines = s.line.lines
  patterns : t.line.patterns = s.line.patterns
  exchange : t.line.exchange = s.line.exchange
  trips : t.cable.cards = s.cable.cards
  feeders : t.cable.feeders = s.cable.feeders

theorem CutKeeps.refl (s : State) : CutKeeps s s := by
  constructor
  · exact .refl s
  all_goals rfl

theorem CutKeeps.trans {s t u : State} (a : CutKeeps s t) (b : CutKeeps t u) : CutKeeps s u where
  toOutsideKept := a.toOutsideKept.trans b.toOutsideKept
  mains := b.mains.trans a.mains
  lines := b.lines.trans a.lines
  patterns := b.patterns.trans a.patterns
  exchange := b.exchange.trans a.exchange
  trips := b.trips.trans a.trips
  feeders := b.feeders.trans a.feeders

theorem OfCard.cut {c : CardId} {s t : State} (h : OfCard c s t) : CutKeeps s t where
  toOutsideKept := h.toOutsideKept
  mains := h.mains
  lines := h.lines
  patterns := h.patterns
  exchange := h.exchange
  trips := h.trips
  feeders := h.feeders

/-- What an event of another card leaves of a card: its record, its residual channel, its cores and its outputs' proving
states, and the mains. -/
structure CardSame (c : CardId) (s t : State) : Prop where
  mains : t.line.mains = s.line.mains
  card : t.line.cards[c] = s.line.cards[c]
  residual : residualAt c t = residualAt c s
  cores : ∀ o : OutputId, cardOf o = c → coreAt o t = coreAt o s
  states : ∀ o : OutputId, cardOf o = c → provingState o t = provingState o s

theorem CardSame.refl (c : CardId) (s : State) : CardSame c s s := by constructor <;> intros <;> rfl

theorem CardSame.trans {c : CardId} {s t u : State} (a : CardSame c s t) (b : CardSame c t u) : CardSame c s u where
  mains := b.mains.trans a.mains
  card := b.card.trans a.card
  residual := b.residual.trans a.residual
  cores o h := (b.cores o h).trans (a.cores o h)
  states o h := (b.states o h).trans (a.states o h)

theorem OfCard.same {c k : CardId} {s t : State} (h : OfCard k s t) (ne : k ≠ c) : CardSame c s t where
  mains := h.mains
  card := h.cards c fun e => ne e.symm
  residual := h.residuals c fun e => ne e.symm
  cores o ho := h.cores o fun e => ne (e.symm.trans ho)
  states o ho := h.states o fun e => ne (e.symm.trans ho)

/-- The configured cards not yet polled. -/
def unpolled (s : State) : List CardId := s.line.exchange.toPoll.filter fun c => s.line.cards[c].configured

/-- The cards not yet polled cut short, one after another. -/
def cutAll (s : State) : State := eachOf (unpolled s) (cutCard (cycleBack s.line.mains.c 1)) s

theorem mem_unpolled {s : State} {c : CardId} :
    c ∈ unpolled s ↔ c ∈ s.line.exchange.toPoll ∧ s.line.cards[c].configured = true := List.mem_filter

theorem cutKeeps_cutAll (s : State) : CutKeeps s (cutAll s) :=
  eachOf_rel CutKeeps.refl CutKeeps.trans (fun c _ t => (ofCard_cutCard _ c t).cut) s

/-- A card that was polled, or is not configured, is left. -/
theorem cutAll_same {s : State} {c : CardId} (h : c ∉ unpolled s) : CardSame c s (cutAll s) :=
  eachOf_rel (CardSame.refl c) CardSame.trans
    (fun k hk t => (ofCard_cutCard _ k t).same fun e => h (e ▸ hk)) s

/-- A card not yet polled is cut short once, and the others leave it. -/
theorem cutAll_once {s : State} {c : CardId} (nodup : s.line.exchange.toPoll.Nodup) (mem : c ∈ unpolled s) :
    ∃ t, CardSame c s t ∧ CardSame c (cutCard (cycleBack s.line.mains.c 1) c t) (cutAll s) :=
  eachOf_once (CardSame.refl c) CardSame.trans (fun k t ne => (ofCard_cutCard _ k t).same ne) (nodup.filter _) mem s

theorem noReply_card (c : CardId) (s : State) : (noReply c s).line.cards[c] = unanswered s.line.cards[c] := by
  rw [noReply_cards]
  exact vmod_same _ c unanswered

theorem noReply_engine (c : CardId) (s : State) : (noReply c s).engine = s.engine := by
  by_cases tenth : s.line.cards[c].missing = 9
  · rw [noReply_tenth tenth]
    split
    · rw [(keeps_senseLoseCard c _).engine]; rfl
    · rfl
  · rw [noReply_early tenth]; rfl

/-- The tenth missing reply of an ONLINE card takes its outputs to SENSE_LOST (R39, R74). -/
theorem noReply_senseLost {c : CardId} {s : State} (online : s.line.cards[c].online = true)
    (tenth : s.line.cards[c].missing = 9) {o : OutputId} (h : cardOf o = c) (n : provingState o s ≠ .isolated) :
    provingState o (noReply c s) = .senseLost := by
  rw [noReply_tenth tenth, if_pos online, senseLoseCard_state c o h]
  exact if_neg n

theorem cutCard_card (old : CycleNo) (c : CardId) (s : State) :
    (cutCard old c s).line.cards[c] = unanswered s.line.cards[c] := by
  unfold cutCard
  rw [notifyMissing_line, noReply_card]

theorem noReply_mains (c : CardId) (s : State) : (noReply c s).line.mains = s.line.mains := (ofCard_noReply c s).mains

theorem residualAt_noReply (c k : CardId) (s : State) : residualAt k (noReply c s) = residualAt k s :=
  congrArg (fun e : Engine => e.residuals[k]) (noReply_engine c s)

theorem coreAt_noReply (c : CardId) (o : OutputId) (s : State) : coreAt o (noReply c s) = coreAt o s :=
  congrArg (fun e : Engine => e.cores[o]) (noReply_engine c s)

theorem cutCard_valid {old : CycleNo} {c : CardId} {s : State} (valid : s.line.mains.state = .valid) :
    residualAt c (cutCard old c s) = restartedResidual (residualAt c s) ∧
      ∀ o, cardOf o = c → coreAt o (cutCard old c s) = missed old (coreAt o s) := by
  unfold cutCard
  rw [notifyMissing_valid (by rw [noReply_mains]; exact valid)]
  refine ⟨?_, fun o h => ?_⟩
  · rw [missingWindow_residual, residualAt_noReply]
  · rw [missingWindow_core c o h, coreAt_noReply]

theorem cutCard_lost {old : CycleNo} {c : CardId} {s : State} (lost : s.line.mains.state = .lost) :
    residualAt c (cutCard old c s) = residualAt c s ∧ ∀ o, coreAt o (cutCard old c s) = coreAt o s := by
  unfold cutCard
  rw [notifyMissing_lost (by rw [noReply_mains]; exact lost)]
  exact ⟨residualAt_noReply c c s, fun o => coreAt_noReply c o s⟩

theorem cutCard_senseLost {old : CycleNo} {c : CardId} {s : State} (online : s.line.cards[c].online = true)
    (tenth : s.line.cards[c].missing = 9) {o : OutputId} (h : cardOf o = c) (n : provingState o s ≠ .isolated) :
    provingState o (cutCard old c s) = .senseLost := by
  have lost := noReply_senseLost online tenth h n
  unfold cutCard notifyMissing
  split
  · exact missingWindow_senseLost c o old _ lost
  · exact lost

/-- What the cutting short makes of a card not yet polled (R39, R45, R57). -/
theorem cutAll_unpolled {s : State} {c : CardId} (nodup : s.line.exchange.toPoll.Nodup) (mem : c ∈ unpolled s) :
    (cutAll s).line.cards[c] = unanswered s.line.cards[c] ∧
      (s.line.cards[c].online = true → s.line.cards[c].missing = 9 → ∀ o, cardOf o = c →
        provingState o s ≠ .isolated → provingState o (cutAll s) = .senseLost) ∧
      (s.line.mains.state = .valid →
        residualAt c (cutAll s) = restartedResidual (residualAt c s) ∧
          ∀ o, cardOf o = c → coreAt o (cutAll s) = missed (cycleBack s.line.mains.c 1) (coreAt o s)) ∧
      (s.line.mains.state = .lost →
        residualAt c (cutAll s) = residualAt c s ∧ ∀ o, cardOf o = c → coreAt o (cutAll s) = coreAt o s) := by
  obtain ⟨t, before, after⟩ := cutAll_once nodup mem
  refine ⟨?_, fun online tenth o h n => ?_, fun valid => ?_, fun lost => ?_⟩
  · rw [after.card, cutCard_card, before.card]
  · rw [after.states o h]
    rw [← before.card] at online tenth
    rw [← before.states o h] at n
    exact cutCard_senseLost online tenth h n
  · rw [← before.mains] at valid
    obtain ⟨residual, cores⟩ := cutCard_valid (old := cycleBack s.line.mains.c 1) (c := c) valid
    refine ⟨?_, fun o h => ?_⟩
    · rw [after.residual, residual, before.residual]
    · rw [after.cores o h, cores o h, before.cores o h]
  · rw [← before.mains] at lost
    obtain ⟨residual, cores⟩ := cutCard_lost (old := cycleBack s.line.mains.c 1) (c := c) lost
    refine ⟨?_, fun o h => ?_⟩
    · rw [after.residual, residual, before.residual]
    · rw [after.cores o h, cores o, before.cores o h]

/-- No card is configured or taken out by the cutting short. -/
theorem cutAll_configured {s : State} (c : CardId) : (cutAll s).line.cards[c].configured = s.line.cards[c].configured := by
  refine eachOf_rel (R := fun s t => t.line.cards[c].configured = s.line.cards[c].configured) (fun _ => rfl)
    (fun a b => b.trans a) (fun k _ t => ?_) s
  by_cases e : k = c
  · subst e
    rw [cutCard_card]
    rfl
  · rw [(ofCard_cutCard _ k t).cards c fun h => e h.symm]

/-! ### The exchange cut short (R45) -/

/-- The exchange as the cutting short leaves it: the open slot marked as one of the old cycle. -/
def cutOpen (s : State) : State := modSlot (cutAll s) fun x => { x with old := true }

theorem withoutMeasurements_exchange (s : State) :
    (withoutMeasurements s).line.exchange = { s.line.exchange with cores := [], residuals := [] } := rfl

theorem withoutMeasurements_cutOpen (s : State) :
    withoutMeasurements (cutOpen s) = withExchange (withoutMeasurements (cutOpen s)).line.exchange (cutAll s) := rfl

theorem cutShort_running {s : State} (h : s.line.exchange.running = true) :
    cutShort s = if (cutOpen s).line.exchange.slot.isNone then deliver (cutOpen s) else cutOpen s := if_pos h

theorem cutShort_ended {s : State} (h : s.line.exchange.running = false) : cutShort s = s :=
  if_neg (by rw [h]; decide)

theorem cutOpen_slot (s : State) :
    (cutOpen s).line.exchange = { s.line.exchange with slot := s.line.exchange.slot.map fun x => { x with old := true } } := by
  show Exchange.mk _ _ _ _ _ _ = _
  rw [(cutKeeps_cutAll s).exchange]

theorem cutShort_open {s : State} {x : Slot} (h : s.line.exchange.running = true) (hx : s.line.exchange.slot = some x) :
    cutShort s = cutOpen s := by
  rw [cutShort_running h, cutOpen_slot, hx]
  rfl

theorem cutShort_closed {s : State} (h : s.line.exchange.running = true) (hx : s.line.exchange.slot = none) :
    cutShort s = deliver (cutOpen s) := by
  rw [cutShort_running h, cutOpen_slot, hx]
  rfl

/-- What every cycle start leaves of the card line's records before the new cycle: mains, lines and patterns, which cards
are configured, and what no event of the card line changes. -/
structure CutShort (s t : State) : Prop extends OutsideKept s t where
  mains : t.line.mains = s.line.mains
  lines : t.line.lines = s.line.lines
  patterns : t.line.patterns = s.line.patterns
  configured : ∀ c : CardId, t.line.cards[c].configured = s.line.cards[c].configured

theorem cutShort_cutOpen (s : State) : CutShort s (cutOpen s) := by
  have kept := cutKeeps_cutAll s
  exact ⟨⟨kept.pending, kept.ports, kept.safety, kept.stages, kept.inputs⟩, kept.mains, kept.lines, kept.patterns,
    cutAll_configured⟩

theorem CutShort.deliver {s t : State} (h : CutShort s t) : CutShort s (deliver t) := by
  have kept := delivery_deliver t
  exact ⟨h.toOutsideKept.trans (OutsideKept.trans (by constructor <;> rfl) kept.toOutsideKept),
    by rw [kept.line]; exact h.mains, by rw [kept.line]; exact h.lines, by rw [kept.line]; exact h.patterns,
    fun c => by rw [kept.line]; exact h.configured c⟩

theorem cutShort_keeps (s : State) : CutShort s (cutShort s) := by
  cases running : s.line.exchange.running with
  | false =>
    rw [cutShort_ended running]
    exact ⟨.refl s, rfl, rfl, rfl, fun _ => rfl⟩
  | true =>
    rw [cutShort_running running]
    split
    · exact (cutShort_cutOpen s).deliver
    · exact cutShort_cutOpen s

/-! ### The new cycle (R27, R57) -/

theorem cycleBack_cycleNext (n : CycleNo) : cycleBack (cycleNext n) 1 = n := by
  ext
  simp only [cycleBack, cycleNext]
  omega

/-- A new cycle begun, once the old exchange has ended or is cut short (R27, R57). -/
def beginCycle (s : State) : State :=
  let s := modMains s fun m => { m with c := cycleNext m.c }
  let s := ageHistory (cycleBack s.line.mains.c 1) s
  modExchange s fun e =>
    { e with running := true, switchSent := false, toPoll := allCards.filter fun c => s.line.cards[c].configured }

theorem cycleStart_eq (s : State) : cycleStart s = beginCycle (cutShort s) := rfl

/-- A core whose history entry for a cycle is unknown (R57). -/
def aged (n : CycleNo) (r : CoreRec) : CoreRec := { r with history := r.history.set n none }

theorem beginCycle_core (s : State) (o : OutputId) :
    coreAt o (beginCycle s) = aged s.line.mains.c (coreAt o s) :=
  (vgen_get (fun o => aged (cycleBack (cycleNext s.line.mains.c) 1) s.engine.cores[o]) o).trans
    (congrArg (fun n => aged n s.engine.cores[o]) (cycleBack_cycleNext _))

theorem beginCycle_residual (c : CardId) (s : State) : residualAt c (beginCycle s) = residualAt c s := rfl

theorem beginCycle_mains (s : State) :
    (beginCycle s).line.mains = { s.line.mains with c := cycleNext s.line.mains.c } := rfl

theorem beginCycle_cards (s : State) : (beginCycle s).line.cards = s.line.cards := rfl

theorem beginCycle_exchange (s : State) :
    (beginCycle s).line.exchange =
      { s.line.exchange with
        running := true, switchSent := false, toPoll := allCards.filter fun c => s.line.cards[c].configured } := rfl

theorem configured_filter {s t : State} (h : ∀ c : CardId, t.line.cards[c].configured = s.line.cards[c].configured) :
    (allCards.filter fun c => t.line.cards[c].configured) = allCards.filter fun c => s.line.cards[c].configured :=
  List.filter_congr fun c _ => h c

theorem cycleStart_outside (s : State) : OutsideKept s (cycleStart s) := by
  have kept := (cutShort_keeps s).toOutsideKept
  exact ⟨kept.pending, kept.ports, kept.safety, kept.stages, kept.inputs⟩

theorem cycleStart_mains (s : State) :
    (cycleStart s).line.mains = { s.line.mains with c := cycleNext s.line.mains.c } := by
  rw [cycleStart_eq, beginCycle_mains, (cutShort_keeps s).mains]

theorem cycleStart_history (s : State) (o : OutputId) : (coreAt o (cycleStart s)).history[s.line.mains.c] = none := by
  rw [cycleStart_eq, beginCycle_core, (cutShort_keeps s).mains]
  exact (vset_get _ _ _ _).trans (if_pos rfl)

theorem cycleStart_toPoll (s : State) :
    (cycleStart s).line.exchange.toPoll = allCards.filter fun c => s.line.cards[c].configured := by
  rw [cycleStart_eq, beginCycle_exchange]
  exact configured_filter (cutShort_keeps s).configured

/-- Where the old exchange has ended, the cycle just begins. -/
theorem cycleStart_ended {s : State} (h : s.line.exchange.running = false) : cycleStart s = beginCycle s := by
  rw [cycleStart_eq, cutShort_ended h]

/-- The record of a core or a card, and a residual channel, at a cycle start are those of the exchange cut short. -/
theorem cutShort_engine {s : State} (h : s.line.exchange.running = true) : (cutShort s).engine = (cutAll s).engine := by
  rw [cutShort_running h]
  split
  · rw [(delivery_deliver _).engine]; rfl
  · rfl

theorem cutShort_cards {s : State} (h : s.line.exchange.running = true) :
    (cutShort s).line.cards = (cutAll s).line.cards := by
  rw [cutShort_running h]
  split
  · rw [(delivery_deliver _).line]; rfl
  · rfl

theorem cycleStart_card {s : State} (h : s.line.exchange.running = true) (c : CardId) :
    (cycleStart s).line.cards[c] = (cutAll s).line.cards[c] := by
  rw [cycleStart_eq, beginCycle_cards, cutShort_cards h]

theorem cycleStart_residual {s : State} (h : s.line.exchange.running = true) (c : CardId) :
    residualAt c (cycleStart s) = residualAt c (cutAll s) := by
  rw [cycleStart_eq, beginCycle_residual]
  exact congrArg (fun e : Engine => e.residuals[c]) (cutShort_engine h)

theorem cycleStart_core {s : State} (h : s.line.exchange.running = true) (o : OutputId) :
    coreAt o (cycleStart s) = aged s.line.mains.c (coreAt o (cutAll s)) := by
  rw [cycleStart_eq, beginCycle_core, (cutShort_keeps s).mains]
  exact congrArg (fun e : Engine => aged s.line.mains.c e.cores[o]) (cutShort_engine h)

/-- With a slot open, the measurements wait for its close (R45). -/
theorem cycleStart_open {s : State} {x : Slot} (h : s.line.exchange.running = true)
    (hx : s.line.exchange.slot = some x) :
    cycleStart s = { cutAll s with line := (cycleStart s).line, engine := (cycleStart s).engine } ∧
      (cycleStart s).line.exchange.slot = some { x with old := true } ∧
      (cycleStart s).line.exchange.cores = s.line.exchange.cores ∧
      (cycleStart s).line.exchange.residuals = s.line.exchange.residuals := by
  rw [cycleStart_eq, cutShort_open h hx, beginCycle_exchange, cutOpen_slot, hx]
  exact ⟨rfl, rfl, rfl, rfl⟩

/-- With no slot open, the measurements are delivered: in LOST to nobody, in VALID after the cards are cut short. -/
theorem cycleStart_closed {s : State} (h : s.line.exchange.running = true) (hx : s.line.exchange.slot = none) :
    (cycleStart s).line.exchange.slot = none ∧ (cycleStart s).line.exchange.cores = [] ∧
      (cycleStart s).line.exchange.residuals = [] ∧
      (s.line.mains.state = .lost →
        cycleStart s = { cutAll s with line := (cycleStart s).line, engine := (cycleStart s).engine }) ∧
      (s.line.mains.state = .valid →
        cycleStart s =
          { handOn s.line.exchange (cutAll s) with line := (cycleStart s).line, engine := (cycleStart s).engine }) := by
  have mains : (cutOpen s).line.mains = s.line.mains := (cutShort_cutOpen s).mains
  have emptied : (cutShort s).line.exchange =
      { s.line.exchange with slot := none, cores := [], residuals := [] } := by
    rw [cutShort_closed h hx, (delivery_deliver _).line, withoutMeasurements_exchange, cutOpen_slot, hx]
    rfl
  refine ⟨?_, ?_, ?_, fun lost => ?_, fun valid => ?_⟩
  · rw [cycleStart_eq, beginCycle_exchange, emptied]
  · rw [cycleStart_eq, beginCycle_exchange, emptied]
  · rw [cycleStart_eq, beginCycle_exchange, emptied]
  · have cut : cutShort s = { cutAll s with line := (cutShort s).line } := by
      rw [cutShort_closed h hx, deliver_lost (by rw [mains]; exact lost)]
      rfl
    rw [cycleStart_eq, cut]
    rfl
  · have cut : cutShort s = { handOn s.line.exchange (cutAll s) with line := (cutShort s).line } := by
      have lists : handOn (cutOpen s).line.exchange = handOn s.line.exchange := by
        rw [cutOpen_slot]; rfl
      rw [cutShort_closed h hx, deliver_valid (by rw [mains]; exact valid), lists, withoutMeasurements_cutOpen,
        blind_handOn]
      rfl
    rw [cycleStart_eq, cut]
    rfl

/-- Settles O19: a cycle start is an exchange cut short and a cycle begun; what one card's cutting short leaves of the
others is why each card, core and channel stands as R45 gives it. -/
theorem paceTimerStartsACycle : Obligations.PaceTimerStartsACycle := by
  refine ⟨fun s => ⟨fun stopped => ?_, fun runs => ?_⟩, fun s t ht => ?_,
    fun s t u v running nodup ht hu hv => ?_⟩
  · exact congrArg Host.Outcome.next (if_neg (Bool.eq_false_iff.mp stopped))
  · exact congrArg Host.Outcome.next (if_pos runs)
  · have kept := cutShort_keeps s
    have outside := cycleStart_outside s
    subst ht
    refine ⟨cycleStart_mains s, cycleStart_history s, rfl, rfl, cycleStart_toPoll s, kept.patterns, kept.lines,
      outside.ports, outside.safety, outside.stages, outside.inputs, outside.pending, fun ended => ?_⟩
    rw [cycleStart_ended ended]
    exact ⟨rfl, rfl, rfl, rfl, beginCycle_core s⟩
  · have cut : u = cutAll s := hu
    subst cut ht hv
    have feeders := (cutKeeps_cutAll s).feeders
    have trips := (cutKeeps_cutAll s).trips
    refine ⟨fun c => ⟨fun listed configured => ?_, fun left => ?_, fun left => ?_⟩, feeders, trips,
      fun x hx => cycleStart_open running hx, fun hx => cycleStart_closed running hx⟩
    · obtain ⟨card, silent, valid, -⟩ := cutAll_unpolled nodup (mem_unpolled.mpr ⟨listed, configured⟩)
      refine ⟨(cycleStart_card running c).trans card, silent, fun h => ?_⟩
      obtain ⟨residual, cores⟩ := valid h
      exact ⟨(cycleStart_residual running c).trans residual,
        fun o ho => (cycleStart_core running o).trans (congrArg (aged s.line.mains.c) (cores o ho))⟩
    · have out : c ∉ unpolled s := fun mem => by
        obtain ⟨listed, configured⟩ := mem_unpolled.mp mem
        rcases left with unlisted | removed
        · exact unlisted listed
        · rw [configured] at removed; exact absurd removed (by decide)
      exact (cycleStart_card running c).trans (cutAll_same out).card
    · have same : residualAt c (cutAll s) = residualAt c s ∧
          ∀ o : OutputId, cardOf o = c → coreAt o (cutAll s) = coreAt o s := by
        by_cases mem : c ∈ unpolled s
        · obtain ⟨listed, configured⟩ := mem_unpolled.mp mem
          obtain ⟨-, -, -, lost⟩ := cutAll_unpolled nodup mem
          rcases left with unlisted | removed | h
          · exact absurd listed unlisted
          · rw [configured] at removed; exact absurd removed (by decide)
          · exact lost h
        · exact ⟨(cutAll_same mem).residual, (cutAll_same mem).cores⟩
      obtain ⟨residual, cores⟩ := same
      exact ⟨(cycleStart_residual running c).trans residual,
        fun o ho => (cycleStart_core running o).trans (congrArg (aged s.line.mains.c) (cores o ho))⟩

end Sys2Proof.Machine
end

section
/-! PROOFS. Chapter 2, the frames of an exchange: SWITCH and POLL, a line jammed or silent, and a received window. -/

namespace Sys2Proof.Machine

/-! ### Frames sent (R32, R33, R35) -/

/-- A line with a frame put on it, unless it is JAMMED (R32). -/
def sentOn (chars : List Byte) (r : LineRec) : LineRec := if r.state = .jammed then r else { r with sent := chars }

theorem sendFrame_put (chars : List Byte) (l : LineId) (s : State) :
    (if (s.line.lines.get l).state == .jammed then s else modLine s l fun r => { r with sent := chars }) =
      modLine s l (sentOn chars) := by
  by_cases jammed : (s.line.lines.get l).state = .jammed
  · have same : s.line.lines.set l (sentOn chars (s.line.lines.get l)) = s.line.lines := by
      rw [sentOn, if_pos jammed]
      cases l <;> rfl
    rw [if_pos (beq_iff_eq.mpr jammed), modLine, same]
  · rw [if_neg (by rwa [beq_iff_eq]), modLine, modLine, sentOn, if_neg jammed]

theorem sendFrame_eq (chars : List Byte) (s : State) :
    sendFrame chars s =
      { s with
        line := { s.line with lines := ⟨sentOn chars s.line.lines.a, sentOn chars s.line.lines.b⟩ } } := by
  simp only [sendFrame, sendFrame_put]
  rfl

theorem sentOn_get (chars : List Byte) (lines : PerLine LineRec) (l : LineId) :
    PerLine.get ⟨sentOn chars lines.a, sentOn chars lines.b⟩ l = sentOn chars (lines.get l) := by
  cases l <;> rfl

/-- The SWITCH put on the lines and listed, before the end of a cycle without cards (R33). -/
def switched (s : State) : State :=
  let x : Pattern := { cycle := cycleNext s.line.mains.c, states := carriedStates s }
  { s with
    line :=
      { s.line with
        lines := ⟨sentOn (switchFrame x.cycle x.states) s.line.lines.a, sentOn (switchFrame x.cycle x.states) s.line.lines.b⟩
        patterns := x :: s.line.patterns.take 2
        exchange := { s.line.exchange with switchSent := true } } }

theorem sendSwitch_eq (s : State) : sendSwitch s = endIfDone (switched s) := by
  simp only [sendSwitch, sendFrame_eq]
  rfl

theorem execSwitch_idle {s : State}
    (h : s.line.exchange.running = false ∨ s.line.exchange.switchSent = true ∨ s.line.exchange.slot ≠ none) :
    exec .switch s = .next s := by
  refine congrArg Host.Outcome.next (if_neg fun due => ?_)
  simp only [Bool.and_eq_true, Bool.not_eq_true', Option.isNone_iff_eq_none] at due
  obtain ⟨⟨running, unsent⟩, closed⟩ := due
  rcases h with h | h | h
  · rw [running] at h; exact absurd h (by decide)
  · rw [unsent] at h; exact absurd h (by decide)
  · exact h closed

theorem execSwitch_sends {s : State} (running : s.line.exchange.running = true)
    (unsent : s.line.exchange.switchSent = false) (closed : s.line.exchange.slot = none) :
    exec .switch s = .next (endIfDone (switched s)) := by
  rw [← sendSwitch_eq]
  refine congrArg Host.Outcome.next (if_pos ?_)
  simp only [running, unsent, closed]
  rfl

theorem endIfDone_cases (s : State) : endIfDone s = s ∨ endIfDone s = endExchange s := by
  unfold endIfDone
  dsimp only
  split
  · exact Or.inr rfl
  · exact Or.inl rfl

/-- Whether an exchange ends or goes on, the rest of the card line is left (R35). -/
theorem endIfDone_line (s : State) :
    (endIfDone s).line = { s.line with exchange := (endIfDone s).line.exchange } := by
  obtain same | ended := endIfDone_cases s
  · rw [same]
  · rw [ended, endExchange, (delivery_deliver _).line]
    rfl

theorem endIfDone_exchange {s : State} (running : s.line.exchange.running = true)
    (sent : s.line.exchange.switchSent = true) (polled : s.line.exchange.toPoll = [])
    (closed : s.line.exchange.slot = none) :
    (endIfDone s).line.exchange = { s.line.exchange with running := false, cores := [], residuals := [] } := by
  rw [endIfDone_ends running sent polled closed, (delivery_deliver _).line]
  rfl

theorem execPoll_idle {s : State}
    (h : s.line.exchange.running = false ∨ s.line.exchange.switchSent = false ∨ s.line.exchange.slot ≠ none ∨
      s.line.exchange.toPoll = []) : exec .poll s = .next s := by
  have idle : execPoll s = .next s := by
    unfold execPoll
    dsimp only
    split
    case isFalse => rfl
    case isTrue due =>
      simp only [Bool.and_eq_true, Option.isNone_iff_eq_none] at due
      obtain ⟨⟨running, sent⟩, closed⟩ := due
      rcases h with h | h | h | h
      · rw [running] at h; exact absurd h (by decide)
      · rw [sent] at h; exact absurd h (by decide)
      · exact absurd closed h
      · rw [h]
  exact idle

/-- The copy a line is to bring at the opening of a slot: on a JAMMED line it is missing (R36). -/
def startVerdict (r : LineRec) : Option Verdict := if r.state = .jammed then some .missing else none

/-- A poll slot as it opens (R35). -/
def newSlot (c : CardId) (s : State) : Slot :=
  { card := c, expect := cycleBack s.line.mains.c 1
    verdict := ⟨startVerdict s.line.lines.a, startVerdict s.line.lines.b⟩
    recovered := ⟨false, false⟩, took := false, old := false }

theorem execPoll_opens {s : State} {c : CardId} {rest : List CardId} (running : s.line.exchange.running = true)
    (sent : s.line.exchange.switchSent = true) (closed : s.line.exchange.slot = none)
    (next : s.line.exchange.toPoll = c :: rest) :
    exec .poll s =
      .next
        { s with
          line :=
            { s.line with
              lines := ⟨sentOn (pollFrame c) s.line.lines.a, sentOn (pollFrame c) s.line.lines.b⟩
              exchange := { s.line.exchange with toPoll := rest, slot := some (newSlot c s) } } } := by
  have opens : execPoll s = .next (openSlot c rest s) := by
    simp only [execPoll, running, sent, closed, next]
    rfl
  refine opens.trans (congrArg Host.Outcome.next ?_)
  simp only [openSlot, sendFrame_eq, newSlot, startVerdict, beq_iff_eq]
  rfl

theorem startVerdict_get (lines : PerLine LineRec) (l : LineId) :
    PerLine.get ⟨startVerdict lines.a, startVerdict lines.b⟩ l = startVerdict (lines.get l) := by
  cases l <;> rfl

/-- Settles O20: SWITCH and POLL put their frame on the lines that take one, and move the exchange on. -/
theorem switchAndPollRunTheExchange : Obligations.SwitchAndPollRunTheExchange := by
  refine ⟨fun s => ⟨execSwitch_idle, fun running unsent closed => ?_⟩,
    fun s => ⟨execPoll_idle, fun c rest running sent closed next => ?_⟩⟩
  · have line := endIfDone_line (switched s)
    have ends (none : s.line.exchange.toPoll = []) := endIfDone_exchange (s := switched s) running rfl none closed
    have goesOn (left : s.line.exchange.toPoll ≠ []) : endIfDone (switched s) = switched s :=
      endIfDone_goesOn (.inr (.inr (.inl left)))
    refine ⟨_, { cycle := cycleNext s.line.mains.c, states := carriedStates s }, execSwitch_sends running unsent closed,
      rfl, fun o => vgen_get _ o, ?_, ?_, fun l => ?_, ?_, ?_, fun left => ?_, fun none => ?_⟩
    · rw [line]
      rfl
    · by_cases none : s.line.exchange.toPoll = []
      · rw [ends none]
        rfl
      · rw [goesOn none]
        rfl
    · rw [line]
      exact sentOn_get _ s.line.lines l
    · rw [line]
      rfl
    · rw [line]
      rfl
    · rw [goesOn left]
      rfl
    · rw [ends none]
  · refine ⟨_, newSlot c s, execPoll_opens running sent closed next, rfl, rfl, rfl, rfl, rfl, rfl,
      fun l => ⟨startVerdict_get s.line.lines l, sentOn_get _ s.line.lines l⟩, rfl, rfl, rfl⟩

/-! ### Jams and silence (R32, R36, R44) -/

theorem jam_jammed {l : LineId} {s : State} (h : (s.line.lines.get l).state = .jammed) : jam l s = s :=
  if_pos (beq_iff_eq.mpr h)

/-- A line become JAMMED, before its records (R44). -/
def jammedLine (l : LineId) (s : State) : State :=
  clearFaultedRuns l (modLine s l fun r => { r with state := .jammed, goodRun := 0 })

theorem jam_eq {l : LineId} {s : State} (h : (s.line.lines.get l).state ≠ .jammed) :
    jam l s = { jammedLine l s with faults := (jam l s).faults } := by
  have notJammed : ¬((s.line.lines.get l).state == .jammed) = true := by rwa [beq_iff_eq]
  unfold jam
  simp only [if_neg notJammed]
  split <;> rfl

theorem clearFaultedRuns_cards (l : LineId) (s : State) (k : CardId) :
    (clearFaultedRuns l s).line.cards[k] = { s.line.cards[k] with faulted := s.line.cards[k].faulted.set l 0 } :=
  vgen_get _ k

theorem jamLine_eq {l : LineId} {s : State} (h : (s.line.lines.get l).state ≠ .jammed) :
    jamLine l s = { modSlot (jammedLine l s) (giveVerdict l .missing) with faults := (jam l s).faults } := by
  unfold jamLine
  rw [jam_eq h]
  rfl

/-- Settles O24: both commands are the line's jam with its copy missing. -/
theorem jamAndSilenceOnALine : Obligations.JamAndSilenceOnALine := by
  intro l s
  refine ⟨rfl, fun c hc => ?_⟩
  have run : exec c s = .next (jamLine l s) := by
    rcases hc with rfl | rfl <;> rfl
  rw [run]
  refine ⟨fun h => ?_, fun h => ?_⟩
  · rw [jamLine, jam_jammed h]
  · rw [jamLine_eq h]
    exact ⟨_, rfl, PerLine.get_set _ l _, PerLine.get_set_other _ l _, clearFaultedRuns_cards l _, rfl, rfl, rfl, rfl⟩

end Sys2Proof.Machine
end

section
/-! PROOFS. Chapter 2, a received window: what a good copy is, and what taking the window leaves. -/

namespace Sys2Proof.Machine

/-! ### Good copies (R36) -/

theorem judgeFrame_good (c : CardId) (n : CycleNo) (rx : RxFrame) :
    judgeFrame c n rx = .good ↔
      wellFormedFrame rx = true ∧ crcHolds rx.chars = true ∧ rx.chars.getD 0 0 = 0x3C ∧
        (rx.chars.getD 1 0).toNat = number c ∧ (rx.chars.getD 2 0).toNat = n.val := by
  unfold judgeFrame
  dsimp only
  split
  case isTrue window =>
    simp only [Bool.and_eq_true, beq_iff_eq] at window
    obtain ⟨⟨formed, crc⟩, kind⟩ := window
    split
    case isTrue other =>
      rw [bne_iff_ne] at other
      exact ⟨nofun, fun ⟨_, _, _, address, _⟩ => absurd address other⟩
    case isFalse own =>
      have address : (rx.chars.getD 1 0).toNat = number c := by simpa using own
      split
      case isTrue cycle => exact ⟨fun _ => ⟨formed, crc, kind, address, eq_of_beq cycle⟩, fun _ => rfl⟩
      case isFalse cycle => exact ⟨nofun, fun ⟨_, _, _, _, same⟩ => absurd (beq_iff_eq.mpr same) cycle⟩
  case isFalse none =>
    refine ⟨nofun, fun ⟨formed, crc, kind, _⟩ => absurd ?_ none⟩
    rw [formed, crc, kind]
    rfl

/-! ### What a measurement's proof leaves (R67 to R76) -/

theorem keeps_post (k : FaultKind) (x : Subject) (b : Bool) (d : Option (List Word16)) (s : State) :
    DecisionKeeps s (post k x b d s) := (stays_post k x b d s).toDecisionKeeps

theorem keeps_endFault (k : FaultKind) (x : Subject) (s : State) : DecisionKeeps s (endFault k x s) :=
  (stays_endFault k x s).toDecisionKeeps

theorem keeps_settleLampRecords (m : CoreMeas) (s : State) : DecisionKeeps s (settleLampRecords m s) := by
  unfold settleLampRecords
  dsimp only
  split
  · split
    · exact keeps_endFault _ _ s
    · exact (keeps_endFault _ _ s).trans (keeps_post _ _ _ _ _)
  · exact (keeps_endFault _ _ s).trans (keeps_endFault _ _ _)

theorem keeps_measuredLit (m : CoreMeas) (s : State) : DecisionKeeps s (measuredLit m s) := by
  unfold measuredLit
  dsimp only
  split
  · exact (keeps_setProving _ _ s).trans (keeps_settleLampRecords m _)
  · exact keeps_setProving _ _ s

theorem keeps_measuredDark (m : CoreMeas) (s : State) : DecisionKeeps s (measuredDark m s) := by
  unfold measuredDark
  dsimp only
  split
  · exact keeps_setProving _ _ s
  · split
    · exact (keeps_setProving _ _ s).trans (keeps_post _ _ _ _ _)
    · exact keeps_setProving _ _ s

theorem keeps_measuredOff (m : CoreMeas) (s : State) : DecisionKeeps s (measuredOff m s) := by
  unfold measuredOff
  dsimp only
  split
  · exact (keeps_endFault _ _ s).trans (keeps_setProving _ _ _)
  · exact keeps_setProving _ _ s

theorem keeps_openInvestigation (o : OutputId) (s : State) : DecisionKeeps s (openInvestigation o s) := by
  unfold openInvestigation
  split
  · exact .refl s
  · split
    · exact (stays_setInvestigation _ _ s).toDecisionKeeps
    · exact (stays_redetail _ _ _ s).toDecisionKeeps

theorem keeps_measuredUnwanted (m : CoreMeas) (s : State) : DecisionKeeps s (measuredUnwanted m s) := by
  unfold measuredUnwanted
  dsimp only
  split
  · exact keeps_modProof _ _ s
  · have entered := (keeps_modProof m.output
        (fun r => { r with state := .litUnwanted, failing := 0, entryIp := m.ip }) s).trans
      ((keeps_post .unwantedCurrent (.output m.output) false (some [wordInt m.ip]) _).trans
        (keeps_openInvestigation m.output _))
    refine DecisionKeeps.trans ?_ (proofsStay_stateChanged _ _ _).toDecisionKeeps
    split
    · exact entered.trans (stays_postUnproven _ _).toDecisionKeeps
    · exact entered

/-- The transition of a measured output (R69 to R72). -/
def transition (m : CoreMeas) (s : State) : State :=
  if m.applied then if m.fail then measuredDark m s else measuredLit m s
  else if m.unwanted then measuredUnwanted m s
  else measuredOff m s

theorem prove_eq (m : CoreMeas) (s : State) :
    prove m s =
      if unmeasured s m.output then s
      else if (outRec (transition m s) m.output).used && (outRec (transition m s) m.output).colour == .red &&
          redJudged (transition m s) (outRec (transition m s) m.output).group then
        evalRed (outRec (transition m s) m.output).group (transition m s)
      else transition m s := rfl

theorem keeps_transition (m : CoreMeas) (s : State) : DecisionKeeps s (transition m s) := by
  unfold transition
  split
  · split
    · exact keeps_measuredDark m s
    · exact keeps_measuredLit m s
  · split
    · exact keeps_measuredUnwanted m s
    · exact keeps_measuredOff m s

/-- What a core measurement proves leaves what a decision leaves (R69 to R72, R76). -/
theorem keeps_prove (m : CoreMeas) (s : State) : DecisionKeeps s (prove m s) := by
  rw [prove_eq]
  split
  · exact .refl s
  · split
    · exact (keeps_transition m s).trans (proofsStay_setRed _ _ _).toDecisionKeeps
    · exact keeps_transition m s

theorem keeps_checkEcho (o : OutputId) (b : Bool) (c : Option Bool) (s : State) : DecisionKeeps s (checkEcho o b c s) := by
  unfold checkEcho
  split
  · exact .refl s
  · dsimp only
    split
    · split
      · exact keeps_modProof o _ s
      · exact (keeps_modProof o _ s).trans (keeps_post _ _ _ _ _)
    · split
      · exact (keeps_modProof o _ s).trans (keeps_endFault _ _ _)
      · exact keeps_modProof o _ s

theorem keeps_storeApplied (o : OutputId) (b : Bool) (s : State) : DecisionKeeps s (storeApplied o b s) := by
  unfold storeApplied
  split
  · split
    · exact keeps_modProof o _ s
    · split
      · exact keeps_setProving o _ s
      · exact keeps_modProof o _ s
    · exact keeps_setProving o _ s
  · exact keeps_modProof o _ s

/-! ### What taking a window leaves (R50 to R58) -/

/-- What taking a window leaves: the card line but for the measurements it completes, besides what no event of the card
line changes. -/
structure WindowKeeps (s t : State) : Prop extends OutsideKept s t where
  line : t.line =
    { s.line with
      exchange :=
        { s.line.exchange with cores := t.line.exchange.cores, residuals := t.line.exchange.residuals } }

theorem WindowKeeps.refl (s : State) : WindowKeeps s s := ⟨.refl s, rfl⟩

theorem WindowKeeps.trans {s t u : State} (a : WindowKeeps s t) (b : WindowKeeps t u) : WindowKeeps s u :=
  ⟨a.toOutsideKept.trans b.toOutsideKept, by rw [b.line, a.line]⟩

theorem DecisionKeeps.window {s t : State} (h : DecisionKeeps s t) : WindowKeeps s t :=
  ⟨h.outside, by rw [h.line]⟩

theorem window_modCore (o : OutputId) (f : CoreRec → CoreRec) (s : State) : WindowKeeps s (modCore s o f) :=
  ⟨by constructor <;> rfl, rfl⟩

theorem window_modRes (c : CardId) (f : ResRec → ResRec) (s : State) : WindowKeeps s (modRes s c f) :=
  ⟨by constructor <;> rfl, rfl⟩

theorem window_addCore (m : CoreMeas) (s : State) :
    WindowKeeps s (modExchange s fun e => { e with cores := e.cores ++ [m] }) :=
  ⟨by constructor <;> rfl, rfl⟩

theorem window_addResidual (m : ResMeas) (s : State) :
    WindowKeeps s (modExchange s fun e => { e with residuals := e.residuals ++ [m] }) :=
  ⟨by constructor <;> rfl, rfl⟩

theorem keeps_settleOverrange (x : Subject) (b : Bool) (n : Int) (s : State) :
    DecisionKeeps s (settleOverrange x b n s) := by
  unfold settleOverrange
  split
  · exact keeps_post _ _ _ _ s
  · exact keeps_endFault _ _ s

theorem keeps_settleReversed (m : CoreMeas) (s : State) : DecisionKeeps s (settleReversed m s) := by
  unfold settleReversed
  split
  · exact keeps_post _ _ _ _ s
  · split
    · exact keeps_endFault _ _ s
    · exact .refl s

theorem window_completeCore (o : OutputId) (b : Bool) (n : CycleNo) (s : State) :
    WindowKeeps s (completeCore o b n s) := by
  unfold completeCore
  dsimp only
  refine WindowKeeps.trans ?_ (window_addCore _ _)
  have proved := fun (m : CoreMeas) (x : Subject) (b : Bool) (ip : Int) (u : State) =>
    ((keeps_settleOverrange x b ip u).trans
      ((keeps_settleReversed m _).trans (keeps_prove m _))).window
  split
  · exact (window_modCore o _ s).trans ((proved _ _ _ _ _).trans (window_modCore _ _ _))
  · exact (window_modCore o _ s).trans (proved _ _ _ _ _)

theorem window_deliveredCore (o : OutputId) (b : Bool) (c : Option Bool) (n : CycleNo) (xs : List Int) (s : State) :
    WindowKeeps s (deliveredCore o b c n xs s) := by
  have summed : WindowKeeps s
      (modCore (setHistory o n (some b) (storeApplied o b (checkEcho o b c s))) o
        fun r => { r with acc := takeSamples r.acc b n xs }) :=
    ((keeps_checkEcho o b c s).trans (keeps_storeApplied o b _)).window.trans
      ((window_modCore o _ _).trans (window_modCore o _ _))
  unfold deliveredCore
  dsimp only
  refine WindowKeeps.trans ?_ (keeps_countSense o _ _).window
  split
  · exact summed.trans (window_completeCore o b n _)
  · exact summed

theorem window_missingCore (o : OutputId) (n : CycleNo) (s : State) : WindowKeeps s (missingCore o n s) :=
  (window_modCore o _ s).trans ((window_modCore o _ _).trans (keeps_countSense o false _).window)

theorem window_residualWindow (c : CardId) (xs : List Bool) (n : CycleNo) (ys : List Int) (s : State) :
    WindowKeeps s (residualWindow c xs n ys s) := by
  unfold residualWindow
  dsimp only
  split
  · exact (window_modRes c _ s).trans ((window_modRes c _ _).trans
      ((keeps_settleOverrange _ _ _ _).window.trans (window_addResidual _ _)))
  · exact window_modRes c _ s

/-- A window taken by the engine leaves the slot, the cards and the lines (R50). -/
theorem window_takeWindow (c : CardId) (w : Window) (s : State) : WindowKeeps s (takeWindow c w s) := by
  unfold takeWindow
  dsimp only
  refine WindowKeeps.trans (eachOf_rel WindowKeeps.refl WindowKeeps.trans (fun o _ t => ?_) s)
    (window_residualWindow _ _ _ _ _)
  split
  · exact window_deliveredCore o _ _ _ _ t
  · exact window_missingCore o _ t

/-! ### Frames received (R36, R37) -/

theorem execWindow_discards {l : LineId} {rx : RxFrame} {s : State} (h : s.line.exchange.slot = none) :
    exec (.window l rx) s = .next s := by
  have discards : execWindow l rx s = .next s := by
    unfold execWindow
    rw [h]
  exact discards

theorem execWindow_receives {l : LineId} {rx : RxFrame} {s : State} {x : Slot} (h : s.line.exchange.slot = some x) :
    exec (.window l rx) s = .next (receiveFrame l rx x s) := by
  have receives : execWindow l rx s = .next (receiveFrame l rx x s) := by
    unfold execWindow
    rw [h]
  exact receives

/-- The open slot replaced, or taken away. -/
def setSlot (y : Option Slot) (s : State) : State := modExchange s fun e => { e with slot := y }

theorem modSlot_eq (s : State) (f : Slot → Slot) : modSlot s f = setSlot (s.line.exchange.slot.map f) s := rfl

/-- The first verdict of a line's copy is written in the slot (R36). -/
theorem modSlot_giveVerdict {l : LineId} {v : Verdict} {s : State} {x : Slot} (h : s.line.exchange.slot = some x)
    (first : x.verdict.get l = none) :
    modSlot s (giveVerdict l v) = setSlot (some { x with verdict := x.verdict.set l (some v) }) s := by
  rw [modSlot_eq, h, Option.map_some, giveVerdict, first]

theorem receiveFrame_verdict {l : LineId} {rx : RxFrame} {s : State} {x : Slot} (h : s.line.exchange.slot = some x)
    (up : (s.line.lines.get l).state ≠ .jammed) (first : x.verdict.get l = none) :
    receiveFrame l rx x s =
      if judgeFrame x.card x.expect rx = .good ∧ x.took = false then
        acceptWindow x (windowOf rx.chars x.expect)
          (setSlot (some { x with verdict := x.verdict.set l (some .good) }) s)
      else setSlot (some { x with verdict := x.verdict.set l (some (judgeFrame x.card x.expect rx)) }) s := by
  have notJammed : ((s.line.lines.get l).state == .jammed) = false := by simpa using up
  unfold receiveFrame
  simp only [notJammed, first, modSlot_giveVerdict h first, Bool.and_eq_true, beq_iff_eq, Bool.not_eq_true',
    Bool.false_eq_true, if_false]
  split
  case isTrue good => rw [good.1]
  case isFalse => rfl

/-- A taken window handed to the engine in VALID (R37). -/
def handWindow (c : CardId) (w : Window) (s : State) : State :=
  if s.line.mains.state == .valid then takeWindow c w s else s

theorem acceptWindow_setSlot (x y : Slot) (w : Window) (s : State) :
    acceptWindow x w (setSlot (some y) s) =
      modCard (handWindow x.card w (setSlot (some { y with took := true }) s)) x.card
        fun r => { r with lastCycle := some x.expect } := rfl

theorem window_handWindow (c : CardId) (w : Window) (s : State) : WindowKeeps s (handWindow c w s) := by
  unfold handWindow
  split
  · exact window_takeWindow c w s
  · exact .refl s

theorem handWindow_lost {c : CardId} {w : Window} {s : State} (h : s.line.mains.state = .lost) :
    handWindow c w s = s := if_neg (by rw [h]; decide)

/-- Settles O22: a frame in the open slot gives its line's verdict, and the first good one is taken. -/
theorem windowIsTakenFromTheFirstGoodCopy : Obligations.WindowIsTakenFromTheFirstGoodCopy := by
  refine ⟨judgeFrame_good, fun l rx s => ⟨execWindow_discards, fun x hx up first => ⟨fun h => ?_, fun good took => ?_⟩⟩⟩
  · rw [execWindow_receives hx, receiveFrame_verdict hx up first]
    refine congrArg Host.Outcome.next (if_neg fun taken => ?_)
    rcases h with bad | took
    · exact bad taken.1
    · rw [took] at taken
      exact absurd taken.2 (by decide)
  · rw [execWindow_receives hx, receiveFrame_verdict hx up first, if_pos ⟨good, took⟩, acceptWindow_setSlot]
    have kept := window_handWindow x.card (windowOf rx.chars x.expect)
      (setSlot (some { x with verdict := x.verdict.set l (some .good), took := true }) s)
    refine ⟨_, rfl, ?_, congrArg CardRec.lastCycle (vmod_same _ x.card _), kept.ports, kept.safety, kept.stages,
      kept.inputs, kept.pending, ?_, ?_, fun lost => ?_⟩
    · rw [modCard_line, kept.line]
      rfl
    · rw [modCard_line, kept.line]
      rfl
    · rw [modCard_line, kept.line]
      rfl
    · rw [handWindow_lost (by exact lost)]
      rfl

end Sys2Proof.Machine
end

section
/-! PROOFS. Chapter 2, the close of a poll slot: its card's replies and mismatch flag, each line's counts and state, and the
end of the exchange. -/

namespace Sys2Proof.Machine

/-! ### Verdicts and classes (R36, R42) -/

theorem finalVerdict_jammed {s : State} {x : Slot} {l : LineId} (h : (s.line.lines.get l).state = .jammed) :
    finalVerdict s x l = .missing := if_pos (beq_iff_eq.mpr h)

theorem finalVerdict_up {s : State} {x : Slot} {l : LineId} (h : (s.line.lines.get l).state ≠ .jammed) :
    finalVerdict s x l = (x.verdict.get l).getD .bad := by
  have notJammed : ((s.line.lines.get l).state == .jammed) = false := by simpa using h
  unfold finalVerdict
  rw [notJammed]
  cases x.verdict.get l <;> rfl

theorem classedGood_iff {s : State} {x : Slot} {l : LineId} :
    classedGood s x l = true ↔
      finalVerdict s x l = .good ∨ (s.line.lines.get l).state = .jammed ∧ x.recovered.get l = true := by
  simp only [classedGood, Bool.or_eq_true, Bool.and_eq_true, beq_iff_eq]

theorem classCopy_good {s : State} {x : Slot} {l : LineId} : classCopy s x l = .good ↔ classedGood s x l = true := by
  unfold classCopy
  split
  case isTrue good => exact ⟨fun _ => good, fun _ => rfl⟩
  case isFalse other =>
    refine ⟨fun h => ?_, fun good => absurd good other⟩
    split at h <;> cases h

theorem classCopy_faulted {s : State} {x : Slot} {l : LineId} :
    classCopy s x l = .faulted ↔ classCopy s x l ≠ .good ∧ classCopy s x (otherLine l) = .good := by
  rw [ne_eq, classCopy_good, classCopy_good]
  unfold classCopy
  split
  case isTrue good => exact ⟨nofun, fun h => absurd good h.1⟩
  case isFalse other =>
    split
    case isTrue faulted => exact ⟨fun _ => ⟨other, faulted⟩, fun _ => rfl⟩
    case isFalse none => exact ⟨nofun, fun h => absurd h.2 none⟩

/-! ### The polled card (R39, R40) -/

theorem ofCard_senseRegainCard (c : CardId) (s : State) : OfCard c s (senseRegainCard c s) :=
  ofCard_eachOutput (fun o t h => by
    split
    · exact ofCard_setProving h _ t
    · exact .refl c t) s

theorem modCard_cards (c : CardId) (f : CardRec → CardRec) (s : State) :
    (modCard s c f).line.cards = vmod s.line.cards c f := rfl

/-- A card's record after a good reply (R39). -/
def answered (r : CardRec) : CardRec :=
  { r with
    missing := 0
    goodRun := if r.online || decide (2 ≤ r.goodRun) then 0 else r.goodRun + 1
    online := r.online || decide (2 ≤ r.goodRun) }

theorem goodReply_online {c : CardId} {s : State} (h : s.line.cards[c].online = true) :
    goodReply c s = modCard s c fun r => { r with missing := 0, goodRun := 0 } := if_pos h

theorem goodReply_early {c : CardId} {s : State} (h : s.line.cards[c].online = false)
    (few : s.line.cards[c].goodRun < 2) :
    goodReply c s = modCard s c fun r => { r with missing := 0, goodRun := r.goodRun + 1 } :=
  (if_neg (Bool.eq_false_iff.mp h)).trans (if_pos (Nat.succ_lt_succ few))

theorem goodReply_third {c : CardId} {s : State} (h : s.line.cards[c].online = false)
    (two : 2 ≤ s.line.cards[c].goodRun) :
    goodReply c s =
      senseRegainCard c
        (endFault .cardSilent (.card c) (modCard s c fun r => { r with missing := 0, goodRun := 0, online := true })) :=
  (if_neg (Bool.eq_false_iff.mp h)).trans (if_neg (by omega))

theorem answered_online {r : CardRec} (h : r.online = true) : answered r = { r with missing := 0, goodRun := 0 } := by
  simp [answered, h]

theorem answered_early {r : CardRec} (h : r.online = false) (few : r.goodRun < 2) :
    answered r = { r with missing := 0, goodRun := r.goodRun + 1 } := by
  have notTwo : ¬2 ≤ r.goodRun := Nat.not_le.mpr few
  simp [answered, h, notTwo]

theorem answered_third {r : CardRec} (two : 2 ≤ r.goodRun) :
    answered r = { r with missing := 0, goodRun := 0, online := true } := by
  simp [answered, two]

theorem ofCard_goodReply (c : CardId) (s : State) : OfCard c s (goodReply c s) := by
  cases online : s.line.cards[c].online with
  | true => rw [goodReply_online online]; exact ofCard_modCard c _ s
  | false =>
    by_cases few : s.line.cards[c].goodRun < 2
    · rw [goodReply_early online few]; exact ofCard_modCard c _ s
    · rw [goodReply_third online (Nat.not_lt.mp few)]
      exact (ofCard_modCard c _ s).trans (((stays_endFault _ _ _).ofCard c).trans (ofCard_senseRegainCard c _))

theorem goodReply_cards (c : CardId) (s : State) : (goodReply c s).line.cards = vmod s.line.cards c answered := by
  cases online : s.line.cards[c].online with
  | true => rw [goodReply_online online, modCard_cards]; exact vmod_congr (answered_online online).symm
  | false =>
    by_cases few : s.line.cards[c].goodRun < 2
    · rw [goodReply_early online few, modCard_cards]; exact vmod_congr (answered_early online few).symm
    · rw [goodReply_third online (Nat.not_lt.mp few), (keeps_senseRegainCard c _).line, endFault_line, modCard_cards]
      exact vmod_congr (answered_third (Nat.not_lt.mp few)).symm

theorem mismatchNamed_first (z : Byte) (b : Verdict) : mismatchNamed (.mismatch z) b = some z := by
  cases b <;> rfl

theorem mismatchNamed_second {a : Verdict} (h : ∀ y : Byte, a ≠ .mismatch y) (z : Byte) :
    mismatchNamed a (.mismatch z) = some z := by
  cases a with
  | mismatch y => exact absurd rfl (h y)
  | good => rfl
  | bad => rfl
  | missing => rfl

theorem mismatchNamed_none {a b : Verdict} (h : ∀ z : Byte, a ≠ .mismatch z ∧ b ≠ .mismatch z) :
    mismatchNamed a b = none := by
  cases a with
  | mismatch y => exact absurd rfl (h y).1
  | good => cases b with
    | mismatch y => exact absurd rfl (h y).2
    | good => rfl
    | bad => rfl
    | missing => rfl
  | bad => cases b with
    | mismatch y => exact absurd rfl (h y).2
    | good => rfl
    | bad => rfl
    | missing => rfl
  | missing => cases b with
    | mismatch y => exact absurd rfl (h y).2
    | good => rfl
    | bad => rfl
    | missing => rfl

/-- A card's mismatch flag at the close of its slot, by the address a copy named (R40). -/
def flagged (named : Option Byte) (took : Bool) (r : CardRec) : CardRec :=
  { r with mismatch := named.isSome || (r.mismatch && !took) }

theorem settleMismatch_named {c : CardId} {a b : Verdict} {took : Bool} {s : State} {z : Byte}
    (h : mismatchNamed a b = some z) :
    settleMismatch c a b took s =
      if s.line.cards[c].mismatch then modCard s c fun r => { r with mismatch := true }
      else
        post .addressMismatch (.card c) false (some [word z.toNat]) (modCard s c fun r => { r with mismatch := true }) := by
  unfold settleMismatch
  simp only [h]

theorem settleMismatch_none {c : CardId} {a b : Verdict} {took : Bool} {s : State} (h : mismatchNamed a b = none) :
    settleMismatch c a b took s =
      if took then endFault .addressMismatch (.card c) (modCard s c fun r => { r with mismatch := false }) else s := by
  unfold settleMismatch
  simp only [h]

theorem ofCard_settleMismatch (c : CardId) (a b : Verdict) (took : Bool) (s : State) :
    OfCard c s (settleMismatch c a b took s) := by
  cases named : mismatchNamed a b with
  | some z =>
    rw [settleMismatch_named named]
    split
    · exact ofCard_modCard c _ s
    · exact (ofCard_modCard c _ s).trans ((stays_post _ _ _ _ _).ofCard c)
  | none =>
    rw [settleMismatch_none named]
    split
    · exact (ofCard_modCard c _ s).trans ((stays_endFault _ _ _).ofCard c)
    · exact .refl c s

theorem vmod_id {α : Type} {n : Nat} {v : Vector α n} {i : Fin n} {f : α → α} (h : f v[i] = v[i]) : vmod v i f = v := by
  refine vext fun j => ?_
  rw [vmod_get]
  split
  case isTrue e => rw [← e]; exact h
  case isFalse => rfl

theorem settleMismatch_cards (c : CardId) (a b : Verdict) (took : Bool) (s : State) :
    (settleMismatch c a b took s).line.cards = vmod s.line.cards c (flagged (mismatchNamed a b) took) := by
  cases named : mismatchNamed a b with
  | some z =>
    rw [settleMismatch_named named]
    split
    · rw [modCard_cards]; exact vmod_congr rfl
    · rw [post_line, modCard_cards]; exact vmod_congr rfl
  | none =>
    rw [settleMismatch_none named]
    cases took with
    | true =>
      rw [if_pos rfl, endFault_line, modCard_cards]
      exact vmod_congr (by simp only [flagged, Option.isSome_none, Bool.not_true, Bool.and_false, Bool.or_false])
    | false => exact (vmod_id (by simp [flagged])).symm

/-- The polled card's part of a slot's close: its reply, then its mismatch flag (R39, R40). -/
def settleCard (x : Slot) (a b : Verdict) (s : State) : State :=
  let u := modCard s x.card fun r => { r with lastSlotTook := x.took }
  settleMismatch x.card a b x.took (if x.took then goodReply x.card u else noReply x.card u)

/-- What the close of its slot makes of the polled card's record (R39, R40, R48). -/
def closedCard (x : Slot) (a b : Verdict) (r : CardRec) : CardRec :=
  let r := { r with lastSlotTook := x.took }
  flagged (mismatchNamed a b) x.took (if x.took then answered r else unanswered r)

theorem ofCard_settleCard (x : Slot) (a b : Verdict) (s : State) : OfCard x.card s (settleCard x a b s) := by
  unfold settleCard
  dsimp only
  refine OfCard.trans ?_ (ofCard_settleMismatch _ _ _ _ _)
  split
  · exact (ofCard_modCard _ _ s).trans (ofCard_goodReply _ _)
  · exact (ofCard_modCard _ _ s).trans (ofCard_noReply _ _)

theorem settleCard_cards (x : Slot) (a b : Verdict) (s : State) :
    (settleCard x a b s).line.cards = vmod s.line.cards x.card (closedCard x a b) := by
  unfold settleCard closedCard
  dsimp only
  rw [settleMismatch_cards]
  cases x.took with
  | true =>
    rw [if_pos rfl, goodReply_cards, modCard_cards]
    simp only [vmod_vmod, if_true]
  | false =>
    rw [if_neg Bool.false_ne_true, noReply_cards, modCard_cards]
    simp only [vmod_vmod, Bool.false_eq_true, if_false]

end Sys2Proof.Machine
end

section
/-! PROOFS. Chapter 2, the lines at the close of a poll slot, and the close itself. -/

namespace Sys2Proof.Machine

/-! ### What an event of one line leaves -/

theorem PerLine.set_set {α : Type} (p : PerLine α) (l : LineId) (a b : α) : (p.set l a).set l b = p.set l b := by
  cases l <;> rfl

theorem PerLine.set_get_self {α : Type} (p : PerLine α) (l : LineId) : p.set l (p.get l) = p := by
  cases l <;> rfl

/-- A card's record with its faulted run on one line replaced. -/
def withRun (l : LineId) (n : Nat) (r : CardRec) : CardRec := { r with faulted := r.faulted.set l n }

/-- What an event of one line leaves: besides what none changes, the other line, the mains, the patterns, the exchange, and
of every card's record all but its faulted run there. -/
structure OfLine (l : LineId) (s t : State) : Prop extends OutsideKept s t where
  mains : t.line.mains = s.line.mains
  patterns : t.line.patterns = s.line.patterns
  exchange : t.line.exchange = s.line.exchange
  other : t.line.lines.get (otherLine l) = s.line.lines.get (otherLine l)
  cards : ∀ k : CardId, t.line.cards[k] = withRun l (t.line.cards[k].faulted.get l) s.line.cards[k]

theorem OfLine.of_line {l : LineId} {s t : State} (h : OutsideKept s t) (e : t.line = s.line) : OfLine l s t := by
  refine ⟨h, ?_, ?_, ?_, ?_, fun k => ?_⟩ <;> rw [e]
  rw [withRun, PerLine.set_get_self]

theorem OfLine.refl (l : LineId) (s : State) : OfLine l s s := .of_line (.refl s) rfl

theorem OfLine.trans {l : LineId} {s t u : State} (a : OfLine l s t) (b : OfLine l t u) : OfLine l s u where
  toOutsideKept := a.toOutsideKept.trans b.toOutsideKept
  mains := b.mains.trans a.mains
  patterns := b.patterns.trans a.patterns
  exchange := b.exchange.trans a.exchange
  other := b.other.trans a.other
  cards k := by
    have twice (m n : Nat) (r : CardRec) : withRun l n (withRun l m r) = withRun l n r := by
      simp only [withRun, PerLine.set_set]
    refine (b.cards k).trans ?_
    rw [a.cards k, twice]

theorem Stays.ofLine {l : LineId} {s t : State} (h : Stays s t) : OfLine l s t := .of_line h.outside h.line

theorem ofLine_modLine (l : LineId) (f : LineRec → LineRec) (s : State) : OfLine l s (modLine s l f) := by
  refine ⟨by constructor <;> rfl, rfl, rfl, rfl, PerLine.get_set_other _ l _, fun k => ?_⟩
  rw [withRun, modLine_line, PerLine.set_get_self]

theorem ofLine_runs {l : LineId} {s : State} (cards : Vector CardRec 8)
    (h : ∀ k : CardId, cards[k] = withRun l (cards[k].faulted.get l) s.line.cards[k]) :
    OfLine l s { s with line := { s.line with cards := cards } } :=
  ⟨by constructor <;> rfl, rfl, rfl, rfl, rfl, h⟩

theorem ofLine_clearFaultedRuns (l : LineId) (s : State) : OfLine l s (clearFaultedRuns l s) := by
  refine ofLine_runs _ fun k => ?_
  simp only [vgen_get, PerLine.get_set, withRun]

theorem ofLine_modRun (l : LineId) (c : CardId) (f : Nat → Nat) (s : State) :
    OfLine l s (modCard s c fun r => withRun l (f (r.faulted.get l)) r) := by
  refine ofLine_runs _ fun k => ?_
  rw [vmod_get]
  split
  · simp only [withRun, PerLine.get_set]
  · rw [withRun, PerLine.set_get_self]

/-! ### Counts and states (R42 to R44) -/

/-- A line's record after a copy of a class (R42). -/
def countedLine (k : CopyClass) (r : LineRec) : LineRec :=
  match k with
  | .good => { r with goodRun := min 64 (r.goodRun + 1) }
  | .faulted => { r with errors := min 65535 (r.errors + 1), goodRun := 0 }
  | .unclassed => r

/-- The polled card's faulted run after a copy of a class (R42). -/
def countedRun (k : CopyClass) (n : Nat) : Nat :=
  match k with
  | .good => 0
  | .faulted => min 16 (n + 1)
  | .unclassed => n

theorem countCopy_eq (l : LineId) (c : CardId) (k : CopyClass) (s : State) :
    countCopy l c k s =
      modCard (modLine s l (countedLine k)) c fun r => withRun l (countedRun k (r.faulted.get l)) r := by
  cases k with
  | good => rfl
  | faulted => rfl
  | unclassed =>
    have lines : s.line.lines.set l (s.line.lines.get l) = s.line.lines := PerLine.set_get_self _ _
    have cards : vmod s.line.cards c (fun r => withRun l (r.faulted.get l) r) = s.line.cards :=
      vmod_id (by rw [withRun, PerLine.set_get_self])
    simp only [modCard, modLine, countedLine, countedRun, lines, cards, countCopy]

theorem ofLine_countCopy (l : LineId) (c : CardId) (k : CopyClass) (s : State) : OfLine l s (countCopy l c k s) := by
  rw [countCopy_eq]
  exact (ofLine_modLine l _ s).trans (ofLine_modRun l c _ _)

theorem countCopy_line (l : LineId) (c : CardId) (k : CopyClass) (s : State) :
    (countCopy l c k s).line.lines.get l = countedLine k (s.line.lines.get l) := by
  rw [countCopy_eq]
  exact PerLine.get_set _ l _

/-- A card's faulted run on a line. -/
def runOf (l : LineId) (j : CardId) (s : State) : Nat := s.line.cards[j].faulted.get l

theorem countCopy_run (l : LineId) (c j : CardId) (k : CopyClass) (s : State) :
    runOf l j (countCopy l c k s) = if j = c then countedRun k (runOf l j s) else runOf l j s := by
  rw [countCopy_eq]
  unfold runOf
  rw [modCard_cards, vmod_get, modLine_line]
  by_cases e : c = j
  · rw [if_pos e, if_pos e.symm]
    exact PerLine.get_set _ l _
  · rw [if_neg e, if_neg fun h => e h.symm]

theorem allCards_any {p : CardId → Bool} : allCards.any p = true ↔ ∃ k, p k = true := by
  simp [allCards, List.any_eq_true]

theorem settleLine_good {l : LineId} {b : Bool} {s : State} (h : (s.line.lines.get l).state = .good) :
    settleLine l b s =
      if ∃ k : CardId, s.line.cards[k].faulted.get l = 16 then
        post .lineDegraded (.line l) false none (modLine s l fun r => { r with state := .degraded, goodRun := 0 })
      else s := by
  have due : (allCards.any fun c => s.line.cards[c].faulted.get l == 16) = true ↔
      ∃ k : CardId, s.line.cards[k].faulted.get l = 16 := by
    simp only [allCards_any, beq_iff_eq]
  unfold settleLine
  simp only [h, due]

theorem settleLine_degraded {l : LineId} {b : Bool} {s : State} (h : (s.line.lines.get l).state = .degraded) :
    settleLine l b s =
      if (s.line.lines.get l).goodRun = 64 then
        endFault .lineDegraded (.line l) (clearFaultedRuns l (modLine s l fun r => { r with state := .good }))
      else s := by
  unfold settleLine
  simp only [h, beq_iff_eq]

theorem settleLine_jammed {l : LineId} {b : Bool} {s : State} (h : (s.line.lines.get l).state = .jammed) :
    settleLine l b s =
      if b then endFault .lineJammed (.line l) (clearFaultedRuns l (modLine s l fun r => { r with state := .good }))
      else s := by
  unfold settleLine
  simp only [h]

/-- A line returned to GOOD with its runs cleared, its record ended (R43, R44). -/
def returned (l : LineId) (k : FaultKind) (s : State) : State :=
  endFault k (.line l) (clearFaultedRuns l (modLine s l fun r => { r with state := .good }))

/-- A line become DEGRADED, its record posted (R43). -/
def degradedLine (l : LineId) (s : State) : State :=
  post .lineDegraded (.line l) false none (modLine s l fun r => { r with state := .degraded, goodRun := 0 })

/-- When the counts of a GOOD line degrade it, by the faulted runs there (R43). -/
def Degrades (l : LineId) (s : State) : Prop := (s.line.lines.get l).state = .good ∧ ∃ k : CardId, runOf l k s = 16

/-- When a line returns to GOOD (R43, R44). -/
def Returns (l : LineId) (b : Bool) (s : State) : Prop :=
  (s.line.lines.get l).state = .degraded ∧ (s.line.lines.get l).goodRun = 64 ∨
    (s.line.lines.get l).state = .jammed ∧ b = true

theorem settleLine_degrades {l : LineId} {b : Bool} {s : State} (h : Degrades l s) :
    settleLine l b s = degradedLine l s := by
  obtain ⟨good, due⟩ := h
  exact (settleLine_good good).trans (if_pos due)

theorem settleLine_returns {l : LineId} {b : Bool} {s : State} (h : Returns l b s) :
    ∃ k, settleLine l b s = returned l k s := by
  rcases h with ⟨degraded, full⟩ | ⟨jammed, back⟩
  · exact ⟨_, (settleLine_degraded degraded).trans (if_pos full)⟩
  · exact ⟨_, (settleLine_jammed jammed).trans (if_pos back)⟩

theorem settleLine_stays {l : LineId} {b : Bool} {s : State} (hd : ¬Degrades l s) (hr : ¬Returns l b s) :
    settleLine l b s = s := by
  cases h : (s.line.lines.get l).state with
  | good => exact (settleLine_good h).trans (if_neg fun due => hd ⟨h, due⟩)
  | degraded => exact (settleLine_degraded h).trans (if_neg fun full => hr (.inl ⟨h, full⟩))
  | jammed => exact (settleLine_jammed h).trans (if_neg fun back => hr (.inr ⟨h, back⟩))

theorem ofLine_settleLine (l : LineId) (b : Bool) (s : State) : OfLine l s (settleLine l b s) := by
  by_cases hd : Degrades l s
  · rw [settleLine_degrades hd]
    exact (ofLine_modLine l _ s).trans (stays_post _ _ _ _ _).ofLine
  · by_cases hr : Returns l b s
    · obtain ⟨k, h⟩ := settleLine_returns hr
      rw [h]
      exact (ofLine_modLine l _ s).trans ((ofLine_clearFaultedRuns l _).trans (stays_endFault _ _ _).ofLine)
    · rw [settleLine_stays hd hr]
      exact .refl l s

/-- A line's part of a slot's close: its counts, then its state (R42 to R44). -/
def closeLine (l : LineId) (b : Bool) (c : CardId) (k : CopyClass) (s : State) : State :=
  settleLine l b (countCopy l c k s)

theorem ofLine_closeLine (l : LineId) (b : Bool) (c : CardId) (k : CopyClass) (s : State) :
    OfLine l s (closeLine l b c k s) := (ofLine_countCopy l c k s).trans (ofLine_settleLine l b _)

theorem degradedLine_get (l : LineId) (s : State) :
    (degradedLine l s).line.lines.get l = { s.line.lines.get l with state := .degraded, goodRun := 0 } :=
  PerLine.get_set _ l _

theorem returned_get (l : LineId) (k : FaultKind) (s : State) :
    (returned l k s).line.lines.get l = { s.line.lines.get l with state := .good } := PerLine.get_set _ l _

theorem returned_run (l : LineId) (k : FaultKind) (j : CardId) (s : State) : runOf l j (returned l k s) = 0 := by
  have cleared : (returned l k s).line.cards[j] = withRun l 0 s.line.cards[j] := vgen_get _ j
  unfold runOf
  rw [cleared]
  exact PerLine.get_set _ l 0

theorem countedLine_state (k : CopyClass) (r : LineRec) : (countedLine k r).state = r.state := by
  cases k <;> rfl

theorem countedLine_sent (k : CopyClass) (r : LineRec) : (countedLine k r).sent = r.sent := by
  cases k <;> rfl

theorem countedLine_errors (k : CopyClass) (r : LineRec) :
    (countedLine k r).errors = if k = .faulted then min 65535 (r.errors + 1) else r.errors := by
  cases k <;> rfl

/-- The counts that no change of state touches: the frame sent and the error count (R42). -/
theorem settleLine_counts (l : LineId) (b : Bool) (s : State) :
    ((settleLine l b s).line.lines.get l).sent = (s.line.lines.get l).sent ∧
      ((settleLine l b s).line.lines.get l).errors = (s.line.lines.get l).errors := by
  by_cases hd : Degrades l s
  · rw [settleLine_degrades hd, degradedLine_get]
    exact ⟨rfl, rfl⟩
  · by_cases hr : Returns l b s
    · obtain ⟨k, h⟩ := settleLine_returns hr
      rw [h, returned_get]
      exact ⟨rfl, rfl⟩
    · rw [settleLine_stays hd hr]
      exact ⟨rfl, rfl⟩

/-- How a line stands after its copy is counted and its state settled, by the good-copy run and the faulted runs that the
copy gives (R42 to R44). -/
structure LineClosed (l : LineId) (b : Bool) (p q : LineRec) (run : Nat) (faults runs : CardId → Nat) : Prop where
  degrades : p.state = .good → (∃ k, faults k = 16) →
    q.state = .degraded ∧ q.goodRun = 0 ∧ ∀ k, runs k = faults k
  returns : p.state = .degraded ∧ run = 64 ∨ p.state = .jammed ∧ b = true →
    q.state = .good ∧ q.goodRun = run ∧ ∀ k, runs k = 0
  stays : p.state = .good ∧ (∀ k, faults k ≠ 16) ∨ p.state = .degraded ∧ run ≠ 64 ∨ p.state = .jammed ∧ b = false →
    q.state = p.state ∧ q.goodRun = run ∧ ∀ k, runs k = faults k

theorem settleLine_closed (l : LineId) (b : Bool) (s : State) :
    LineClosed l b (s.line.lines.get l) ((settleLine l b s).line.lines.get l) (s.line.lines.get l).goodRun
      (fun k => runOf l k s) (fun k => runOf l k (settleLine l b s)) where
  degrades good due := by
    rw [settleLine_degrades ⟨good, due⟩, degradedLine_get]
    exact ⟨rfl, rfl, fun _ => rfl⟩
  returns h := by
    obtain ⟨k, e⟩ := settleLine_returns (b := b) h
    rw [e, returned_get]
    exact ⟨rfl, rfl, fun j => returned_run l k j s⟩
  stays h := by
    have same : settleLine l b s = s := by
      refine settleLine_stays (fun ⟨good, j, full⟩ => ?_) fun back => ?_
      · rcases h with ⟨-, none⟩ | ⟨degraded, -⟩ | ⟨jammed, -⟩
        · exact none j full
        · rw [good] at degraded; cases degraded
        · rw [good] at jammed; cases jammed
      · rcases h with ⟨good, -⟩ | ⟨degraded, short⟩ | ⟨jammed, out⟩ <;> rcases back with ⟨state, full⟩ | ⟨state, back⟩
        · rw [good] at state; cases state
        · rw [good] at state; cases state
        · exact short full
        · rw [degraded] at state; cases state
        · rw [jammed] at state; cases state
        · rw [out] at back; cases back
    rw [same]
    exact ⟨rfl, rfl, fun _ => rfl⟩

/-! ### The close of a slot (R35) -/

/-- The returns of a line at the close: its copy would have been good while it was JAMMED (R44). -/
def recoveredAt (s : State) (x : Slot) (l : LineId) : Bool :=
  (s.line.lines.get l).state == .jammed && x.recovered.get l

/-- The card's and both lines' bookkeeping at the close, before a missing window's notice (R35; log entry 28). -/
def bookkept (x : Slot) (s : State) : State :=
  closeLine .b (recoveredAt s x .b) x.card (classCopy s x .b)
    (closeLine .a (recoveredAt s x .a) x.card (classCopy s x .a)
      (settleCard x (finalVerdict s x .a) (finalVerdict s x .b) s))

theorem closeSlot_eq (x : Slot) (s : State) :
    closeSlot x s =
      setSlot none (if x.took then bookkept x s else notifyMissing x.card x.expect (bookkept x s)) := rfl

theorem execPollSlotClose_eq {x : Slot} {s : State} (h : s.line.exchange.slot = some x) :
    exec .pollSlotClose s = .next ((if x.old then deliver else endIfDone) (closeSlot x s)) := by
  have closes : execPollSlotClose s = .next ((if x.old then deliver else endIfDone) (closeSlot x s)) := by
    unfold execPollSlotClose
    simp only [h]
    cases x.old <;> rfl
  exact closes

/-- The part before a line's bookkeeping at the close: the card's, and for line B line A's. -/
def beforeLine (x : Slot) (l : LineId) (s : State) : State :=
  let v := settleCard x (finalVerdict s x .a) (finalVerdict s x .b) s
  match l with
  | .a => v
  | .b => closeLine .a (recoveredAt s x .a) x.card (classCopy s x .a) v

theorem OfLine.run {l : LineId} {s t : State} (h : OfLine l s t) (j : CardId) :
    runOf (otherLine l) j t = runOf (otherLine l) j s := by
  unfold runOf
  rw [h.cards j]
  exact PerLine.get_set_other _ l _

theorem OfLine.record {l : LineId} {s t : State} (h : OfLine l s t) (k : CardId) :
    t.line.cards[k] = { s.line.cards[k] with faulted := t.line.cards[k].faulted } := by
  obtain ⟨n, e⟩ : ∃ n, t.line.cards[k] = withRun l n s.line.cards[k] := ⟨_, h.cards k⟩
  rw [e]
  rfl

theorem closedCard_faulted (x : Slot) (a b : Verdict) (r : CardRec) : (closedCard x a b r).faulted = r.faulted := by
  unfold closedCard
  cases x.took <;> rfl

theorem settleCard_run (x : Slot) (a b : Verdict) (s : State) (l : LineId) (j : CardId) :
    runOf l j (settleCard x a b s) = runOf l j s := by
  unfold runOf
  rw [settleCard_cards, vmod_get]
  split
  · rw [closedCard_faulted]
  · rfl

/-- A line's bookkeeping starts from its own counts, whatever stands before it. -/
theorem beforeLine_same (x : Slot) (l : LineId) (s : State) :
    (beforeLine x l s).line.lines.get l = s.line.lines.get l ∧ ∀ j, runOf l j (beforeLine x l s) = runOf l j s := by
  have card := ofCard_settleCard x (finalVerdict s x .a) (finalVerdict s x .b) s
  cases l with
  | a => exact ⟨congrArg PerLine.a card.lines, settleCard_run x _ _ s .a⟩
  | b =>
    have other := ofLine_closeLine .a (recoveredAt s x .a) x.card (classCopy s x .a)
      (settleCard x (finalVerdict s x .a) (finalVerdict s x .b) s)
    exact ⟨other.other.trans (congrArg PerLine.b card.lines), fun j => (other.run j).trans (settleCard_run x _ _ s .b j)⟩

/-- The close leaves a line as its own bookkeeping does. -/
theorem bookkept_same (x : Slot) (l : LineId) (s : State) :
    (bookkept x s).line.lines.get l =
        (closeLine l (recoveredAt s x l) x.card (classCopy s x l) (beforeLine x l s)).line.lines.get l ∧
      ∀ j, runOf l j (bookkept x s) =
        runOf l j (closeLine l (recoveredAt s x l) x.card (classCopy s x l) (beforeLine x l s)) := by
  cases l with
  | a =>
    have other := ofLine_closeLine .b (recoveredAt s x .b) x.card (classCopy s x .b)
      (closeLine .a (recoveredAt s x .a) x.card (classCopy s x .a)
        (settleCard x (finalVerdict s x .a) (finalVerdict s x .b) s))
    exact ⟨other.other, other.run⟩
  | b => exact ⟨rfl, fun _ => rfl⟩

/-- How a line stands after the close of a slot (R42 to R44). -/
theorem bookkept_line (x : Slot) (l : LineId) (s : State) {run : Nat} {faults : CardId → Nat}
    (hr : run = (countedLine (classCopy s x l) (s.line.lines.get l)).goodRun)
    (hf : ∀ k, faults k = if k = x.card then countedRun (classCopy s x l) (runOf l k s) else runOf l k s) :
    ((bookkept x s).line.lines.get l).sent = (s.line.lines.get l).sent ∧
      ((bookkept x s).line.lines.get l).errors =
        (countedLine (classCopy s x l) (s.line.lines.get l)).errors ∧
      LineClosed l (recoveredAt s x l) (s.line.lines.get l) ((bookkept x s).line.lines.get l) run faults
        fun k => runOf l k (bookkept x s) := by
  obtain ⟨before, runs⟩ := beforeLine_same x l s
  obtain ⟨after, ends⟩ := bookkept_same x l s
  have line := countCopy_line l x.card (classCopy s x l) (beforeLine x l s)
  rw [before] at line
  have counted : faults = fun k => runOf l k (countCopy l x.card (classCopy s x l) (beforeLine x l s)) := by
    funext k
    rw [countCopy_run, runs, hf]
  obtain ⟨sent, errors⟩ := settleLine_counts l (recoveredAt s x l)
    (countCopy l x.card (classCopy s x l) (beforeLine x l s))
  have closed := settleLine_closed l (recoveredAt s x l)
    (countCopy l x.card (classCopy s x l) (beforeLine x l s))
  rw [line] at sent errors closed
  have same : (fun k => runOf l k (bookkept x s)) = fun k =>
      runOf l k (closeLine l (recoveredAt s x l) x.card (classCopy s x l) (beforeLine x l s)) := funext ends
  rw [after, same, counted, hr]
  refine ⟨sent.trans (countedLine_sent _ _), errors, ?_⟩
  obtain ⟨degrades, returns, stays⟩ := closed
  rw [countedLine_state] at degrades returns stays
  exact ⟨degrades, returns, stays⟩

end Sys2Proof.Machine
end

section
/-! PROOFS. Chapter 2, the close of a poll slot and the end of its exchange. -/

namespace Sys2Proof.Machine

/-! ### The end of the exchange (R35, R57) -/

/-- What follows a slot's bookkeeping: the delivery of the old cycle's slot, or the end of the exchange (R35, R45). -/
def afterClose (old : Bool) : State → State := if old then deliver else endIfDone

theorem outside_withoutMeasurements (s : State) : OutsideKept s (withoutMeasurements s) := by
  constructor <;> rfl

theorem outside_deliver (s : State) : OutsideKept s (deliver s) :=
  (outside_withoutMeasurements s).trans (delivery_deliver s).toOutsideKept

theorem deliver_slot (s : State) : (deliver s).line.exchange.slot = s.line.exchange.slot := by
  rw [(delivery_deliver s).line]
  rfl

theorem deliver_line (s : State) : (deliver s).line = { s.line with exchange := (deliver s).line.exchange } := by
  rw [(delivery_deliver s).line]
  rfl

theorem outside_endIfDone (s : State) : OutsideKept s (endIfDone s) := by
  obtain same | ended := endIfDone_cases s
  · rw [same]; exact .refl s
  · rw [ended]
    exact OutsideKept.trans (by constructor <;> rfl) (outside_deliver _)

theorem endIfDone_slot (s : State) : (endIfDone s).line.exchange.slot = s.line.exchange.slot := by
  obtain same | ended := endIfDone_cases s
  · rw [same]
  · rw [ended, endExchange, deliver_slot]
    rfl

theorem outside_afterClose (old : Bool) (s : State) : OutsideKept s (afterClose old s) := by
  cases old with
  | true => exact outside_deliver s
  | false => exact outside_endIfDone s

theorem afterClose_line (old : Bool) (s : State) :
    (afterClose old s).line = { s.line with exchange := (afterClose old s).line.exchange } := by
  cases old with
  | true => exact deliver_line s
  | false => exact endIfDone_line s

theorem afterClose_slot (old : Bool) (s : State) : (afterClose old s).line.exchange.slot = s.line.exchange.slot := by
  cases old with
  | true => exact deliver_slot s
  | false => exact endIfDone_slot s

/-! ### What the close of a slot leaves (R35) -/

/-- The bookkeeping of a close leaves the mains and the patterns, and every card's record but for the polled card's replies
and flag and for the faulted runs. -/
theorem bookkept_keeps (x : Slot) (s : State) :
    OutsideKept s (bookkept x s) ∧ (bookkept x s).line.mains = s.line.mains ∧
      (bookkept x s).line.patterns = s.line.patterns ∧
      ∀ k : CardId, (bookkept x s).line.cards[k] =
        { (settleCard x (finalVerdict s x .a) (finalVerdict s x .b) s).line.cards[k] with
          faulted := (bookkept x s).line.cards[k].faulted } := by
  have card := ofCard_settleCard x (finalVerdict s x .a) (finalVerdict s x .b) s
  have a := ofLine_closeLine .a (recoveredAt s x .a) x.card (classCopy s x .a)
    (settleCard x (finalVerdict s x .a) (finalVerdict s x .b) s)
  have b := ofLine_closeLine .b (recoveredAt s x .b) x.card (classCopy s x .b)
    (closeLine .a (recoveredAt s x .a) x.card (classCopy s x .a)
      (settleCard x (finalVerdict s x .a) (finalVerdict s x .b) s))
  refine ⟨card.toOutsideKept.trans (a.toOutsideKept.trans b.toOutsideKept), b.mains.trans (a.mains.trans card.mains),
    b.patterns.trans (a.patterns.trans card.patterns), fun k => ?_⟩
  refine (b.record k).trans ?_
  rw [a.record k]
  rfl

theorem setSlot_line (y : Option Slot) (s : State) :
    (setSlot y s).line = { s.line with exchange := { s.line.exchange with slot := y } } := rfl

theorem closeSlot_line (x : Slot) (s : State) :
    (closeSlot x s).line =
      { (bookkept x s).line with exchange := { (bookkept x s).line.exchange with slot := none } } := by
  have noticed : (if x.took then bookkept x s else notifyMissing x.card x.expect (bookkept x s)).line =
      (bookkept x s).line := by
    split
    · rfl
    · exact notifyMissing_line _ _ _
  rw [closeSlot_eq, setSlot_line, noticed]

theorem outside_closeSlot (x : Slot) (s : State) : OutsideKept s (closeSlot x s) := by
  have kept := (bookkept_keeps x s).1
  have noticed : OutsideKept s (if x.took then bookkept x s else notifyMissing x.card x.expect (bookkept x s)) := by
    split
    · exact kept
    · exact kept.trans (ofCard_notifyMissing _ _ _).toOutsideKept
  rw [closeSlot_eq]
  exact ⟨noticed.pending, noticed.ports, noticed.safety, noticed.stages, noticed.inputs⟩

/-- The polled card's record after the close, but for its faulted runs (R39, R40, R48). -/
theorem bookkept_card (x : Slot) (s : State) :
    (bookkept x s).line.cards[x.card] =
      { closedCard x (finalVerdict s x .a) (finalVerdict s x .b) s.line.cards[x.card] with
        faulted := (bookkept x s).line.cards[x.card].faulted } := by
  obtain ⟨-, -, -, record⟩ := bookkept_keeps x s
  refine (record x.card).trans ?_
  rw [settleCard_cards, vmod_same]

theorem bookkept_otherCard (x : Slot) (s : State) (k : CardId) (ne : k ≠ x.card) :
    (bookkept x s).line.cards[k] = { s.line.cards[k] with faulted := (bookkept x s).line.cards[k].faulted } := by
  obtain ⟨-, -, -, record⟩ := bookkept_keeps x s
  refine (record k).trans ?_
  rw [settleCard_cards, vmod_get, if_neg fun e => ne e.symm]

theorem mismatchNamed_isSome {s : State} {x : Slot} {l : LineId} {z : Byte} (h : finalVerdict s x l = .mismatch z) :
    (mismatchNamed (finalVerdict s x .a) (finalVerdict s x .b)).isSome = true := by
  cases named : mismatchNamed (finalVerdict s x .a) (finalVerdict s x .b) with
  | some y => rfl
  | none =>
    cases l with
    | a => rw [h, mismatchNamed_first] at named; cases named
    | b =>
      cases first : finalVerdict s x .a with
      | mismatch y => rw [first, mismatchNamed_first] at named; cases named
      | good => rw [first, h] at named; cases named
      | bad => rw [first, h] at named; cases named
      | missing => rw [first, h] at named; cases named

theorem closedCard_took {x : Slot} (h : x.took = true) (a b : Verdict) (r : CardRec) :
    (closedCard x a b r).missing = 0 ∧
      (closedCard x a b r).goodRun = (if r.online || decide (2 ≤ r.goodRun) then 0 else r.goodRun + 1) ∧
      (closedCard x a b r).online = (r.online || decide (2 ≤ r.goodRun)) := by
  unfold closedCard
  rw [h]
  exact ⟨rfl, rfl, rfl⟩

theorem closedCard_missed {x : Slot} (h : x.took = false) (a b : Verdict) (r : CardRec) :
    (closedCard x a b r).missing = min 255 (r.missing + 1) ∧ (closedCard x a b r).goodRun = 0 ∧
      (closedCard x a b r).online = (r.online && r.missing != 9) := by
  have tenth : (r.missing + 1 != 10) = (r.missing != 9) := by
    rw [Bool.eq_iff_iff, bne_iff_ne, bne_iff_ne]
    omega
  unfold closedCard
  rw [h]
  exact ⟨rfl, rfl, congrArg (r.online && ·) tenth⟩

theorem closedCard_mismatch (x : Slot) (a b : Verdict) (r : CardRec) :
    (closedCard x a b r).mismatch = ((mismatchNamed a b).isSome || (r.mismatch && !x.took)) := by
  unfold closedCard
  cases x.took <;> rfl

theorem closedCard_lastSlotTook (x : Slot) (a b : Verdict) (r : CardRec) :
    (closedCard x a b r).lastSlotTook = x.took := by
  unfold closedCard
  cases h : x.took <;> rfl

/-- How a copy's class counts, written as R42 gives it. -/
theorem countedLine_goodRun (k : CopyClass) (p : LineRec) :
    (countedLine k p).goodRun =
      match k with
      | .good => min 64 (p.goodRun + 1)
      | .faulted => 0
      | .unclassed => p.goodRun := by
  cases k <;> rfl

theorem recoveredAt_jammed {s : State} {x : Slot} {l : LineId} (h : (s.line.lines.get l).state = .jammed) :
    recoveredAt s x l = x.recovered.get l := by
  rw [recoveredAt, h]
  exact Bool.true_and _

/-- What stands after POLL_SLOT_CLOSE with a slot open (R35). -/
def slotClosed (x : Slot) (s : State) : State := afterClose x.old (closeSlot x s)

theorem slotClosed_line (x : Slot) (s : State) :
    (slotClosed x s).line = { (bookkept x s).line with exchange := (slotClosed x s).line.exchange } := by
  unfold slotClosed
  rw [afterClose_line, closeSlot_line]

theorem slotClosed_slot (x : Slot) (s : State) : (slotClosed x s).line.exchange.slot = none := by
  unfold slotClosed
  rw [afterClose_slot, closeSlot_line]

theorem outside_slotClosed (x : Slot) (s : State) : OutsideKept s (slotClosed x s) :=
  (outside_closeSlot x s).trans (outside_afterClose x.old _)

theorem slotClosed_cards (x : Slot) (s : State) : (slotClosed x s).line.cards = (bookkept x s).line.cards := by
  rw [slotClosed_line]

theorem slotClosed_lines (x : Slot) (s : State) : (slotClosed x s).line.lines = (bookkept x s).line.lines := by
  rw [slotClosed_line]

/-- A field of the polled card's record after the close that is not its faulted runs. -/
theorem slotClosed_field {α : Type} (f : CardRec → α) (hf : ∀ r runs, f { r with faulted := runs } = f r) (x : Slot)
    (s : State) :
    f (slotClosed x s).line.cards[x.card] =
      f (closedCard x (finalVerdict s x .a) (finalVerdict s x .b) s.line.cards[x.card]) := by
  rw [slotClosed_cards, bookkept_card]
  exact hf _ _

theorem slotClosed_took {x : Slot} (h : x.took = true) (s : State) {r : CardRec} (hr : r = s.line.cards[x.card]) :
    (slotClosed x s).line.cards[x.card].missing = 0 ∧
      (slotClosed x s).line.cards[x.card].goodRun =
        (if r.online || decide (2 ≤ r.goodRun) then 0 else r.goodRun + 1) ∧
      (slotClosed x s).line.cards[x.card].online = (r.online || decide (2 ≤ r.goodRun)) := by
  subst hr
  rw [slotClosed_field CardRec.missing fun _ _ => rfl, slotClosed_field CardRec.goodRun fun _ _ => rfl,
    slotClosed_field CardRec.online fun _ _ => rfl]
  exact closedCard_took h _ _ _

theorem slotClosed_missed {x : Slot} (h : x.took = false) (s : State) {r : CardRec} (hr : r = s.line.cards[x.card]) :
    (slotClosed x s).line.cards[x.card].missing = min 255 (r.missing + 1) ∧
      (slotClosed x s).line.cards[x.card].goodRun = 0 ∧
      (slotClosed x s).line.cards[x.card].online = (r.online && r.missing != 9) := by
  subst hr
  rw [slotClosed_field CardRec.missing fun _ _ => rfl, slotClosed_field CardRec.goodRun fun _ _ => rfl,
    slotClosed_field CardRec.online fun _ _ => rfl]
  exact closedCard_missed h _ _ _

theorem slotClosed_mismatch (x : Slot) (s : State) :
    (slotClosed x s).line.cards[x.card].mismatch =
      ((mismatchNamed (finalVerdict s x .a) (finalVerdict s x .b)).isSome ||
        (s.line.cards[x.card].mismatch && !x.took)) := by
  rw [slotClosed_field CardRec.mismatch fun _ _ => rfl, closedCard_mismatch]

theorem slotClosed_otherCard (x : Slot) (s : State) (k : CardId) (ne : k ≠ x.card) :
    (slotClosed x s).line.cards[k] = { s.line.cards[k] with faulted := (slotClosed x s).line.cards[k].faulted } := by
  rw [slotClosed_cards]
  exact bookkept_otherCard x s k ne

/-- A line after the close of a slot, with its runs written as R42 gives them. -/
theorem slotClosed_lineClosed (x : Slot) (l : LineId) (s : State) {run : Nat} {faults : CardId → Nat}
    (hr : run = (countedLine (classCopy s x l) (s.line.lines.get l)).goodRun)
    (hf : ∀ k, faults k = if k = x.card then countedRun (classCopy s x l) (runOf l k s) else runOf l k s) :
    ((slotClosed x s).line.lines.get l).sent = (s.line.lines.get l).sent ∧
      ((slotClosed x s).line.lines.get l).errors =
        (if classCopy s x l = .faulted then min 65535 ((s.line.lines.get l).errors + 1)
        else (s.line.lines.get l).errors) ∧
      LineClosed l (recoveredAt s x l) (s.line.lines.get l) ((slotClosed x s).line.lines.get l) run faults
        fun k => runOf l k (slotClosed x s) := by
  unfold runOf
  rw [slotClosed_lines, slotClosed_cards, ← countedLine_errors]
  exact bookkept_line x l s hr hf

theorem modCard_id {c : CardId} {f : CardRec → CardRec} {s : State} (h : f s.line.cards[c] = s.line.cards[c]) :
    modCard s c f = s := by
  rw [modCard, vmod_id h]

/-- A mismatching copy sets the card's flag and posts its record, unless the flag stands (R40). -/
theorem settleMismatch_sets {c : CardId} {a b : Verdict} {took : Bool} {s : State} {z : Byte}
    (h : mismatchNamed a b = some z) :
    settleMismatch c a b took s =
      if s.line.cards[c].mismatch then s
      else
        post .addressMismatch (.card c) false (some [word z.toNat]) (modCard s c fun r => { r with mismatch := true }) := by
  rw [settleMismatch_named h]
  split
  case isTrue stands =>
    refine modCard_id ?_
    rw [← stands]
  case isFalse => rfl

theorem execPollSlotClose_idle {s : State} (h : s.line.exchange.slot = none) : exec .pollSlotClose s = .next s := by
  have idle : execPollSlotClose s = .next s := by
    unfold execPollSlotClose
    rw [h]
  exact idle

/-- What the close of an open slot leaves of the card line and the rest (R35, R39, R40, R42 to R44). -/
theorem execPollSlotClose_closes {x : Slot} {s : State} (hx : s.line.exchange.slot = some x) :
    exec .pollSlotClose s = .next (slotClosed x s) := execPollSlotClose_eq hx

/-- Settles O23: each part of the close is said of its own operation, and the close is their row. -/
theorem slotCloseMovesTheCardState : Obligations.SlotCloseMovesTheCardState := by
  refine ⟨fun s => execPollSlotClose_idle, fun x r s hx hr => ?_, fun x l s => ?_, fun x s u v w hx hu hv hw => ?_,
    fun c s t ht => ?_, fun c s silent two => goodReply_third silent two, fun c a b took s => ?_, fun l back s => ?_,
    fun s => ?_, fun s u hu => ?_⟩
  · have outside := outside_slotClosed x s
    have kept := bookkept_keeps x s
    obtain ⟨-, mains, patterns, -⟩ := kept
    refine ⟨_, execPollSlotClose_closes hx, slotClosed_slot x s, outside.ports, outside.safety, outside.stages,
      outside.inputs, outside.pending, ?_, ?_, ?_, fun took => ?_, fun missed => ?_, fun l a named => ?_, fun none => ?_,
      slotClosed_otherCard x s, fun l p q run faults hp hq hrun hfaults => ?_⟩
    · rw [slotClosed_line]; exact mains
    · rw [slotClosed_line]; exact patterns
    · rw [slotClosed_field CardRec.lastSlotTook fun _ _ => rfl, closedCard_lastSlotTook]
    · obtain ⟨missing, goodRun, online⟩ := slotClosed_took took s hr
      rw [missing, goodRun, online]
      refine ⟨rfl, fun up => ?_, fun silent two => ?_, fun silent few => ?_⟩
      · rw [up]; exact ⟨rfl, rfl⟩
      · rw [silent, decide_eq_true two]; exact ⟨rfl, rfl⟩
      · rw [silent, decide_eq_false (Nat.not_le.mpr few)]; exact ⟨rfl, rfl⟩
    · exact slotClosed_missed missed s hr
    · rw [slotClosed_mismatch, mismatchNamed_isSome named]
      rfl
    · rw [slotClosed_mismatch, mismatchNamed_none fun z => ⟨none .a z, none .b z⟩, hr]
      rfl
    · subst hp hq
      obtain ⟨sent, errors, closed⟩ := slotClosed_lineClosed x l s (run := run) (faults := faults)
        (hrun.trans (countedLine_goodRun _ _).symm) fun k => (hfaults k).trans (by cases classCopy s x l <;> rfl)
      refine ⟨sent, errors, closed.degrades, fun h => closed.returns ?_, fun h => closed.stays ?_⟩
      · refine h.imp_right fun ⟨jammed, back⟩ => ⟨jammed, ?_⟩
        rw [recoveredAt_jammed jammed, back]
      · refine h.imp_right fun h => h.imp_right fun ⟨jammed, out⟩ => ⟨jammed, ?_⟩
        rw [recoveredAt_jammed jammed, out]
  · refine ⟨finalVerdict_jammed, finalVerdict_up, ?_, classCopy_faulted⟩
    rw [classCopy_good, classedGood_iff]
  · subst hu hv hw
    exact execPollSlotClose_eq hx
  · subst ht
    refine ⟨noReply_early, fun tenth silent => ?_, fun tenth online => ?_⟩
    · exact (noReply_tenth tenth).trans (if_neg (Bool.eq_false_iff.mp silent))
    · exact (noReply_tenth tenth).trans (if_pos online)
  · refine ⟨fun z h => settleMismatch_sets ?_, fun h => settleMismatch_none (mismatchNamed_none h)⟩
    rcases h with rfl | ⟨first, rfl⟩
    · exact mismatchNamed_first z b
    · exact mismatchNamed_second first z
  · exact ⟨settleLine_good, settleLine_degraded, settleLine_jammed⟩
  · refine ⟨fun running sent polled closed => ⟨endIfDone_ends running sent polled closed, ?_⟩, endIfDone_goesOn⟩
    rw [endIfDone_line, endIfDone_exchange running sent polled closed]
  · subst hu
    exact ⟨(delivery_deliver s).line, deliver_lost, deliver_valid⟩

end Sys2Proof.Machine
end

section
/-! PROOFS. Chapter 2, CARD SET (R46): the fields of a card record, and what a removed card leaves of the other
blocks. -/

namespace Sys2Proof.Machine

/-! ### One field written -/

theorem subjectCard_number (c : CardId) : subjectCard (BitVec.ofNat 8 (number c)) = some c := by
  have byte : (BitVec.ofNat 8 (number c)).toNat = number c := byte_toNat (Nat.lt_of_le_of_lt c.isLt (by decide))
  rw [subjectCard, byte]
  exact oneBased_number c

theorem valueBool_bit (b : Bool) : valueBool (if b then 1 else 0) = some b := by
  cases b <;> rfl

theorem valueIn_within {lo hi : Nat} {v : Word16} (h : lo ≤ v.toNat ∧ v.toNat ≤ hi) : valueIn lo hi v = some v.toNat :=
  if_pos h

theorem setCardField_some {α : Type} {v : Option α} {a : α} (h : v = some a) (c : CardId) (f : α → CardRec → CardRec)
    (s : State) : setCardField c v f s = done 0 (modCard s c (f a)) := by
  rw [h]; rfl

/-- CARD SET of a field of a card, its subject and the service state found right (R46). -/
def writeCardField (c : CardId) (k : Nat) (v : Word16) (s : State) : Answer :=
  match k with
  | 0 =>
    match valueBool v with
    | some b => done 0 (setPresent c b s)
    | none => refuse .badValue 0 s
  | 1 => setCardField c (valueIn 1 8 v) (fun n r => { r with coreCount := n }) s
  | 2 =>
    setCardField c (valueIn 8 (min 1000 (s.line.cards[c].leakTrip - 1)) v) (fun n r => { r with leakAlarm := n }) s
  | 3 => setCardField c (valueIn (max 9 (s.line.cards[c].leakAlarm + 1)) 2000 v) (fun n r => { r with leakTrip := n }) s
  | 4 => setCardField c (valueBool v) (fun b r => { r with retryEnable := b }) s
  | 5 => setCardField c (valueIn 10 50 v) (fun n r => { r with senseTimeout := n }) s
  | _ => refuse .badSubject 0 s

theorem cardSetOp_refused {f : Fields} {s : State} (h : s.service.state ≠ .handedOver) :
    cardSetOp f s = refuse .refusedState 0 s := if_pos (bne_iff_ne.mpr h)

theorem cardSetOp_handed {c : CardId} {k : Byte} {v : Word16} {s : State} (h : s.service.state = .handedOver) :
    cardSetOp ⟨BitVec.ofNat 8 (number c), k, v⟩ s = writeCardField c k.toNat v s := by
  simp only [cardSetOp, h, bne_self_eq_false, Bool.false_eq_true, if_false, subjectCard_number]
  rfl

theorem writeCardField_present {c : CardId} {v : Word16} {b : Bool} (h : v = if b then 1 else 0) (s : State) :
    writeCardField c 0 v s = done 0 (setPresent c b s) := by
  rw [h]
  cases b <;> rfl

theorem setPresent_same {c : CardId} {b : Bool} {s : State} (h : s.line.cards[c].configured = b) :
    setPresent c b s = s := if_pos (beq_iff_eq.mpr h)

theorem setPresent_add {c : CardId} {s : State} (h : s.line.cards[c].configured = false) :
    setPresent c true s = addCard c s := by
  unfold setPresent
  rw [h]
  rfl

theorem setPresent_remove {c : CardId} {s : State} (h : s.line.cards[c].configured = true) :
    setPresent c false s = removeCard c s := by
  unfold setPresent
  rw [h]
  rfl

/-- CARD SET over the plan link, which has the right to it, in HANDED_OVER answers DONE as its field's write does. -/
theorem responds_cardField {c : CardId} {k : Byte} {v : Word16} {s u : State} (h : s.service.state = .handedOver)
    (taken : ∀ p : PerLink Port, writeCardField c k.toNat v { s with ports := p } = done 0 { u with ports := p }) :
    Responds (.cardSet .plan ⟨BitVec.ofNat 8 (number c), k, v⟩) .plan 0x18 ⟨BitVec.ofNat 8 (number c), k, v⟩ .done 0
      s u :=
  responds_of_handled _ .plan _ _ (cardSetOp _) s u _ _ rfl (by decide)
    ((cardSetOp_handed (s := receive .plan 0x18 _ s) h).trans (taken _))

/-! ### A card removed -/

/-- What a removal keeps outside the card line, the engine, the proving states and the supervisor. -/
structure ElsewhereKept (s t : State) : Prop where
  pending : t.pending = s.pending
  ports : t.ports = s.ports
  safety : t.safety = s.safety
  stages : t.stages = s.stages
  inputs : t.inputs = s.inputs
  plans : t.plans.plans = s.plans.plans

theorem ElsewhereKept.trans {s t u : State} (a : ElsewhereKept s t) (b : ElsewhereKept t u) : ElsewhereKept s u where
  pending := b.pending.trans a.pending
  ports := b.ports.trans a.ports
  safety := b.safety.trans a.safety
  stages := b.stages.trans a.stages
  inputs := b.inputs.trans a.inputs
  plans := b.plans.trans a.plans

/-- A card record emptied of what the poll slots have left in it (R46). -/
def emptied (configured : Bool) (r : CardRec) : CardRec :=
  { r with
    configured := configured, online := false, lastCycle := none, missing := 0, goodRun := 0, mismatch := false,
    faulted := ⟨0, 0⟩, lastSlotTook := false }

/-- A card's record emptied and its conditions ended, before the other blocks take note of the removal (R46). -/
def struckOff (c : CardId) (s : State) : State :=
  endFault .addressMismatch (.card c) (endFault .cardSilent (.card c) (modCard s c (emptied false)))

theorem struckOff_frame (c : CardId) (s : State) :
    struckOff c s =
      { s with
        line := { s.line with cards := vmod s.line.cards c (emptied false) }
        faults := (struckOff c s).faults } := rfl

/-! #### Its accumulations (R64) -/

/-- A core with its accumulation restarted (R64). -/
def restartedCore (r : CoreRec) : CoreRec := { r with acc := restartAccum r.acc }

/-- The cores of a card restarted, before its residual channel (R64). -/
def restartCores (c : CardId) (s : State) : State := eachOf (outputsOf c) (fun o t => modCore t o restartedCore) s

theorem restartCard_eq (c : CardId) (s : State) :
    restartCard c s = modRes (restartCores c s) c restartedResidual := rfl

/-- The cores alone have changed. -/
def OnlyCores (s t : State) : Prop := t = { s with engine := { s.engine with cores := t.engine.cores } }

theorem OnlyCores.refl (s : State) : OnlyCores s s := by
  unfold OnlyCores; rfl

theorem OnlyCores.trans {s t u : State} (a : OnlyCores s t) (b : OnlyCores t u) : OnlyCores s u :=
  Eq.trans b (congrArg (fun x : State => { x with engine := { x.engine with cores := u.engine.cores } }) a)

theorem OnlyCores.residuals {s t : State} (h : OnlyCores s t) : t.engine.residuals = s.engine.residuals := by
  unfold OnlyCores at h
  rw [h]

theorem OnlyCores.modRes {s t : State} (h : OnlyCores s t) (c : CardId) (f : ResRec → ResRec) :
    modRes t c f = { s with engine := (modRes t c f).engine } := by
  unfold OnlyCores at h
  rw [h]
  rfl

theorem onlyCores_modCore (o : OutputId) (f : CoreRec → CoreRec) (s : State) : OnlyCores s (modCore s o f) := by
  unfold OnlyCores; rfl

theorem onlyCores_restartCores (c : CardId) (s : State) : OnlyCores s (restartCores c s) :=
  eachOf_rel OnlyCores.refl OnlyCores.trans (fun o _ t => onlyCores_modCore o _ t) s

theorem coreAt_modCore (o p : OutputId) (f : CoreRec → CoreRec) (s : State) :
    coreAt p (modCore s o f) = if o = p then f (coreAt p s) else coreAt p s := vmod_get s.engine.cores o p f

theorem restartCores_core (c : CardId) (o : OutputId) (s : State) :
    coreAt o (restartCores c s) = if cardOf o = c then restartedCore (coreAt o s) else coreAt o s :=
  eachOutput_at (fun t => (coreAt_modCore o o _ t).trans (if_pos rfl))
    (fun p t ne => (coreAt_modCore p o _ t).trans (if_neg ne)) c s

/-- A restart of a card's accumulations touches the engine alone (R64). -/
theorem restartCard_frame (c : CardId) (s : State) : restartCard c s = { s with engine := (restartCard c s).engine } :=
  (onlyCores_restartCores c s).modRes c restartedResidual

theorem restartCard_core (c : CardId) (o : OutputId) (s : State) :
    coreAt o (restartCard c s) = if cardOf o = c then restartedCore (coreAt o s) else coreAt o s :=
  restartCores_core c o s

theorem restartCard_residual (c k : CardId) (s : State) :
    residualAt k (restartCard c s) = if k = c then restartedResidual (residualAt k s) else residualAt k s := by
  have kept : (restartCores c s).engine.residuals = s.engine.residuals := (onlyCores_restartCores c s).residuals
  rw [restartCard_eq, residualAt, modRes_engine]
  simp only [vmod_get, kept, residualAt, eq_comm]

/-! #### Its cable fields (R103) -/

/-- A feeder's fields and condition ended (R103). -/
def closeFeeder (o : OutputId) (s : State) : State :=
  endFault .feederOpen (.output o) (modFeeder s o fun _ => { count := 0, opened := false })

/-- A card's trip fields cancelled and its conditions ended (R103). -/
def cancelCard (c : CardId) (s : State) : State :=
  endFault .cardTrip (.card c) (endFault .earthLeak (.card c) (modCable s c cableCancelled))

theorem dropCard_eq (c : CardId) (s : State) :
    dropCard c s = eachOf allInvSlots (dropFromSlot c) (eachOf (outputsOf c) closeFeeder (cancelCard c s)) := rfl

/-- What the removal of a card leaves of an open investigation (R103). -/
def dropped (c : CardId) (v : Investigation) : Option Investigation :=
  if cardOf v.x = c then none else some { v with candidates := v.candidates.filter fun o => cardOf o != c }

/-- An output's feeder fields, as a field of the whole part. -/
def feederAt (o : OutputId) (s : State) : Feeder := s.cable.feeders[o]

/-- An investigation slot, as a field of the whole part. -/
def slotAt (i : InvSlot) (s : State) : Option Investigation := s.cable.investigations[i]

theorem dropFromSlot_eq (c : CardId) (i : InvSlot) (s : State) :
    dropFromSlot c i s =
      { setInvestigation s i ((slotAt i s).bind (dropped c)) with faults := (dropFromSlot c i s).faults } := by
  unfold dropFromSlot abandonSlot slotAt dropped
  cases h : s.cable.investigations[i] with
  | none =>
    have free : s.cable.investigations.set i none = s.cable.investigations := by
      rw [← h]; exact Vector.set_getElem_self _
    simp only [Option.bind_none, setInvestigation, free]
  | some v =>
    by_cases own : cardOf v.x = c
    · simp only [own, beq_self_eq_true, if_true, Option.bind_some]
      rfl
    · simp only [beq_eq_false_iff_ne.mpr own, Bool.false_eq_true, if_false, if_neg own, Option.bind_some]

/-- The feeders and the investigations alone have changed, besides the fault table. -/
def OnlyWatches (s t : State) : Prop :=
  t =
    { s with
      cable := { s.cable with feeders := t.cable.feeders, investigations := t.cable.investigations }
      faults := t.faults }

theorem OnlyWatches.trans {s t u : State} (a : OnlyWatches s t) (b : OnlyWatches t u) : OnlyWatches s u :=
  Eq.trans b (congrArg
    (fun x : State =>
      { x with
        cable := { x.cable with feeders := u.cable.feeders, investigations := u.cable.investigations }
        faults := u.faults }) a)

theorem OnlyWatches.refl (s : State) : OnlyWatches s s := by
  unfold OnlyWatches; rfl

theorem onlyWatches_closeFeeder (o : OutputId) (s : State) : OnlyWatches s (closeFeeder o s) := by
  unfold OnlyWatches; rfl

theorem onlyWatches_dropFromSlot (c : CardId) (i : InvSlot) (s : State) : OnlyWatches s (dropFromSlot c i s) := by
  rw [dropFromSlot_eq]
  unfold OnlyWatches
  rfl

theorem dropFromSlot_slot (c : CardId) (i j : InvSlot) (s : State) :
    slotAt j (dropFromSlot c i s) = if i = j then (slotAt j s).bind (dropped c) else slotAt j s := by
  rw [dropFromSlot_eq]
  refine (vset_get s.cable.investigations i j _).trans ?_
  split
  case isTrue e => rw [e]
  case isFalse => rfl

theorem dropFromSlot_feeder (c : CardId) (i : InvSlot) (o : OutputId) (s : State) :
    feederAt o (dropFromSlot c i s) = feederAt o s := by
  rw [dropFromSlot_eq]; rfl

/-- The feeders of a card closed. -/
def closeFeeders (c : CardId) (s : State) : State := eachOf (outputsOf c) closeFeeder s

theorem closeFeeder_feeder (o p : OutputId) (s : State) :
    feederAt p (closeFeeder o s) = if o = p then { count := 0, opened := false } else feederAt p s :=
  vmod_get s.cable.feeders o p _

theorem closeFeeders_feeder (c : CardId) (o : OutputId) (s : State) :
    feederAt o (closeFeeders c s) = if cardOf o = c then { count := 0, opened := false } else feederAt o s :=
  eachOutput_at (field := feederAt o) (f := fun _ => { count := 0, opened := false })
    (fun t => (closeFeeder_feeder o o t).trans (if_pos rfl))
    (fun p t ne => (closeFeeder_feeder p o t).trans (if_neg ne)) c s

theorem closeFeeder_slot (o : OutputId) (i : InvSlot) (s : State) : slotAt i (closeFeeder o s) = slotAt i s := rfl

theorem closeFeeders_slot (c : CardId) (i : InvSlot) (s : State) : slotAt i (closeFeeders c s) = slotAt i s :=
  eachOf_rel (R := fun s t => slotAt i t = slotAt i s) (fun _ => rfl) (fun a b => b.trans a)
    (fun o _ t => closeFeeder_slot o i t) s

/-- A card's cable fields dropped: besides its trip fields, the feeders, investigations and faults alone change. -/
theorem onlyWatches_dropCard (c : CardId) (s : State) : OnlyWatches (modCable s c cableCancelled) (dropCard c s) := by
  have cancelled : OnlyWatches (modCable s c cableCancelled) (cancelCard c s) := by unfold OnlyWatches; rfl
  have feeders : OnlyWatches (cancelCard c s) (closeFeeders c (cancelCard c s)) :=
    eachOf_rel OnlyWatches.refl OnlyWatches.trans (fun o _ t => onlyWatches_closeFeeder o t) _
  rw [dropCard_eq]
  exact cancelled.trans (feeders.trans
    (eachOf_rel OnlyWatches.refl OnlyWatches.trans (fun i _ t => onlyWatches_dropFromSlot c i t) _))

theorem dropCard_feeder (c : CardId) (o : OutputId) (s : State) :
    feederAt o (dropCard c s) = if cardOf o = c then { count := 0, opened := false } else feederAt o s := by
  rw [dropCard_eq]
  exact (eachOf_rel (R := fun s t => feederAt o t = feederAt o s) (fun _ => rfl) (fun a b => b.trans a)
    (fun i _ t => dropFromSlot_feeder c i o t) _).trans (closeFeeders_feeder c o (cancelCard c s))

theorem dropCard_slot (c : CardId) (i : InvSlot) (s : State) :
    slotAt i (dropCard c s) = (slotAt i s).bind (dropped c) := by
  have kept : slotAt i (closeFeeders c (cancelCard c s)) = slotAt i s := closeFeeders_slot c i (cancelCard c s)
  rw [dropCard_eq, ← kept]
  exact (eachOf_at (f := fun v => v.bind (dropped c)) (fun t => (dropFromSlot_slot c i i t).trans (if_pos rfl))
    (fun j t ne => (dropFromSlot_slot c j i t).trans (if_neg ne)) (List.nodup_finRange 4) _).trans
    (if_pos (List.mem_finRange i))

/-! #### Its outputs (R82) -/

/-- An output taken to SENSE_LOST. -/
def loseSense (o : OutputId) (s : State) : State := setProving o (fun r => { r with state := .senseLost }) s

theorem loseSense_state (o p : OutputId) (s : State) :
    provingState p (loseSense o s) = if o = p then .senseLost else provingState p s :=
  setProving_state o p _ s

theorem senseLoseRemoved_eq (c : CardId) (s : State) : senseLoseRemoved c s = eachOf (outputsOf c) loseSense s := rfl

theorem keeps_senseLoseRemoved (c : CardId) (s : State) : DecisionKeeps s (senseLoseRemoved c s) :=
  keeps_eachOutput (fun o t => keeps_setProving o _ t) s

/-- The outputs' loss of sense reaches no handover in HANDED_OVER, so the supervisor keeps what it holds. -/
theorem aside_senseLoseRemoved (c : CardId) : Aside (senseLoseRemoved c) :=
  .eachOf (outputsOf c) fun o => aside_setProving o fun r => { r with state := .senseLost }

theorem senseLoseRemoved_state (c : CardId) (o : OutputId) (s : State) :
    provingState o (senseLoseRemoved c s) = if cardOf o = c then .senseLost else provingState o s := by
  rw [senseLoseRemoved_eq]
  exact eachOutput_at (f := fun _ => ProvingState.senseLost) (fun t => (loseSense_state o o t).trans (if_pos rfl))
    (fun p t ne => (loseSense_state p o t).trans (if_neg ne)) c s

/-! #### The whole removal -/

/-- What the removal of a card leaves in HANDED_OVER (R46, R64, R82, R103). -/
structure CardRemoved (c : CardId) (s t : State) : Prop extends ElsewhereKept s t where
  line : t.line = { s.line with cards := vmod s.line.cards c (emptied false) }
  trips : t.cable.cards = vmod s.cable.cards c cableCancelled
  feeders : ∀ o, feederAt o t = if cardOf o = c then { count := 0, opened := false } else feederAt o s
  states : ∀ o, provingState o t = if cardOf o = c then .senseLost else provingState o s
  cores : ∀ o, coreAt o t = if cardOf o = c then restartedCore (coreAt o s) else coreAt o s
  residuals : ∀ k, residualAt k t = if k = c then restartedResidual (residualAt k s) else residualAt k s
  slots : ∀ i, slotAt i t = (slotAt i s).bind (dropped c)

theorem DecisionKeeps.elsewhere {s t : State} (h : DecisionKeeps s t) : ElsewhereKept s t :=
  ⟨h.pending, h.ports, h.safety, h.stages, h.inputs, h.plans⟩

/-- The removal but for the outputs' proving states. -/
def droppedCard (c : CardId) (s : State) : State := dropCard c (restartCard c (struckOff c s))

theorem removeCard_eq (c : CardId) (s : State) : removeCard c s = senseLoseRemoved c (droppedCard c s) := rfl

theorem droppedCard_frame (c : CardId) (s : State) :
    droppedCard c s =
      { s with
        line := { s.line with cards := vmod s.line.cards c (emptied false) }
        engine := (restartCard c (struckOff c s)).engine
        cable :=
          { cards := vmod s.cable.cards c cableCancelled
            feeders := (droppedCard c s).cable.feeders
            investigations := (droppedCard c s).cable.investigations }
        faults := (droppedCard c s).faults } := by
  have watches : OnlyWatches (modCable (restartCard c (struckOff c s)) c cableCancelled) (droppedCard c s) :=
    onlyWatches_dropCard c _
  unfold OnlyWatches at watches
  rw [restartCard_frame, struckOff_frame] at watches
  exact watches

theorem droppedCard_feeder (c : CardId) (o : OutputId) (s : State) :
    feederAt o (droppedCard c s) = if cardOf o = c then { count := 0, opened := false } else feederAt o s := by
  rw [droppedCard, dropCard_feeder, restartCard_frame]
  rfl

theorem droppedCard_slot (c : CardId) (i : InvSlot) (s : State) :
    slotAt i (droppedCard c s) = (slotAt i s).bind (dropped c) := by
  rw [droppedCard, dropCard_slot, restartCard_frame]
  rfl

theorem droppedCard_engine (c : CardId) (s : State) :
    (droppedCard c s).engine = (restartCard c (struckOff c s)).engine := by
  rw [droppedCard_frame]

theorem droppedCard_core (c : CardId) (o : OutputId) (s : State) :
    coreAt o (droppedCard c s) = if cardOf o = c then restartedCore (coreAt o s) else coreAt o s := by
  rw [coreAt, droppedCard_engine]
  exact restartCard_core c o (struckOff c s)

theorem droppedCard_residual (c k : CardId) (s : State) :
    residualAt k (droppedCard c s) = if k = c then restartedResidual (residualAt k s) else residualAt k s := by
  rw [residualAt, droppedCard_engine]
  exact restartCard_residual c k (struckOff c s)

theorem droppedCard_state (c : CardId) (o : OutputId) (s : State) :
    provingState o (droppedCard c s) = provingState o s := by
  rw [droppedCard_frame]; rfl

theorem droppedCard_elsewhere (c : CardId) (s : State) : ElsewhereKept s (droppedCard c s) := by
  rw [droppedCard_frame]
  constructor <;> rfl

theorem cardRemoved_removeCard {c : CardId} {s : State} (h : s.service.state = .handedOver) :
    CardRemoved c s (removeCard c s) := by
  have service : (droppedCard c s).service.state = .handedOver := by rw [droppedCard_frame]; exact h
  have keeps : DecisionKeeps (droppedCard c s) (removeCard c s) := removeCard_eq c s ▸ keeps_senseLoseRemoved c _
  have cable : (removeCard c s).cable = (droppedCard c s).cable :=
    removeCard_eq c s ▸ ((aside_senseLoseRemoved c).handed _ service).1
  exact {
    toElsewhereKept := (droppedCard_elsewhere c s).trans keeps.elsewhere
    line := by rw [keeps.line, droppedCard_frame]
    trips := by rw [cable, droppedCard_frame]
    feeders := fun o => by rw [feederAt, cable]; exact droppedCard_feeder c o s
    states := fun o => by rw [removeCard_eq, senseLoseRemoved_state, droppedCard_state]
    cores := fun o => by rw [coreAt, keeps.engine]; exact droppedCard_core c o s
    residuals := fun k => by rw [residualAt, keeps.engine]; exact droppedCard_residual c k s
    slots := fun i => by rw [slotAt, cable]; exact droppedCard_slot c i s }

theorem cardSetOp_removal {c : CardId} {s : State} (h : s.service.state = .handedOver)
    (configured : s.line.cards[c].configured = true) :
    cardSetOp ⟨BitVec.ofNat 8 (number c), 0, 0⟩ s = done 0 (removeCard c s) :=
  calc cardSetOp ⟨BitVec.ofNat 8 (number c), 0, 0⟩ s
    _ = writeCardField c 0 0 s := cardSetOp_handed (k := 0) h
    _ = done 0 (setPresent c false s) := writeCardField_present (b := false) rfl s
    _ = done 0 (removeCard c s) := by rw [setPresent_remove configured]

/-- CARD SET present = no of a configured card, in HANDED_OVER: it answers DONE, with the state the removal leaves. -/
theorem removal_answers {c : CardId} {s : State} {f : Fields} (hf : f = ⟨BitVec.ofNat 8 (number c), 0, 0⟩)
    (h : s.service.state = .handedOver) (configured : s.line.cards[c].configured = true) :
    ∃ u, CardRemoved c (receive .plan 0x18 f s) u ∧
      exec (.cardSet .plan f) s = .next (compose .plan 0x18 (done 0 u)) := by
  subst hf
  exact ⟨_, cardRemoved_removeCard h,
    congrArg (fun a => Host.Outcome.next (compose .plan 0x18 a)) (cardSetOp_removal (s := receive .plan 0x18 _ s) h configured)⟩

/-! ### CARD SET -/

/-- Settles O16: each index is one write of the card's record, and present = no the removal above. -/
theorem cardSetStoresOneField : Obligations.CardSetStoresOneField := by
  intro c v s
  refine ⟨fun h f => ?_, fun h => ⟨fun absent => ?_, fun b same hv => ?_, fun configured => ?_, fun b hv => ?_,
    fun low high => ?_, fun low high below => ?_, fun low high above => ?_, fun low high => ?_⟩⟩
  · exact responds_of_handled _ .plan _ f (cardSetOp f) s s _ _ rfl (by decide)
      (cardSetOp_refused (s := receive .plan 0x18 f s) h)
  · exact responds_cardField h fun p => congrArg (done 0) (setPresent_add (s := { s with ports := p }) absent)
  · exact responds_cardField h fun p =>
      (writeCardField_present hv _).trans (congrArg (done 0) (setPresent_same (s := { s with ports := p }) same))
  · obtain ⟨u, removed, answer⟩ := removal_answers rfl h configured
    refine ⟨_, answer, compose_answered .plan 0x18 _ (done 0 u) s removed.ports, removed.line, removed.trips,
      fun o => ⟨removed.feeders o, removed.states o, removed.cores o⟩, removed.residuals, fun i x hx => ?_,
      removed.safety, removed.stages, removed.inputs, removed.plans, removed.pending⟩
    exact (removed.slots i).trans (congrArg (Option.bind · (dropped c)) hx)
  · exact responds_cardField h fun _ => setCardField_some ((congrArg valueBool hv).trans (valueBool_bit b)) c _ _
  · exact responds_cardField h fun _ => setCardField_some (valueIn_within ⟨low, high⟩) c _ _
  · exact responds_cardField h fun _ => setCardField_some (valueIn_within ⟨low, by dsimp only; omega⟩) c _ _
  · exact responds_cardField h fun _ => setCardField_some (valueIn_within ⟨by dsimp only; omega, high⟩) c _ _
  · exact responds_cardField h fun _ => setCardField_some (valueIn_within ⟨low, high⟩) c _ _

end Sys2Proof.Machine
end

section
/-! PROOFS. Chapter 3, a window's samples, the tests of a measurement, and learning. -/

namespace Sys2Proof.Machine

/-! ### Samples summed (R50 to R52, R54) -/

theorem cycleNext_eq_iff (k n : CycleNo) : cycleNext k = n ↔ k = cycleBack n 1 := by
  simp only [Fin.ext_iff, cycleNext, cycleBack]
  omega

/-- A window follows on an accumulation's last cycle where that is the cycle before (R51). -/
theorem gapAt_eq_false_iff {α : Type} {a : Accum α} {n : CycleNo} :
    gapAt a n = false ↔ a.lastCycle = some (cycleBack n 1) := by
  unfold gapAt
  cases a.lastCycle with
  | none => simp
  | some k => rw [bne_eq_false_iff_eq, cycleNext_eq_iff, Option.some_inj]

/-- What a window does to an accumulation that goes on: it settles, or the weighted samples are added (R52, R54). -/
def addSamples {α : Type} (a : Accum α) (n : CycleNo) (samples : List Int) : Accum α :=
  if a.settling then { a with settling := false, lastCycle := some n }
  else
    { a with
      count := a.count + 1
      sumA := a.sumA + weigh samples weightsIn
      sumB := a.sumB + weigh samples weightsQuad
      overrange := a.overrange || saturates samples
      lastCycle := some n }

theorem takeSamples_goesOn {α : Type} [BEq α] [LawfulBEq α] {a : Accum α} {applied : α} {n : CycleNo}
    (held : a.held = some applied) (follows : a.lastCycle = some (cycleBack n 1)) (samples : List Int) :
    takeSamples a applied n samples = addSamples a n samples := by
  have goesOn : (a.held != some applied || gapAt a n) = false := by
    rw [gapAt_eq_false_iff.mpr follows, held, bne_self_eq_false]
    rfl
  unfold takeSamples addSamples
  simp only [goesOn, Bool.false_eq_true, if_false]
  rw [← held]

theorem takeSamples_restarts {α : Type} [BEq α] [LawfulBEq α] {a : Accum α} {applied : α} {n : CycleNo}
    (h : a.held ≠ some applied ∨ a.lastCycle ≠ some (cycleBack n 1)) (samples : List Int) :
    takeSamples a applied n samples =
      { settling := false, count := 0, sumA := 0, sumB := 0, overrange := false, held := some applied,
        lastCycle := some n } := by
  have restarts : (a.held != some applied || gapAt a n) = true := by
    rw [Bool.or_eq_true, bne_iff_ne]
    refine h.imp_right fun gap => ?_
    rw [← Bool.not_eq_false]
    exact fun follows => gap (gapAt_eq_false_iff.mp follows)
  unfold takeSamples
  simp only [restarts, if_true, restartAccum]

theorem addSamples_settles {α : Type} {a : Accum α} (h : a.settling = true) (n : CycleNo) (samples : List Int) :
    addSamples a n samples = { a with settling := false, lastCycle := some n } := if_pos h

theorem addSamples_adds {α : Type} {a : Accum α} (h : a.settling = false) (n : CycleNo) (samples : List Int) :
    addSamples a n samples =
      { settling := false
        count := a.count + 1
        sumA := a.sumA + weigh samples weightsIn
        sumB := a.sumB + weigh samples weightsQuad
        overrange := a.overrange || saturates samples
        held := a.held
        lastCycle := some n } := by
  rw [addSamples, if_neg (Bool.eq_false_iff.mp h), h]

theorem weigh_in (s0 s1 s2 s3 s4 s5 s6 s7 : Int) :
    weigh [s0, s1, s2, s3, s4, s5, s6, s7] weightsIn =
      45 * s1 + 64 * s2 + 45 * s3 - 45 * s5 - 64 * s6 - 45 * s7 := by
  simp only [weigh, weightsIn, List.zipWith_cons_cons, List.zipWith_nil_left, List.foldl_cons, List.foldl_nil]
  omega

theorem weigh_quad (s0 s1 s2 s3 s4 s5 s6 s7 : Int) :
    weigh [s0, s1, s2, s3, s4, s5, s6, s7] weightsQuad =
      64 * s0 + 45 * s1 - 45 * s3 - 64 * s4 - 45 * s5 + 45 * s7 := by
  simp only [weigh, weightsQuad, List.zipWith_cons_cons, List.zipWith_nil_left, List.foldl_cons, List.foldl_nil]
  omega

/-! ### The tests (R55, R56) -/

/-- Whether a figure is below a fraction, in sixteenths, of a reference that may be absent (R55). -/
def belowRef (ref : Option Int) (x : Int) (num : Nat) : Bool :=
  match ref with
  | some q => decide (x * 16 < q * num)
  | none => false

theorem belowRef_iff {ref : Option Int} {x : Int} {num : Nat} :
    belowRef ref x num = true ↔ ∃ q, ref = some q ∧ x * 16 < q * num := by
  cases ref with
  | none => simp [belowRef]
  | some r => simp [belowRef]

section
variable (s : State) (o : OutputId) (applied overrange : Bool) (x : Figures) (n : CycleNo)

theorem measurementOf_fail_iff :
    (measurementOf s o applied overrange x n).fail = true ↔
      applied = true ∧
        (x.ip < (outRec s o).minOn ∨ ∃ r, s.engine.cores[o].ref = some r ∧ x.ip * 16 < r * (outRec s o).failNum) := by
  have fail : (measurementOf s o applied overrange x n).fail =
      (applied && (decide (x.ip < (outRec s o).minOn) ||
        belowRef s.engine.cores[o].ref x.ip (outRec s o).failNum)) := rfl
  rw [fail, Bool.and_eq_true, Bool.or_eq_true, decide_eq_true_iff, belowRef_iff]

theorem measurementOf_dim_iff :
    (measurementOf s o applied overrange x n).dim = true ↔
      applied = true ∧ (measurementOf s o applied overrange x n).fail = false ∧
        ∃ r, s.engine.cores[o].ref = some r ∧ x.ip * 16 < r * (outRec s o).dimNum := by
  have dim : (measurementOf s o applied overrange x n).dim =
      (applied && !(measurementOf s o applied overrange x n).fail &&
        belowRef s.engine.cores[o].ref x.ip (outRec s o).dimNum) := rfl
  rw [dim, Bool.and_eq_true, Bool.and_eq_true, Bool.not_eq_true', belowRef_iff, and_assoc]

theorem measurementOf_unwanted_iff :
    (measurementOf s o applied overrange x n).unwanted = true ↔ applied = false ∧ (outRec s o).offLimit < x.ip := by
  have unwanted : (measurementOf s o applied overrange x n).unwanted =
      (!applied && decide (((outRec s o).offLimit : Int) < x.ip)) := rfl
  rw [unwanted, Bool.and_eq_true, Bool.not_eq_true', decide_eq_true_iff]

theorem measurementOf_openFeeder_iff :
    (measurementOf s o applied overrange x n).openFeeder = true ↔
      applied = true ∧ ∃ q, s.engine.cores[o].qref = some q ∧ x.qf * 16 < q * (outRec s o).openNum := by
  have openFeeder : (measurementOf s o applied overrange x n).openFeeder =
      (applied && belowRef s.engine.cores[o].qref x.qf (outRec s o).openNum) := rfl
  rw [openFeeder, Bool.and_eq_true, belowRef_iff]

theorem measurementOf_reversed_iff :
    (measurementOf s o applied overrange x n).reversed = true ↔ applied = true ∧ x.ip ≤ -64 := by
  have reversed : (measurementOf s o applied overrange x n).reversed = (applied && decide (x.ip ≤ -64)) := rfl
  rw [reversed, Bool.and_eq_true, decide_eq_true_iff]

/-- The four cycles of a measurement end with the one that completed it (R57). -/
theorem measurementOf_cycles :
    (measurementOf s o applied overrange x n).cycles.map (·.val) =
      [(n.val + 13) % 16, (n.val + 14) % 16, (n.val + 15) % 16, n.val] := rfl

end

/-! ### Learning (R59 to R61) -/

theorem investigationOf_isSome_iff (s : State) (o : OutputId) :
    (investigationOf s o).isSome = true ↔
      ∃ (i : InvSlot) (v : Investigation), s.cable.investigations[i] = some v ∧ v.x = o := by
  rw [investigationOf, List.find?_isSome]
  refine exists_congr fun i => ?_
  cases s.cable.investigations[i] with
  | none => simp
  | some v => simp [allInvSlots]

theorem learningFrozen_iff (s : State) (o : OutputId) :
    learningFrozen s o = true ↔
      faultActive s .lampDark (.output o) = true ∨ s.cable.feeders[o].opened = true ∨
        ∃ (i : InvSlot) (v : Investigation), s.cable.investigations[i] = some v ∧ v.x = o := by
  rw [learningFrozen, Bool.or_eq_true, Bool.or_eq_true, investigationOf_isSome_iff, or_assoc]

/-- An output takes a transition from its measurements unless it is ISOLATED, or in SENSE_LOST on a SILENT card (R68,
R74, R75). -/
theorem unmeasured_eq_false_iff (s : State) (o : OutputId) :
    unmeasured s o = false ↔
      s.proving.outputs[o].state ≠ .isolated ∧
        (s.proving.outputs[o].state = .senseLost → s.line.cards[cardOf o].online = true) := by
  unfold unmeasured
  cases s.proving.outputs[o].state <;> simp

end Sys2Proof.Machine
end

section
/-! PROOFS. Chapter 3, a completion: its records, what it learns, and what it leaves. -/

namespace Sys2Proof.Machine

/-! ### The records of a completion (R54, R56; log entry 54) -/

theorem modCore_congr {o : OutputId} {f g : CoreRec → CoreRec} {s : State} (h : f (coreAt o s) = g (coreAt o s)) :
    modCore s o f = modCore s o g :=
  congrArg (fun v => ({ s with engine := { s.engine with cores := v } } : State)) (vmod_congr h)

theorem modRes_congr {c : CardId} {f g : ResRec → ResRec} {s : State} (h : f (residualAt c s) = g (residualAt c s)) :
    modRes s c f = modRes s c g :=
  congrArg (fun v => ({ s with engine := { s.engine with residuals := v } } : State)) (vmod_congr h)

theorem settleOverrange_eq (x : Subject) (b : Bool) (ip : Int) (s : State) :
    settleOverrange x b ip s =
      (if b then post .currentOverrange x false (some [wordInt ip]) else endFault .currentOverrange x) s := by
  cases b <;> rfl

theorem settleReversed_eq {m : CoreMeas} (h : m.reversed = true ↔ m.applied = true ∧ m.ip ≤ -64) (s : State) :
    settleReversed m s =
      if m.applied then
        if m.ip ≤ -64 then post .senseReversed (.output m.output) false (some [wordInt m.ip]) s
        else endFault .senseReversed (.output m.output) s
      else s := by
  unfold settleReversed
  cases on : m.applied with
  | false => rw [if_neg fun reversed => absurd (h.mp reversed).1 (by rw [on]; decide)]; rfl
  | true =>
    rw [if_pos rfl, if_pos rfl]
    exact if_congr (h.trans (and_iff_right on)) rfl rfl

theorem settleOverrange_frame (x : Subject) (b : Bool) (ip : Int) (s : State) :
    settleOverrange x b ip s = { s with faults := (settleOverrange x b ip s).faults } := by
  cases b <;> rfl

theorem settleReversed_frame (m : CoreMeas) (s : State) :
    settleReversed m s = { s with faults := (settleReversed m s).faults } := by
  unfold settleReversed
  cases m.reversed <;> cases m.applied <;> rfl

/-! ### A completed core measurement (R53 to R57) -/

/-- A core whose sums are turned into figures, with a fresh sum begun (R53). -/
def completedCore (r : CoreRec) : CoreRec := { r with acc := completedAccum r.acc, figures := some (figuresOf r.acc) }

/-- The measurement that a core's sums give at their completion (R53). -/
def measuredFrom (o : OutputId) (applied : Bool) (n : CycleNo) (s : State) : CoreMeas :=
  measurementOf s o applied (coreAt o s).acc.overrange (figuresOf (coreAt o s).acc) n

/-- The figures of a measurement stored and its records settled, before it is proved (R54, R56; log entry 54). -/
def recordsSettled (m : CoreMeas) (s : State) : State :=
  settleReversed m (settleOverrange (.output m.output) m.overrange m.ip (modCore s m.output completedCore))

/-- Whether a measurement may be learnt from, in the state in which it comes to be proved (R59, R61). -/
def mayLearn (m : CoreMeas) (s : State) : Bool :=
  m.applied && !m.fail && (outRec s m.output).used && !learningFrozen s m.output && !unmeasured s m.output

/-- A measurement proved, then offered to learning where it may be learnt from. -/
def provedAndOffered (m : CoreMeas) (s : State) : State :=
  if mayLearn m s then learnFrom m (prove m s) else prove m s

/-- A measurement kept for the delivery (R57). -/
def keepMeasurement (m : CoreMeas) (s : State) : State := modExchange s fun e => { e with cores := e.cores ++ [m] }

theorem completeCore_eq (o : OutputId) (applied : Bool) (n : CycleNo) (s : State) :
    completeCore o applied n s =
      keepMeasurement (measuredFrom o applied n s)
        (provedAndOffered (measuredFrom o applied n s) (recordsSettled (measuredFrom o applied n s) s)) := rfl

theorem recordsSettled_frame (m : CoreMeas) (s : State) :
    recordsSettled m s = { modCore s m.output completedCore with faults := (recordsSettled m s).faults } := by
  rw [recordsSettled, settleReversed_frame, settleOverrange_frame]

/-- The settling of the records leaves what decides whether the measurement is learnt from, but for LAMP_DARK. -/
theorem mayLearn_recordsSettled (m : CoreMeas) (s : State) :
    mayLearn m (recordsSettled m s) = true ↔
      m.applied = true ∧ m.fail = false ∧ (outRec s m.output).used = true ∧
        learningFrozen (recordsSettled m s) m.output = false ∧ s.proving.outputs[m.output].state ≠ .isolated ∧
        (s.proving.outputs[m.output].state = .senseLost → s.line.cards[cardOf m.output].online = true) := by
  have table : outRec (recordsSettled m s) m.output = outRec s m.output := by rw [recordsSettled_frame]; rfl
  have measured : unmeasured (recordsSettled m s) m.output = unmeasured s m.output := by
    rw [recordsSettled_frame]; rfl
  simp only [mayLearn, Bool.and_eq_true, Bool.not_eq_true', table, measured, unmeasured_eq_false_iff, and_assoc]

/-- When a measurement is not learnt from (R59, R61). -/
theorem not_mayLearn_recordsSettled {m : CoreMeas} {s : State}
    (h : m.applied = false ∨ m.fail = true ∨ (outRec s m.output).used = false ∨
      learningFrozen (recordsSettled m s) m.output = true ∨ s.proving.outputs[m.output].state = .isolated ∨
      s.proving.outputs[m.output].state = .senseLost ∧ s.line.cards[cardOf m.output].online = false) :
    ¬mayLearn m (recordsSettled m s) = true := by
  rw [mayLearn_recordsSettled]
  rintro ⟨on, lit, used, free, notIsolated, regained⟩
  rcases h with off | dark | unused | frozen | isolated | ⟨lost, silent⟩
  · exact Bool.false_ne_true (off.symm.trans on)
  · exact Bool.false_ne_true (lit.symm.trans dark)
  · exact Bool.false_ne_true (unused.symm.trans used)
  · exact Bool.false_ne_true (free.symm.trans frozen)
  · exact notIsolated isolated
  · exact Bool.false_ne_true (silent.symm.trans (regained lost))

/-- The records of a core's completion written out (R54, R56; log entry 54). -/
theorem recordsSettled_measurementOf {s : State} {o : OutputId} {applied : Bool} {n : CycleNo} {a : Accum Bool}
    (ha : a = s.engine.cores[o].acc) :
    recordsSettled (measurementOf s o applied a.overrange (figuresOf a) n) s =
      (fun u =>
        if applied then
          if (figuresOf a).ip ≤ -64 then post .senseReversed (.output o) false (some [wordInt (figuresOf a).ip]) u
          else endFault .senseReversed (.output o) u
        else u)
        ((if a.overrange then post .currentOverrange (.output o) false (some [wordInt (figuresOf a).ip])
          else endFault .currentOverrange (.output o))
          (modCore s o fun c => { c with acc := completedAccum a, figures := some (figuresOf a) })) := by
  have stored : modCore s o completedCore =
      modCore s o fun c => { c with acc := completedAccum a, figures := some (figuresOf a) } :=
    modCore_congr (by rw [ha]; rfl)
  rw [recordsSettled, settleReversed_eq (measurementOf_reversed_iff s o applied _ _ n), settleOverrange_eq, ← stored]
  rfl

theorem completeCore_learns {o : OutputId} {applied : Bool} {n : CycleNo} {m : CoreMeas} {s v : State}
    (hm : m = measuredFrom o applied n s) (hv : v = recordsSettled m s) (h : mayLearn m v = true) :
    completeCore o applied n s =
      modExchange
        (modCore (prove m v) o fun c =>
          { c with ref := learn c.ref m.ip, qref := if 16 ≤ m.qf then learn c.qref m.qf else c.qref })
        fun e => { e with cores := e.cores ++ [m] } := by
  subst hm hv
  rw [completeCore_eq, provedAndOffered, if_pos h]
  rfl

theorem completeCore_keeps {o : OutputId} {applied : Bool} {n : CycleNo} {m : CoreMeas} {s v : State}
    (hm : m = measuredFrom o applied n s) (hv : v = recordsSettled m s) (h : ¬mayLearn m v = true) :
    completeCore o applied n s = modExchange (prove m v) fun e => { e with cores := e.cores ++ [m] } := by
  subst hm hv
  rw [completeCore_eq, provedAndOffered, if_neg h]
  rfl

/-- A core from its measurement's figures to its references: the records and the proving leave it, learning sets the
references alone (R53, R59, R60). -/
theorem completeCore_core (o : OutputId) (applied : Bool) (n : CycleNo) (s : State) :
    ∃ r q : CoreRec → Option Int, (completeCore o applied n s).engine =
      { s.engine with cores := vmod s.engine.cores o fun c => { completedCore c with ref := r c, qref := q c } } := by
  rw [completeCore_eq]
  have proved : (prove (measuredFrom o applied n s) (recordsSettled (measuredFrom o applied n s) s)).engine =
      { s.engine with cores := vmod s.engine.cores o completedCore } := by
    rw [(keeps_prove _ _).engine, recordsSettled_frame]
    rfl
  unfold provedAndOffered keepMeasurement
  split
  · have learnt : (learnFrom (measuredFrom o applied n s)
        (prove (measuredFrom o applied n s) (recordsSettled (measuredFrom o applied n s) s))).engine =
        { s.engine with
          cores := vmod s.engine.cores o fun c =>
            { completedCore c with
              ref := learn c.ref (measuredFrom o applied n s).ip
              qref :=
                if 16 ≤ (measuredFrom o applied n s).qf then learn c.qref (measuredFrom o applied n s).qf
                else c.qref } } := by
      rw [learnFrom, modCore_engine, proved]
      exact congrArg (fun v => ({ s.engine with cores := v } : Engine)) (vmod_vmod _ _ _ _)
    exact ⟨_, _, learnt⟩
  · exact ⟨CoreRec.ref, CoreRec.qref, proved⟩

/-- A completion's measurement is added to those kept for the delivery (R57). -/
theorem completeCore_exchange (o : OutputId) (applied : Bool) (n : CycleNo) (s : State) :
    (completeCore o applied n s).line.exchange.cores = s.line.exchange.cores ++ [measuredFrom o applied n s] := by
  have kept : (provedAndOffered (measuredFrom o applied n s) (recordsSettled (measuredFrom o applied n s) s)).line =
      s.line := by
    have proved : (prove (measuredFrom o applied n s) (recordsSettled (measuredFrom o applied n s) s)).line =
        s.line := by
      rw [(keeps_prove _ _).line, recordsSettled_frame]
      rfl
    unfold provedAndOffered
    split
    · exact proved
    · exact proved
  rw [completeCore_eq]
  exact congrArg (fun l => l.exchange.cores ++ [measuredFrom o applied n s]) kept

/-! ### A completed residual measurement (R58) -/

/-- A residual channel whose sums are turned into figures (R53, R58). -/
def completedResidual (r : ResRec) : ResRec := { acc := completedAccum r.acc, figures := some (figuresOf r.acc) }

/-- The leakage that a residual channel's sums give (R58). -/
def leakFrom (c : CardId) (s : State) : ResMeas := { card := c, leak := (figuresOf (residualAt c s).acc).ip.natAbs }

theorem completeResidualMeas_eq (c : CardId) (s : State) :
    completeResidualMeas c s =
      modExchange
        (settleOverrange (.card c) (residualAt c s).acc.overrange (figuresOf (residualAt c s).acc).ip
          (modRes s c completedResidual))
        fun e => { e with residuals := e.residuals ++ [leakFrom c s] } := by
  have stored : modRes s c completedResidual =
      modRes s c fun r => { acc := completedAccum r.acc, figures := some (figuresOf (residualAt c s).acc) } :=
    modRes_congr rfl
  rw [stored]
  rfl

theorem completeResidualMeas_frame (c : CardId) (s : State) :
    (completeResidualMeas c s).engine = { s.engine with residuals := vmod s.engine.residuals c completedResidual } ∧
      (completeResidualMeas c s).proving = s.proving ∧
      (completeResidualMeas c s).line.exchange.cores = s.line.exchange.cores ∧
      (completeResidualMeas c s).line.exchange.residuals = s.line.exchange.residuals ++ [leakFrom c s] := by
  rw [completeResidualMeas_eq, settleOverrange_frame]
  exact ⟨rfl, rfl, rfl, rfl⟩

end Sys2Proof.Machine
end

section
/-! PROOFS. Chapter 3, what a window shows of an output: its applied state and its echo flag. -/

namespace Sys2Proof.Machine

/-! ### Applied states and echo flags (R67, R68) -/

/-- What a window shows of an output: its applied state and its echo flag. -/
def shown (r : OutputProof) : Option Bool × Bool := (r.applied, r.echo)

/-- The same, as a field of the whole part. -/
def shownAt (o : OutputId) (s : State) : Option Bool × Bool := shown s.proving.outputs[o]

/-- What windows show is left, of every output. -/
def ShownKept (s t : State) : Prop := ∀ o, shownAt o t = shownAt o s

theorem ShownKept.refl (s : State) : ShownKept s s := fun _ => rfl

theorem ShownKept.trans {s t u : State} (a : ShownKept s t) (b : ShownKept t u) : ShownKept s u :=
  fun o => (b o).trans (a o)

theorem ShownKept.of_proving {s t : State} (h : t.proving = s.proving) : ShownKept s t := fun o => by
  rw [shownAt, h]
  rfl

theorem ProofsStay.shownKept {s t : State} (h : ProofsStay s t) : ShownKept s t := fun o => by
  rw [shownAt, h.outputs o]
  rfl

/-- A change of an output's proving fields, seen at what windows show. -/
theorem modProof_shown {f : OutputProof → OutputProof} {g : Option Bool × Bool → Option Bool × Bool}
    (h : ∀ r, shown (f r) = g (shown r)) (o p : OutputId) (s : State) :
    shownAt p (modProof s o f) = if o = p then g (shownAt p s) else shownAt p s := by
  rw [shownAt, modProof_output]
  split
  · exact h _
  · rfl

theorem setProving_shown {f : OutputProof → OutputProof} {g : Option Bool × Bool → Option Bool × Bool}
    (h : ∀ r, shown (f r) = g (shown r)) (o p : OutputId) (s : State) :
    shownAt p (setProving o f s) = if o = p then g (shownAt p s) else shownAt p s :=
  ((proofsStay_stateChanged o _ (modProof s o f)).shownKept p).trans (modProof_shown h o p s)

theorem shown_modProof {f : OutputProof → OutputProof} (h : ∀ r, shown (f r) = shown r) (o : OutputId) (s : State) :
    ShownKept s (modProof s o f) := fun p => (modProof_shown (g := id) h o p s).trans (ite_self _)

theorem shown_setProving {f : OutputProof → OutputProof} (h : ∀ r, shown (f r) = shown r) (o : OutputId) (s : State) :
    ShownKept s (setProving o f s) := fun p => (setProving_shown (g := id) h o p s).trans (ite_self _)

/-! #### Measurements and sense counts show nothing new -/

theorem shown_settleLampRecords (m : CoreMeas) (s : State) : ShownKept s (settleLampRecords m s) := by
  unfold settleLampRecords
  dsimp only
  split
  · split
    · exact .of_proving rfl
    · exact .of_proving rfl
  · exact .of_proving rfl

theorem shown_measuredLit (m : CoreMeas) (s : State) : ShownKept s (measuredLit m s) := by
  have lit := shown_setProving (f := fun r => { r with state := .provedOn, failing := 0 }) (fun _ => rfl) m.output s
  unfold measuredLit
  dsimp only
  split
  · exact lit.trans (shown_settleLampRecords m _)
  · exact lit

theorem shown_measuredDark (m : CoreMeas) (s : State) : ShownKept s (measuredDark m s) := by
  unfold measuredDark
  dsimp only
  split
  · exact shown_setProving (fun _ => by rfl) m.output s
  · have dark :=
      shown_setProving (f := fun r => { r with failing := 2, state := .failedDark }) (fun _ => rfl) m.output s
    split
    · exact dark.trans (.of_proving rfl)
    · exact dark

theorem shown_measuredOff (m : CoreMeas) (s : State) : ShownKept s (measuredOff m s) := by
  have off (u : State) : ShownKept u (setProving m.output (fun r => { r with state := .provedOff, failing := 0 }) u) :=
    shown_setProving (fun _ => by rfl) m.output u
  unfold measuredOff
  dsimp only
  split
  · exact ShownKept.trans (t := endFault .unwantedCurrent (.output m.output) s) (.of_proving rfl) (off _)
  · exact off s

theorem openInvestigation_proving (o : OutputId) (s : State) : (openInvestigation o s).proving = s.proving := by
  unfold openInvestigation
  split
  · rfl
  · split <;> rfl

theorem shown_measuredUnwanted (m : CoreMeas) (s : State) : ShownKept s (measuredUnwanted m s) := by
  unfold measuredUnwanted
  dsimp only
  split
  · exact shown_modProof (fun _ => by rfl) m.output s
  · have entered : ShownKept s
        (openInvestigation m.output
          (post .unwantedCurrent (.output m.output) false (some [wordInt m.ip])
            (modProof s m.output fun r => { r with state := .litUnwanted, failing := 0, entryIp := m.ip }))) :=
      (shown_modProof (fun _ => by rfl) m.output s).trans (.of_proving (openInvestigation_proving _ _))
    refine ShownKept.trans ?_ (proofsStay_stateChanged _ _ _).shownKept
    split
    · exact entered.trans (.of_proving rfl)
    · exact entered

theorem shown_transition (m : CoreMeas) (s : State) : ShownKept s (transition m s) := by
  unfold transition
  split
  · split
    · exact shown_measuredDark m s
    · exact shown_measuredLit m s
  · split
    · exact shown_measuredUnwanted m s
    · exact shown_measuredOff m s

theorem shown_prove (m : CoreMeas) (s : State) : ShownKept s (prove m s) := by
  rw [prove_eq]
  split
  · exact .refl s
  · split
    · exact (shown_transition m s).trans (proofsStay_setRed _ _ _).shownKept
    · exact shown_transition m s

theorem shown_completeCore (o : OutputId) (b : Bool) (n : CycleNo) (s : State) :
    ShownKept s (completeCore o b n s) := by
  have proved : ShownKept s (prove (measuredFrom o b n s) (recordsSettled (measuredFrom o b n s) s)) := by
    refine ShownKept.trans ?_ (shown_prove _ _)
    rw [recordsSettled_frame]
    exact .of_proving rfl
  have offered : ShownKept s (provedAndOffered (measuredFrom o b n s) (recordsSettled (measuredFrom o b n s) s)) := by
    unfold provedAndOffered
    split
    · exact proved.trans (.of_proving rfl)
    · exact proved
  rw [completeCore_eq]
  exact offered.trans (.of_proving rfl)

theorem shown_countSense (o : OutputId) (b : Bool) (s : State) : ShownKept s (countSense o b s) := by
  unfold countSense
  split
  · exact .refl s
  · exact shown_modProof (fun _ => by rfl) o s
  · dsimp only
    generalize (if b = true then 0 else min 50 (s.proving.outputs[o].sense + 1)) = k
    split
    · exact shown_setProving (fun _ => by rfl) o s
    · exact shown_modProof (fun _ => by rfl) o s

/-! #### What a delivered core shows -/

/-- An echo flag after a window that shows the applied state b: whether the sent pattern differs, where it is still
listed (R67). -/
def echoAfter (sent : Option Bool) (b was : Bool) : Bool :=
  match sent with
  | some c => c != b
  | none => was

/-- The echo flag that a delivered core is left with, by the pattern listed for its cycle (R67). -/
theorem echoAfter_sentState (s : State) (n : CycleNo) (o : OutputId) (b was : Bool) :
    echoAfter (sentState s n o) b was =
      match s.line.patterns.find? (·.cycle == n) with
      | some p => p.states[o] != b
      | none => was := by
  unfold sentState
  cases s.line.patterns.find? (·.cycle == n) <;> rfl

theorem checkEcho_shown (o p : OutputId) (b : Bool) (sent : Option Bool) (s : State) :
    shownAt p (checkEcho o b sent s) =
      if o = p then ((shownAt p s).1, echoAfter sent b (shownAt p s).2) else shownAt p s := by
  cases sent with
  | none => exact (ite_self _).symm
  | some c =>
    have checked := modProof_shown (f := fun r => { r with echo := c != b }) (g := fun x => (x.1, c != b))
      (fun _ => rfl) o p s
    have records : ShownKept (modProof s o fun r => { r with echo := c != b }) (checkEcho o b (some c) s) := by
      unfold checkEcho
      dsimp only
      split
      · split
        · exact .refl _
        · exact .of_proving rfl
      · split
        · exact .of_proving rfl
        · exact .refl _
    exact (records p).trans checked

theorem storeApplied_shown (o p : OutputId) (b : Bool) (s : State) :
    shownAt p (storeApplied o b s) = if o = p then (some b, (shownAt p s).2) else shownAt p s := by
  unfold storeApplied
  split
  · split
    · exact modProof_shown (g := fun x => (some b, x.2)) (fun _ => rfl) o p s
    · split
      · exact setProving_shown (g := fun x => (some b, x.2)) (fun _ => rfl) o p s
      · exact modProof_shown (g := fun x => (some b, x.2)) (fun _ => rfl) o p s
    · exact setProving_shown (g := fun x => (some b, x.2)) (fun _ => rfl) o p s
  · exact modProof_shown (g := fun x => (some b, x.2)) (fun _ => rfl) o p s

theorem appliedChanges_iff (s : State) (o : OutputId) (b : Bool) :
    appliedChanges s o b = true ↔ ∃ p, s.proving.outputs[o].applied = some p ∧ p ≠ b := by
  unfold appliedChanges
  cases s.proving.outputs[o].applied with
  | none => simp
  | some a => simp

end Sys2Proof.Machine
end

section
/-! PROOFS. Chapter 3, the cores and the residual channel of a taken window. -/

namespace Sys2Proof.Machine

/-! ### One core of a window (R50, R53, R57) -/

/-- What the handling of one core leaves: what a window leaves, the residual channels, the other cores with what the window
shows of their outputs, and the measurements already kept. -/
structure OfCore (o : OutputId) (s t : State) : Prop extends WindowKeeps s t where
  residuals : t.engine.residuals = s.engine.residuals
  cores : ∀ p, p ≠ o → coreAt p t = coreAt p s
  shown : ∀ p, p ≠ o → shownAt p t = shownAt p s
  measured : ∀ m ∈ s.line.exchange.cores, m ∈ t.line.exchange.cores

theorem OfCore.trans {o : OutputId} {s t u : State} (a : OfCore o s t) (b : OfCore o t u) : OfCore o s u where
  toWindowKeeps := a.toWindowKeeps.trans b.toWindowKeeps
  residuals := b.residuals.trans a.residuals
  cores p ne := (b.cores p ne).trans (a.cores p ne)
  shown p ne := (b.shown p ne).trans (a.shown p ne)
  measured m hm := b.measured m (a.measured m hm)

theorem DecisionKeeps.ofCore {s t : State} (h : DecisionKeeps s t) {o : OutputId}
    (shown : ∀ p, p ≠ o → shownAt p t = shownAt p s) : OfCore o s t where
  toWindowKeeps := h.window
  residuals := by rw [h.engine]
  cores p _ := by rw [coreAt, h.engine]; rfl
  shown := shown
  measured m hm := by rw [h.line]; exact hm

theorem ofCore_modCore (o : OutputId) (f : CoreRec → CoreRec) (s : State) : OfCore o s (modCore s o f) where
  toWindowKeeps := window_modCore o f s
  residuals := rfl
  cores p ne := (coreAt_modCore o p f s).trans (if_neg ne.symm)
  shown _ _ := rfl
  measured _ hm := hm

theorem ofCore_countSense (o : OutputId) (b : Bool) (s : State) : OfCore o s (countSense o b s) :=
  (keeps_countSense o b s).ofCore fun p _ => shown_countSense o b s p

theorem ofCore_checkEcho (o : OutputId) (b : Bool) (sent : Option Bool) (s : State) :
    OfCore o s (checkEcho o b sent s) :=
  (keeps_checkEcho o b sent s).ofCore fun p ne => (checkEcho_shown o p b sent s).trans (if_neg ne.symm)

theorem ofCore_storeApplied (o : OutputId) (b : Bool) (s : State) : OfCore o s (storeApplied o b s) :=
  (keeps_storeApplied o b s).ofCore fun p ne => (storeApplied_shown o p b s).trans (if_neg ne.symm)

theorem ofCore_completeCore (o : OutputId) (b : Bool) (n : CycleNo) (s : State) : OfCore o s (completeCore o b n s) := by
  obtain ⟨r, q, engine⟩ := completeCore_core o b n s
  refine ⟨window_completeCore o b n s, ?_, fun p ne => ?_, fun p _ => shown_completeCore o b n s p, fun m hm => ?_⟩
  · rw [engine]
  · rw [coreAt, engine]
    exact (vmod_get _ o p _).trans (if_neg ne.symm)
  · rw [completeCore_exchange]
    exact List.mem_append_left _ hm

theorem modCore_modCore (o : OutputId) (f g : CoreRec → CoreRec) (s : State) :
    modCore (modCore s o f) o g = modCore s o fun r => g (f r) :=
  congrArg (fun v => ({ s with engine := { s.engine with cores := v } } : State)) (vmod_vmod _ o f g)

/-- A core with a window's samples taken and its applied state noted (R50, R57). -/
def sampled (b : Bool) (n : CycleNo) (xs : List Int) (r : CoreRec) : CoreRec :=
  { r with acc := takeSamples r.acc b n xs, history := r.history.set n (some b) }

/-- A delivered core with its samples taken, before a completion and its sense count (R50, R57, R67, R68). -/
def sampledCore (o : OutputId) (b : Bool) (sent : Option Bool) (n : CycleNo) (xs : List Int) (s : State) : State :=
  modCore (storeApplied o b (checkEcho o b sent s)) o (sampled b n xs)

theorem shownApplied_engine (o : OutputId) (b : Bool) (sent : Option Bool) (s : State) :
    (storeApplied o b (checkEcho o b sent s)).engine = s.engine :=
  ((keeps_checkEcho o b sent s).trans (keeps_storeApplied o b _)).engine

theorem sampledCore_core (o : OutputId) (b : Bool) (sent : Option Bool) (n : CycleNo) (xs : List Int) (s : State) :
    coreAt o (sampledCore o b sent n xs s) = sampled b n xs (coreAt o s) := by
  rw [sampledCore, coreAt_modCore, if_pos rfl, coreAt, shownApplied_engine]
  rfl

theorem ofCore_sampledCore (o : OutputId) (b : Bool) (sent : Option Bool) (n : CycleNo) (xs : List Int) (s : State) :
    OfCore o s (sampledCore o b sent n xs s) :=
  (ofCore_checkEcho o b sent s).trans ((ofCore_storeApplied o b _).trans (ofCore_modCore o _ _))

theorem sampledCore_shown (o : OutputId) (b : Bool) (sent : Option Bool) (n : CycleNo) (xs : List Int) (s : State) :
    shownAt o (sampledCore o b sent n xs s) = (some b, echoAfter sent b (shownAt o s).2) := by
  have stored : shownAt o (storeApplied o b (checkEcho o b sent s)) = (some b, echoAfter sent b (shownAt o s).2) := by
    rw [storeApplied_shown, if_pos rfl, checkEcho_shown, if_pos rfl]
  exact stored

/-- A delivered core completed at its fourth summed cycle (R53). -/
def completedAtFourth (o : OutputId) (b : Bool) (n : CycleNo) (count : Nat) (s : State) : State :=
  if count = 4 then completeCore o b n s else s

theorem deliveredCore_eq (o : OutputId) (b : Bool) (sent : Option Bool) (n : CycleNo) (xs : List Int) (s : State)
    {a : Accum Bool} (ha : a = takeSamples (coreAt o s).acc b n xs) :
    deliveredCore o b sent n xs s =
      countSense o (a.count == 4 || appliedChanges s o b)
        (completedAtFourth o b n a.count (sampledCore o b sent n xs s)) := by
  have summed : modCore (setHistory o n (some b) (storeApplied o b (checkEcho o b sent s))) o
      (fun c => { c with acc := takeSamples c.acc b n xs }) = sampledCore o b sent n xs s := modCore_modCore o _ _ _
  have acc : (sampledCore o b sent n xs s).engine.cores[o].acc = a := by
    rw [ha]
    exact congrArg CoreRec.acc (sampledCore_core o b sent n xs s)
  unfold deliveredCore completedAtFourth
  simp only [summed, acc, beq_iff_eq]

theorem ofCore_deliveredCore (o : OutputId) (b : Bool) (sent : Option Bool) (n : CycleNo) (xs : List Int) (s : State) :
    OfCore o s (deliveredCore o b sent n xs s) := by
  have samples := ofCore_sampledCore o b sent n xs s
  rw [deliveredCore_eq o b sent n xs s rfl]
  refine OfCore.trans ?_ (ofCore_countSense o _ _)
  unfold completedAtFourth
  split
  · exact samples.trans (ofCore_completeCore o b n _)
  · exact samples

theorem missingCore_eq (o : OutputId) (n : CycleNo) (s : State) :
    missingCore o n s = countSense o false (modCore s o (missed n)) :=
  congrArg (countSense o false) (modCore_modCore o _ _ s)

theorem ofCore_missingCore (o : OutputId) (n : CycleNo) (s : State) : OfCore o s (missingCore o n s) := by
  rw [missingCore_eq]
  exact (ofCore_modCore o _ s).trans (ofCore_countSense o false _)

theorem missingCore_shown (o p : OutputId) (n : CycleNo) (s : State) :
    shownAt p (missingCore o n s) = shownAt p s := by
  rw [missingCore_eq]
  exact shown_countSense o false (modCore s o (missed n)) p

/-! ### What a window leaves of one core -/

/-- What the handling of everything but one core leaves: what a window leaves, that core with what the window shows of its
output, and the measurements already kept. -/
structure BesidesCore (o : OutputId) (s t : State) : Prop extends WindowKeeps s t where
  core : coreAt o t = coreAt o s
  shown : shownAt o t = shownAt o s
  measured : ∀ m ∈ s.line.exchange.cores, m ∈ t.line.exchange.cores

theorem BesidesCore.refl (o : OutputId) (s : State) : BesidesCore o s s := ⟨.refl s, rfl, rfl, fun _ hm => hm⟩

theorem BesidesCore.trans {o : OutputId} {s t u : State} (a : BesidesCore o s t) (b : BesidesCore o t u) :
    BesidesCore o s u where
  toWindowKeeps := a.toWindowKeeps.trans b.toWindowKeeps
  core := b.core.trans a.core
  shown := b.shown.trans a.shown
  measured m hm := b.measured m (a.measured m hm)

theorem OfCore.besides {o p : OutputId} {s t : State} (h : OfCore p s t) (ne : o ≠ p) : BesidesCore o s t :=
  ⟨h.toWindowKeeps, h.cores o ne, h.shown o ne, h.measured⟩

/-- What a window makes of a core that it delivers with the applied state b, its samples summed to a (R50, R53, R57). -/
structure CoreTaken (o : OutputId) (b : Bool) (sent : Option Bool) (n : CycleNo) (a : Accum Bool) (s t : State) :
    Prop where
  shown : shownAt o t = (some b, echoAfter sent b (shownAt o s).2)
  history : (coreAt o t).history = (coreAt o s).history.set n (some b)
  summing : a.count ≠ 4 → coreAt o t = { coreAt o s with acc := a, history := (coreAt o s).history.set n (some b) }
  completed : a.count = 4 → (coreAt o t).acc = completedAccum a ∧ (coreAt o t).figures = some (figuresOf a) ∧
    measurementOf s o b a.overrange (figuresOf a) n ∈ t.line.exchange.cores

theorem measurementOf_congr {s t : State} {o : OutputId} (safety : t.safety = s.safety)
    (ref : (coreAt o t).ref = (coreAt o s).ref) (qref : (coreAt o t).qref = (coreAt o s).qref) (b overrange : Bool)
    (x : Figures) (n : CycleNo) : measurementOf t o b overrange x n = measurementOf s o b overrange x n := by
  have table : outRec t o = outRec s o := by rw [outRec, activeTable, safety]; rfl
  unfold coreAt at ref qref
  simp only [measurementOf, table, ref, qref]

theorem CoreTaken.after {o : OutputId} {b : Bool} {sent : Option Bool} {n : CycleNo} {a : Accum Bool} {s t u : State}
    (h : CoreTaken o b sent n a s t) (rest : BesidesCore o t u) : CoreTaken o b sent n a s u where
  shown := rest.shown.trans h.shown
  history := by rw [rest.core]; exact h.history
  summing few := rest.core.trans (h.summing few)
  completed four := by
    obtain ⟨acc, figures, kept⟩ := h.completed four
    rw [rest.core]
    exact ⟨acc, figures, rest.measured _ kept⟩

theorem CoreTaken.before {o : OutputId} {b : Bool} {sent : Option Bool} {n : CycleNo} {a : Accum Bool} {s t u : State}
    (h : CoreTaken o b sent n a t u) (rest : BesidesCore o s t) : CoreTaken o b sent n a s u := by
  obtain ⟨shown, history, summing, completed⟩ := h
  rw [measurementOf_congr rest.safety (by rw [rest.core]) (by rw [rest.core])] at completed
  rw [rest.shown] at shown
  rw [rest.core] at history summing
  exact ⟨shown, history, summing, completed⟩

theorem coreTaken_deliveredCore (o : OutputId) (b : Bool) (sent : Option Bool) (n : CycleNo) (xs : List Int) (s : State)
    {a : Accum Bool} (ha : a = takeSamples (coreAt o s).acc b n xs) :
    CoreTaken o b sent n a s (deliveredCore o b sent n xs s) := by
  have core : coreAt o (sampledCore o b sent n xs s) =
      { coreAt o s with acc := a, history := (coreAt o s).history.set n (some b) } := by
    rw [sampledCore_core, ha]
    rfl
  have samples := sampledCore_shown o b sent n xs s
  have taken : CoreTaken o b sent n a s (completedAtFourth o b n a.count (sampledCore o b sent n xs s)) := by
    by_cases four : a.count = 4
    · obtain ⟨r, q, engine⟩ := completeCore_core o b n (sampledCore o b sent n xs s)
      have completed : coreAt o (completeCore o b n (sampledCore o b sent n xs s)) =
          { completedCore (coreAt o (sampledCore o b sent n xs s)) with
            ref := r (coreAt o (sampledCore o b sent n xs s))
            qref := q (coreAt o (sampledCore o b sent n xs s)) } := by
        rw [coreAt, engine]
        exact vmod_same _ o _
      have measured : measuredFrom o b n (sampledCore o b sent n xs s) =
          measurementOf s o b a.overrange (figuresOf a) n := by
        rw [measuredFrom, measurementOf_congr (ofCore_sampledCore o b sent n xs s).safety
          (by rw [core]) (by rw [core]), core]
      rw [completedAtFourth, if_pos four]
      refine ⟨(shown_completeCore o b n _ o).trans samples, ?_, absurd four, fun _ => ⟨?_, ?_, ?_⟩⟩
      · rw [completed, core]; rfl
      · rw [completed, core]; rfl
      · rw [completed, core]; rfl
      · rw [completeCore_exchange, measured]
        exact List.mem_append_right _ (List.mem_singleton_self _)
    · rw [completedAtFourth, if_neg four]
      refine ⟨samples, ?_, fun _ => core, fun h => absurd h four⟩
      rw [core]
  have counted := keeps_countSense o (a.count == 4 || appliedChanges s o b)
    (completedAtFourth o b n a.count (sampledCore o b sent n xs s))
  rw [deliveredCore_eq o b sent n xs s ha]
  refine taken.after ⟨counted.window, ?_, shown_countSense o _ _ o, fun m hm => ?_⟩
  · rw [coreAt, counted.engine]; rfl
  · rw [counted.line]; exact hm

/-! ### The cores of a window (R50; log entry 55) -/

/-- One core of a window that delivers the first k of its card (R50). -/
def windowCore (w : Window) (k : Nat) (sent : OutputId → Option Bool) (o : OutputId) (s : State) : State :=
  if placeOf o < k then
    deliveredCore o (w.applied.getD (placeOf o) false) (sent o) w.cycle (w.samples.getD (placeOf o) []) s
  else missingCore o w.cycle s

theorem takeWindow_eq (c : CardId) (w : Window) (s : State) :
    takeWindow c w s =
      residualWindow c (w.applied.take (deliveredCount s c w)) w.cycle w.residual
        (eachOf (outputsOf c) (windowCore w (deliveredCount s c w) (sentState s w.cycle)) s) := rfl

theorem windowCore_delivered {w : Window} {k : Nat} {o : OutputId} (h : placeOf o < k) (sent : OutputId → Option Bool)
    (s : State) :
    windowCore w k sent o s =
      deliveredCore o (w.applied.getD (placeOf o) false) (sent o) w.cycle (w.samples.getD (placeOf o) []) s := if_pos h

theorem windowCore_missing {w : Window} {k : Nat} {o : OutputId} (h : k ≤ placeOf o) (sent : OutputId → Option Bool)
    (s : State) : windowCore w k sent o s = missingCore o w.cycle s := if_neg (Nat.not_lt.mpr h)

theorem ofCore_windowCore (w : Window) (k : Nat) (sent : OutputId → Option Bool) (o : OutputId) (s : State) :
    OfCore o s (windowCore w k sent o s) := by
  unfold windowCore
  split
  · exact ofCore_deliveredCore o _ _ _ _ s
  · exact ofCore_missingCore o _ s

/-! ### The residual channel of a window (R58) -/

/-- A residual channel with a window's samples taken (R58). -/
def sampledResidual (applied : List Bool) (n : CycleNo) (xs : List Int) (r : ResRec) : ResRec :=
  { r with acc := takeSamples r.acc applied n xs }

theorem residualWindow_eq (c : CardId) (applied : List Bool) (n : CycleNo) (xs : List Int) (s : State)
    {a : Accum (List Bool)} (ha : a = takeSamples (residualAt c s).acc applied n xs) :
    residualWindow c applied n xs s =
      if a.count = 4 then completeResidualMeas c (modRes s c (sampledResidual applied n xs))
      else modRes s c (sampledResidual applied n xs) := by
  have acc : (modRes s c (sampledResidual applied n xs)).engine.residuals[c].acc = a := by
    rw [ha]
    exact congrArg ResRec.acc (residualAt_modRes c _ s)
  subst ha
  unfold residualWindow
  have same : (modRes s c fun r => { r with acc := takeSamples r.acc applied n xs }) =
      modRes s c (sampledResidual applied n xs) := rfl
  simp only [same, acc, beq_iff_eq]

/-- The residual channel of a window is no core (R58). -/
theorem besides_residualWindow (o : OutputId) (c : CardId) (applied : List Bool) (n : CycleNo) (xs : List Int)
    (s : State) : BesidesCore o s (residualWindow c applied n xs s) := by
  have window := window_residualWindow c applied n xs s
  rw [residualWindow_eq c applied n xs s rfl] at window ⊢
  by_cases four : (takeSamples (residualAt c s).acc applied n xs).count = 4
  · obtain ⟨engine, proving, cores, -⟩ := completeResidualMeas_frame c (modRes s c (sampledResidual applied n xs))
    rw [if_pos four] at window ⊢
    refine ⟨window, ?_, ?_, fun m hm => ?_⟩
    · rw [coreAt, engine]; rfl
    · rw [shownAt, proving]; rfl
    · rw [cores]; exact hm
  · rw [if_neg four] at window ⊢
    exact ⟨window, rfl, rfl, fun _ hm => hm⟩

/-- What a window makes of its card's residual channel, the samples summed to a (R53, R58). -/
structure ResidualTaken (c : CardId) (a : Accum (List Bool)) (s t : State) : Prop where
  summing : a.count ≠ 4 → residualAt c t = { residualAt c s with acc := a }
  completed : a.count = 4 → residualAt c t = { acc := completedAccum a, figures := some (figuresOf a) } ∧
    { card := c, leak := (figuresOf a).ip.natAbs } ∈ t.line.exchange.residuals
  others : ∀ k, k ≠ c → residualAt k t = residualAt k s

theorem residualTaken_residualWindow (c : CardId) (applied : List Bool) (n : CycleNo) (xs : List Int) (s : State)
    {a : Accum (List Bool)} (ha : a = takeSamples (residualAt c s).acc applied n xs) :
    ResidualTaken c a s (residualWindow c applied n xs s) := by
  have own : residualAt c (modRes s c (sampledResidual applied n xs)) = { residualAt c s with acc := a } := by
    rw [residualAt_modRes, ha]
    rfl
  have other (k : CardId) (ne : k ≠ c) :
      residualAt k (modRes s c (sampledResidual applied n xs)) = residualAt k s :=
    (vmod_get _ c k _).trans (if_neg ne.symm)
  rw [residualWindow_eq c applied n xs s ha]
  by_cases four : a.count = 4
  · obtain ⟨engine, -, -, residuals⟩ := completeResidualMeas_frame c (modRes s c (sampledResidual applied n xs))
    rw [if_pos four]
    refine ⟨absurd four, fun _ => ⟨?_, ?_⟩, fun k ne => ?_⟩
    · have completed : residualAt c (completeResidualMeas c (modRes s c (sampledResidual applied n xs))) =
          completedResidual (residualAt c (modRes s c (sampledResidual applied n xs))) := by
        rw [residualAt, engine]
        exact vmod_same _ c _
      rw [completed, own]
      rfl
    · rw [residuals, leakFrom, own]
      exact List.mem_append_right _ (List.mem_singleton_self _)
    · rw [residualAt, engine]
      exact ((vmod_get _ c k _).trans (if_neg ne.symm)).trans (other k ne)
  · rw [if_neg four]
    exact ⟨fun _ => own, fun h => absurd h four, other⟩

/-! ### The whole window (R50) -/

theorem windowCores_residuals (c : CardId) (w : Window) (k : Nat) (sent : OutputId → Option Bool) (s : State) :
    (eachOf (outputsOf c) (windowCore w k sent) s).engine.residuals = s.engine.residuals :=
  eachOf_rel (R := fun s t => t.engine.residuals = s.engine.residuals) (fun _ => rfl) (fun a b => b.trans a)
    (fun o _ t => (ofCore_windowCore w k sent o t).residuals) s

theorem besides_windowCores {c : CardId} {o : OutputId} (h : cardOf o ≠ c) (w : Window) (k : Nat)
    (sent : OutputId → Option Bool) (s : State) :
    BesidesCore o s (eachOf (outputsOf c) (windowCore w k sent) s) :=
  eachOf_rel (BesidesCore.refl o) BesidesCore.trans
    (fun p hp t => (ofCore_windowCore w k sent p t).besides fun e => h (e ▸ (mem_outputsOf_iff c p).mp hp)) s

theorem besides_takeWindow {c : CardId} {o : OutputId} (h : cardOf o ≠ c) (w : Window) (s : State) :
    BesidesCore o s (takeWindow c w s) := by
  rw [takeWindow_eq]
  exact (besides_windowCores h w _ _ s).trans (besides_residualWindow o c _ _ _ _)

/-- Among its card's cores and residual channel each core is handled once (R50). -/
theorem takeWindow_once {c : CardId} {o : OutputId} (h : cardOf o = c) (w : Window) (s : State) :
    ∃ t, BesidesCore o s t ∧
      BesidesCore o (windowCore w (deliveredCount s c w) (sentState s w.cycle) o t) (takeWindow c w s) := by
  obtain ⟨t, before, after⟩ := eachOf_once (R := BesidesCore o) (BesidesCore.refl o) BesidesCore.trans
    (fun p u ne => (ofCore_windowCore w (deliveredCount s c w) (sentState s w.cycle) p u).besides ne.symm)
    (nodup_outputsOf c) ((mem_outputsOf_iff c o).mpr h) s
  rw [takeWindow_eq]
  exact ⟨t, before, after.trans (besides_residualWindow o c _ _ _ _)⟩

theorem takeWindow_delivered {c : CardId} {o : OutputId} (h : cardOf o = c) {w : Window} {s : State}
    (place : placeOf o < deliveredCount s c w) {b : Bool} (hb : b = w.applied.getD (placeOf o) false) {a : Accum Bool}
    (ha : a = takeSamples (coreAt o s).acc b w.cycle (w.samples.getD (placeOf o) [])) :
    CoreTaken o b (sentState s w.cycle o) w.cycle a s (takeWindow c w s) := by
  obtain ⟨t, before, after⟩ := takeWindow_once h w s
  rw [windowCore_delivered place, ← hb] at after
  rw [← before.core] at ha
  exact ((coreTaken_deliveredCore o b _ _ _ t ha).before before).after after

theorem takeWindow_undelivered {c : CardId} {o : OutputId} (h : cardOf o = c) {w : Window} {s : State}
    (place : deliveredCount s c w ≤ placeOf o) :
    shownAt o (takeWindow c w s) = shownAt o s ∧ coreAt o (takeWindow c w s) = missed w.cycle (coreAt o s) := by
  obtain ⟨t, before, after⟩ := takeWindow_once h w s
  rw [windowCore_missing place] at after
  rw [after.shown, after.core, missingCore_shown, missingCore_core, if_pos rfl, before.shown, before.core]
  exact ⟨rfl, rfl⟩

theorem takeWindow_residual (c : CardId) (w : Window) (s : State) {a : Accum (List Bool)}
    (ha : a = takeSamples (residualAt c s).acc (w.applied.take (deliveredCount s c w)) w.cycle w.residual) :
    ResidualTaken c a s (takeWindow c w s) := by
  have kept (k : CardId) :
      residualAt k (eachOf (outputsOf c) (windowCore w (deliveredCount s c w) (sentState s w.cycle)) s) =
        residualAt k s := by
    rw [residualAt, windowCores_residuals]
    rfl
  rw [← kept c] at ha
  obtain ⟨summing, completed, others⟩ := residualTaken_residualWindow c _ w.cycle w.residual _ ha
  rw [kept c] at summing
  rw [takeWindow_eq]
  exact ⟨summing, completed, fun k ne => (others k ne).trans (kept k)⟩

end Sys2Proof.Machine
end

section
/-! PROOFS. Chapter 3, the windows of an exchange: one taken from its slot, one missing at its slot's close. -/

namespace Sys2Proof.Machine

/-! ### A window taken from its slot (R37, R50) -/

theorem handWindow_valid {c : CardId} {w : Window} {s : State} (h : s.line.mains.state = .valid) :
    handWindow c w s = takeWindow c w s := if_pos (beq_iff_eq.mpr h)

/-- An open slot of which the window has been taken from a line's good copy (R36, R37). -/
def slotTaken (l : LineId) (x : Slot) (s : State) : State :=
  setSlot (some { x with verdict := x.verdict.set l (some .good), took := true }) s

/-- The first good copy of an open slot, in VALID: the slot with its verdict, the window taken, and the card's last cycle
number set (R36, R37). -/
theorem execWindow_takes {l : LineId} {rx : RxFrame} {x : Slot} {s : State} (hx : s.line.exchange.slot = some x)
    (valid : s.line.mains.state = .valid) (up : (s.line.lines.get l).state ≠ .jammed) (first : x.verdict.get l = none)
    (fresh : x.took = false) (good : judgeFrame x.card x.expect rx = .good) :
    exec (.window l rx) s =
      .next
        (modCard (takeWindow x.card (windowOf rx.chars x.expect) (slotTaken l x s)) x.card
          fun r => { r with lastCycle := some x.expect }) := by
  rw [execWindow_receives hx, receiveFrame_verdict hx up first, if_pos ⟨good, fresh⟩, acceptWindow_setSlot]
  exact congrArg (fun u => Host.Outcome.next (modCard u x.card fun r => { r with lastCycle := some x.expect }))
    (handWindow_valid (s := slotTaken l x s) valid)

/-! ### A window missing at its slot's close (R37, R51; log entry 76) -/

theorem settleMismatch_engine (c : CardId) (a b : Verdict) (took : Bool) (s : State) :
    (settleMismatch c a b took s).engine = s.engine := by
  cases named : mismatchNamed a b with
  | some z => rw [settleMismatch_named named]; split <;> rfl
  | none => rw [settleMismatch_none named]; split <;> rfl

theorem settleCard_engine {x : Slot} (missed : x.took = false) (a b : Verdict) (s : State) :
    (settleCard x a b s).engine = s.engine := by
  unfold settleCard
  dsimp only
  rw [settleMismatch_engine, if_neg (Bool.eq_false_iff.mp missed), noReply_engine]
  rfl

theorem settleLine_engine (l : LineId) (b : Bool) (s : State) : (settleLine l b s).engine = s.engine := by
  by_cases hd : Degrades l s
  · rw [settleLine_degrades hd]
    rfl
  · by_cases hr : Returns l b s
    · obtain ⟨k, back⟩ := settleLine_returns hr
      rw [back]
      rfl
    · rw [settleLine_stays hd hr]

theorem closeLine_engine (l : LineId) (b : Bool) (c : CardId) (k : CopyClass) (s : State) :
    (closeLine l b c k s).engine = s.engine := by
  rw [closeLine, settleLine_engine, countCopy_eq]
  rfl

theorem bookkept_engine {x : Slot} (missed : x.took = false) (s : State) : (bookkept x s).engine = s.engine := by
  rw [bookkept, closeLine_engine, closeLine_engine, settleCard_engine missed]

/-- The end of the exchange leaves the engine (R35, R57). -/
theorem afterClose_engine (old : Bool) (s : State) : (afterClose old s).engine = s.engine := by
  have delivered (u : State) : (deliver u).engine = u.engine := (delivery_deliver u).engine
  cases old with
  | true => exact delivered s
  | false =>
    obtain same | ended := endIfDone_cases s
    · exact congrArg State.engine same
    · exact (congrArg State.engine ended).trans (delivered _)

/-- A slot that closes in VALID without a window leaves the engine as its card's missing window does (R37). -/
theorem slotClosed_engine {x : Slot} {s : State} (valid : s.line.mains.state = .valid) (missed : x.took = false) :
    (slotClosed x s).engine = (missingWindow x.card x.expect (bookkept x s)).engine := by
  obtain ⟨-, mains, -, -⟩ := bookkept_keeps x s
  have closes : closeSlot x s = setSlot none (notifyMissing x.card x.expect (bookkept x s)) := by
    rw [closeSlot_eq, if_neg (Bool.eq_false_iff.mp missed)]
  rw [slotClosed, afterClose_engine, closes, notifyMissing_valid (by rw [mains]; exact valid)]
  rfl

theorem missingWindow_cores (c : CardId) (o : OutputId) (n : CycleNo) (s : State) :
    coreAt o (missingWindow c n s) = if cardOf o = c then missed n (coreAt o s) else coreAt o s := by
  by_cases own : cardOf o = c
  · rw [if_pos own, missingWindow_core c o own]
  · rw [if_neg own]
    exact (ofCard_missingWindow c n s).cores o own

theorem missingWindow_residuals (c k : CardId) (n : CycleNo) (s : State) :
    residualAt k (missingWindow c n s) = if k = c then restartedResidual (residualAt k s) else residualAt k s := by
  by_cases own : k = c
  · rw [if_pos own, own, missingWindow_residual]
  · rw [if_neg own]
    exact (ofCard_missingWindow c n s).residuals k own

theorem slotClosed_cores {x : Slot} {s : State} (valid : s.line.mains.state = .valid) (empty : x.took = false)
    (o : OutputId) :
    coreAt o (slotClosed x s) = if cardOf o = x.card then missed x.expect (coreAt o s) else coreAt o s := by
  have before : coreAt o (bookkept x s) = coreAt o s := by rw [coreAt, bookkept_engine empty]; rfl
  have closed : coreAt o (slotClosed x s) = coreAt o (missingWindow x.card x.expect (bookkept x s)) := by
    rw [coreAt, slotClosed_engine valid empty]; rfl
  rw [closed, missingWindow_cores, before]

theorem slotClosed_residuals {x : Slot} {s : State} (valid : s.line.mains.state = .valid) (empty : x.took = false)
    (k : CardId) :
    residualAt k (slotClosed x s) = if k = x.card then restartedResidual (residualAt k s) else residualAt k s := by
  have before : residualAt k (bookkept x s) = residualAt k s := by rw [residualAt, bookkept_engine empty]; rfl
  have closed : residualAt k (slotClosed x s) = residualAt k (missingWindow x.card x.expect (bookkept x s)) := by
    rw [residualAt, slotClosed_engine valid empty]; rfl
  rw [closed, missingWindow_residuals, before]

/-! ### The statement -/

/-- Settles O25: the tests and the completion as measured, the windows by what each leaves of one core and of the residual
channel. -/
theorem measurementTestsAndLearning : Obligations.MeasurementTestsAndLearning := by
  refine ⟨fun s o applied overrange x n m hm => ?_, fun o applied n a x m s u v w ha hx hm hu hv hw => ?_, learningFrozen_iff,
    fun c a x s ha hx => ?_, fun r x => ⟨rfl, rfl⟩, fun a applied n s0 s1 s2 s3 s4 s5 s6 s7 => ⟨fun held follows => ?_,
    fun h => takeSamples_restarts h _⟩, fun o b changed sent n samples a s u v ha hchanged hu hv => ?_, missingCore_eq,
    fun c n s => ⟨notifyMissing_lost, notifyMissing_valid⟩, fun c w k s hk => ?_,
    fun l rx x w k s hx valid up first fresh good hw hk => ?_, fun x s hx valid empty => ?_⟩
  · subst hm
    exact ⟨rfl, rfl, rfl, rfl, measurementOf_fail_iff .., measurementOf_dim_iff .., measurementOf_unwanted_iff ..,
      measurementOf_openFeeder_iff .., measurementOf_reversed_iff .., rfl, rfl, measurementOf_cycles ..⟩
  · have figures : x = figuresOf a := hx
    have settled : v = recordsSettled m s := by
      rw [hm, hv, hu, figures, recordsSettled_measurementOf ha]
      rfl
    subst figures ha hm hw
    refine ⟨fun h => ?_, fun h => ?_⟩
    · refine completeCore_learns rfl settled ?_
      rw [settled] at h ⊢
      exact (mayLearn_recordsSettled _ s).mpr h
    · refine completeCore_keeps rfl settled ?_
      rw [settled] at h ⊢
      exact not_mayLearn_recordsSettled h
  · subst ha hx
    rw [completeResidualMeas_eq, settleOverrange_eq]
    have stored : modRes s c completedResidual = modRes s c fun _ => completedResidual (residualAt c s) := modRes_congr rfl
    rw [stored]
    rfl
  · rw [takeSamples_goesOn held follows]
    refine ⟨fun settling => addSamples_settles settling n _, fun summing => ?_⟩
    rw [addSamples_adds summing, weigh_in, weigh_quad, held]
    rfl
  · have changes : appliedChanges s o b = changed := Bool.eq_iff_iff.mpr ((appliedChanges_iff s o b).trans hchanged.symm)
    have summed : sampledCore o b sent n samples s = u := by
      rw [hu, sampledCore]
      refine modCore_congr ?_
      rw [coreAt, shownApplied_engine, ha]
      rfl
    rw [deliveredCore_eq o b sent n samples s ha, changes, summed, hv]
    rfl
  · subst hk
    rfl
  · subst hw hk
    have run := execWindow_takes hx valid up first fresh good
    have delivered (o : OutputId) (card : cardOf o = x.card) := takeWindow_delivered card
      (w := windowOf rx.chars x.expect) (s := slotTaken l x s)
    have undelivered (o : OutputId) (card : cardOf o = x.card) := takeWindow_undelivered card
      (w := windowOf rx.chars x.expect) (s := slotTaken l x s)
    have others (o : OutputId) (card : cardOf o ≠ x.card) :=
      (besides_takeWindow card (windowOf rx.chars x.expect) (slotTaken l x s)).core
    have residual {a : Accum (List Bool)} := takeWindow_residual x.card (windowOf rx.chars x.expect) (slotTaken l x s)
      (a := a)
    refine ⟨_, run, rfl, ?_⟩
    generalize takeWindow x.card (windowOf rx.chars x.expect) (slotTaken l x s) = t at *
    refine ⟨fun o b a card place hb ha => ?_, fun o card place => ?_, others, fun a ha => ?_, (residual rfl).others⟩
    · obtain ⟨shown, history, summing, completed⟩ := delivered o card place hb ha
      refine ⟨congrArg Prod.fst shown, ?_, history, summing, completed⟩
      exact (congrArg Prod.snd shown).trans (echoAfter_sentState s x.expect o b _)
    · obtain ⟨shown, core⟩ := undelivered o card place
      exact ⟨congrArg Prod.fst shown, core⟩
    · obtain ⟨summing, completed, -⟩ := residual ha
      exact ⟨summing, completed⟩
  · exact ⟨_, execPollSlotClose_closes hx, slotClosed_cores valid empty, slotClosed_residuals valid empty⟩

end Sys2Proof.Machine
end

section
/-! PROOFS. Chapter 3, RELEARN: the references forgotten, of one output or of all. -/

namespace Sys2Proof.Machine

/-! ### RELEARN (R62) -/

theorem number_output_lt (o : OutputId) : number o < 0x41 := Nat.succ_lt_succ o.isLt

/-- An output's subject byte is its number (R205). -/
theorem outputByte_toNat (o : OutputId) : (BitVec.ofNat 8 (number o)).toNat = number o :=
  byte_toNat (Nat.lt_trans (number_output_lt o) (by decide))

theorem subjectOutput_number (o : OutputId) : subjectOutput (BitVec.ofNat 8 (number o)) = some o := by
  rw [subjectOutput, outputByte_toNat]
  exact oneBased_number o

/-- No output is named by the subject of all of them (R62). -/
theorem outputByte_ne_all (o : OutputId) : BitVec.ofNat 8 (number o) ≠ 0xFF := fun e => by
  have same : number o = 0xFF := (outputByte_toNat o).symm.trans (congrArg BitVec.toNat e)
  exact absurd (number_output_lt o) (by rw [same]; decide)

/-- A core without its references (R62). -/
def forgotten (r : CoreRec) : CoreRec := { r with ref := none, qref := none }

theorem forget_all (s : State) :
    forget (fun _ => true) s =
      { s with engine := { s.engine with cores := vgen fun o => forgotten s.engine.cores[o] } } := rfl

theorem forget_one (o : OutputId) (s : State) :
    forget (· == o) s =
      { s with engine := { s.engine with cores := s.engine.cores.set o (forgotten s.engine.cores[o]) } } := by
  have cores : (vgen fun p => if p == o then forgotten s.engine.cores[p] else s.engine.cores[p]) =
      s.engine.cores.set o (forgotten s.engine.cores[o]) := by
    refine vext fun p => ?_
    rw [vgen_get, vset_get]
    by_cases own : o = p
    · rw [if_pos own, ← own, if_pos (beq_self_eq_true o)]
    · rw [if_neg own, if_neg fun e => own (eq_of_beq e).symm]
  exact congrArg (fun v => ({ s with engine := { s.engine with cores := v } } : State)) cores

theorem relearnOp_all {f : Fields} (h : f.subject = 0xFF) (s : State) :
    relearnOp f s = done 0 (forget (fun _ => true) s) := if_pos (beq_iff_eq.mpr h)

theorem relearnOp_subject {f : Fields} (h : f.subject ≠ 0xFF) (s : State) :
    relearnOp f s =
      match subjectOutput f.subject with
      | some o => done 0 (forget (· == o) s)
      | none => refuse .badSubject 0 s := if_neg fun e => h (eq_of_beq e)

theorem relearnOp_output {f : Fields} {o : OutputId} (h : f.subject = BitVec.ofNat 8 (number o)) (s : State) :
    relearnOp f s = done 0 (forget (· == o) s) := by
  rw [relearnOp_subject (by rw [h]; exact outputByte_ne_all o), h, subjectOutput_number]

theorem relearnOp_refused {f : Fields} (h : f.subject = 0 ∨ 64 < f.subject.toNat ∧ f.subject ≠ 0xFF) (s : State) :
    relearnOp f s = refuse .badSubject 0 s := by
  have none : subjectOutput f.subject = none := oneBased_none (h.imp (congrArg BitVec.toNat) And.left)
  have notAll : f.subject ≠ 0xFF := by
    rcases h with zero | ⟨-, notAll⟩
    · rw [zero]; decide
    · exact notAll
  rw [relearnOp_subject notAll, none]

/-- Both links have the right to RELEARN (R203). -/
theorem granted_relearn (l : Link) : granted l 0x48 = true := by cases l <;> decide

/-- Settles O26: the subject names every output, one, or none. -/
theorem relearnForgetsTheReferences : Obligations.RelearnForgetsTheReferences := by
  intro l n v s
  have responds {f : Fields} {r : Result} {u : State}
      (h : relearnOp f (receive l 0x48 f s) =
        { result := r, value := 0, state := { u with ports := (receive l 0x48 f s).ports } }) :
      Responds (.relearn l f) l 0x48 f r 0 s u :=
    responds_of_handled _ l _ f (relearnOp f) s u r 0 rfl (granted_relearn l) h
  refine ⟨responds ?_, fun o => responds ?_, fun u h => responds (relearnOp_refused h _)⟩
  · rw [relearnOp_all rfl, forget_all]
    rfl
  · rw [relearnOp_output rfl, forget_one]
    rfl

end Sys2Proof.Machine
end

section
/-! PROOFS. Chapter 4, what every command keeps: the updates that the commands share, each with the one lemma that it
keeps the part's invariant. -/

namespace Sys2Proof.Machine

variable {Q : OutputId → Prop}

/-! ### Fields that no invariant reads -/

/-- The queue replaced. -/
theorem PartOn.setQueue {s : State} (h : PartOn Q s) (q : List Instr) : PartOn Q { s with pending := q } :=
  ⟨h.outputs, h.service.congr rfl rfl rfl, h.roles, h.calls, ⟨h.greens.fresh, h.greens.service, h.greens.apart⟩,
    h.commands, h.table, h.investigations, h.patterns, h.bars⟩

/-- The contact inputs replaced. -/
theorem PartOn.setInputs {s : State} (h : PartOn Q s) (v : Vector Input 16) : PartOn Q { s with inputs := v } :=
  ⟨h.outputs, h.service.congr rfl rfl rfl, h.roles, h.calls, ⟨h.greens.fresh, h.greens.service, h.greens.apart⟩,
    h.commands, h.table, h.investigations, h.patterns, h.bars⟩

/-- The fault table replaced by a sound one. -/
theorem PartOn.setFaults {s : State} (h : PartOn Q s) {t : FaultTable} (sound : TableOk t) :
    PartOn Q { s with faults := t } :=
  ⟨h.outputs, h.service.congr rfl rfl rfl, h.roles, h.calls, ⟨h.greens.fresh, h.greens.service, h.greens.apart⟩,
    h.commands, sound, h.investigations, h.patterns, h.bars⟩

/-- The safety unit replaced but for its active table (R7, R10). -/
theorem PartOn.setSafety {s : State} (h : PartOn Q s) {u : SafetyUnit} (same : u.active = s.safety.active) :
    PartOn Q { s with safety := u } := by
  cases u with
  | mk copies marks active signature outcome =>
    obtain rfl : active = s.safety.active := same
    exact ⟨h.outputs, h.service.congr rfl rfl rfl, h.roles, h.calls,
      ⟨h.greens.fresh, h.greens.service, h.greens.apart⟩, h.commands, h.table, h.investigations, h.patterns, h.bars⟩

/-! ### The plan memory -/

/-- Outside SERVICE no plan is pending (R116, R164). -/
theorem PartOn.noPending {s : State} (h : PartOn Q s) (n : s.service.state ≠ .service) : s.plans.pending = none := by
  cases e : s.service.state with
  | service => exact absurd e n
  | starting =>
    obtain ⟨-, pending, -⟩ := h.service.starting e
    exact pending
  | handedOver =>
    obtain ⟨-, -, pending, -⟩ := h.service.stopped e
    exact pending

/-- The plan memory changed with its active plan kept, and none pending outside SERVICE. -/
theorem PartOn.modPlans {s : State} (h : PartOn Q s) (f : PlanMemory → PlanMemory)
    (active : (f s.plans).active = s.plans.active)
    (pending : s.service.state ≠ .service → (f s.plans).pending = none) (roles : RolesReady (modPlans s f)) :
    PartOn Q (modPlans s f) := by
  refine ⟨h.outputs,
    ⟨fun (e : s.service.state = .handedOver) => ?_, fun (e : s.service.state = .starting) => ?_, h.service.serving,
      fun n => ?_, h.service.timed⟩, roles, h.calls,
    ⟨h.greens.fresh, h.greens.service, h.greens.apart⟩, h.commands, h.table, h.investigations, h.patterns, h.bars⟩
  · obtain ⟨stopped, none, -, timers⟩ := h.service.stopped e
    exact ⟨stopped, active.trans none, pending (by rw [e]; decide), timers⟩
  · obtain ⟨phase, -, rest⟩ := h.service.starting e
    exact ⟨phase, pending (by rw [e]; decide), rest⟩
  · obtain ⟨offer, some⟩ := h.service.active n
    exact ⟨offer, (congrArg Option.isSome active).trans some⟩

theorem rolesReady_modPlan {s : State} {p : PlanId} (h : RolesReady s) (free : planInUse s p = false)
    (f : Plan → Plan) : RolesReady (modPlan s p f) := fun q used => by
  have used : planInUse s q = true := used
  have ne : p ≠ q := fun e => Bool.false_ne_true (free.symm.trans (e ▸ used))
  show (vmod s.plans.plans p f)[q].state = .ready
  rw [vmod_get, if_neg ne]
  exact h q used

/-- A plan in no role changed (R108 to R110). -/
theorem PartOn.modPlan {s : State} (h : PartOn Q s) {p : PlanId} (free : planInUse s p = false) (f : Plan → Plan) :
    PartOn Q (modPlan s p f) :=
  h.modPlans (fun m => { m with plans := vmod m.plans p f }) rfl h.noPending (rolesReady_modPlan h.roles free f)

/-! ### The service controller -/

/-- The service controller changed in its check period, its offer, its changeover timer and the value of a vouch timer
that runs. -/
theorem PartOn.modService {s : State} (h : PartOn Q s) (f : Service → Service)
    (offer : s.service.state ≠ .handedOver → (f s.service).offer = none)
    (state : (f s.service).state = s.service.state := by rfl) (hold : (f s.service).hold = s.service.hold := by rfl)
    (flsel : (f s.service).flsel = s.service.flsel := by rfl) (start : (f s.service).start = s.service.start := by rfl)
    (twoKey : (f s.service).twoKey = s.service.twoKey := by rfl)
    (vouch : (f s.service).vouch.isSome = s.service.vouch.isSome := by rfl) : PartOn Q (modService s f) := by
  have same : (Machine.modService s f).service.state = s.service.state := state
  refine ⟨?_, ⟨fun e => ?_, fun e => ?_, fun e => ?_, fun n => ?_, fun e => ?_, fun e => ?_, fun n => ?_⟩, h.roles,
    h.calls, ⟨fun g => ?_, fun g e => ?_, fun n => ?_⟩, fun o q => ?_, h.table, h.investigations, h.patterns, h.bars⟩
  · obtain ⟨held, shown⟩ := h.outputs
    refine ⟨?_, flsel.trans shown⟩
    rw [same]
    exact hold.trans held
  · obtain ⟨stopped, none, pending, noStart, noVouch, noKey⟩ := h.service.stopped (same ▸ e)
    refine ⟨stopped, none, pending, start.trans noStart, ?_, twoKey.trans noKey⟩
    rw [noVouch] at vouch
    exact Option.not_isSome_iff_eq_none.mp fun some => Bool.false_ne_true (vouch.symm.trans some)
  · exact h.service.starting (same ▸ e)
  · exact h.service.serving (same ▸ e)
  · obtain ⟨-, active⟩ := h.service.active (same ▸ n)
    exact ⟨offer (same ▸ n), active⟩
  · exact (congrArg Option.isSome start).trans (h.service.timed.1 (same ▸ e))
  · exact start.trans (h.service.timed.2.1 (same ▸ e))
  · exact vouch.trans (h.service.timed.2.2 (same ▸ n))
  · exact (h.greens.fresh g).trans (exposedNow_congr same rfl g rfl fun _ => rfl).symm
  · exact same ▸ h.greens.service g e
  · exact h.greens.apart (same ▸ n)
  · exact (h.commands o q).trans (commandOf_congr same rfl rfl (fun _ => rfl) o).symm

/-- A handover of a state that differs in the timers of service alone (R160, R168, R169). -/
theorem PartOk.handoverOf {s : State} (h : PartOk s) (n : s.service.state ≠ .handedOver) (f : Service → Service)
    (c : Cause) (d : List Word16) (state : (f s.service).state = s.service.state := by rfl)
    (flsel : (f s.service).flsel = s.service.flsel := by rfl) : PartOk (handover c d (modService s f)) :=
  handover_ok c d _ (fun e => n (state.symm.trans e)) (flsel.trans h.outputs.2) h.table h.patterns h.bars

/-! ### The sequencer -/

/-- The junction clock changed in the sequencer (R124). -/
theorem PartOn.setClockField {s : State} (h : PartOn Q s) (n : Nat) :
    PartOn Q (modSeq s fun q => { q with clock := n }) := by
  refine ⟨h.outputs, ⟨fun e => ?_, h.service.starting, h.service.serving, h.service.active, h.service.timed⟩, h.roles,
    h.calls, ⟨h.greens.fresh, h.greens.service, h.greens.apart⟩, h.commands, h.table, h.investigations, h.patterns,
    h.bars⟩
  obtain ⟨stopped, others⟩ := h.service.stopped e
  exact ⟨congrArg (fun q : Sequencer => { q with clock := n }) stopped, others⟩

/-- A group's extension hold set outside HANDED_OVER (R140). -/
theorem PartOn.setHold {s : State} (h : PartOn Q s) (n : s.service.state ≠ .handedOver) (g : GroupId) (units : Nat) :
    PartOn Q (modGroup s g fun r => { r with hold := units }) := by
  have aspect := modGroup_aspect s g (fun r => { r with hold := units }) fun _ => rfl
  refine ⟨h.outputs, ⟨fun e => absurd e n, fun e => ?_, h.service.serving, h.service.active, h.service.timed⟩, h.roles,
    h.calls, ⟨fun k => ?_, fun _ _ => n, h.greens.apart⟩, fun o q => ?_, h.table, h.investigations, h.patterns, h.bars⟩
  · obtain ⟨phase, pending, rest⟩ := h.service.starting e
    refine ⟨phase, pending, fun k => ?_⟩
    show groupStopped s.seq.units (vmod s.seq.groups g fun r => { r with hold := units })[k] =
      (vmod s.seq.groups g fun r => { r with hold := units })[k]
    rw [vmod_get]
    split
    · exact congrArg (fun r : GroupSeq => { r with hold := units }) (rest k)
    · exact rest k
  · exact (h.greens.fresh k).trans
      (exposedNow_congr (s := s) (t := modGroup s g _) rfl rfl k (aspect k) fun _ => rfl).symm
  · exact (h.commands o q).trans (commandOf_congr (s := s) (t := modGroup s g _) rfl rfl rfl aspect o).symm

end Sys2Proof.Machine
end

section
/-! PROOFS. Chapter 4, what every request keeps: for each block, the handling of its requests keeps the part's
invariant. -/

namespace Sys2Proof.Machine

/-- A request's handling that keeps the part's invariant. -/
def KeepsPart (handle : State → Answer) : Prop := ∀ s, PartOk s → PartOk (handle s).state

/-- A request keeps the part's invariant where its handling does, whatever its link's rights (R200, R203). -/
theorem PartOk.takeRequest {s : State} (h : PartOk s) (l : Link) (code : Byte) (f : Fields) {handle : State → Answer}
    (keeps : KeepsPart handle) : PartOk (takeRequest l code f handle s) :=
  (h.whole.takeRequest l code f handle fun u hu => (keeps u hu.ok).whole).ok

theorem keepsPart_readItem (l : Link) (code : Byte) (f : Fields) (item : State → Option (List Word16)) :
    KeepsPart (readItem l code f item) := fun _ h => (h.whole.readItem l code f item).ok

theorem handedOver_of_not_bne {s : State} (h : ¬(s.service.state != .handedOver) = true) :
    s.service.state = .handedOver := by
  simpa using h

theorem awake_of_not_beq {s : State} (h : ¬(s.service.state == .handedOver) = true) :
    s.service.state ≠ .handedOver := by
  simpa using h

/-! ### The safety table and the stage table (chapter 1) -/

theorem keepsPart_safetyWriteOp (l : Link) (f : Fields) : KeepsPart (safetyWriteOp l f) := by
  intro s h
  unfold safetyWriteOp
  split
  · exact PartOn.ok (h.whole.setSafety rfl)
  · exact h

theorem PartOk.activationFails {s : State} (h : PartOk s) (o : ActOutcome) : PartOk (activationFails o s) :=
  PartOn.ok (h.whole.setSafety rfl)

/-- The comparison of the copies and what follows it, which HANDED_OVER alone takes (R10, R11, R16). -/
theorem PartOk.completePair {s : State} (h : PartOk s) (e : s.service.state = .handedOver) :
    PartOk (completePair s).state := by
  unfold Machine.completePair
  split
  · exact ((h.activationFails _).whole.post _ _ _ _).ok
  · have ended : PartOk (Machine.endFault .matrixMismatch .none s) := (h.whole.endFault _ _).ok
    dsimp only
    split
    · exact ended.activationFails _
    · exact ended.install e _

theorem keepsPart_activateOp (l : Link) : KeepsPart (activateOp l) := by
  intro s h
  unfold activateOp
  split
  · exact h
  case isFalse handed =>
    have marked : PartOk { s with safety := { s.safety with marks := s.safety.marks.set l true } } :=
      PartOn.ok (h.whole.setSafety rfl)
    dsimp only
    split
    · exact marked.completePair (handedOver_of_not_bne handed)
    · exact marked

theorem keepsPart_defineStage (n : StageId) (x : Set16) : KeepsPart (defineStage n x) := by
  intro s h
  unfold defineStage
  split
  · split
    · exact h
    · split
      · exact h
      · exact (h.whole.setStage n _).ok
  · exact (h.whole.setStage n _).ok

theorem keepsPart_undefineStage (n : StageId) : KeepsPart (undefineStage n) := by
  intro s h
  unfold undefineStage
  split
  · exact h
  · exact (h.whole.setStage n _).ok

theorem keepsPart_stageWriteOp (f : Fields) : KeepsPart (stageWriteOp f) := by
  intro s h
  unfold stageWriteOp
  split
  · exact h
  · split
    · exact h
    · split
      · exact keepsPart_defineStage _ _ s h
      · exact keepsPart_undefineStage _ s h
      · exact h

/-! ### Cards and lamps (chapters 2 and 3) -/

theorem keepsPart_setCardField {α : Type} (c : CardId) (v : Option α) (f : α → CardRec → CardRec) :
    KeepsPart (setCardField c v f) := by
  intro s h
  unfold setCardField
  split
  · exact (h.whole.modCard c _).ok
  · exact h

theorem keepsPart_cardSetOp (f : Fields) : KeepsPart (cardSetOp f) := by
  intro s h
  unfold cardSetOp
  split
  · exact h
  case isFalse handed =>
    split
    · exact h
    · dsimp only
      split
      · split
        · exact h.setPresent (handedOver_of_not_bne handed) _ _
        · exact h
      · exact keepsPart_setCardField _ _ _ s h
      · exact keepsPart_setCardField _ _ _ s h
      · exact keepsPart_setCardField _ _ _ s h
      · exact keepsPart_setCardField _ _ _ s h
      · exact keepsPart_setCardField _ _ _ s h
      · exact h

theorem keepsPart_relearnOp (f : Fields) : KeepsPart (relearnOp f) := by
  intro s h
  unfold relearnOp
  split
  · exact (h.whole.forget _).ok
  · split
    · exact (h.whole.forget _).ok
    · exact h

/-! ### The plan memory (chapter 6) -/

theorem keepsPart_setLayoutOp (f : Fields) : KeepsPart (setLayoutOp f) := by
  intro s h
  unfold setLayoutOp
  split
  · exact h
  case isFalse handed =>
    split
    · exact h
    case h_2 layout _ =>
      refine (h.whole.modPlans
        (fun m => { m with layout := layout, plans := Vector.replicate 16 Plan.empty, start := none }) rfl
        h.whole.noPending fun p used => absurd used ?_).ok
      obtain ⟨-, active, pending, -⟩ := h.service.stopped (handedOver_of_not_bne handed)
      simp [planInUse, modPlans, active, pending]

theorem keepsPart_planWriteOp (f : Fields) : KeepsPart (planWriteOp f) := by
  intro s h
  unfold planWriteOp
  split
  · exact h
  · split
    · exact h
    · split
      · exact h
      case isFalse used =>
        split
        · exact h
        · exact (h.whole.modPlan (Bool.not_eq_true _ ▸ used) _).ok

theorem keepsPart_planCloseOp (f : Fields) : KeepsPart (planCloseOp f) := by
  intro s h
  unfold planCloseOp
  split
  · exact h
  · split
    · exact h
    case isFalse used =>
      have changed (g : Plan → Plan) := (h.whole.modPlan (Bool.not_eq_true _ ▸ used) g).ok
      split
      · exact h
      · exact changed _
      · split
        · exact changed _
        · exact changed _

theorem keepsPart_planEraseOp (f : Fields) : KeepsPart (planEraseOp f) := by
  intro s h
  unfold planEraseOp
  split
  · exact h
  · split
    · exact h
    case isFalse used => exact (h.whole.modPlan (Bool.not_eq_true _ ▸ used) _).ok

theorem keepsPart_startPlanOp (f : Fields) : KeepsPart (startPlanOp f) := by
  intro s h
  have started (p : Option PlanId) : PartOk (modPlans s fun m => { m with start := p }) :=
    PartOn.ok (h.whole.modPlans _ rfl h.whole.noPending h.roles)
  unfold startPlanOp
  split
  · exact started none
  · split
    · exact h
    · exact started _

/-- A READY plan made the pending one in SERVICE (R116, R117). -/
theorem PartOk.setPending {s : State} (h : PartOk s) (e : s.service.state = .service) {p : PlanId}
    (ready : s.plans.plans[p].state = .ready) : PartOk (setPending p s) := by
  have pended : PartOk (modPlans s fun m => { m with pending := some { plan := p, wrap := false } }) := by
    refine (h.whole.modPlans _ rfl (fun n => absurd e n) fun q used => ?_).ok
    have used : s.plans.active = some q ∨ p = q := by simpa [planInUse, Machine.modPlans] using used
    rcases used with active | rfl
    · exact h.roles q (by simp [planInUse, active])
    · exact ready
  unfold Machine.setPending
  dsimp only
  split
  · exact pended.whole.decision.ok
  · exact pended

theorem keepsPart_selectPlanOp (f : Fields) : KeepsPart (selectPlanOp f) := by
  intro s h
  unfold selectPlanOp
  split
  · exact h
  case isFalse serving =>
    have e : s.service.state = .service := by simpa using serving
    split
    · exact h
    · split
      · refine (h.whole.modPlans (fun m => { m with pending := none }) rfl (fun _ => rfl)
          fun q used => h.roles q ?_).ok
        have active : s.plans.active = some q := by simpa [planInUse, modPlans] using used
        simp [planInUse, active]
      · split
        · exact h
        case isFalse ready => exact h.setPending e (by simpa using ready)

/-! ### The service controller (chapter 8) -/

theorem keepsPart_restoreOfferOp (f : Fields) : KeepsPart (restoreOfferOp f) := by
  intro s h
  unfold restoreOfferOp
  split
  · exact h
  case isFalse handed =>
    have offered (n : Nat) :
        PartOk (modService s fun r => { r with checkPeriod := n, offer := some Config.offerUnits }) :=
      (h.whole.modService _ fun n => absurd (handedOver_of_not_bne handed) n).ok
    dsimp only
    split
    · exact offered _
    · split
      · exact offered _
      · exact h

/-- The offer withdrawn (R157, R162, R163). -/
theorem PartOk.withdrawOffer {s : State} (h : PartOk s) : PartOk (modService s fun r => { r with offer := none }) :=
  (h.whole.modService _ fun _ => rfl).ok

/-- Where no condition of RESTORE fails, the start plan is READY (R163). -/
theorem readyStart_of_restoreFails {s : State} (h : restoreFails s = none) : readyStart s ≠ none := by
  intro none
  unfold restoreFails at h
  split at h
  · cases h
  · rw [none] at h
    cases h

theorem keepsPart_restoreOp : KeepsPart restoreOp := by
  intro s h
  unfold restoreOp
  split
  · exact h
  case isFalse handed =>
    split
    · exact h
    · split
      · exact h.withdrawOffer
      case h_2 met => exact h.enterStarting (handedOver_of_not_bne handed) (readyStart_of_restoreFails met)

theorem keepsPart_handoverOp (l : Link) : KeepsPart (handoverOp l) := by
  intro s h
  unfold handoverOp
  split
  · exact h.withdrawOffer
  · exact (h.whole.handover _ _).ok

theorem keepsPart_vouchOp (f : Fields) : KeepsPart (vouchOp f) := by
  intro s h
  unfold vouchOp
  split
  · exact h
  case isFalse awake =>
    have n := awake_of_not_beq awake
    obtain ⟨offer, -⟩ := h.service.active n
    split
    · obtain ⟨-, -, vouched⟩ := h.service.timed
      have renewed : PartOk (modService s fun r => { r with vouch := some r.checkPeriod }) :=
        (h.whole.modService (fun r => { r with vouch := some r.checkPeriod }) (fun _ => offer)
          (vouch := (vouched n).symm)).ok
      exact renewed
    · exact (h.whole.handover _ _).ok

theorem keepsPart_serviceRestartOp : KeepsPart serviceRestartOp := by
  intro s h
  unfold serviceRestartOp
  split
  · exact h
  case isFalse handed =>
    have restarted : PartOk (serviceRestart s) := h.serviceRestart (handedOver_of_not_bne handed)
    dsimp only [done]
    exact restarted

/-! ### The sequencer (chapter 7) -/

theorem keepsPart_demandOp (f : Fields) : KeepsPart (demandOp f) := by
  intro s h
  unfold demandOp
  split
  · exact h
  case isFalse awake =>
    split
    · exact h
    · split
      · exact h
      · exact (h.whole.takeDemand (awake_of_not_beq awake) _).ok

theorem keepsPart_extendOp (f : Fields) : KeepsPart (extendOp f) := by
  intro s h
  unfold extendOp
  split
  · exact h
  case isFalse awake =>
    split
    · exact h
    · split
      · exact h
      · have held := h.whole.setHold (awake_of_not_beq awake)
        dsimp only
        split
        · exact (held _ _).decision.ok
        · exact (held _ _).ok

/-- A placed call changes the list and the call service alone, and leaves four calls at most, no two for a stage
(R141). -/
theorem placeCall_some {n : StageId} {d : Nat} {q r : Sequencer} {running : Bool} (h : placeCall n d q running = some r)
    (calls : q.calls.length ≤ 4 ∧ (q.calls.map (·.stage)).Nodup) :
    r = { q with calls := r.calls, service := r.service } ∧ r.calls.length ≤ 4 ∧ (r.calls.map (·.stage)).Nodup := by
  obtain ⟨few, distinct⟩ := calls
  unfold placeCall at h
  split at h
  · obtain rfl := Option.some.inj h
    exact ⟨rfl, few, distinct⟩
  · split at h
    · obtain rfl := Option.some.inj h
      have stages : (q.calls.map fun c => if c.stage == n then { c with duration := d } else c).map (·.stage) =
          q.calls.map (·.stage) := by
        rw [List.map_map]
        refine List.map_congr_left fun c _ => ?_
        dsimp only [Function.comp]
        split <;> rfl
      refine ⟨rfl, (List.length_map _).trans_le few, ?_⟩
      rw [stages]
      exact distinct
    case isFalse fresh =>
      split at h
      case isFalse => cases h
      case isTrue room =>
        obtain rfl := Option.some.inj h
        refine ⟨rfl, by rw [List.length_append]; exact room, ?_⟩
        rw [List.map_append, List.nodup_append]
        refine ⟨distinct, List.nodup_singleton _, fun a mem b last same => fresh ?_⟩
        obtain ⟨c, listed, rfl⟩ := List.mem_map.mp mem
        obtain rfl := List.mem_singleton.mp last
        exact List.any_eq_true.mpr ⟨c, listed, beq_iff_eq.mpr same⟩

/-- The calls and the call service replaced outside HANDED_OVER (R141, R142). -/
theorem PartOk.setCalls {s : State} (h : PartOk s) (n : s.service.state ≠ .handedOver) {q : Sequencer}
    (same : q = { s.seq with calls := q.calls, service := q.service })
    (calls : q.calls.length ≤ 4 ∧ (q.calls.map (·.stage)).Nodup) : PartOk { s with seq := q } := by
  have field {α : Type} (proj : Sequencer → α) : proj q = proj { s.seq with calls := q.calls, service := q.service } :=
    congrArg proj same
  exact (h.whole.modSeqAwake n (fun _ => q) (field (·.phase)) (field (·.groups)) (field (·.units)) calls
    (field (·.bars))).ok

theorem keepsPart_priorityCallOp (f : Fields) : KeepsPart (priorityCallOp f) := by
  intro s h
  unfold priorityCallOp
  split
  · exact h
  case isFalse awake =>
    split
    · exact h
    · split
      · exact h
      · split
        case h_2 => exact h
        case h_1 placed =>
          obtain ⟨same, calls⟩ := placeCall_some placed h.calls
          show PartOk (if _ then s else decision _)
          split
          · exact h
          · exact (h.setCalls (awake_of_not_beq awake) same calls).whole.decision.ok

theorem keepsPart_cancelPriorityOp (f : Fields) : KeepsPart (cancelPriorityOp f) := by
  intro s h
  unfold cancelPriorityOp
  split
  · exact h
  case isFalse awake =>
    split
    · exact h
    · split
      · exact h
      · show PartOk (if _ then s else decision _)
        split
        · exact h
        · exact (h.setCalls (q := cancelCall _ s.seq) (awake_of_not_beq awake) rfl (h.calls.filter _)).whole.decision.ok

theorem keepsPart_allRedOp (f : Fields) : KeepsPart (allRedOp f) := by
  intro s h
  unfold allRedOp
  split
  · exact h
  case isFalse awake =>
    split
    · exact h
    case h_2 b _ =>
      exact ((h.whole.modSeqAwake (awake_of_not_beq awake) (fun q => { q with allRed := b }) rfl rfl rfl
        h.calls).holdJudged _).ok

/-- What a new clock value does to a LINKED plan's cycle, which needs an active plan (R150). -/
theorem PartOk.clockMoved {s : State} (h : PartOk s) (n : s.service.state ≠ .handedOver) (cycle old new : Nat)
    (p : PlanId) : PartOk (clockMoved cycle old new p s) := by
  unfold Machine.clockMoved
  dsimp only
  split
  · split
    · exact ((h.whole.reportWrap n).passPoints n _).ok
    · exact (h.whole.passPoints n _).ok
  · exact (h.whole.post _ _ _ _).ok

theorem PartOk.setClock {s : State} (h : PartOk s) (t : Nat) : PartOk (setClock t s) := by
  have moved := (h.whole.setClockField t).position.ok
  unfold Machine.setClock
  dsimp only
  split
  case h_2 => exact moved
  case h_1 active _ _ _ =>
    have n : s.service.state ≠ .handedOver := h.whole.awake_of_active fun none => nomatch none.symm.trans active
    split
    · exact (moved.clockMoved n _ _ _ _).whole.decision.ok
    · exact moved.clockMoved n _ _ _ _

theorem keepsPart_setClockOp (f : Fields) : KeepsPart (setClockOp f) := by
  intro s h
  unfold setClockOp
  dsimp only
  split
  · exact h.setClock _
  · exact h

/-! ### The contact inputs (chapter 9) -/

theorem PartOk.functionHanded {s : State} (h : PartOk s) (i : InputId) (old : Input) (before : Bool) :
    PartOk (functionHanded i old before s) := by
  have opened {u : State} (hu : PartOk u) (b : Bool) :
      PartOk (if b then Machine.endFault .doorOpen (.input i) u else u) := by
    split
    · exact (hu.whole.endFault _ _).ok
    · exact hu
  have posted {u : State} (hu : PartOk u) (b : Bool) :
      PartOk (if b then Machine.post .doorOpen (.input i) false none u else u) := by
    split
    · exact (hu.whole.post _ _ _ _).ok
    · exact hu
  have fed {u : State} (hu : PartOk u) (b : Bool) : PartOk (if b then Machine.judgeFeedback u else u) := by
    split
    · exact hu.whole.judgeFeedback.ok
    · exact hu
  have keyed {u : State} (hu : PartOk u) (b : Bool) : PartOk (if b then Machine.judgeKeys u else u) := by
    split
    · exact hu.whole.judgeKeys.ok
    · exact hu
  exact ((keyed (fed (posted (opened h _) _) _) _).whole.holdJudged before).ok

theorem PartOk.setFunction {s : State} (h : PartOk s) (i : InputId) (fn : InputFunction) (reading : Level) :
    PartOk (setFunction i fn reading s) := by
  unfold Machine.setFunction
  dsimp only
  split
  · exact h
  · exact (h.whole.modInput i _).ok.functionHanded i _ _

theorem keepsPart_setFunctionOp (i : InputId) (fn : InputFunction) (reading : Level) :
    KeepsPart (setFunctionOp i fn reading) := by
  intro s h
  unfold setFunctionOp
  split
  · exact h
  · exact h.setFunction i fn reading

theorem keepsPart_setInputField {α : Type} (i : InputId) (v : Option α) (f : α → Input → Input) :
    KeepsPart (setInputField i v f) := by
  intro s h
  unfold setInputField
  split
  · exact (h.whole.modInput i _).ok
  · exact h

theorem keepsPart_inputSetOp (f : Fields) (reading : Level) (ms : Nat) : KeepsPart (inputSetOp f reading ms) := by
  intro s h
  unfold inputSetOp
  split
  · exact h
  · split
    · split
      · exact keepsPart_setFunctionOp _ _ _ s h
      · exact h
    · exact keepsPart_setInputField _ _ _ s h
    · exact keepsPart_setInputField _ _ _ s h
    · exact keepsPart_setInputField _ _ _ s h
    · exact keepsPart_setInputField _ _ _ s h
    · exact h

/-! ### The fault table (chapter 10) -/

/-- A latched trip released by its record's clear marks (R94). -/
theorem PartOk.releaseTrip {s : State} (h : PartOk s) (r : Record) : PartOk (releaseTrip r s) := by
  unfold Machine.releaseTrip
  split
  · split
    · exact h.endTrip _
    · exact h
  · exact h

theorem keepsPart_clearRecordOp (l : Link) (f : Fields) : KeepsPart (clearRecordOp l f) := by
  intro s h
  unfold clearRecordOp
  split
  · exact h
  · split
    · exact h
    · split
      · exact h
      · have marked (i : SlotId) := (h.whole.setFaults (h.table.cleared s.seq.clock l i)).ok
        unfold clearOp
        dsimp only [done]
        split
        · exact (marked _).releaseTrip _
        · exact marked _

theorem keepsPart_setAttentionOp (l : Link) (f : Fields) : KeepsPart (setAttentionOp l f) := by
  intro s h
  unfold setAttentionOp
  split
  · exact h
  · exact (h.whole.setFaults (h.table.judgedOne l _)).ok

theorem PartOn.setSnapshot {Q : OutputId → Prop} {s : State} (h : PartOn Q s) (l : Link) (x : Option Snapshot) :
    PartOn Q (setSnapshot l x s) := h.modPort l _

theorem keepsPart_nextNoticeOp (l : Link) (f : Fields) : KeepsPart (nextNoticeOp l f) := by
  intro s h
  unfold nextNoticeOp
  split
  · exact ((h.whole.setFaults ((h.table.slots.seen l _).released l)).setSnapshot l _).ok
  · exact ((h.whole.setFaults (h.table.slots.released l)).setSnapshot l _).ok

theorem keepsPart_readNextNoticeOp (l : Link) (f : Fields) : KeepsPart (readNextNoticeOp l f) := by
  intro s h
  unfold readNextNoticeOp
  split
  · split
    · exact keepsPart_nextNoticeOp l f s h
    · exact h
  · split
    · exact h
    · exact h

end Sys2Proof.Machine
end

section
/-! PROOFS. Chapter 4, what every step keeps: the events that reach the block, every command, and the two invariants of
the proving unit that follow (R66, R79, R80). -/

namespace Sys2Proof.Machine

/-! ### POWER_ON_RESET (R153) -/

/-- Without an active table no output is used (R6). -/
theorem outRec_unused {s : State} (h : s.safety.active = none) (o : OutputId) : (outRec s o).used = false := by
  unfold outRec activeTable
  rw [h]
  exact congrArg OutputRec.used (replicate_get _ o)

/-- Without an active table and with no group GREEN no group is exposed (R79). -/
theorem exposedNow_unused {s : State} (h : s.safety.active = none) (g : GroupId)
    (n : s.seq.groups[g].aspect ≠ .green) : exposedNow s g = false := by
  have outs : ∀ o : OutputId, serves s o g .green = false := fun o => by simp [serves, outRec_unused h o]
  have dark : (s.seq.groups[g].aspect == Aspect.green) = false := by simpa using n
  unfold exposedNow
  rw [dark, Bool.false_and, Bool.false_or]
  simp [outs]

/-- With no stage defined none is barred (R145). -/
theorem barsNow_undefined {s : State} (h : ∀ n : StageId, s.stages[n].defined = false) : barsNow s = 0 := by
  simp only [barsNow, h, Bool.false_and]
  rfl

theorem reset_partOk : PartOk State.reset := by
  have red (g : GroupId) : State.reset.seq.groups[g].aspect = .red := congrArg GroupSeq.aspect (replicate_get _ g)
  have free (i : InvSlot) : State.reset.cable.investigations[i] = none := replicate_get _ i
  have dark (g : GroupId) : State.reset.seq.groups[g].aspect ≠ .green := by rw [red g]; decide
  refine ⟨⟨rfl, rfl⟩, ⟨fun _ => ⟨?_, rfl, rfl, rfl, rfl, rfl⟩, nofun, nofun, fun n => absurd rfl n, nofun, nofun,
      fun n => absurd rfl n⟩, nofun, ⟨Nat.zero_le 4, List.nodup_nil⟩,
    ⟨fun g => ?_, fun g green => absurd green (dark g), fun n => absurd rfl n⟩, fun o => ?_, ?_, fun i j v w e => ?_,
    Nat.zero_le 3, ?_⟩
  · have stopped : (sequencerStopped State.reset.seq).groups = State.reset.seq.groups := by
      refine vext fun g => ?_
      have start : State.reset.seq.groups[g] = _ := replicate_get _ g
      simp only [sequencerStopped, vgen_get, start]
      rfl
    exact congrArg (fun v => ({ State.reset.seq with groups := v } : Sequencer)) stopped
  · exact (congrArg GroupProof.exposed (replicate_get _ g)).trans (exposedNow_unused rfl g (dark g)).symm
  · exact (congrArg OutputProof.commanded (replicate_get _ o)).trans (commandOf_handedOver rfl o).symm
  · exact emptyTable_ok State.reset.faults
  · rw [free i] at e
    cases e
  · exact (barsNow_undefined fun n => congrArg StageRec.defined (replicate_get _ n)).symm

theorem firstSamples_partOk {s : State} (h : PartOk s) (contacts : Set16) : PartOk (firstSamples contacts s) :=
  (h.whole.setInputs _).ok

/-! ### The times that the sequencer schedules (R129 to R131, R140 to R143) -/

theorem ne_none_of_reached {t : Option Nat} {units : Nat} (h : reached t units = true) : t ≠ none := by
  rintro rfl
  cases h

/-- A losing group's ending period over (R129). -/
theorem PartOk.endPeriod {s : State} (h : PartOk s) (g : GroupId)
    (due : reached s.seq.groups[g].endAt s.seq.units = true) :
    PartOk (settled (modGroup (setAspect g .red s) g fun r => { r with endAt := none })) := by
  have serving : s.service.state = .service := h.whole.service_of_endAt g (ne_none_of_reached due)
  have live : Live (fun _ => True) (modGroup (setAspect g .red s) g fun r => { r with endAt := none }) :=
    ((h.whole.live serving).setAspect g .red (by decide)).modGroup g _ fun _ => rfl
  exact (live.ok (h.service.serving serving)).settled.ok

/-- A listed call that has waited too long removed and posted, with its decision (R142). -/
theorem PartOk.expireCall {s : State} (h : PartOk s) (n : StageId)
    (listed : (s.seq.calls.any fun c => c.stage == n && decide (Config.callWaitUnits ≤ c.wait)) = true) :
    PartOk (decision (post .priorityExpired (.stage n) false none
      (modSeq s fun q => { q with calls := q.calls.filter (·.stage != n) }))) := by
  have awake : s.service.state ≠ .handedOver := fun e => by
    obtain ⟨stopped, -⟩ := h.service.stopped e
    have none : s.seq.calls = [] := by rw [← stopped]; rfl
    rw [none] at listed
    cases listed
  have dropped := h.whole.modSeqAwake awake (fun q => { q with calls := q.calls.filter (·.stage != n) }) rfl rfl rfl
    (h.calls.filter _)
  exact (dropped.post _ _ _ _).decision.ok

/-- A gating deadline that has passed: the group goes to GREEN, or GREEN_NOT_OFF hands over (R131). -/
theorem PartOk.gateDeadline {s : State} (h : PartOk s) (g : GroupId) (ready : Bool) :
    PartOk (if ready then settled (tryGreen g s) else handover .greenNotOff [word (number g)] s) := by
  split
  · exact (h.whole.tryGreen g).settled.ok
  · exact (h.whole.handover _ _).ok

/-! ### The service controller's timers (R160, R168, R169) -/

/-- CHANGEOVER_FAULT raised (R160). -/
theorem PartOk.changeoverFault {s : State} (h : PartOk s) (i : InputId) : PartOk (changeoverFault i s) := by
  have stopped : PartOk (modService s fun r => { r with changeover := none }) :=
    (h.whole.modService _ fun n => (h.service.active n).1).ok
  unfold Machine.changeoverFault
  dsimp only
  split
  · exact (stopped.whole.post _ _ _ _).ok
  · exact (stopped.whole.handover _ _).ok

/-- In HANDED_OVER neither the vouch timer nor the two-key timer runs (R156). -/
theorem PartOk.awake_of_vouch {s : State} (h : PartOk s) (n : s.service.vouch ≠ none) :
    s.service.state ≠ .handedOver := fun e => by
  obtain ⟨-, -, -, -, vouch, -⟩ := h.service.stopped e
  exact n vouch

theorem PartOk.awake_of_twoKey {s : State} (h : PartOk s) (n : s.service.twoKey ≠ none) :
    s.service.state ≠ .handedOver := fun e => by
  obtain ⟨-, -, -, -, -, twoKey⟩ := h.service.stopped e
  exact n twoKey

theorem ne_none_of_beq {t : Option Nat} {n : Nat} (h : (t == some n) = true) : t ≠ none := by
  rw [eq_of_beq h]
  nofun

/-! ### Samples of the inputs (R173 to R179) -/

theorem PartOk.handEdge {s : State} (h : PartOk s) (i : InputId) (before : Bool) : PartOk (handEdge i before s) := by
  unfold Machine.handEdge
  dsimp only
  split
  · exact h
  · exact (h.whole.modInput i _).ok
  · split
    case isFalse => exact h
    case isTrue taken =>
      have awake : s.service.state ≠ .handedOver := by
        obtain ⟨-, awake⟩ := Bool.and_eq_true_iff.mp taken
        simpa using awake
      exact (h.whole.takeDemand awake _).ok
  · exact (h.whole.holdJudged before).ok
  · exact h.whole.judgeKeys.ok
  · exact h.whole.judgeFeedback.ok
  · split
    · exact (h.whole.post _ _ _ _).ok
    · exact (h.whole.endFault _ _).ok

theorem PartOk.sampleInput {s : State} (h : PartOk s) (i : InputId) (x : Level) : PartOk (sampleInput i x s) := by
  unfold Machine.sampleInput
  dsimp only
  split
  · exact (h.whole.modInput i _).ok
  · split
    · exact (h.whole.modInput i _).ok
    · exact (h.whole.modInput i _).ok.handEdge i _

/-! ### Every command -/

/-- An outcome whose next state, where it has one, meets the part's invariant. -/
def NextOk (x : Host.Outcome State Fault Refusal) : Prop := ∀ t, x = .next t → PartOk t

theorem nextOk_next {t : State} (h : PartOk t) : NextOk (.next t) := fun _ e => Host.Outcome.next.inj e ▸ h

theorem nextOk_refused (r : Refusal) : NextOk (.refused r) := fun _ e => by injection e

/-- An event that may change nothing. -/
theorem nextOk_ite {c : Prop} [Decidable c] {s t : State} (h : PartOk s) (changed : c → PartOk t) :
    NextOk (.next (if c then t else s)) := by
  refine nextOk_next ?_
  split
  case isTrue met => exact changed met
  case isFalse => exact h

/-- A request taken (R200). -/
theorem nextOk_request {s : State} (h : PartOk s) (l : Link) (code : Byte) (f : Fields) {handle : State → Answer}
    (keeps : KeepsPart handle) : NextOk (.next (takeRequest l code f handle s)) :=
  nextOk_next (h.takeRequest l code f keeps)

/-- A read taken (R206). -/
theorem nextOk_read {s : State} (h : PartOk s) (l : Link) (code : Byte) (f : Fields)
    (item : State → Option (List Word16)) : NextOk (.next (takeRequest l code f (readItem l code f item) s)) :=
  nextOk_request h l code f (keepsPart_readItem l code f item)

theorem nextOk_discardedFrame {s : State} (h : PartOk s) (l : Link) (clocks : Nat) :
    NextOk (execDiscardedFrame l clocks s) := by
  unfold execDiscardedFrame
  split
  · exact nextOk_refused _
  · exact nextOk_next (h.whole.modPort l _).ok

theorem nextOk_unknownRequest {s : State} (h : PartOk s) (l : Link) (code : Byte) (f : Fields) :
    NextOk (execUnknownRequest l code f s) := by
  unfold execUnknownRequest
  split
  · exact nextOk_refused _
  · exact nextOk_request h l code f fun _ hu => hu

theorem nextOk_poll {s : State} (h : PartOk s) : NextOk (execPoll s) := by
  refine nextOk_ite h fun _ => ?_
  split
  · exact (h.whole.openSlot _ _).ok
  · exact h

theorem nextOk_window {s : State} (h : PartOk s) (l : LineId) (rx : RxFrame) : NextOk (execWindow l rx s) := by
  refine nextOk_next ?_
  split
  · exact (h.whole.receiveFrame l rx _).ok
  · exact h

theorem nextOk_pollSlotClose {s : State} (h : PartOk s) : NextOk (execPollSlotClose s) := by
  refine nextOk_next ?_
  split
  case h_2 => exact h
  case h_1 x _ =>
    have closed : PartOk (closeSlot x s) := (h.whole.closeSlot x).ok
    split
    · exact closed.deliver
    · exact closed.endIfDone

theorem nextOk_callServiceExpiry {s : State} (h : PartOk s) : NextOk (execCallServiceExpiry s) := by
  refine nextOk_next ?_
  split
  · split
    · exact h.whole.decision.ok
    · exact h
  · exact h

theorem nextOk_changeoverTimerExpiry {s : State} (h : PartOk s) : NextOk (execChangeoverTimerExpiry s) := by
  refine nextOk_ite h fun _ => ?_
  split
  · exact h.changeoverFault _
  · exact (h.whole.modService _ fun n => (h.service.active n).1).ok

theorem nextOk_startTimerExpiry {s : State} (h : PartOk s) : NextOk (execStartTimerExpiry s) :=
  nextOk_ite h fun met => by
    obtain ⟨starting, -⟩ := Bool.and_eq_true_iff.mp met
    exact h.startCheck (eq_of_beq starting)

theorem nextOk_vouchTimerExpiry {s : State} (h : PartOk s) : NextOk (execVouchTimerExpiry s) :=
  nextOk_ite h fun met => h.handoverOf (h.awake_of_vouch (ne_none_of_beq met)) _ _ _

theorem nextOk_twoKeyTimerExpiry {s : State} (h : PartOk s) : NextOk (execTwoKeyTimerExpiry s) :=
  nextOk_ite h fun met => h.handoverOf (h.awake_of_twoKey (ne_none_of_beq met)) _ _ _

/-- Every command keeps the part's invariant: each request by what its block's handling keeps, each event by what its
operation keeps. -/
theorem exec_keeps_partOk {s : State} (h : PartOk s) (i : Instr) : NextOk (exec i s) := by
  cases i with
  | powerOnReset contacts => exact nextOk_next (firstSamples_partOk (reset_partOk.whole.setQueue _).ok contacts)
  | nop l f => exact nextOk_request h l _ f fun _ hu => hu
  | discardedFrame l clocks => exact nextOk_discardedFrame h l clocks
  | unknownRequest l code f => exact nextOk_unknownRequest h l code f
  | safetyWrite l f => exact nextOk_request h l _ f (keepsPart_safetyWriteOp l f)
  | activate l f => exact nextOk_request h l _ f (keepsPart_activateOp l)
  | stageWrite l f => exact nextOk_request h l _ f (keepsPart_stageWriteOp f)
  | cardSet l f => exact nextOk_request h l _ f (keepsPart_cardSetOp f)
  | inputSet l f reading ms => exact nextOk_request h l _ f (keepsPart_inputSetOp f reading ms)
  | setLayout l f => exact nextOk_request h l _ f (keepsPart_setLayoutOp f)
  | planWrite l f => exact nextOk_request h l _ f (keepsPart_planWriteOp f)
  | planClose l f => exact nextOk_request h l _ f (keepsPart_planCloseOp f)
  | planErase l f => exact nextOk_request h l _ f (keepsPart_planEraseOp f)
  | startPlan l f => exact nextOk_request h l _ f (keepsPart_startPlanOp f)
  | selectPlan l f => exact nextOk_request h l _ f (keepsPart_selectPlanOp f)
  | demand l f => exact nextOk_request h l _ f (keepsPart_demandOp f)
  | extend l f => exact nextOk_request h l _ f (keepsPart_extendOp f)
  | priorityCall l f => exact nextOk_request h l _ f (keepsPart_priorityCallOp f)
  | cancelPriority l f => exact nextOk_request h l _ f (keepsPart_cancelPriorityOp f)
  | allRed l f => exact nextOk_request h l _ f (keepsPart_allRedOp f)
  | setClock l f => exact nextOk_request h l _ f (keepsPart_setClockOp f)
  | restoreOffer l f => exact nextOk_request h l _ f (keepsPart_restoreOfferOp f)
  | restore l f => exact nextOk_request h l _ f keepsPart_restoreOp
  | handover l f => exact nextOk_request h l _ f (keepsPart_handoverOp l)
  | vouch l f => exact nextOk_request h l _ f (keepsPart_vouchOp f)
  | serviceRestart l f => exact nextOk_request h l _ f keepsPart_serviceRestartOp
  | relearn l f => exact nextOk_request h l _ f (keepsPart_relearnOp f)
  | clearRecord l f => exact nextOk_request h l _ f (keepsPart_clearRecordOp l f)
  | setAttention l f => exact nextOk_request h l _ f (keepsPart_setAttentionOp l f)
  | safetyStatus l f => exact nextOk_read h l _ f _
  | readGroup l f => exact nextOk_read h l _ f _
  | readOutput l f => exact nextOk_read h l _ f _
  | readCard l f => exact nextOk_read h l _ f _
  | readLine l f => exact nextOk_read h l _ f _
  | readStage l f => exact nextOk_read h l _ f _
  | readPlan l f => exact nextOk_read h l _ f _
  | readSequencer l f => exact nextOk_read h l _ f _
  | readInput l f ms => exact nextOk_read h l _ f _
  | readNextNotice l f => exact nextOk_request h l _ f (keepsPart_readNextNoticeOp l f)
  | readRecord l f => exact nextOk_read h l _ f _
  | readClock l f => exact nextOk_read h l _ f _
  | readInvestigation l f => exact nextOk_read h l _ f _
  | mainsCrossing period since => exact nextOk_next (h.crossing period since)
  | mainsTimeout => exact nextOk_ite h fun _ => h.whole.loseMains.ok
  | paceTimerExpiry => exact nextOk_ite h fun _ => h.cycleStart
  | switch => exact nextOk_ite h fun _ => h.sendSwitch
  | poll => exact nextOk_poll h
  | window line rx => exact nextOk_window h line rx
  | replyAllowanceEnd line => exact nextOk_next (h.whole.modSlot _).ok
  | pollSlotClose => exact nextOk_pollSlotClose h
  | frameStop line => exact nextOk_next (h.whole.jamLine line).ok
  | lineJam line => exact nextOk_next (h.whole.jamLine line).ok
  | timingUnit => exact nextOk_next h.whole.timingUnit.ok
  | endingPeriodEnd g => exact nextOk_ite h fun due => h.endPeriod g due
  | redAmberTime g => exact nextOk_next (h.whole.tryRedAmber g).ok
  | greenTime g => exact nextOk_ite h fun _ => (h.whole.tryGreen g).settled.ok
  | gatingDeadlineExpiry g => exact nextOk_ite h fun _ => h.gateDeadline g _
  | extensionHoldExpiry g => exact nextOk_ite h fun _ => h.whole.decision.ok
  | priorityExpired stage => exact nextOk_ite h fun listed => h.expireCall stage listed
  | callServiceExpiry => exact nextOk_callServiceExpiry h
  | retryTimerExpiry card => exact nextOk_ite h fun _ => h.endTrip card
  | watchTimerExpiry card => exact nextOk_ite h fun _ => 
      (h.whole.modCable card (fun r => { r with watchTimer := none }) fun _ => rfl).ok
  | restoreOfferExpiry => exact nextOk_ite h fun _ => h.withdrawOffer
  | startTimerExpiry => exact nextOk_startTimerExpiry h
  | vouchTimerExpiry => exact nextOk_vouchTimerExpiry h
  | changeoverTimerExpiry => exact nextOk_changeoverTimerExpiry h
  | twoKeyTimerExpiry => exact nextOk_twoKeyTimerExpiry h
  | inputSample n reading => exact nextOk_next (h.sampleInput n reading)
  | cleaningTimerExpiry n => exact nextOk_ite h fun _ => (h.whole.modInput n _).ok
  | attentionReleaseEnd l => exact nextOk_next (h.whole.setFaults (h.table.releaseEnded l)).ok

/-- Every step keeps the part's invariant: the command at the front of the queue does, and an idle step changes
nothing. -/
theorem step_keeps_partOk {s t : State} (h : PartOk s) (e : step s = .next t) : PartOk t := by
  unfold step at e
  split at e
  · exact Host.Outcome.next.inj e ▸ h
  · exact exec_keeps_partOk (h.whole.setQueue _).ok _ t e

/-! ### What the invariant says of greens and commands (R66, R79, R80) -/

/-- Two conflicting groups are never both GREEN: a GREEN outside HANDED_OVER is an exposure, and there is none in
HANDED_OVER. -/
theorem GreensApart.noTwoGreen {s : State} (h : GreensApart s) {l g : GroupId} (ne : l ≠ g)
    (c : conflict s l g = true) : ¬(s.seq.groups[l].aspect = .green ∧ s.seq.groups[g].aspect = .green) := by
  rintro ⟨greenL, greenG⟩
  have awake := h.service l greenL
  have exposed {k : GroupId} (green : s.seq.groups[k].aspect = .green) : s.proving.groups[k].exposed = true :=
    (h.fresh k).trans (exposedNow_green green awake)
  exact h.apart awake l g ne c ⟨exposed greenL, exposed greenG⟩

/-- Settles O58: the exposures are part of the invariant that every step keeps. -/
theorem stepKeepsConflictingGreensApart : Obligations.StepKeepsConflictingGreensApart := by
  intro s t h e
  have kept := (step_keeps_partOk h e).greens
  exact ⟨kept, fun _ _ ne c => kept.noTwoGreen ne c⟩

/-- Which aspects light a colour (R66). -/
theorem lights_iff (a : Aspect) (c : Colour) :
    lights a c = true ↔
      c = .red ∧ (a = .red ∨ a = .redAmber) ∨ c = .amber ∧ (a = .redAmber ∨ a = .amber) ∨ c = .green ∧ a = .green := by
  cases a <;> cases c <;> decide

theorem outRec_of_active {s : State} {a : SafetyTable} (h : s.safety.active = some a) (o : OutputId) :
    outRec s o = a.outputs[o] := by
  simp [outRec, activeTable, h]

/-- R66 as a condition: outside HANDED_OVER, the card not tripped, the output used with its colour lit. -/
theorem commandOf_iff (s : State) (o : OutputId) :
    commandOf s o = true ↔
      s.service.state ≠ .handedOver ∧ s.cable.cards[cardOf o].tripped = false ∧
        ∃ a, s.safety.active = some a ∧ a.outputs[o].used = true ∧
          lights s.seq.groups[a.outputs[o].group].aspect a.outputs[o].colour = true := by
  cases e : s.safety.active with
  | none => simp [commandOf, outRec_unused e o]
  | some a => simp [commandOf, outRec_of_active e o, and_assoc]

/-- Settles O59: every commanded state is the composed one, which R66's condition decides. -/
theorem stepKeepsCommandsComposed : Obligations.StepKeepsCommandsComposed := by
  intro s t h e o
  rw [(step_keeps_partOk h e).commands o, commandOf_iff]
  simp only [lights_iff]

end Sys2Proof.Machine
end

section
/-! PROOFS. Chapter 4, red status and green exposure: when a group's red status is evaluated, to what, and what a change
of it brings; and what a GREEN's change of proving state brings. -/

namespace Sys2Proof.Machine

/-! ### The reds of a group (R76) -/

theorem serves_iff (s : State) (o : OutputId) (g : GroupId) (c : Colour) :
    serves s o g c = true ↔ (outRec s o).used = true ∧ (outRec s o).colour = c ∧ (outRec s o).group = g := by
  simp [serves, and_left_comm, and_comm]

theorem mem_redOutputs (s : State) (g : GroupId) (o : OutputId) :
    o ∈ redOutputs s g ↔ (outRec s o).used = true ∧ (outRec s o).colour = .red ∧ (outRec s o).group = g := by
  rw [redOutputs, List.mem_filter, serves_iff]
  exact and_iff_right (List.mem_finRange o)

theorem isDark_iff (s : State) (o : OutputId) :
    isDark s o = true ↔
      s.proving.outputs[o].state = .failedDark ∨ s.proving.outputs[o].state = .senseLost ∨
        s.proving.outputs[o].state = .isolated ∨
        s.proving.outputs[o].state = .provedOff ∧ s.proving.outputs[o].echo = true := by
  unfold isDark
  cases s.proving.outputs[o].state <;> simp

theorem mem_darkReds (s : State) (g : GroupId) (o : OutputId) :
    o ∈ darkReds s g ↔
      o ∈ redOutputs s g ∧
        (s.proving.outputs[o].state = .failedDark ∨ s.proving.outputs[o].state = .senseLost ∨
          s.proving.outputs[o].state = .isolated ∨
          s.proving.outputs[o].state = .provedOff ∧ s.proving.outputs[o].echo = true) := by
  rw [darkReds, List.mem_filter, isDark_iff]

theorem redOutputs_nodup (s : State) (g : GroupId) : (redOutputs s g).Nodup := (List.nodup_finRange 64).filter _

theorem darkReds_ascending (s : State) (g : GroupId) : (darkReds s g).Pairwise (· < ·) :=
  ((List.pairwise_lt_finRange 64).filter _).filter _

theorem redProved_eq (s : State) (g : GroupId) :
    redProved s g = (redOutputs s g).countP fun o => s.proving.outputs[o].state == .provedOn :=
  List.countP_eq_length_filter.symm

/-! ### A red status set (R78) -/

/-- A red status set is held after the event, whatever it brings. -/
theorem setRed_status (g : GroupId) (r : RedStatus) (s : State) : (setRed g r s).proving.groups[g].red = r := by
  unfold setRed
  split
  case isTrue held => exact eq_of_beq held
  case isFalse =>
    rw [(stays_redStatusChanged _).reds, redRecords_eq]
    exact congrArg GroupProof.red (vmod_same _ g _)

theorem setRed_held {g : GroupId} {r : RedStatus} {s : State} (h : r = s.proving.groups[g].red) : setRed g r s = s :=
  if_pos (beq_iff_eq.mpr h.symm)

theorem setRed_changed {g : GroupId} {r : RedStatus} {s : State} (h : r ≠ s.proving.groups[g].red) :
    setRed g r s =
      redStatusChanged (redRecords g s.proving.groups[g].red r (modGroupProof s g fun q => { q with red := r })) :=
  if_neg fun same => h (eq_of_beq same).symm

theorem redRecords_degraded (g : GroupId) (old : RedStatus) (s : State) :
    redRecords g old .degraded s =
      (if old = .loss then endFault .redLoss (.group g) else id)
        (post .redDegraded (.group g) false (some (darkDetail s g)) s) := by
  cases old <;> rfl

theorem redRecords_loss (g : GroupId) (old : RedStatus) (s : State) :
    redRecords g old .loss s =
      (if old = .degraded then endFault .redDegraded (.group g) else id)
        (post .redLoss (.group g) false (some (darkDetail s g)) s) := by
  cases old <;> rfl

/-- Both conditions end at the entry to RED_OK and to RED_UNTESTED. -/
theorem redRecords_cleared {r : RedStatus} (h : r = .ok ∨ r = .untested) (g : GroupId) (old : RedStatus) (s : State) :
    redRecords g old r s = endFault .redLoss (.group g) (endFault .redDegraded (.group g) s) := by
  rcases h with rfl | rfl <;> rfl

/-! ### A change of proving state (R77, R79) -/

theorem redFails_iff (p : ProvingState) : redFails p = true ↔ p = .isolated ∨ p = .senseLost := by
  cases p <;> simp [redFails]

/-- A used RED's change of proving state evaluates its group at an entry to ISOLATED or SENSE_LOST alone (R77). -/
theorem stateChanged_red {s : State} {o : OutputId} (used : (outRec s o).used = true) (red : (outRec s o).colour = .red)
    (old : ProvingState) :
    stateChanged o old s =
      if (s.proving.outputs[o].state = .isolated ∨ s.proving.outputs[o].state = .senseLost) ∧
          s.proving.outputs[o].state ≠ old then evalRed (outRec s o).group s
      else s := by
  have entry : (redFails s.proving.outputs[o].state && s.proving.outputs[o].state != old) = true ↔
      (s.proving.outputs[o].state = .isolated ∨ s.proving.outputs[o].state = .senseLost) ∧
        s.proving.outputs[o].state ≠ old := by
    rw [Bool.and_eq_true, redFails_iff, bne_iff_ne]
  simp only [stateChanged, used, red, beq_self_eq_true, Bool.and_self, if_true]
  exact if_congr entry rfl rfl

theorem stateChanged_plain {s : State} {o : OutputId}
    (plain : (outRec s o).used = false ∨ (outRec s o).colour = .amber) (old : ProvingState) :
    stateChanged o old s = s := by
  rcases plain with unused | amber
  · simp [stateChanged, greenChanged, unused]
  · simp [stateChanged, greenChanged, amber]

theorem afterExposure_eq (g : GroupId) (was : Bool) (s : State) :
    afterExposure g was s =
      if s.proving.groups[g].exposed = was then s else settled (tryGreens (conflictCheck s)) :=
  if_congr beq_iff_eq rfl rfl

/-- A used GREEN's change of proving state recomputes its group's exposure, and a change of that goes on (R79). -/
theorem stateChanged_green {s : State} {o : OutputId} (used : (outRec s o).used = true)
    (green : (outRec s o).colour = .green) (old : ProvingState) :
    stateChanged o old s =
      afterExposure (outRec s o).group s.proving.groups[(outRec s o).group].exposed
        (reexpose (outRec s o).group s) := by
  have goes : stateChanged o old s = greenChanged o s := by simp [stateChanged, green]
  rw [goes, greenChanged_eq]
  simp [used, green]

/-! ### A completed measurement (R76) -/

/-- A measured output's transition, then the evaluation of a used RED's group commanded RED or RED_AMBER (R76). -/
theorem prove_measured {m : CoreMeas} {s : State} (h : unmeasured s m.output = false) :
    prove m s =
      if (outRec s m.output).used = true ∧ (outRec s m.output).colour = .red ∧
          (transition m s).service.state ≠ .handedOver ∧
          ((transition m s).seq.groups[(outRec s m.output).group].aspect = .red ∨
            (transition m s).seq.groups[(outRec s m.output).group].aspect = .redAmber) then
        evalRed (outRec s m.output).group (transition m s)
      else transition m s := by
  have same : outRec (transition m s) m.output = outRec s m.output :=
    outRec_congr (congrArg SafetyUnit.active (keeps_transition m s).safety) m.output
  rw [prove_eq, h, if_neg Bool.false_ne_true, same]
  refine if_congr ?_ rfl rfl
  simp [redJudged, and_assoc, and_comm]

/-- Settles O27: the outcome and its records are redOutcome's and setRed's, the triggers those of a transition and of a
change of proving state. -/
theorem redEvaluationOutcome : Obligations.RedEvaluationOutcome := by
  refine ⟨fun g s => ⟨?_, rfl, (setRed_status g _ s).symm, darkReds_ascending s g, rfl, redOutputs_nodup s g, rfl,
      redProved_eq s g, fun o => ⟨mem_redOutputs s g o, mem_darkReds s g o⟩⟩,
    ?_, ?_, ?_⟩
  · exact setRed_status g _ s
  · rintro m s _ measured rfl
    exact prove_measured measured
  · rintro o f _ _ s _ rfl rfl rfl
    refine ⟨rfl, fun used red => ⟨fun fails entered => ?_, fun stays => ?_⟩,
      fun plain => stateChanged_plain (s := modProof s o f) plain _, fun g u used green group exposure => ?_⟩
    · exact (stateChanged_red (s := modProof s o f) used red _).trans (if_pos ⟨fails, entered⟩)
    · refine (stateChanged_red (s := modProof s o f) used red _).trans (if_neg ?_)
      rintro ⟨fails, entered⟩
      rcases stays with same | ⟨notIsolated, notLost⟩
      · exact entered same
      · exact fails.elim notIsolated notLost
    · subst group exposure
      exact (stateChanged_green (s := modProof s o f) used green _).trans (afterExposure_eq _ _ _)
  · rintro g r _ _ s _ rfl rfl rfl
    refine ⟨setRed_held, fun changed => ?_⟩
    rw [setRed_changed changed]
    refine ⟨?_, ?_, fun cleared => ?_⟩
    · rintro rfl
      rw [redRecords_degraded]
      rfl
    · rintro rfl
      rw [redRecords_loss]
      rfl
    · rw [redRecords_cleared cleared]

end Sys2Proof.Machine
end

section
/-! PROOFS. Chapter 4, what a completed core measurement makes of the proving fields: its own output's but for the
command, and no other's. -/

namespace Sys2Proof.Machine

/-! ### One output's proving fields changed -/

/-- An operation that changes the proving fields of one output, and of none but that one, whatever the commands. -/
def Proves (o : OutputId) (f : OutputProof → OutputProof) (s t : State) : Prop :=
  ∀ p : OutputId,
    t.proving.outputs[p] =
      { (if o = p then f s.proving.outputs[p] else s.proving.outputs[p]) with
        commanded := t.proving.outputs[p].commanded }

theorem Proves.own {o : OutputId} {f : OutputProof → OutputProof} {s t : State} (h : Proves o f s t) :
    t.proving.outputs[o] = { f s.proving.outputs[o] with commanded := t.proving.outputs[o].commanded } :=
  (h o).trans (by rw [if_pos rfl])

theorem Proves.other {o p : OutputId} {f : OutputProof → OutputProof} {s t : State} (h : Proves o f s t) (ne : p ≠ o) :
    t.proving.outputs[p] = { s.proving.outputs[p] with commanded := t.proving.outputs[p].commanded } :=
  (h p).trans (by rw [if_neg ne.symm])

theorem proves_modProof (o : OutputId) (f : OutputProof → OutputProof) (s : State) : Proves o f s (modProof s o f) :=
  fun p => by rw [modProof_output]

/-- What leaves every output's proving fields may follow. -/
theorem Proves.then {o : OutputId} {f : OutputProof → OutputProof} {s t u : State} (h : Proves o f s t)
    (stay : ProofsStay t u) : Proves o f s u := fun p => by
  rw [stay.outputs p, h p]

/-- What leaves the proving unit may come before. -/
theorem Proves.after {o : OutputId} {f : OutputProof → OutputProof} {s t u : State} (h : Proves o f t u)
    (same : t.proving = s.proving) : Proves o f s u := fun p => by
  rw [h p, same]

/-- Two changes that agree on the output's own fields are the same. -/
theorem Proves.congr {o : OutputId} {f g : OutputProof → OutputProof} {s t : State} (h : Proves o f s t)
    (same : f s.proving.outputs[o] = g s.proving.outputs[o]) : Proves o g s t := fun p => by
  refine (h p).trans ?_
  by_cases own : o = p
  · subst own
    rw [if_pos rfl, if_pos rfl, same]
  · rw [if_neg own, if_neg own]

theorem proves_setProving (o : OutputId) (f : OutputProof → OutputProof) (s : State) :
    Proves o f s (setProving o f s) :=
  (proves_modProof o f s).then (proofsStay_stateChanged o _ _)

theorem modProof_congr {s : State} {o : OutputId} {f g : OutputProof → OutputProof}
    (h : f s.proving.outputs[o] = g s.proving.outputs[o]) : modProof s o f = modProof s o g := by
  unfold modProof
  rw [vmod_congr h]

theorem setProving_congr {s : State} {o : OutputId} {f g : OutputProof → OutputProof}
    (h : f s.proving.outputs[o] = g s.proving.outputs[o]) : setProving o f s = setProving o g s := by
  unfold setProving
  rw [modProof_congr h]

/-! ### The transition of a measurement (R69 to R72) -/

/-- What a measurement makes of its output's proving fields. -/
def measuredProof (m : CoreMeas) (r : OutputProof) : OutputProof :=
  { r with
    state :=
      if m.applied then
        if m.fail then if r.failing = 0 ∧ r.state ≠ .failedDark then .unproved else .failedDark
        else .provedOn
      else if m.unwanted then .litUnwanted
      else .provedOff
    failing := if m.applied ∧ m.fail then min 2 (r.failing + 1) else 0
    entryIp := if m.applied = false ∧ m.unwanted = true ∧ r.state ≠ .litUnwanted then m.ip else r.entryIp }

section
variable {m : CoreMeas} {r : OutputProof}

theorem measuredProof_lit (lit : m.applied = true) (passes : m.fail = false) (r : OutputProof) :
    measuredProof m r = { r with state := .provedOn, failing := 0 } := by
  simp [measuredProof, lit, passes]

theorem measuredProof_first (lit : m.applied = true) (fails : m.fail = true) (first : r.failing = 0) :
    measuredProof m r =
      { r with failing := 1, state := if r.state = .failedDark then .failedDark else .unproved } := by
  by_cases dark : r.state = .failedDark <;> simp [measuredProof, lit, fails, first, dark]

theorem measuredProof_later (lit : m.applied = true) (fails : m.fail = true) (later : 1 ≤ r.failing) :
    measuredProof m r = { r with failing := 2, state := .failedDark } := by
  have notFirst : r.failing ≠ 0 := Nat.one_le_iff_ne_zero.mp later
  simp [measuredProof, lit, fails, notFirst, later]

theorem measuredProof_off (dark : m.applied = false) (wanted : m.unwanted = false) (r : OutputProof) :
    measuredProof m r = { r with state := .provedOff, failing := 0 } := by
  simp [measuredProof, dark, wanted]

theorem measuredProof_held (dark : m.applied = false) (unwanted : m.unwanted = true) (held : r.state = .litUnwanted) :
    measuredProof m r = { r with failing := 0 } := by
  simp [measuredProof, dark, unwanted, ← held]

theorem measuredProof_entered (dark : m.applied = false) (unwanted : m.unwanted = true)
    (entered : r.state ≠ .litUnwanted) :
    measuredProof m r = { r with state := .litUnwanted, failing := 0, entryIp := m.ip } := by
  simp [measuredProof, dark, unwanted, entered]

end

theorem proofsStay_settleLampRecords (m : CoreMeas) (s : State) : ProofsStay s (settleLampRecords m s) := by
  have ended := (stays_endFault .lampDark (.output m.output) s).proofs
  unfold settleLampRecords
  dsimp only
  split
  · split
    · exact ended
    · exact ended.trans (stays_post _ _ _ _ _).proofs
  · exact ended.trans (stays_endFault _ _ _).proofs

theorem proves_measuredLit {m : CoreMeas} (lit : m.applied = true) (passes : m.fail = false) (s : State) :
    Proves m.output (measuredProof m) s (measuredLit m s) := by
  have proved := (proves_setProving m.output (fun r => { r with state := .provedOn, failing := 0 }) s).congr
    (measuredProof_lit lit passes _).symm
  unfold measuredLit
  dsimp only
  split
  · exact proved.then (proofsStay_settleLampRecords m _)
  · exact proved

/-- The first failing measurement (R70, count 1). -/
theorem measuredDark_first {m : CoreMeas} {s : State} (h : s.proving.outputs[m.output].failing = 0) :
    measuredDark m s =
      setProving m.output
        (fun r => { r with failing := 1, state := if r.state = .failedDark then .failedDark else .unproved }) s := by
  have first : s.proving.outputs[m.output].failing + 1 < 2 := by omega
  unfold measuredDark
  rw [if_pos first]
  refine setProving_congr ?_
  simp only [h, beq_iff_eq]

/-- A later failing measurement (R70, count 2). -/
theorem measuredDark_later {m : CoreMeas} {s : State} (h : 1 ≤ s.proving.outputs[m.output].failing) :
    measuredDark m s =
      if s.proving.outputs[m.output].state ≠ .failedDark ∧ (outRec s m.output).used = true then
        post .lampDark (.output m.output) false (some [wordInt m.ip, cableNote m s])
          (setProving m.output (fun r => { r with failing := 2, state := .failedDark }) s)
      else setProving m.output (fun r => { r with failing := 2, state := .failedDark }) s := by
  have later : ¬s.proving.outputs[m.output].failing + 1 < 2 := by omega
  have kept := keeps_setProving m.output (fun r => { r with failing := 2, state := .failedDark }) s
  have same : outRec (setProving m.output (fun r => { r with failing := 2, state := .failedDark }) s) m.output =
      outRec s m.output := outRec_congr (congrArg SafetyUnit.active kept.safety) m.output
  have note : cableNote m (setProving m.output (fun r => { r with failing := 2, state := .failedDark }) s) =
      cableNote m s := by
    unfold cableNote
    rw [kept.feeders]
  unfold measuredDark
  rw [if_neg later]
  dsimp only
  rw [same, note]
  refine if_congr ?_ rfl rfl
  simp

theorem proves_measuredDark {m : CoreMeas} (lit : m.applied = true) (fails : m.fail = true) (s : State) :
    Proves m.output (measuredProof m) s (measuredDark m s) := by
  rcases Nat.eq_zero_or_pos s.proving.outputs[m.output].failing with first | later
  · rw [measuredDark_first first]
    exact (proves_setProving _ _ s).congr (measuredProof_first lit fails first).symm
  · have proved := (proves_setProving m.output (fun r => { r with failing := 2, state := .failedDark }) s).congr
      (measuredProof_later lit fails later).symm
    rw [measuredDark_later later]
    split
    · exact proved.then (stays_post _ _ _ _ _).proofs
    · exact proved

/-- What comes before the change of state at a PROVED_OFF: UNWANTED_CURRENT ended with no investigation open (R71). -/
theorem measuredOff_eq (m : CoreMeas) (s : State) :
    measuredOff m s =
      setProving m.output (fun r => { r with state := .provedOff, failing := 0 })
        (if investigationOf s m.output = none then endFault .unwantedCurrent (.output m.output) s else s) := by
  unfold measuredOff
  cases investigationOf s m.output <;> rfl

theorem proves_measuredOff {m : CoreMeas} (dark : m.applied = false) (wanted : m.unwanted = false) (s : State) :
    Proves m.output (measuredProof m) s (measuredOff m s) := by
  rw [measuredOff_eq]
  refine ((proves_setProving _ _ _).after ?_).congr (measuredProof_off dark wanted _).symm
  split <;> rfl

theorem measuredUnwanted_held {m : CoreMeas} {s : State} (h : s.proving.outputs[m.output].state = .litUnwanted) :
    measuredUnwanted m s = modProof s m.output fun r => { r with failing := 0 } :=
  if_pos (beq_iff_eq.mpr h)

/-- The entry to LIT_UNWANTED with its record and investigation, before the entry is reported (R72, R95). -/
def unwantedEntered (m : CoreMeas) (s : State) : State :=
  openInvestigation m.output
    (post .unwantedCurrent (.output m.output) false (some [wordInt m.ip])
      (modProof s m.output fun r => { r with state := .litUnwanted, failing := 0, entryIp := m.ip }))

theorem proves_unwantedEntered (m : CoreMeas) (s : State) :
    Proves m.output (fun r => { r with state := .litUnwanted, failing := 0, entryIp := m.ip }) s
      (unwantedEntered m s) := fun p => by
  rw [unwantedEntered, openInvestigation_proving]
  exact proves_modProof _ _ s p

theorem keeps_unwantedEntered (m : CoreMeas) (s : State) : DecisionKeeps s (unwantedEntered m s) :=
  (keeps_modProof _ _ s).trans ((keeps_post _ _ _ _ _).trans (keeps_openInvestigation _ _))

theorem openInvestigation_service (o : OutputId) (s : State) : (openInvestigation o s).service = s.service := by
  unfold openInvestigation
  split
  · rfl
  · split <;> rfl

/-- The entry to LIT_UNWANTED reported: in HANDED_OVER it posts HANDOVER_UNPROVEN with the entering IP (R72, R159). -/
theorem measuredUnwanted_entered {m : CoreMeas} {s : State} (h : s.proving.outputs[m.output].state ≠ .litUnwanted) :
    measuredUnwanted m s =
      stateChanged m.output s.proving.outputs[m.output].state
        (if s.service.state = .handedOver then
          post .handoverUnproven (.output m.output) true (some [wordInt m.ip]) (unwantedEntered m s)
        else unwantedEntered m s) := by
  have service : (unwantedEntered m s).service = s.service := openInvestigation_service _ _
  have ip : (unwantedEntered m s).proving.outputs[m.output].entryIp = m.ip :=
    congrArg OutputProof.entryIp (proves_unwantedEntered m s).own
  have reported : measuredUnwanted m s =
      stateChanged m.output s.proving.outputs[m.output].state
        (if (unwantedEntered m s).service.state == .handedOver then postUnproven m.output (unwantedEntered m s)
        else unwantedEntered m s) := if_neg fun held => h (eq_of_beq held)
  rw [reported, service, postUnproven, ip]
  exact congrArg _ (if_congr beq_iff_eq rfl rfl)

theorem proves_measuredUnwanted {m : CoreMeas} (dark : m.applied = false) (unwanted : m.unwanted = true) (s : State) :
    Proves m.output (measuredProof m) s (measuredUnwanted m s) := by
  by_cases held : s.proving.outputs[m.output].state = .litUnwanted
  · rw [measuredUnwanted_held held]
    exact (proves_modProof _ _ s).congr (measuredProof_held dark unwanted held).symm
  · have entered := (proves_unwantedEntered m s).congr (measuredProof_entered dark unwanted held).symm
    rw [measuredUnwanted_entered held]
    refine Proves.then ?_ (proofsStay_stateChanged _ _ _)
    split
    · exact entered.then (stays_post _ _ _ _ _).proofs
    · exact entered

theorem proves_transition (m : CoreMeas) (s : State) : Proves m.output (measuredProof m) s (transition m s) := by
  unfold transition
  cases lit : m.applied with
  | true =>
    rw [if_pos rfl]
    cases fails : m.fail with
    | true => exact proves_measuredDark lit fails s
    | false => exact proves_measuredLit lit fails s
  | false =>
    rw [if_neg Bool.false_ne_true]
    cases unwanted : m.unwanted with
    | true => exact proves_measuredUnwanted lit unwanted s
    | false => exact proves_measuredOff lit unwanted s

theorem prove_unmeasured {m : CoreMeas} {s : State} (h : unmeasured s m.output = true) : prove m s = s := by
  rw [prove_eq, if_pos h]

/-- A completed measurement of a measured output makes of its fields what the transition makes of them (R69 to R72). -/
theorem proves_prove {m : CoreMeas} {s : State} (h : unmeasured s m.output = false) :
    Proves m.output (measuredProof m) s (prove m s) := by
  rw [prove_measured h]
  split
  · exact (proves_transition m s).then (proofsStay_setRed _ _ _)
  · exact proves_transition m s

end Sys2Proof.Machine
end

section
/-! PROOFS. Chapter 4, what a measurement posts and ends, the investigation it opens, and what a window's echo, applied
state and sense count do to an output. -/

namespace Sys2Proof.Machine

/-! ### Lamp records (R69, R70) -/

/-- A measured output proved lit: the change of state, and what the lamp records of a used output then come to. -/
theorem measuredLit_eq (m : CoreMeas) (s : State) :
    measuredLit m s =
      if (outRec s m.output).used then
        settleLampRecords m (setProving m.output (fun r => { r with state := .provedOn, failing := 0 }) s)
      else setProving m.output (fun r => { r with state := .provedOn, failing := 0 }) s := by
  have same := outRec_congr
    (congrArg SafetyUnit.active
      (keeps_setProving m.output (fun r => { r with state := .provedOn, failing := 0 }) s).safety) m.output
  unfold measuredLit
  dsimp only
  rw [same]

/-- LAMP_DARK ended, then LAMP_DIM posted, kept or ended by the dim test (R69). -/
theorem settleLampRecords_eq (m : CoreMeas) (s : State) :
    settleLampRecords m s =
      if m.dim then
        if faultActive (endFault .lampDark (.output m.output) s) .lampDim (.output m.output) then
          endFault .lampDark (.output m.output) s
        else
          post .lampDim (.output m.output) false
            (some
              (wordInt m.ip :: match s.engine.cores[m.output].ref with | some r => [wordInt r] | none => []))
            (endFault .lampDark (.output m.output) s)
      else endFault .lampDim (.output m.output) (endFault .lampDark (.output m.output) s) := rfl

/-- An ON measurement that passes, by whether its output is used, dim, and known to be dim (R69). -/
theorem measuredLit_records {m : CoreMeas} {s u v : State}
    (hu : u = setProving m.output (fun r => { r with state := .provedOn, failing := 0 }) s)
    (hv : v = endFault .lampDark (.output m.output) u) :
    ((outRec s m.output).used = false → measuredLit m s = u) ∧
      ((outRec s m.output).used = true → m.dim = false →
        measuredLit m s = endFault .lampDim (.output m.output) v) ∧
      ((outRec s m.output).used = true → m.dim = true → faultActive v .lampDim (.output m.output) = true →
        measuredLit m s = v) ∧
      ∀ r, (outRec s m.output).used = true → m.dim = true → faultActive v .lampDim (.output m.output) = false →
        s.engine.cores[m.output].ref = some r →
          measuredLit m s = post .lampDim (.output m.output) false (some [wordInt m.ip, wordInt r]) v := by
  have engine : u.engine = s.engine := hu ▸ (keeps_setProving _ _ s).engine
  rw [measuredLit_eq, ← hu, settleLampRecords_eq, ← hv, engine]
  refine ⟨fun unused => ?_, fun used bright => ?_, fun used dim active => ?_, fun r used dim fresh ref => ?_⟩
  · rw [unused, if_neg Bool.false_ne_true]
  · rw [used, if_pos rfl, bright, if_neg Bool.false_ne_true]
  · rw [used, if_pos rfl, dim, if_pos rfl, active, if_pos rfl]
  · rw [used, if_pos rfl, dim, if_pos rfl, fresh, if_neg Bool.false_ne_true, ref]

/-- The cable note's three values (R70; log entry 57). -/
theorem cableNote_eq (m : CoreMeas) (s : State) :
    cableNote m s =
      if m.openFeeder = true ∨ s.cable.feeders[m.output].opened = true then 0 else if m.qref = none then 2 else 1 := by
  unfold cableNote
  cases m.openFeeder <;> cases s.cable.feeders[m.output].opened <;> cases m.qref <;> rfl

/-- The second failing ON measurement in a row posts LAMP_DARK at a used output's entry to FAILED_DARK alone (R70). -/
theorem measuredDark_records {m : CoreMeas} {s u : State} (later : 1 ≤ s.proving.outputs[m.output].failing)
    (hu : u = setProving m.output (fun r => { r with failing := 2, state := .failedDark }) s) :
    (s.proving.outputs[m.output].state = .failedDark ∨ (outRec s m.output).used = false → measuredDark m s = u) ∧
      (s.proving.outputs[m.output].state ≠ .failedDark → (outRec s m.output).used = true →
        measuredDark m s =
          post .lampDark (.output m.output) false
            (some
              [wordInt m.ip,
                if m.openFeeder = true ∨ s.cable.feeders[m.output].opened = true then 0
                else if m.qref = none then 2
                else 1])
            u) := by
  rw [measuredDark_later later, ← hu, cableNote_eq]
  refine ⟨fun silent => if_neg ?_, fun entered used => if_pos ⟨entered, used⟩⟩
  rintro ⟨entered, used⟩
  exact silent.elim entered fun unused => Bool.false_ne_true (unused.symm.trans used)

/-! ### Investigations (R95) -/

theorem investigationOf_none_iff (s : State) (o : OutputId) :
    investigationOf s o = none ↔ ∀ (j : InvSlot) v, s.cable.investigations[j] = some v → v.x ≠ o := by
  refine ⟨fun none j v => investigationOf_none none j v, fun free => ?_⟩
  refine Option.not_isSome_iff_eq_none.mp fun some => ?_
  obtain ⟨j, v, held, same⟩ := (investigationOf_isSome_iff s o).mp some
  exact free j v held same

theorem openInvestigation_open {s : State} {o : OutputId} (h : investigationOf s o ≠ none) :
    openInvestigation o s = s := by
  unfold openInvestigation
  split
  · rfl
  case h_2 none => exact absurd none h

/-- Where none is open for the output, the lowest FREE slot takes a new one (R95). -/
theorem openInvestigation_free {s : State} {o : OutputId} {i : InvSlot} (h : investigationOf s o = none)
    (free : (allInvSlots.find? fun i => s.cable.investigations[i].isNone) = some i) :
    openInvestigation o s =
      setInvestigation s i
        (some
          { x := o, openTime := s.seq.clock, firstPending := true, meas := 0, lit := 0, dark := 0, consecutive := 0,
            candidates := [] }) := by
  simp only [openInvestigation, h, free]

/-- With no slot FREE the record's detail is marked (R95). -/
theorem openInvestigation_full {s : State} {o : OutputId} (h : investigationOf s o = none)
    (full : (allInvSlots.find? fun i => s.cable.investigations[i].isNone) = none) :
    openInvestigation o s = redetail .unwantedCurrent (.output o) [0x8000] s := by
  simp only [openInvestigation, h, full]

theorem lowestFree_some {s : State} {i : InvSlot} (free : s.cable.investigations[i] = none)
    (lowest : ∀ j : InvSlot, j < i → s.cable.investigations[j] ≠ none) :
    (allInvSlots.find? fun i => s.cable.investigations[i].isNone) = some i := by
  refine Fin.find?_eq_find?_finRange.symm.trans (Fin.find?_eq_some_iff.mpr ⟨by rw [free]; rfl, fun j before => ?_⟩)
  exact Option.isNone_eq_false_iff.mpr (Option.isSome_iff_ne_none.mpr (lowest j before))

theorem lowestFree_none {s : State} (full : ∀ j : InvSlot, s.cable.investigations[j] ≠ none) :
    (allInvSlots.find? fun i => s.cable.investigations[i].isNone) = none :=
  List.find?_eq_none.mpr fun j _ => by simpa using full j

theorem faultActive_iff (s : State) (k : FaultKind) (x : Subject) :
    faultActive s k x = true ↔
      ∃ j r, findRecord s.faults k x = some j ∧ s.faults.slots[j] = some r ∧ r.active = true := by
  unfold faultActive
  cases found : findRecord s.faults k x with
  | none =>
    refine ⟨fun active => absurd active Bool.false_ne_true, ?_⟩
    rintro ⟨_, _, listed, -⟩
    cases listed
  | some j =>
    dsimp only
    cases held : s.faults.slots[j] with
    | none =>
      refine ⟨fun active => absurd active Bool.false_ne_true, ?_⟩
      rintro ⟨_, r, listed, kept, -⟩
      obtain rfl := Option.some.inj listed
      cases held.symm.trans kept
    | some r =>
      refine ⟨fun active => ⟨j, r, rfl, held, active⟩, ?_⟩
      rintro ⟨_, q, listed, kept, active⟩
      obtain rfl := Option.some.inj listed
      obtain rfl := Option.some.inj (held.symm.trans kept)
      exact active

/-! ### The applied state of a window (R68) -/

theorem storeApplied_kept {o : OutputId} {a : Bool} {s : State}
    (h : s.proving.outputs[o].applied = none ∨ s.proving.outputs[o].applied = some a) :
    storeApplied o a s = modProof s o fun r => { r with applied := some a } := by
  refine if_neg fun changes => ?_
  obtain ⟨p, held, differs⟩ := (appliedChanges_iff s o a).mp changes
  rcases h with none | same
  · cases none.symm.trans held
  · exact differs (Option.some.inj (held.symm.trans same))

/-- A changed applied state, by the proving state it finds. -/
theorem storeApplied_changed {o : OutputId} {a : Bool} {s : State} (h : s.proving.outputs[o].applied = some (!a)) :
    storeApplied o a s =
      match s.proving.outputs[o].state with
      | .isolated => modProof s o fun r => { r with applied := some a }
      | .senseLost =>
        if s.line.cards[cardOf o].online then setProving o (fun r => { unproved r with applied := some a }) s
        else modProof s o fun r => { r with applied := some a, sense := 0 }
      | _ => setProving o (fun r => { unproved r with applied := some a }) s :=
  if_pos ((appliedChanges_iff s o a).mpr ⟨!a, h, by cases a <;> decide⟩)

theorem storeApplied_measured {o : OutputId} {a : Bool} {s : State} (h : s.proving.outputs[o].applied = some (!a))
    (measured : unmeasured s o = false) :
    storeApplied o a s = setProving o (fun r => { unproved r with applied := some a }) s := by
  obtain ⟨notIsolated, online⟩ := (unmeasured_eq_false_iff s o).mp measured
  rw [storeApplied_changed h]
  split
  case h_1 isolated => exact absurd isolated notIsolated
  case h_2 lost => exact if_pos (online lost)
  case h_3 => rfl

/-! ### The echo check (R67) -/

theorem checkEcho_unsent (o : OutputId) (a : Bool) (s : State) : checkEcho o a none s = s := rfl

theorem checkEcho_same (o : OutputId) (a : Bool) (s : State) :
    checkEcho o a (some a) s =
      if s.proving.outputs[o].echo then
        endFault .switchEcho (.output o) (modProof s o fun r => { r with echo := false })
      else modProof s o fun r => { r with echo := false } := by
  simp [checkEcho]

theorem checkEcho_differs {o : OutputId} {a c : Bool} (h : c ≠ a) (s : State) :
    checkEcho o a (some c) s =
      if s.proving.outputs[o].echo then modProof s o fun r => { r with echo := true }
      else
        post .switchEcho (.output o) false (some [wordBool c, wordBool a])
          (modProof s o fun r => { r with echo := true }) := by
  have differs : (c != a) = true := bne_iff_ne.mpr h
  simp [checkEcho, differs]

/-- A field set to what it holds changes nothing. -/
theorem modProof_same {s : State} {o : OutputId} {f : OutputProof → OutputProof}
    (h : f s.proving.outputs[o] = s.proving.outputs[o]) : modProof s o f = s := by
  have same : modProof s o f = modProof s o id := modProof_congr h
  rw [same]
  unfold modProof vmod
  rw [id_eq, show s.proving.outputs.set o s.proving.outputs[o] = s.proving.outputs from Vector.set_getElem_self o.isLt]

/-- The echo check posts and ends SWITCH_ECHO at a change of the flag alone (R67). -/
theorem checkEcho_records (o : OutputId) (a c : Bool) (s : State) :
    (c = a → s.proving.outputs[o].echo = false → checkEcho o a (some c) s = s) ∧
      (c = a → s.proving.outputs[o].echo = true →
        checkEcho o a (some c) s = endFault .switchEcho (.output o) (modProof s o fun r => { r with echo := false })) ∧
      (c ≠ a → s.proving.outputs[o].echo = true → checkEcho o a (some c) s = s) ∧
      (c ≠ a → s.proving.outputs[o].echo = false →
        checkEcho o a (some c) s =
          post .switchEcho (.output o) false (some [wordBool c, wordBool a])
            (modProof s o fun r => { r with echo := true })) := by
  refine ⟨?_, ?_, fun differs set => ?_, fun differs clear => ?_⟩
  · rintro rfl clear
    rw [checkEcho_same, clear, if_neg Bool.false_ne_true]
    exact modProof_same (by rw [← clear])
  · rintro rfl set
    rw [checkEcho_same, set, if_pos rfl]
  · rw [checkEcho_differs differs, set, if_pos rfl]
    exact modProof_same (by rw [← set])
  · rw [checkEcho_differs differs, clear, if_neg Bool.false_ne_true]

/-! ### The sense count (R73) -/

/-- A sense count as a window or notice leaves it. -/
def sensed (restart : Bool) (n : Nat) : Nat := if restart then 0 else min 50 (n + 1)

theorem countSense_isolated {o : OutputId} {s : State} (h : s.proving.outputs[o].state = .isolated) (restart : Bool) :
    countSense o restart s = s := by
  unfold countSense
  rw [h]

theorem countSense_lost {o : OutputId} {s : State} (h : s.proving.outputs[o].state = .senseLost) (restart : Bool) :
    countSense o restart s =
      modProof s o fun r => { r with sense := sensed restart s.proving.outputs[o].sense } := by
  unfold countSense
  rw [h]
  exact modProof_congr rfl

theorem countSense_counted {o : OutputId} {s : State} (notIsolated : s.proving.outputs[o].state ≠ .isolated)
    (notLost : s.proving.outputs[o].state ≠ .senseLost) (restart : Bool) :
    countSense o restart s =
      if s.line.cards[cardOf o].senseTimeout ≤ sensed restart s.proving.outputs[o].sense then
        setProving o
          (fun r => { r with sense := sensed restart s.proving.outputs[o].sense, state := .senseLost }) s
      else modProof s o fun r => { r with sense := sensed restart s.proving.outputs[o].sense } := by
  unfold countSense
  split
  · contradiction
  · contradiction
  · rfl

/-! ### The statement -/

/-- Settles O12: the fields by what a transition makes of them, the records, the windows and the counts each by the
equation of its own operation. -/
theorem measurementsMoveTheProvingState : Obligations.MeasurementsMoveTheProvingState := by
  refine ⟨fun m s => ⟨?_, fun notIsolated online => ?_, fun o ne => ?_⟩, ?_, fun o i s => ?_, fun o a s => ?_,
    fun o a s => ⟨checkEcho_unsent o a s, fun c => checkEcho_records o a c s⟩, ?_⟩
  · intro unmeasuredState
    refine prove_unmeasured (Bool.not_eq_false _ ▸ fun measured => ?_)
    obtain ⟨notIsolated, online⟩ := (unmeasured_eq_false_iff s m.output).mp measured
    rcases unmeasuredState with isolated | ⟨lost, silent⟩
    · exact notIsolated isolated
    · exact Bool.false_ne_true (silent.symm.trans (online lost))
  · exact (proves_prove ((unmeasured_eq_false_iff s m.output).mpr ⟨notIsolated, online⟩)).own
  · cases measured : unmeasured s m.output with
    | true => rw [prove_unmeasured measured]
    | false => exact (proves_prove measured).other ne
  · rintro m _ s u v rfl
    refine ⟨measuredLit_records, measuredDark_first, measuredDark_records, ?_, measuredUnwanted_held, ?_⟩
    · rintro rfl
      exact measuredOff_eq m s
    · rintro entered rfl
      exact measuredUnwanted_entered entered
  · refine ⟨openInvestigation_open, fun none free lowest => ?_, fun none full => ?_, investigationOf_none_iff s o,
      fun k => faultActive_iff s k _⟩
    · exact openInvestigation_free none (lowestFree_some free lowest)
    · exact openInvestigation_full none (lowestFree_none full)
  · refine ⟨storeApplied_kept, fun changed => ⟨fun isolated => ?_, fun lost silent => ?_, fun notIsolated online => ?_⟩⟩
    · rw [storeApplied_changed changed, isolated]
    · rw [storeApplied_changed changed, lost]
      exact if_neg (by rw [silent]; exact Bool.false_ne_true)
    · rw [storeApplied_measured changed ((unmeasured_eq_false_iff s o).mpr ⟨notIsolated, online⟩)]
      exact (proves_setProving _ _ _).own
  · rintro o restart _ s rfl
    refine ⟨fun isolated => countSense_isolated isolated restart, fun lost => countSense_lost lost restart,
      fun notIsolated notLost => ?_⟩
    rw [countSense_counted notIsolated notLost]
    refine ⟨fun early => if_neg (Nat.not_le.mpr early),
      fun (late : s.line.cards[cardOf o].senseTimeout ≤ sensed restart s.proving.outputs[o].sense) => ?_⟩
    rw [if_pos late]
    exact (proves_setProving _ _ _).own

end Sys2Proof.Machine
end

section
/-! PROOFS. Chapter 5, the outputs of a TRIPPED card: once commanded off, an output stays off whatever a change of
proving states brings. -/

namespace Sys2Proof.Machine

/-! ### An output held off (R66) -/

/-- An output whose card is TRIPPED and which is commanded off. -/
structure HeldOff (o : OutputId) (s : State) : Prop where
  tripped : s.cable.cards[cardOf o].tripped = true
  off : s.proving.outputs[o].commanded = false

variable {o : OutputId} {s : State}

/-- A TRIPPED card's output is composed OFF (R66). -/
theorem commandOf_tripped (h : s.cable.cards[cardOf o].tripped = true) : commandOf s o = false := by
  simp only [commandOf, h, Bool.not_true, Bool.and_false, Bool.false_and]

theorem recompose_commanded {p : OutputId → Bool} (h : p o = true) (s : State) :
    (recompose p s).proving.outputs[o].commanded = commandOf (recompose p s) o := by
  simp only [recompose, vgen_get, h, if_true]
  rfl

theorem recompose_other {p : OutputId → Bool} (h : p o = false) (s : State) :
    (recompose p s).proving.outputs[o] = s.proving.outputs[o] := by
  simp only [recompose, vgen_get, h, Bool.false_eq_true, if_false]

/-- What touches neither the trips nor the proving fields keeps an output off. -/
theorem HeldOff.same {t : State} (h : HeldOff o s) (cards : t.cable.cards = s.cable.cards)
    (outputs : t.proving.outputs = s.proving.outputs) : HeldOff o t :=
  ⟨by rw [cards]; exact h.tripped, by rw [outputs]; exact h.off⟩

theorem HeldOff.post (h : HeldOff o s) (k : FaultKind) (x : Subject) (b : Bool) (d : Option (List Word16)) :
    HeldOff o (post k x b d s) := h.same rfl rfl

theorem HeldOff.setFaults (h : HeldOff o s) (t : FaultTable) : HeldOff o { s with faults := t } := h.same rfl rfl

theorem HeldOff.modSeq (h : HeldOff o s) (f : Sequencer → Sequencer) : HeldOff o (modSeq s f) := h.same rfl rfl

theorem HeldOff.modGroup (h : HeldOff o s) (g : GroupId) (f : GroupSeq → GroupSeq) : HeldOff o (modGroup s g f) :=
  h.same rfl rfl

theorem HeldOff.reexpose (h : HeldOff o s) (g : GroupId) : HeldOff o (reexpose g s) := ⟨h.tripped, h.off⟩

theorem HeldOff.reexposeAll (h : HeldOff o s) : HeldOff o (reexposeAll s) := ⟨h.tripped, h.off⟩

theorem HeldOff.recompose (h : HeldOff o s) (p : OutputId → Bool) : HeldOff o (recompose p s) := by
  refine ⟨h.tripped, ?_⟩
  cases chosen : p o with
  | true => exact (recompose_commanded chosen s).trans (commandOf_tripped h.tripped)
  | false => rw [recompose_other chosen]; exact h.off

/-! ### Handovers (R156) -/

theorem HeldOff.abandonSlot (h : HeldOff o s) (i : InvSlot) : HeldOff o (abandonSlot i s) := by
  unfold Machine.abandonSlot
  split
  · exact h.same rfl rfl
  · exact h

theorem HeldOff.postAllUnproven (h : HeldOff o s) : HeldOff o (postAllUnproven s) := by
  refine eachOf_keeps _ _ (fun p u hu => ?_) s h
  split
  · exact hu.same rfl rfl
  · exact hu

theorem HeldOff.handoverBlocks (h : HeldOff o s) : HeldOff o (handoverBlocks s) := by
  unfold Machine.handoverBlocks
  dsimp only
  refine HeldOff.reexposeAll (HeldOff.recompose ?_ fun _ => true)
  exact h.same rfl rfl

theorem HeldOff.handover (h : HeldOff o s) (c : Cause) (d : List Word16) : HeldOff o (handover c d s) := by
  unfold Machine.handover
  split
  · exact h
  · have abandoned : HeldOff o (abandonAll (Machine.handoverBlocks s)) :=
      eachOf_keeps _ _ (fun i _ hu => hu.abandonSlot i) _ h.handoverBlocks
    exact (abandoned.post _ _ _ _).postAllUnproven

theorem HeldOff.conflictCheck (h : HeldOff o s) : HeldOff o (conflictCheck s) := by
  unfold Machine.conflictCheck
  split
  · exact h
  · split
    · exact h.handover _ _
    · exact h

/-! ### Aspects and interstages (R127 to R131) -/

theorem HeldOff.setAspect (h : HeldOff o s) (g : GroupId) (a : Aspect) : HeldOff o (setAspect g a s) :=
  ((h.modGroup g _).recompose _).reexpose g

theorem HeldOff.endGreen (h : HeldOff o s) (g : GroupId) : HeldOff o (endGreen g s) := by
  unfold Machine.endGreen
  dsimp only
  split
  · exact (h.setAspect g _).modGroup g _
  · split <;> exact (h.setAspect g _).modGroup g _

theorem HeldOff.tryRedAmber (h : HeldOff o s) (g : GroupId) : HeldOff o (tryRedAmber g s) := by
  unfold Machine.tryRedAmber
  split
  · exact (h.setAspect g _).modGroup g _
  · exact h

theorem HeldOff.tryGreen (h : HeldOff o s) (g : GroupId) : HeldOff o (tryGreen g s) := by
  unfold Machine.tryGreen
  split
  · exact ((h.setAspect g .green).modGroup g _).conflictCheck
  · exact h

theorem HeldOff.tryGreens (h : HeldOff o s) : HeldOff o (tryGreens s) :=
  eachOf_keeps _ _ (fun g _ hu => hu.tryGreen g) s h

theorem HeldOff.runInterstage (h : HeldOff o s) (t : Target) : HeldOff o (runInterstage t s) := by
  unfold Machine.runInterstage
  refine HeldOff.tryGreens (eachOf_keeps _ _ (fun g _ hu => hu.tryRedAmber g) _ ?_)
  refine eachOf_keeps _ _ (fun g u hu => ?_) _ (eachOf_keeps _ _ (fun g u hu => ?_) _ (h.modSeq _))
  · split
    · exact hu.modGroup g _
    · exact hu
  · split
    · exact hu.endGreen g
    · exact hu

/-! ### Steps, completions and decisions (R132 to R137) -/

theorem HeldOff.startStep (h : HeldOff o s) (n : StepNo) : HeldOff o (startStep n s) := by
  unfold Machine.startStep
  split
  · exact h.same rfl rfl
  · exact h

theorem HeldOff.callIntoService (h : HeldOff o s) (n : StageId) : HeldOff o (callIntoService n s) := by
  unfold Machine.callIntoService
  split
  · exact h.same rfl rfl
  · exact h

theorem HeldOff.takeDueTransfer (h : HeldOff o s) : HeldOff o (if transferDue s then takeTransfer s else s) := by
  unfold takeTransfer
  split
  · split
    · exact h.same rfl rfl
    · exact h
  · exact h

theorem HeldOff.postOverrun (h : HeldOff o s) (t : Target) (x : Set16) : HeldOff o (postOverrun t x s) := by
  unfold Machine.postOverrun
  split
  · split
    · exact h.same rfl rfl
    · exact h
  · exact h

theorem HeldOff.holdResume (h : HeldOff o s) (t : Target) (b : Bool) : HeldOff o (holdResume t b s) := by
  unfold Machine.holdResume
  split
  · split
    · split
      · exact h.same rfl rfl
      · exact h
    · exact h.same rfl rfl
  · exact h

theorem HeldOff.complete (h : HeldOff o s) (t : Target) : HeldOff o (complete t s) := by
  have entered := h.modSeq fun q => { q with phase := .stage, current := targetSet s t, target := none }
  cases t with
  | s0 => exact entered.same rfl rfl
  | step n g => exact ((entered.startStep n).modSeq _).callIntoService g
  | call g => exact (entered.modSeq _).callIntoService g

theorem HeldOff.settle (h : HeldOff o s) {decide : State → State} (next : ∀ u, HeldOff o u → HeldOff o (decide u)) :
    HeldOff o (settle decide s) := by
  unfold Machine.settle
  split
  · split
    · split
      · dsimp only
        split
        · exact next _ (h.complete _)
        · exact h.complete _
      · exact h
    · split
      · exact next _ (h.modSeq _)
      · exact h
  · exact h

theorem HeldOff.takeStep (h : HeldOff o s) (n : StepNo) (g : StageId) : HeldOff o (takeStep n g s) := by
  unfold Machine.takeStep
  dsimp only
  exact ((h.takeDueTransfer.startStep n).modSeq _).callIntoService g

theorem HeldOff.terminate (h : HeldOff o s) (t : Target) (x : Set16) : HeldOff o (terminate t x s) := by
  have posted := h.postOverrun t x
  cases t with
  | s0 => exact posted.runInterstage _
  | call n => exact posted.runInterstage _
  | step n g => exact posted.takeDueTransfer.runInterstage _

theorem HeldOff.decideToward (h : HeldOff o s) {next : State → State} (after : ∀ u, HeldOff o u → HeldOff o (next u))
    (barred : Bool) (t : Target) : HeldOff o (decideToward next barred t s) := by
  have held := h.holdResume t barred
  unfold Machine.decideToward endToward
  split
  · split
    · split
      · exact held.takeStep _ _
      · exact held
    · exact held
  · split
    · exact (held.terminate t _).settle after
    · exact held

theorem HeldOff.decideOnce (h : HeldOff o s) {next : State → State} (after : ∀ u, HeldOff o u → HeldOff o (next u)) :
    HeldOff o (decideOnce next s) := by
  rw [decideOnce_eq]
  split
  · unfold afterChoice
    split
    · split
      · exact h.handover _ _
      · exact h
    · exact h.decideToward after _ _
  · exact h

theorem HeldOff.decideUpTo (h : HeldOff o s) (n : Nat) : HeldOff o (decideUpTo n s) := by
  induction n generalizing s with
  | zero => exact h
  | succ k ih => exact h.decideOnce fun _ hu => ih hu

theorem HeldOff.decision (h : HeldOff o s) : HeldOff o (decision s) := h.decideUpTo 8

theorem HeldOff.settled (h : HeldOff o s) : HeldOff o (settled s) := h.settle fun _ hu => hu.decision

/-! ### Bars (R145 to R147) -/

theorem HeldOff.endFacing (h : HeldOff o s) : HeldOff o (endFacing s) := by
  refine eachOf_keeps _ _ (fun g u hu => ?_) s h
  split
  · exact hu.endGreen g
  · exact hu

theorem HeldOff.withdrawGroup (h : HeldOff o s) (g : GroupId) : HeldOff o (withdrawGroup g s) := by
  unfold Machine.withdrawGroup
  split
  · exact (h.setAspect g _).modGroup g _
  · exact h

theorem HeldOff.resumeAfterBar (h : HeldOff o s) (t : Target) : HeldOff o (resumeAfterBar t s) := by
  unfold Machine.resumeAfterBar
  split
  · exact h.same rfl rfl
  · exact h

theorem HeldOff.withdraw (h : HeldOff o s) (t : Target) : HeldOff o (withdraw t s) := by
  have withdrawn : HeldOff o (eachOf all16 Machine.withdrawGroup s) :=
    eachOf_keeps _ _ (fun g _ hu => hu.withdrawGroup g) s h
  exact (withdrawn.endFacing.resumeAfterBar t).same rfl rfl

theorem HeldOff.redStatusChanged (h : HeldOff o s) : HeldOff o (redStatusChanged s) := by
  have barred : HeldOff o (recomputeBars s) := h.modSeq _
  unfold Machine.redStatusChanged
  dsimp only
  split
  · split
    · exact barred.decision
    · exact barred
  · split
    · refine HeldOff.settled ?_
      split
      · exact barred.withdraw _
      · exact barred.endFacing
    · exact barred.endFacing.settled
  · exact barred

/-! ### A change of proving state (R77, R79, R80, R131) -/

theorem HeldOff.setRed (h : HeldOff o s) (g : GroupId) (r : RedStatus) : HeldOff o (setRed g r s) := by
  unfold Machine.setRed
  split
  · exact h
  · have red : HeldOff o (modGroupProof s g fun q => { q with red := r }) := ⟨h.tripped, h.off⟩
    rw [redRecords_eq]
    exact (red.setFaults _).redStatusChanged

theorem HeldOff.exposureChanged (h : HeldOff o s) : HeldOff o (exposureChanged s) := h.conflictCheck.tryGreens.settled

theorem HeldOff.greenChanged (h : HeldOff o s) (p : OutputId) : HeldOff o (greenChanged p s) := by
  have exposed := h.reexpose (outRec s p).group
  rw [greenChanged_eq]
  split
  · unfold afterExposure
    split
    · exact exposed
    · exact exposed.exposureChanged
  · exact h

/-- What follows an output's change of proving state commands no output of a TRIPPED card on. -/
theorem HeldOff.stateChanged (h : HeldOff o s) (p : OutputId) (old : ProvingState) :
    HeldOff o (stateChanged p old s) := by
  unfold Machine.stateChanged
  dsimp only
  split
  · split
    · exact h.setRed _ _
    · exact h
  · exact h.greenChanged p

end Sys2Proof.Machine
end

section
/-! PROOFS. Chapter 5, the trip of a card: the third figure in a row, the isolation of its outputs, and the two timers
that follow it. -/

namespace Sys2Proof.Machine

variable {c : CardId} {s : State}

/-! ### A card's trip fields -/

theorem modCable_card (s : State) (c : CardId) (f : CableCard → CableCard) :
    (modCable s c f).cable.cards[c] = f s.cable.cards[c] := vmod_same s.cable.cards c f

theorem modCable_otherCard {k : CardId} (ne : k ≠ c) (s : State) (f : CableCard → CableCard) :
    (modCable s c f).cable.cards[k] = s.cable.cards[k] :=
  (vmod_get s.cable.cards c k f).trans (if_neg ne.symm)

/-! ### Outputs isolated and released (R75) -/

/-- One output of a card that has entered TRIPPED: ISOLATED, commanded afresh, and what follows from that (R75). -/
def isolateOutput (o : OutputId) (t : State) : State :=
  stateChanged o t.proving.outputs[o].state
    (recompose (· == o) (modProof t o fun r => { r with state := .isolated, failing := 0, sense := 0 }))

/-- One output of a card that has left TRIPPED (R75). -/
def releaseOutput (c : CardId) (o : OutputId) (t : State) : State :=
  greenChanged o (modProof t o fun r => if t.line.cards[c].online then unproved r else { r with state := .senseLost })

theorem isolateCard_eq (c : CardId) (s : State) : isolateCard c s = eachOf (outputsOf c) isolateOutput s := rfl

theorem releaseCard_eq (c : CardId) (s : State) :
    releaseCard c s = recompose (fun o => cardOf o == c) (eachOf (outputsOf c) (releaseOutput c) s) := rfl

theorem keeps_isolateOutput (o : OutputId) (t : State) : DecisionKeeps t (isolateOutput o t) :=
  (keeps_modProof o _ t).trans
    ((stays_recompose _ _).toDecisionKeeps.trans (proofsStay_stateChanged o _ _).toDecisionKeeps)

theorem keeps_releaseOutput (c : CardId) (o : OutputId) (t : State) : DecisionKeeps t (releaseOutput c o t) :=
  (keeps_modProof o _ t).trans (proofsStay_greenChanged o _).toDecisionKeeps

theorem keeps_isolateCard (c : CardId) (s : State) : DecisionKeeps s (isolateCard c s) := by
  rw [isolateCard_eq]
  exact keeps_eachOutput keeps_isolateOutput s

theorem keeps_releaseCard (c : CardId) (s : State) : DecisionKeeps s (releaseCard c s) := by
  rw [releaseCard_eq]
  exact (keeps_eachOutput (keeps_releaseOutput c) s).trans (stays_recompose _ _).toDecisionKeeps

theorem recompose_state {o : OutputId} (p : OutputId → Bool) (s : State) :
    (recompose p s).proving.outputs[o].state = provingState o s := by
  rw [(stays_recompose p s).outputs o]
  rfl

theorem isolateOutput_state (o p : OutputId) (t : State) :
    provingState p (isolateOutput o t) = if o = p then .isolated else provingState p t := by
  unfold isolateOutput provingState
  rw [(proofsStay_stateChanged o _ _).outputs p, (stays_recompose _ _).outputs p, modProof_output]
  split <;> rfl

theorem releaseOutput_state (c : CardId) (o p : OutputId) (t : State) :
    provingState p (releaseOutput c o t) =
      if o = p then (if t.line.cards[c].online then .unproved else .senseLost) else provingState p t := by
  unfold releaseOutput provingState
  rw [(proofsStay_greenChanged o _).outputs p, modProof_output]
  by_cases own : o = p
  · rw [if_pos own, if_pos own]
    split <;> rfl
  · rw [if_neg own, if_neg own]

theorem isolateCard_state {o : OutputId} (h : cardOf o = c) (s : State) :
    (isolateCard c s).proving.outputs[o].state = .isolated := by
  have isolated :=
    eachOutput_at (o := o) (op := isolateOutput) (field := provingState o) (f := fun _ => .isolated)
      (fun t => (isolateOutput_state o o t).trans (if_pos rfl))
      (fun p t ne => (isolateOutput_state p o t).trans (if_neg ne)) c s
  rw [if_pos h] at isolated
  rw [isolateCard_eq]
  exact isolated

/-- An output isolated on a TRIPPED card is composed OFF there and then (R66, R75). -/
theorem isolateOutput_heldOff {o : OutputId} {t : State} (h : t.cable.cards[cardOf o].tripped = true) :
    HeldOff o (isolateOutput o t) := by
  have composed (u : State) (h : u.cable.cards[cardOf o].tripped = true) : HeldOff o (recompose (· == o) u) :=
    ⟨h, (recompose_commanded (p := (· == o)) (beq_self_eq_true o) u).trans (commandOf_tripped h)⟩
  exact (composed (modProof t o _) h).stateChanged o _

/-- The isolation of another output commands none of a TRIPPED card on. -/
theorem HeldOff.isolateOutput {o p : OutputId} {t : State} (h : HeldOff o t) (ne : p ≠ o) :
    HeldOff o (isolateOutput p t) := by
  have isolated : HeldOff o (modProof t p fun r => { r with state := .isolated, failing := 0, sense := 0 }) := by
    refine ⟨h.tripped, ?_⟩
    rw [modProof_output, if_neg ne]
    exact h.off
  exact (isolated.recompose _).stateChanged p _

/-- Every output of a card that has entered TRIPPED is commanded off (R75). -/
theorem isolateCard_heldOff {o : OutputId} (h : cardOf o = c) (tripped : s.cable.cards[c].tripped = true) :
    HeldOff o (isolateCard c s) := by
  subst h
  have kept {t u : State} (k : DecisionKeeps t u) (h : t.cable.cards[cardOf o].tripped = true) :
      u.cable.cards[cardOf o].tripped = true := by rw [k.cards]; exact h
  obtain ⟨t, before, after⟩ :=
    eachOf_once (R := fun t u => DecisionKeeps t u ∧ (HeldOff o t → HeldOff o u)) (op := isolateOutput)
      (fun t => ⟨.refl t, id⟩) (fun a b => ⟨a.1.trans b.1, b.2 ∘ a.2⟩)
      (fun p t ne => ⟨keeps_isolateOutput p t, fun held => held.isolateOutput ne⟩)
      (nodup_outputsOf (cardOf o)) (mem_outputsOf o) s
  exact after.2 (isolateOutput_heldOff (kept before.1 tripped))

/-- The outputs of a released card leave ISOLATED for UNPROVED, or for SENSE_LOST where the card is SILENT (R75). -/
theorem releaseCard_state {o : OutputId} (h : cardOf o = c) (s : State) :
    (releaseCard c s).proving.outputs[o].state = if s.line.cards[c].online then .unproved else .senseLost := by
  have released :=
    eachOutput_at (o := o) (op := releaseOutput c) (field := fun t => (t.line.cards[c].online, provingState o t))
      (f := fun x => (x.1, if x.1 then .unproved else .senseLost))
      (fun t => Prod.ext (by rw [(keeps_releaseOutput c o t).line]) ((releaseOutput_state c o o t).trans (if_pos rfl)))
      (fun p t ne => Prod.ext (by rw [(keeps_releaseOutput c p t).line])
        ((releaseOutput_state c p o t).trans (if_neg ne))) c s
  rw [if_pos h, Prod.mk.injEq] at released
  obtain ⟨-, state⟩ := released
  rw [releaseCard_eq]
  exact (recompose_state _ _).trans state

theorem releaseCard_commanded {o : OutputId} (h : cardOf o = c) (s : State) :
    (releaseCard c s).proving.outputs[o].commanded = commandOf (releaseCard c s) o := by
  rw [releaseCard_eq]
  exact recompose_commanded (p := fun p => cardOf p == c) (beq_iff_eq.mpr h) _

/-! ### The trip test (R90, R91) -/

/-- A card's trip fields as a trip leaves them (R90, R91). -/
def trippedCard (latch : Bool) (r : CableCard) : CableCard :=
  { r with
    tripped := true
    tripRun := 0
    latched := latch
    retryTimer := if latch then none else some 600
    watchTimer := none }

theorem leakTripTest_tripped {leak : Nat} (h : s.cable.cards[c].tripped = true) : leakTripTest c leak s = s := if_pos h

theorem leakTripTest_armed {leak : Nat} (h : s.cable.cards[c].tripped = false) :
    leakTripTest c leak s =
      if s.line.cards[c].leakTrip ≤ leak then
        if s.cable.cards[c].tripRun + 1 < 3 then modCable s c fun r => { r with tripRun := r.tripRun + 1 }
        else trip c leak s
      else modCable s c fun r => { r with tripRun := 0 } :=
  if_neg (Bool.eq_false_iff.mp h)

theorem leakTripTest_below {leak : Nat} (h : s.cable.cards[c].tripped = false) (low : leak < s.line.cards[c].leakTrip) :
    leakTripTest c leak s = modCable s c fun r => { r with tripRun := 0 } :=
  (leakTripTest_armed h).trans (if_neg (Nat.not_le.mpr low))

theorem leakTripTest_counts {leak : Nat} (h : s.cable.cards[c].tripped = false) (high : s.line.cards[c].leakTrip ≤ leak)
    (early : s.cable.cards[c].tripRun < 2) :
    leakTripTest c leak s = modCable s c fun r => { r with tripRun := r.tripRun + 1 } :=
  (leakTripTest_armed h).trans ((if_pos high).trans (if_pos (Nat.succ_lt_succ early)))

theorem leakTripTest_trips {leak : Nat} (h : s.cable.cards[c].tripped = false) (high : s.line.cards[c].leakTrip ≤ leak)
    (third : 2 ≤ s.cable.cards[c].tripRun) : leakTripTest c leak s = trip c leak s :=
  (leakTripTest_armed h).trans ((if_pos high).trans (if_neg (by omega)))

theorem trip_eq (c : CardId) (leak : Nat) (s : State) :
    trip c leak s =
      isolateCard c
        (post .cardTrip (.card c) (tripLatches s c) (some [word leak, wordBool (tripLatches s c)])
          (modCable s c (trippedCard (tripLatches s c)))) := rfl

/-- The trip fields of the card that trips: nothing of its outputs' isolation changes them. -/
theorem trip_card (c : CardId) (leak : Nat) (s : State) :
    (trip c leak s).cable.cards[c] = trippedCard (tripLatches s c) s.cable.cards[c] := by
  rw [trip_eq, (keeps_isolateCard c _).cards, post_cable, modCable_card]

theorem trip_output {o : OutputId} (h : cardOf o = c) (leak : Nat) (s : State) :
    (trip c leak s).proving.outputs[o].state = .isolated ∧ (trip c leak s).proving.outputs[o].commanded = false := by
  rw [trip_eq]
  refine ⟨isolateCard_state h _, (isolateCard_heldOff h ?_).off⟩
  rw [post_cable, modCable_card]
  rfl

/-! ### The retry and watch timers (R92, R93) -/

/-- A card's trip fields as the end of its trip leaves them (R92). -/
def watchedCard (r : CableCard) : CableCard :=
  { r with tripped := false, latched := false, retryTimer := none, watchTimer := some 6000 }

theorem endTrip_eq (c : CardId) (s : State) :
    endTrip c s = releaseCard c (endFault .cardTrip (.card c) (modCable s c watchedCard)) := rfl

/-- Besides the card's trip fields, the end of a trip leaves what a decision leaves. -/
theorem keeps_endTrip (c : CardId) (s : State) : DecisionKeeps (modCable s c watchedCard) (endTrip c s) := by
  rw [endTrip_eq]
  exact (keeps_endFault _ _ _).trans (keeps_releaseCard c _)

theorem retryTimerExpiry_early (h : s.cable.cards[c].retryTimer ≠ some 0) :
    exec (.retryTimerExpiry c) s = .next s :=
  congrArg Host.Outcome.next (if_neg fun e => h (beq_iff_eq.mp e))

theorem retryTimerExpiry_due (h : s.cable.cards[c].retryTimer = some 0) :
    exec (.retryTimerExpiry c) s = .next (endTrip c s) :=
  congrArg Host.Outcome.next (if_pos (beq_iff_eq.mpr h))

theorem watchTimerExpiry_early (h : s.cable.cards[c].watchTimer ≠ some 0) :
    exec (.watchTimerExpiry c) s = .next s :=
  congrArg Host.Outcome.next (if_neg fun e => h (beq_iff_eq.mp e))

theorem watchTimerExpiry_due (h : s.cable.cards[c].watchTimer = some 0) :
    exec (.watchTimerExpiry c) s = .next (modCable s c fun r => { r with watchTimer := none }) :=
  congrArg Host.Outcome.next (if_pos (beq_iff_eq.mpr h))

/-! ### The statement -/

/-- Settles O28: the trip test by its cases, the trip by what isolates its card's outputs, the timers by the end of the
trip. -/
theorem cardTripsAndTheirTimers : Obligations.CardTripsAndTheirTimers := by
  refine ⟨fun c leak s =>
      ⟨leakTripTest_tripped, fun armed => ⟨leakTripTest_below armed, leakTripTest_counts armed, ?_⟩⟩,
    fun c leak s armed high two => ?_,
    fun c s => ⟨retryTimerExpiry_early, watchTimerExpiry_early, watchTimerExpiry_due, fun due => ?_⟩⟩
  · rintro _ high third rfl
    exact leakTripTest_trips armed high third
  · rw [leakTripTest_trips armed high two.ge]
    exact ⟨trip_card c leak s, fun o on => trip_output on leak s⟩
  · have kept := keeps_endTrip c s
    exact ⟨endTrip c s, retryTimerExpiry_due due, rfl,
      by rw [kept.cards]; exact modCable_card s c watchedCard,
      fun k ne => by rw [kept.cards]; exact modCable_otherCard ne s watchedCard,
      fun o on => ⟨releaseCard_state on _, releaseCard_commanded on _⟩,
      kept.ports, kept.safety, kept.stages, kept.inputs, kept.line, kept.engine, kept.pending⟩

end Sys2Proof.Machine
end

section
/-! PROOFS. Chapter 5, what the figures of a delivery move: feeders, leakage alarms, and the investigations to their
verdicts. -/

namespace Sys2Proof.Machine

/-! ### Open feeders (R87, R88) -/

section

variable {m : CoreMeas} {s : State}

/-- The detail of FEEDER_OPEN: QF, and the QREF it was tested against (R87). -/
def feederDetail (m : CoreMeas) : List Word16 :=
  wordInt m.qf :: match m.qref with | some q => [wordInt q] | none => []

theorem feederTest_open (h : m.openFeeder = true) :
    feederTest m s =
      if min 2 (s.cable.feeders[m.output].count + 1) = 2 ∧ s.cable.feeders[m.output].opened = false then
        post .feederOpen (.output m.output) false
          (some (feederDetail m))
          (modFeeder s m.output fun _ => { count := min 2 (s.cable.feeders[m.output].count + 1), opened := true })
      else modFeeder s m.output fun r => { r with count := min 2 (s.cable.feeders[m.output].count + 1) } := by
  refine (if_pos h).trans (if_congr ?_ rfl rfl)
  rw [Bool.and_eq_true, decide_eq_true_iff, Bool.not_eq_true']

/-- The first open feeder figure in a row is counted (R87). -/
theorem feederTest_first (h : m.openFeeder = true) (first : s.cable.feeders[m.output].count = 0) :
    feederTest m s = modFeeder s m.output fun r => { r with count := 1 } := by
  rw [feederTest_open h, first]
  rfl

/-- An OPEN feeder's further figures keep it OPEN (R87). -/
theorem feederTest_held (h : m.openFeeder = true) (later : 0 < s.cable.feeders[m.output].count)
    (opened : s.cable.feeders[m.output].opened = true) :
    feederTest m s = modFeeder s m.output fun r => { r with count := 2 } := by
  have two : min 2 (s.cable.feeders[m.output].count + 1) = 2 := by omega
  rw [feederTest_open h, two, opened]
  rfl

/-- The second open feeder figure in a row makes the feeder OPEN (R87). -/
theorem feederTest_opens (h : m.openFeeder = true) (later : 0 < s.cable.feeders[m.output].count)
    (intact : s.cable.feeders[m.output].opened = false) :
    feederTest m s =
      post .feederOpen (.output m.output) false
        (some (feederDetail m))
        (modFeeder s m.output fun _ => { count := 2, opened := true }) := by
  have two : min 2 (s.cable.feeders[m.output].count + 1) = 2 := by omega
  rw [feederTest_open h, two]
  exact if_pos ⟨rfl, intact⟩

/-- A figure that is not open makes the feeder INTACT, and ends the record of one that was OPEN (R88). -/
theorem feederTest_closed (h : m.openFeeder = false) :
    feederTest m s =
      if s.cable.feeders[m.output].opened = true then
        endFault .feederOpen (.output m.output) (modFeeder s m.output fun _ => { count := 0, opened := false })
      else modFeeder s m.output fun _ => { count := 0, opened := false } :=
  if_neg (Bool.eq_false_iff.mp h)

end

/-! ### Earth leakage (R89) -/

section

variable {c : CardId} {leak : Nat} {s : State}

theorem modCable_congr {f g : CableCard → CableCard} (h : f s.cable.cards[c] = g s.cable.cards[c]) :
    modCable s c f = modCable s c g := by
  unfold modCable
  rw [vmod_congr h]

theorem leakAlarmTest_normal (h : s.cable.cards[c].alarm = false) :
    leakAlarmTest c leak s =
      if s.line.cards[c].leakAlarm ≤ leak then
        if s.cable.cards[c].alarmRun + 1 < 2 then modCable s c fun r => { r with alarmRun := r.alarmRun + 1 }
        else
          post .earthLeak (.card c) false (some [word leak])
            (modCable s c fun r => { r with alarm := true, alarmRun := 0, clearRun := 0 })
      else modCable s c fun r => { r with alarmRun := 0 } :=
  (if_neg (Bool.eq_false_iff.mp h)).trans (if_congr decide_eq_true_iff rfl rfl)

theorem leakAlarmTest_alarmed (h : s.cable.cards[c].alarm = true) :
    leakAlarmTest c leak s =
      if s.line.cards[c].leakAlarm ≤ leak then modCable s c fun r => { r with clearRun := 0 }
      else if s.cable.cards[c].clearRun + 1 < 4 then modCable s c fun r => { r with clearRun := r.clearRun + 1 }
      else endFault .earthLeak (.card c) (modCable s c fun r => { r with alarm := false, clearRun := 0 }) :=
  (if_pos h).trans (if_congr decide_eq_true_iff rfl rfl)

/-- In NORMAL: a low figure ends the run, the first high one is counted, the second makes ALARM (R89). -/
theorem leakAlarmTest_raises (h : s.cable.cards[c].alarm = false) :
    (leak < s.line.cards[c].leakAlarm → leakAlarmTest c leak s = modCable s c fun r => { r with alarmRun := 0 }) ∧
    (s.line.cards[c].leakAlarm ≤ leak → s.cable.cards[c].alarmRun = 0 →
      leakAlarmTest c leak s = modCable s c fun r => { r with alarmRun := 1 }) ∧
    (s.line.cards[c].leakAlarm ≤ leak → 0 < s.cable.cards[c].alarmRun →
      leakAlarmTest c leak s =
        post .earthLeak (.card c) false (some [word leak])
          (modCable s c fun r => { r with alarm := true, alarmRun := 0, clearRun := 0 })) := by
  rw [leakAlarmTest_normal h]
  refine ⟨fun low => if_neg (Nat.not_le.mpr low), fun high first => ?_, fun high later => ?_⟩
  · rw [if_pos high, if_pos (by omega)]
    exact modCable_congr (by rw [first])
  · rw [if_pos high, if_neg (by omega)]

/-- In ALARM: a high figure ends the run, the first three low ones are counted, the fourth makes NORMAL (R89). -/
theorem leakAlarmTest_clears (h : s.cable.cards[c].alarm = true) :
    (s.line.cards[c].leakAlarm ≤ leak → leakAlarmTest c leak s = modCable s c fun r => { r with clearRun := 0 }) ∧
    (leak < s.line.cards[c].leakAlarm → s.cable.cards[c].clearRun < 3 →
      leakAlarmTest c leak s = modCable s c fun r => { r with clearRun := r.clearRun + 1 }) ∧
    (leak < s.line.cards[c].leakAlarm → 3 ≤ s.cable.cards[c].clearRun →
      leakAlarmTest c leak s =
        endFault .earthLeak (.card c) (modCable s c fun r => { r with alarm := false, clearRun := 0 })) := by
  rw [leakAlarmTest_alarmed h]
  refine ⟨fun high => if_pos high, fun low early => ?_, fun low fourth => ?_⟩
  · rw [if_neg (Nat.not_le.mpr low), if_pos (by omega)]
  · rw [if_neg (Nat.not_le.mpr low), if_neg (by omega)]

/-- A card's last L. -/
def lastLeak (c : CardId) (s : State) : Option Nat := s.cable.cards[c].lastL

theorem lastLeak_modCable (s : State) (c : CardId) (f : CableCard → CableCard) :
    lastLeak c (modCable s c f) = (f s.cable.cards[c]).lastL := congrArg CableCard.lastL (modCable_card s c f)

theorem lastLeak_post (c : CardId) (k : FaultKind) (x : Subject) (b : Bool) (d : Option (List Word16)) (s : State) :
    lastLeak c (post k x b d s) = lastLeak c s := rfl

theorem lastLeak_endFault (c : CardId) (k : FaultKind) (x : Subject) (s : State) :
    lastLeak c (endFault k x s) = lastLeak c s := rfl

/-- The alarm test leaves the last L. -/
theorem leakAlarmTest_lastLeak (c : CardId) (leak : Nat) (s : State) :
    lastLeak c (leakAlarmTest c leak s) = lastLeak c s := by
  unfold leakAlarmTest
  dsimp only
  split
  · split
    · exact lastLeak_modCable s c _
    · split
      · exact lastLeak_modCable s c _
      · exact (lastLeak_endFault c _ _ _).trans (lastLeak_modCable s c _)
  · split
    · split
      · exact lastLeak_modCable s c _
      · exact (lastLeak_post c _ _ _ _ _).trans (lastLeak_modCable s c _)
    · exact lastLeak_modCable s c _

/-- The trip test leaves the last L. -/
theorem leakTripTest_lastLeak (c : CardId) (leak : Nat) (s : State) :
    lastLeak c (leakTripTest c leak s) = lastLeak c s := by
  unfold leakTripTest
  dsimp only
  split
  · rfl
  · split
    · split
      · exact lastLeak_modCable s c _
      · rw [lastLeak, trip_card]
        rfl
    · exact lastLeak_modCable s c _

theorem evaluateLeak_lastLeak (c : CardId) (leak : Nat) (s : State) :
    lastLeak c (evaluateLeak { card := c, leak := leak } s) = some leak :=
  (leakTripTest_lastLeak c leak _).trans
    ((leakAlarmTest_lastLeak c leak _).trans (lastLeak_modCable s c _))

end

/-! ### The window of an investigation (R96 to R98) -/

section

variable {m : CoreMeas} {s : State}

theorem mem_others (s : State) (x o : OutputId) :
    o ∈ others s x ↔
      o ≠ x ∧ s.line.cards[cardOf o].configured = true ∧ placeOf o < s.line.cards[cardOf o].coreCount := by
  rw [others, List.mem_filter, Bool.and_eq_true, Bool.and_eq_true, bne_iff_ne, decide_eq_true_iff, and_assoc]
  exact and_iff_right (List.mem_finRange o)

/-- Whether an output's history holds one applied state at each of a measurement's cycle numbers (R96). -/
def throughout (s : State) (cycles : List CycleNo) (b : Bool) (o : OutputId) : Bool :=
  cycles.all fun n => s.engine.cores[o].history[n] == some b

theorem throughout_iff {cycles : List CycleNo} {b : Bool} {o : OutputId} :
    throughout s cycles b o = true ↔ ∀ n ∈ cycles, s.engine.cores[o].history[n] = some b := by
  rw [throughout, List.all_eq_true]
  exact forall₂_congr fun _ _ => beq_iff_eq

theorem classOf_eq (s : State) (cycles : List CycleNo) (o : OutputId) :
    classOf s cycles o =
      if throughout s cycles true o then .onThroughout
      else if throughout s cycles false o then .offThroughout
      else .mixed := rfl

theorem classOf_on_iff {cycles : List CycleNo} {o : OutputId} :
    classOf s cycles o = .onThroughout ↔ throughout s cycles true o = true := by
  rw [classOf_eq]
  split
  case isTrue on => exact iff_of_true rfl on
  case isFalse notOn =>
    refine iff_of_false ?_ notOn
    split <;> exact WindowClass.noConfusion

/-- With a window to look at, an output is not both on and off throughout it. -/
theorem classOf_off_iff {cycles : List CycleNo} (window : cycles ≠ []) {o : OutputId} :
    classOf s cycles o = .offThroughout ↔ throughout s cycles false o = true := by
  rw [classOf_eq]
  split
  case isTrue on =>
    refine iff_of_false WindowClass.noConfusion fun off => ?_
    obtain ⟨n, mem⟩ := List.exists_mem_of_ne_nil cycles window
    have both := (throughout_iff.mp on n mem).symm.trans (throughout_iff.mp off n mem)
    exact absurd both (by decide)
  case isFalse notOn =>
    split
    case isTrue off => exact iff_of_true rfl off
    case isFalse notOff => exact iff_of_false WindowClass.noConfusion notOff

theorem classOf_bne_on (cycles : List CycleNo) (o : OutputId) :
    (classOf s cycles o != .onThroughout) = !throughout s cycles true o := by
  rw [Bool.eq_iff_iff, bne_iff_ne, ne_eq, classOf_on_iff, Bool.not_eq_true']
  exact Bool.not_eq_true _ ▸ Iff.rfl

theorem classOf_bne_off {cycles : List CycleNo} (window : cycles ≠ []) (o : OutputId) :
    (classOf s cycles o != .offThroughout) = !throughout s cycles false o := by
  rw [Bool.eq_iff_iff, bne_iff_ne, ne_eq, classOf_off_iff window, Bool.not_eq_true']
  exact Bool.not_eq_true _ ▸ Iff.rfl

/-- A window's fields in one row: the first and each lit one drop the candidates off throughout, a dark one those on
throughout (R97, R98). -/
def windowed (s : State) (m : CoreMeas) (v : Investigation) : Investigation :=
  { v with
    firstPending := false
    meas := if v.firstPending then 1 else v.meas + 1
    lit := if v.firstPending then 1 else if m.unwanted then v.lit + 1 else v.lit
    dark := if v.firstPending ∨ m.unwanted then v.dark else v.dark + 1
    consecutive := if v.firstPending then v.consecutive else if m.unwanted then 0 else v.consecutive + 1
    candidates :=
      (if v.firstPending then others s v.x else v.candidates).filter fun o =>
        if v.firstPending || m.unwanted then !throughout s m.cycles false o else !throughout s m.cycles true o }

theorem updateInvestigation_windowed (window : m.cycles ≠ []) (v : Investigation) :
    updateInvestigation s m v = windowed s m v := by
  unfold updateInvestigation windowed
  cases first : v.firstPending with
  | true => simp [classOf_bne_off window]
  | false =>
    cases lit : m.unwanted with
    | true => simp [classOf_bne_off window]
    | false => simp [classOf_bne_on]

theorem stuckWindow_iff (window : m.cycles ≠ []) (v : Investigation) :
    stuckWindow s m v = true ↔
      (v.firstPending = true ∨ m.unwanted = true) ∧
        ∀ o ∈ others s v.x, ∀ n ∈ m.cycles, s.engine.cores[o].history[n] = some false := by
  rw [stuckWindow, Bool.and_eq_true, Bool.or_eq_true, List.all_eq_true]
  refine and_congr_right fun _ => forall₂_congr fun o _ => ?_
  rw [beq_iff_eq, classOf_off_iff window, throughout_iff]

end

/-! ### The verdicts (R99 to R101) -/

section

variable {m : CoreMeas} {s : State} {i : InvSlot} {v w : Investigation}

theorem investigate_none (h : investigationOf s m.output = none) : investigate m s = s := by
  rw [investigate_eq, h]

/-- A window of an open investigation, with its verdict known. -/
theorem investigate_found (slot : investigationOf s m.output = some i) (held : s.cable.investigations[i] = some v) :
    investigate m s =
      afterWindow i m.ip (updateInvestigation s m v)
        (if stuckWindow s m v then some .stuck else verdictTests (updateInvestigation s m v)) s := by
  rw [investigate_eq, slot]
  dsimp only
  rw [held]
  rfl

theorem investigate_stuck (slot : investigationOf s m.output = some i) (held : s.cable.investigations[i] = some v)
    (stuck : stuckWindow s m v = true) :
    investigate m s = closeInvestigation i m.ip (updateInvestigation s m v) .stuck s := by
  rw [investigate_found slot held, if_pos stuck]
  rfl

theorem investigate_judged (slot : investigationOf s m.output = some i) (held : s.cable.investigations[i] = some v)
    (going : ¬stuckWindow s m v = true) :
    investigate m s =
      afterWindow i m.ip (updateInvestigation s m v) (verdictTests (updateInvestigation s m v)) s := by
  rw [investigate_found slot held, if_neg going]

theorem verdictTests_unclassified (h : w.candidates = []) : verdictTests w = some .unclassified := by
  simp only [verdictTests, h]

theorem verdictTests_cross {y : OutputId} (one : w.candidates = [y]) (dark : 1 ≤ w.dark) :
    verdictTests w = some (.cross y) := by
  simp only [verdictTests, one, List.isEmpty_nil, dark, decide_true, Bool.and_self, if_true]

/-- Where neither the candidates are used up nor the cross is found, the counts decide (R99). -/
theorem verdictTests_counts (left : w.candidates ≠ []) (unsettled : w.dark = 0 ∨ 2 ≤ w.candidates.length) :
    verdictTests w = if 8 ≤ w.consecutive then some .transient else if 64 ≤ w.meas then some .ambiguous else none := by
  unfold verdictTests
  split
  case h_1 none => exact absurd none left
  case h_2 y rest cons =>
    refine if_neg fun cross => ?_
    rw [Bool.and_eq_true, decide_eq_true_iff, List.isEmpty_iff] at cross
    obtain ⟨rfl, dark⟩ := cross
    rw [cons] at unsettled
    rcases unsettled with never | two
    · omega
    · exact absurd two (Nat.not_succ_le_self 1)

theorem crossConflicts_iff (s : State) (x y : OutputId) :
    crossConflicts s x y = true ↔
      (outRec s x).used = true ∧ (outRec s x).colour = .green ∧ (outRec s y).used = true ∧
        conflict s (outRec s x).group (outRec s y).group = true := by
  rw [crossConflicts, Bool.and_eq_true, Bool.and_eq_true, Bool.and_eq_true, beq_iff_eq, and_assoc, and_assoc]

theorem closeInvestigation_cross (i : InvSlot) (ip : Int) (w : Investigation) (y : OutputId) (s : State) {u : State}
    (closed : u =
      setInvestigation
        (endFault .unwantedCurrent (.output w.x) (post .cross (.output w.x) true (some [word (number y)]) s)) i none) :
    closeInvestigation i ip w (.cross y) s =
      if (outRec s w.x).used = true ∧ (outRec s w.x).colour = .green ∧ (outRec s y).used = true ∧
          conflict s (outRec s w.x).group (outRec s y).group = true then
        handover .crossConflict [word (number w.x), word (number y)] u
      else u := by
  subst closed
  exact if_congr (crossConflicts_iff _ _ _) rfl rfl

end

/-! ### The statement -/

/-- Settles O51: the feeder test and the leakage alarm by their cases, a window by the update of its fields and the
first verdict test that holds. -/
theorem deliveriesMoveFeedersLeakageAndInvestigations : Obligations.DeliveriesMoveFeedersLeakageAndInvestigations := by
  refine ⟨fun m s => ⟨fun on => if_pos on, fun off => if_neg (Bool.eq_false_iff.mp off), fun none => ?_⟩,
    fun m s => ⟨fun h => ⟨feederTest_first h, feederTest_held h, feederTest_opens h⟩, fun h => ?_⟩,
    fun c leak s => ⟨rfl, evaluateLeak_lastLeak c leak s, leakAlarmTest_raises, leakAlarmTest_clears⟩, mem_others, ?_⟩
  · exact investigate_none ((investigationOf_none_iff s m.output).mpr none)
  · rw [feederTest_closed h]
    exact ⟨fun intact => if_neg (Bool.eq_false_iff.mp intact), fun opened => if_pos opened⟩
  · intro m i v w s slot held window fields
    have moved : updateInvestigation s m v = w := (updateInvestigation_windowed window v).trans fields.symm
    have same : v.x = w.x := moved ▸ (updateInvestigation_x s m v).symm
    rw [← stuckWindow_iff window]
    refine ⟨fun stuck => ?_, fun going => ?_⟩
    · rw [investigate_stuck slot held stuck, moved, same]
      rfl
    · rw [investigate_judged slot held going, moved, same]
      refine ⟨fun none => ?_, fun y one dark u closed => ?_, fun left unsettled => ?_⟩
      · rw [verdictTests_unclassified none]
        rfl
      · rw [verdictTests_cross one dark]
        exact closeInvestigation_cross i m.ip w y s closed
      · rw [verdictTests_counts left unsettled]
        refine ⟨fun eight => ?_, fun few full => ?_, fun few early => ?_⟩
        · rw [if_pos eight]
          rfl
        · rw [if_neg (Nat.not_le.mpr few), if_pos full]
          rfl
        · rw [if_neg (Nat.not_le.mpr few), if_neg (Nat.not_le.mpr early)]
          rfl

end Sys2Proof.Machine
end

section
/-! PROOFS. Chapter 6, the plan memory: SET LAYOUT, PLAN ERASE, START PLAN, SELECT PLAN, PLAN CLOSE and PLAN WRITE. -/

namespace Sys2Proof.Machine

/-! ### A plan request answered -/

/-- A granted request whose handling answers alike whatever the ports hold. -/
theorem responds_onAnyPorts {i : Instr} {l : Link} {code : Byte} {f : Fields} {handle : State → Answer} {s u : State}
    {r : Result} {v : Word16} (row : exec i s = .next (takeRequest l code f handle s)) (right : granted l code = true)
    (answers : ∀ q : PerLink Port,
      handle { s with ports := q } = { result := r, value := v, state := { u with ports := q } }) :
    Responds i l code f r v s u :=
  responds_of_handled i l code f handle s u r v row right (answers _)

theorem planNamed_number {p : PlanId} {s : State} (within : number p ≤ planCount s.plans.layout) :
    planNamed s (number p) = some p :=
  (if_pos within).trans (oneBased_number p)

theorem planNamed_beyond {n : Nat} {s : State} (beyond : planCount s.plans.layout < n) : planNamed s n = none :=
  if_neg (Nat.not_le.mpr beyond)

theorem planNamed_zero (s : State) : planNamed s 0 = none :=
  (if_pos (Nat.zero_le _)).trans (oneBased_none (Or.inl rfl))

/-! ### SET LAYOUT (R115) and PLAN ERASE (R110) -/

theorem valueLayout_beyond {v : Word16} (h : 2 < v.toNat) : valueLayout v = none := by
  unfold valueLayout
  split
  case h_1 e => omega
  case h_2 e => omega
  case h_3 e => omega
  case h_4 => rfl

theorem setLayoutOp_refused {f : Fields} {s : State} (h : s.service.state ≠ .handedOver) :
    setLayoutOp f s = refuse .refusedState 0 s :=
  if_pos (bne_iff_ne.mpr h)

theorem setLayoutOp_badValue {f : Fields} {s : State} (h : s.service.state = .handedOver)
    (unnamed : valueLayout f.value = none) : setLayoutOp f s = refuse .badValue 0 s := by
  simp [setLayoutOp, h, unnamed]

theorem setLayoutOp_chooses {f : Fields} {s : State} {x : Layout} (h : s.service.state = .handedOver)
    (named : valueLayout f.value = some x) :
    setLayoutOp f s =
      done 0 (modPlans s fun m => { m with layout := x, plans := Vector.replicate 16 Plan.empty, start := none }) := by
  simp [setLayoutOp, h, named]

theorem planEraseOp_named {f : Fields} {s : State} {p : PlanId} (named : planNamed s f.subject.toNat = some p) :
    planEraseOp f s =
      if planInUse s p then refuse .planActive 0 s else done 0 (modPlan s p fun _ => Plan.empty) := by
  simp only [planEraseOp, named]

theorem planEraseOp_unnamed {f : Fields} {s : State} (unnamed : planNamed s f.subject.toNat = none) :
    planEraseOp f s = refuse .badSubject 0 s := by
  simp only [planEraseOp, unnamed]

theorem planNamed_of_subject {f : Fields} {p : PlanId} {s : State} (hf : f.subject.toNat = number p)
    (within : number p ≤ planCount s.plans.layout) : planNamed s f.subject.toNat = some p :=
  hf ▸ planNamed_number within

/-- Settles O29: the cases of setLayoutOp and planEraseOp. -/
theorem layoutAndEraseEmptyPlans : Obligations.LayoutAndEraseEmptyPlans := by
  intro f s
  refine ⟨fun h => ?_, fun h x named => ?_, fun h beyond => ?_, fun p hf within => ⟨fun used => ?_, fun free => ?_⟩,
    fun unnamed => ?_⟩
  · exact responds_onAnyPorts rfl rfl fun q => setLayoutOp_refused (s := { s with ports := q }) h
  · exact responds_onAnyPorts rfl rfl fun q => setLayoutOp_chooses (s := { s with ports := q }) h named
  · exact responds_onAnyPorts rfl rfl fun q =>
      setLayoutOp_badValue (s := { s with ports := q }) h (valueLayout_beyond beyond)
  · exact responds_onAnyPorts rfl rfl fun q =>
      (planEraseOp_named (s := { s with ports := q }) (planNamed_of_subject hf within)).trans (if_pos used)
  · exact responds_onAnyPorts rfl rfl fun q =>
      (planEraseOp_named (s := { s with ports := q }) (planNamed_of_subject hf within)).trans
        (if_neg (Bool.eq_false_iff.mp free))
  · have missing : planNamed s f.subject.toNat = none :=
      unnamed.elim (fun zero => zero ▸ planNamed_zero s) planNamed_beyond
    exact responds_onAnyPorts rfl rfl fun q => planEraseOp_unnamed (s := { s with ports := q }) missing

/-! ### START PLAN (R112) and SELECT PLAN (R116, R117) -/

theorem startPlanOp_none {f : Fields} (zero : f.subject = 0) (s : State) :
    startPlanOp f s = done 0 (modPlans s fun m => { m with start := none }) :=
  if_pos (beq_iff_eq.mpr zero)

theorem startPlanOp_named {f : Fields} {s : State} {p : PlanId} (hf : f.subject.toNat = number p)
    (within : number p ≤ planCount s.plans.layout) :
    startPlanOp f s = done 0 (modPlans s fun m => { m with start := some p }) := by
  have nonzero : f.subject ≠ 0 := fun zero => absurd (hf.symm.trans (congrArg BitVec.toNat zero)) (Nat.succ_ne_zero _)
  simp only [startPlanOp, beq_eq_false_iff_ne.mpr nonzero, Bool.false_eq_true, if_false,
    planNamed_of_subject hf within]

theorem startPlanOp_beyond {f : Fields} {s : State} (beyond : planCount s.plans.layout < f.subject.toNat) :
    startPlanOp f s = refuse .badSubject 0 s := by
  have nonzero : f.subject ≠ 0 := fun zero => absurd (zero ▸ beyond) (Nat.not_lt_zero _)
  simp only [startPlanOp, beq_eq_false_iff_ne.mpr nonzero, Bool.false_eq_true, if_false, planNamed_beyond beyond]

/-- The plan made the pending plan, its wrap flag clear (R116). -/
def pended (p : PlanId) (s : State) : State :=
  { s with plans := { s.plans with pending := some { plan := p, wrap := false } } }

theorem setPending_eq (p : PlanId) (s : State) :
    setPending p s = if transferDue (pended p s) then decision (pended p s) else pended p s := rfl

theorem selectPlanOp_refused {f : Fields} {s : State} (h : s.service.state ≠ .service) :
    selectPlanOp f s = refuse .refusedState 0 s :=
  if_pos (bne_iff_ne.mpr h)

section
variable {f : Fields} {s : State} {p : PlanId} (serving : s.service.state = .service)
  (named : planNamed s f.subject.toNat = some p)
include serving named

theorem selectPlanOp_cancels (active : s.plans.active = some p) :
    selectPlanOp f s = done 0 (modPlans s fun m => { m with pending := none }) := by
  simp [selectPlanOp, serving, named, active]

theorem selectPlanOp_notReady (other : s.plans.active ≠ some p) (unready : s.plans.plans[p].state ≠ .ready) :
    selectPlanOp f s = refuse .badValue (word (planStateCode s.plans.plans[p].state)) s := by
  simp [-Fin.getElem_fin, selectPlanOp, serving, named, other, unready]

theorem selectPlanOp_pends (other : s.plans.active ≠ some p) (ready : s.plans.plans[p].state = .ready) :
    selectPlanOp f s = done 0 (setPending p s) := by
  simp [-Fin.getElem_fin, selectPlanOp, serving, named, other, ready]

end

theorem withPorts_self {t : State} {q : PerLink Port} (h : t.ports = q) : { t with ports := q } = t := by
  subst h; rfl

/-- Settles O32: the cases of startPlanOp and selectPlanOp, and the decision of setPending where the transfer is due. -/
theorem startAndSelectPlan : Obligations.StartAndSelectPlan := by
  refine ⟨fun f s => ⟨fun zero => ?_, fun p hf within => ?_, fun beyond => ?_⟩, fun p f s =>
    ⟨fun h => ?_, fun serving hf within => ⟨fun active => ?_, fun other unready => ?_, fun other ready =>
      ⟨fun early => ?_, fun due => ?_⟩⟩⟩⟩
  · exact responds_onAnyPorts rfl rfl fun q => startPlanOp_none zero { s with ports := q }
  · exact responds_onAnyPorts rfl rfl fun q => startPlanOp_named (s := { s with ports := q }) hf within
  · exact responds_onAnyPorts rfl rfl fun q => startPlanOp_beyond (s := { s with ports := q }) beyond
  · exact responds_onAnyPorts rfl rfl fun q => selectPlanOp_refused (s := { s with ports := q }) h
  · exact responds_onAnyPorts rfl rfl fun q =>
      selectPlanOp_cancels (s := { s with ports := q }) serving (planNamed_of_subject hf within) active
  · exact responds_onAnyPorts rfl rfl fun q =>
      selectPlanOp_notReady (s := { s with ports := q }) serving (planNamed_of_subject hf within) other unready
  · refine responds_onAnyPorts rfl rfl fun q =>
      (selectPlanOp_pends (s := { s with ports := q }) serving (planNamed_of_subject hf within) other ready).trans ?_
    rw [setPending_eq, if_neg (show ¬transferDue (pended p { s with ports := q }) = true from Bool.eq_false_iff.mp early)]
    rfl
  · refine responds_of_handled _ .plan _ f (selectPlanOp f) s _ _ _ rfl rfl
      ((selectPlanOp_pends (s := receive .plan 0x25 f s) serving (planNamed_of_subject hf within) other ready).trans ?_)
    rw [setPending_eq, if_pos (show transferDue (pended p (receive .plan 0x25 f s)) = true from due)]
    exact congrArg (done 0) (withPorts_self (stays_decision (pended p (receive .plan 0x25 f s))).ports).symm

/-! ### PLAN CLOSE (R109) -/

/-- A step passes its checks where it names a defined stage, its max green is at least its min green, and a force-off
lies inside a LINKED cycle (R109). -/
theorem closeStep_none {s : State} {p : Plan} {r : Step} :
    closeStep s p r = none ↔
      (∃ n, r.stage = some n ∧ s.stages[n].defined = true) ∧ r.minGreen ≤ r.maxGreen ∧
        ∀ x, r.forceOff = some x → p.mode = .linked ∧ x < p.cycle := by
  unfold closeStep
  cases stage : r.stage with
  | none => simp only [reduceCtorEq, false_and, exists_false]
  | some n =>
    have mode : p.mode = .linked ↔ p.mode ≠ .isolated := by cases p.mode <;> decide
    cases defined : s.stages[n].defined with
    | false => simp only [Bool.not_false, if_true, reduceCtorEq, Option.some.injEq, exists_eq_left', defined,
        Bool.false_eq_true, false_and]
    | true =>
      cases forceOff : r.forceOff with
      | none => simp [-Fin.getElem_fin, defined]
      | some x => grind

/-- A plan passes its checks where its offset lies inside a LINKED cycle and each of its steps passes (R109). -/
theorem closePlan_none {s : State} {p : Plan} :
    closePlan s p = none ↔
      (p.mode = .linked → p.offset < p.cycle) ∧
        ∀ k : StepNo, k.val < p.stepCount → closeStep s p p.steps[k] = none := by
  unfold closePlan
  by_cases outside : p.mode = .linked ∧ p.cycle ≤ p.offset
  · obtain ⟨linked, late⟩ := outside
    simp [linked, late, Nat.not_lt.mpr late]
  · have inside : p.mode = .linked → p.offset < p.cycle := by simpa using outside
    simpa [-Fin.getElem_fin, outside] using fun _ => inside

section
variable {f : Fields} {s : State} {p : PlanId} (named : planNamed s f.subject.toNat = some p)
include named

theorem planCloseOp_used (used : planInUse s p = true) : planCloseOp f s = refuse .planActive 0 s := by
  simp only [planCloseOp, named, used, if_true]

variable (free : planInUse s p = false)
include free

theorem planCloseOp_ready (h : s.plans.plans[p].state = .ready) : planCloseOp f s = done 0 s := by
  simp only [planCloseOp, named, free, h, Bool.false_eq_true, if_false]

theorem planCloseOp_empty (h : s.plans.plans[p].state = .empty) :
    planCloseOp f s =
      refuse .badValue (closeWord (.emptyPlan, none))
        (modPlan s p fun r => { r with closeReason := some (.emptyPlan, none) }) := by
  simp only [planCloseOp, named, free, h, Bool.false_eq_true, if_false]

theorem planCloseOp_passes (h : s.plans.plans[p].state = .opened) (valid : closePlan s s.plans.plans[p] = none) :
    planCloseOp f s = done 0 (modPlan s p fun r => { r with state := .ready, closeReason := none }) := by
  simp only [planCloseOp, named, free, h, valid, Bool.false_eq_true, if_false]

theorem planCloseOp_fails {c : CloseReason × Option StepNo} (h : s.plans.plans[p].state = .opened)
    (invalid : closePlan s s.plans.plans[p] = some c) :
    planCloseOp f s = refuse .badValue (closeWord c) (modPlan s p fun r => { r with closeReason := some c }) := by
  simp only [planCloseOp, named, free, h, invalid, Bool.false_eq_true, if_false]

end

/-- Settles O31: the cases of planCloseOp, and the checks as the conditions that pass them. -/
theorem planCloseValidatesThePlan : Obligations.PlanCloseValidatesThePlan := by
  intro p f s hf within
  have named : planNamed s f.subject.toNat = some p := planNamed_of_subject hf within
  refine ⟨fun used => ?_, fun free => ⟨fun ready => ?_, fun empty => ?_, fun opened =>
    ⟨fun valid => ?_, fun c invalid => ?_⟩⟩, ?_⟩
  · exact responds_onAnyPorts rfl rfl fun q => planCloseOp_used (s := { s with ports := q }) named used
  · exact responds_onAnyPorts rfl rfl fun q => planCloseOp_ready (s := { s with ports := q }) named free ready
  · exact responds_onAnyPorts rfl rfl fun q => planCloseOp_empty (s := { s with ports := q }) named free empty
  · exact responds_onAnyPorts rfl rfl fun q => planCloseOp_passes (s := { s with ports := q }) named free opened valid
  · exact responds_onAnyPorts rfl rfl fun q => planCloseOp_fails (s := { s with ports := q }) named free opened invalid
  · simp only [closePlan_none, closeStep_none]

/-! ### PLAN WRITE (R106 to R108) -/

theorem valueMode_beyond {v : Word16} (h : 1 < v.toNat) : valueMode v = none := by
  unfold valueMode
  match v.toNat, h with
  | _ + 2, _ => rfl

theorem valueBool_beyond {v : Word16} (h : 1 < v.toNat) : valueBool v = none := by
  unfold valueBool
  match v.toNat, h with
  | _ + 2, _ => rfl

theorem valueIn_outside {lo hi : Nat} {v : Word16} (h : ¬(lo ≤ v.toNat ∧ v.toNat ≤ hi)) : valueIn lo hi v = none :=
  if_neg h

theorem valueStage_named {v : Word16} {g : StageId} (h : v.toNat = number g) : valueStage v = some (some g) := by
  have nonzero : v ≠ 0 := fun zero => absurd (h.symm.trans (congrArg BitVec.toNat zero)) (Nat.succ_ne_zero _)
  rw [valueStage, if_neg (by simpa using nonzero), h, oneBased_number]
  rfl

theorem valueStage_beyond {v : Word16} (h : 16 < v.toNat) : valueStage v = none := by
  have nonzero : v ≠ 0 := fun zero => absurd (zero ▸ h) (Nat.not_lt_zero _)
  rw [valueStage, if_neg (by simpa using nonzero), oneBased_none (Or.inr h)]
  rfl

theorem valueForceOff_second {v : Word16} (h : v.toNat ≤ 239) : valueForceOff v = some (some v.toNat) := by
  have given : v ≠ 0xFFFF := fun absent => absurd (absent ▸ h) (by decide)
  rw [valueForceOff, if_neg (by simpa using given), valueIn_within ⟨Nat.zero_le _, h⟩]
  rfl

theorem valueForceOff_beyond {v : Word16} (h : 239 < v.toNat) (given : v ≠ 0xFFFF) : valueForceOff v = none := by
  rw [valueForceOff, if_neg (by simpa using given), valueIn_outside fun within => Nat.not_le.mpr h within.2]
  rfl

/-! #### The field that a subject and an index name (R205) -/

theorem planField_none {slot n : Nat} {v : Word16} {r : Plan} (h : 3 < n) : planField slot n v r = none := by
  match n, h with
  | _ + 4, _ => rfl

theorem planField_some {slot n : Nat} (v : Word16) (r : Plan) (h : n ≤ 3) : ∃ o, planField slot n v r = some o := by
  match n, h with
  | 0, _ => exact ⟨_, rfl⟩
  | 1, _ => exact ⟨_, rfl⟩
  | 2, _ => exact ⟨_, rfl⟩
  | 3, _ => exact ⟨_, rfl⟩

/-- Every numeric field of a plan record is stored within its range (R106). -/
theorem planField_numeric (slot : Nat) (v : Word16) (r : Plan) :
    ∀ q ∈ planFields slot,
      planField slot q.index.toNat v r = some ((valueIn q.least q.most v).map fun n => q.put n r) := by
  simp only [planFields, List.forall_mem_cons]
  exact ⟨rfl, rfl, rfl, nofun⟩

theorem stepField_none {n : Nat} {v : Word16} {r : Step} (h : 4 < n) : stepField n v r = none := by
  match n, h with
  | _ + 5, _ => rfl

theorem stepField_some {n : Nat} (v : Word16) (r : Step) (h : n ≤ 4) : ∃ o, stepField n v r = some o := by
  match n, h with
  | 0, _ => exact ⟨_, rfl⟩
  | 1, _ => exact ⟨_, rfl⟩
  | 2, _ => exact ⟨_, rfl⟩
  | 3, _ => exact ⟨_, rfl⟩
  | 4, _ => exact ⟨_, rfl⟩

/-- Every numeric field of a step record is stored within its range (R107). -/
theorem stepField_numeric (v : Word16) (r : Step) :
    ∀ q ∈ stepFields, stepField q.index.toNat v r = some ((valueIn q.least q.most v).map fun n => q.put n r) := by
  simp only [stepFields, List.forall_mem_cons]
  exact ⟨rfl, rfl, nofun⟩

/-- The subject byte of a plan's own field: bit 7 clear (R205). -/
def planSubject (p : PlanId) : Byte := BitVec.ofNat 8 (number p)

/-- The subject byte of a field of a plan's step: bit 7 set (R205). -/
def stepSubject (p : PlanId) : Byte := BitVec.ofNat 8 (0x80 + number p)

theorem planSubject_plan (p : PlanId) : (planSubject p).toNat % 32 = number p := by
  revert p; decide

theorem stepSubject_plan (p : PlanId) : (stepSubject p).toNat % 32 = number p := by
  revert p; decide

theorem planSubject_bit (p : PlanId) : (planSubject p).getLsbD 7 = false := by
  revert p; decide

theorem stepSubject_bit (p : PlanId) : (stepSubject p).getLsbD 7 = true := by
  revert p; decide

theorem slotSize_le (x : Layout) : slotSize x ≤ 32 := by
  cases x <;> decide

theorem stepNamed_within {s : State} {n : Byte} {k : StepNo} (hn : n.toNat % 32 = k.val)
    (h : k.val < slotSize s.plans.layout) : stepNamed s n = some k := by
  rw [stepNamed, hn, if_pos h, zeroBased_val]

theorem stepNamed_beyond {s : State} {n : Byte} (h : slotSize s.plans.layout ≤ n.toNat % 32) : stepNamed s n = none :=
  if_neg (Nat.not_lt.mpr h)

theorem planWritten_plan (s : State) (p : PlanId) (n : Byte) (v : Word16) :
    planWritten s p ⟨planSubject p, n, v⟩ = planField (slotSize s.plans.layout) n.toNat v s.plans.plans[p] :=
  if_neg (Bool.eq_false_iff.mp (planSubject_bit p))

theorem planWritten_step {s : State} {n : Byte} {k : StepNo} (p : PlanId) (v : Word16) (hn : n.toNat % 32 = k.val)
    (h : k.val < slotSize s.plans.layout) :
    planWritten s p ⟨stepSubject p, n, v⟩ =
      (stepField (n.toNat / 32) v s.plans.plans[p].steps[k]).map fun o =>
        o.map fun x => { s.plans.plans[p] with steps := s.plans.plans[p].steps.set k x } := by
  simp only [planWritten, stepSubject_bit, if_true, stepNamed_within hn h]

/-- A step field's number and its step's are the high and the low part of the index (R205). -/
theorem planWritten_stepField {s : State} {p : PlanId} {n : Byte} {v : Word16} {c : Nat} {k : StepNo} {α : Type}
    {coded : Option α} (h : k.val < slotSize s.plans.layout) (hn : n.toNat = 32 * c + k.val) (g : α → Step → Step)
    (field : stepField c v s.plans.plans[p].steps[k] = some (coded.map fun a => g a s.plans.plans[p].steps[k])) :
    planWritten s p ⟨stepSubject p, n, v⟩ = some (coded.map fun a =>
      { s.plans.plans[p] with steps := s.plans.plans[p].steps.set k (g a s.plans.plans[p].steps[k]) }) := by
  have low : n.toNat % 32 = k.val := by omega
  have high : n.toNat / 32 = c := by omega
  rw [planWritten_step p v low h, high, field, Option.map_some, Option.map_map]
  rfl

theorem planWritten_stepBeyond {s : State} {n : Byte} (p : PlanId) (v : Word16)
    (h : 4 < n.toNat / 32 ∨ slotSize s.plans.layout ≤ n.toNat % 32) :
    planWritten s p ⟨stepSubject p, n, v⟩ = none := by
  by_cases beyond : slotSize s.plans.layout ≤ n.toNat % 32
  · simp only [planWritten, stepSubject_bit, if_true, stepNamed_beyond beyond]
  · have within : n.toNat % 32 < slotSize s.plans.layout := Nat.not_le.mp beyond
    rw [planWritten_step (k := ⟨n.toNat % 32, within.trans_le (slotSize_le _)⟩) p v rfl within,
      stepField_none (h.resolve_right beyond)]
    rfl

/-! #### The request's answers (R108) -/

theorem planWriteOp_unnamed {f : Fields} {s : State} (unnamed : planNamed s (f.subject.toNat % 32) = none) :
    planWriteOp f s = refuse .badSubject 0 s := by
  simp only [planWriteOp, unnamed]

section
variable {f : Fields} {s : State} {p : PlanId} (hf : f.subject.toNat % 32 = number p)
  (within : number p ≤ planCount s.plans.layout)
include hf within

theorem planWriteOp_noField (field : planWritten s p f = none) : planWriteOp f s = refuse .badSubject 0 s := by
  simp only [planWriteOp, hf, planNamed_number within, field]

theorem planWriteOp_used {o : Option Plan} (field : planWritten s p f = some o) (used : planInUse s p = true) :
    planWriteOp f s = refuse .planActive 0 s := by
  simp only [planWriteOp, hf, planNamed_number within, field, used, if_true]

theorem planWriteOp_badValue (field : planWritten s p f = some none) (free : planInUse s p = false) :
    planWriteOp f s = refuse .badValue 0 s := by
  simp only [planWriteOp, hf, planNamed_number within, field, free, Bool.false_eq_true, if_false]

theorem planWriteOp_stores {r : Plan} (field : planWritten s p f = some (some r)) (free : planInUse s p = false) :
    planWriteOp f s = done 0 (modPlan s p fun _ => { r with state := .opened }) := by
  simp only [planWriteOp, hf, planNamed_number within, field, free, Bool.false_eq_true, if_false]

end

/-- PLAN WRITE over the plan link, with its answer (R108). -/
def WriteResponds (f : Fields) (r : Result) (s u : State) : Prop :=
  Responds (.planWrite .plan f) .plan 0x21 f r 0 s u

theorem writeResponds_onAnyPorts {f : Fields} {r : Result} {s u : State}
    (answers : ∀ q : PerLink Port,
      planWriteOp f { s with ports := q } = { result := r, value := 0, state := { u with ports := q } }) :
    WriteResponds f r s u :=
  responds_onAnyPorts rfl rfl answers

section
variable {s : State} {p : PlanId} (within : number p ≤ planCount s.plans.layout)
include within

theorem writeResponds_used {f : Fields} {o : Option Plan} (hf : f.subject.toNat % 32 = number p)
    (field : planWritten s p f = some o) (used : planInUse s p = true) : WriteResponds f .planActive s s :=
  writeResponds_onAnyPorts fun q => planWriteOp_used (s := { s with ports := q }) hf within field used

variable (free : planInUse s p = false)
include free

section
variable {n : Byte} {v : Word16} {α : Type} {coded : Option α} (g : α → Plan → Plan)
  (field : planField (slotSize s.plans.layout) n.toNat v s.plans.plans[p] =
    some (coded.map fun a => g a s.plans.plans[p]))
include field

/-- A field of a plan written with a value that codes a: g is the change of the record (R106). -/
theorem writeResponds_planField {a : α} (value : coded = some a) :
    WriteResponds ⟨planSubject p, n, v⟩ .done s (modPlan s p fun r => { g a r with state := .opened }) := by
  subst value
  exact writeResponds_onAnyPorts fun q =>
    planWriteOp_stores (s := { s with ports := q }) (planSubject_plan p) within
      ((planWritten_plan s p n v).trans field) free

theorem writeResponds_planBadValue (value : coded = none) : WriteResponds ⟨planSubject p, n, v⟩ .badValue s s := by
  subst value
  exact writeResponds_onAnyPorts fun q =>
    planWriteOp_badValue (s := { s with ports := q }) (planSubject_plan p) within
      ((planWritten_plan s p n v).trans field) free

end

theorem writeResponds_planNumber (v : Word16) {q : NumField Plan} (hq : q ∈ planFields (slotSize s.plans.layout)) :
    WriteResponds ⟨planSubject p, q.index, v⟩ (if q.least ≤ v.toNat ∧ v.toNat ≤ q.most then .done else .badValue) s
      (if q.least ≤ v.toNat ∧ v.toNat ≤ q.most then modPlan s p fun r => { q.put v.toNat r with state := .opened }
       else s) := by
  have field := planField_numeric (slotSize s.plans.layout) v s.plans.plans[p] q hq
  by_cases inside : q.least ≤ v.toNat ∧ v.toNat ≤ q.most
  · rw [if_pos inside, if_pos inside]
    exact writeResponds_planField within free q.put field (valueIn_within inside)
  · rw [if_neg inside, if_neg inside]
    exact writeResponds_planBadValue within free q.put field (valueIn_outside inside)

theorem writeResponds_mode (v : Word16) :
    WriteResponds ⟨planSubject p, 0, v⟩ (if v.toNat ≤ 1 then .done else .badValue) s
      (if v = 0 then modPlan s p fun r => { r with mode := .isolated, state := .opened }
       else if v = 1 then modPlan s p fun r => { r with mode := .linked, state := .opened }
       else s) := by
  by_cases isolated : v = 0
  · subst isolated
    exact writeResponds_planField within free (fun x r => { r with mode := x }) rfl rfl
  · by_cases linked : v = 1
    · subst linked
      exact writeResponds_planField within free (fun x r => { r with mode := x }) rfl rfl
    · have zero : v.toNat ≠ 0 := fun e => isolated (BitVec.eq_of_toNat_eq e)
      have one : v.toNat ≠ 1 := fun e => linked (BitVec.eq_of_toNat_eq e)
      have beyond : 1 < v.toNat := by omega
      rw [if_neg (Nat.not_le.mpr beyond), if_neg isolated, if_neg linked]
      exact writeResponds_planBadValue within free (fun x r => { r with mode := x }) rfl (valueMode_beyond beyond)

variable {k : StepNo} (slot : k.val < slotSize s.plans.layout) {n : Byte} {v : Word16} {c : Nat}
  (hn : n.toNat = 32 * c + k.val)
include slot hn

section
variable {α : Type} {coded : Option α} (g : α → Step → Step)
  (field : stepField c v s.plans.plans[p].steps[k] = some (coded.map fun a => g a s.plans.plans[p].steps[k]))
include field

/-- A field of a step written with a value that codes a: g is the change of the record (R107). -/
theorem writeResponds_stepField {a : α} (value : coded = some a) :
    WriteResponds ⟨stepSubject p, n, v⟩ .done s
      (modPlan s p fun r => { r with steps := r.steps.set k (g a r.steps[k]), state := .opened }) := by
  have written := planWritten_stepField slot hn g field
  subst value
  exact writeResponds_onAnyPorts fun q =>
    planWriteOp_stores (s := { s with ports := q }) (stepSubject_plan p) within written free

theorem writeResponds_stepBadValue (value : coded = none) : WriteResponds ⟨stepSubject p, n, v⟩ .badValue s s := by
  have written := planWritten_stepField slot hn g field
  subst value
  exact writeResponds_onAnyPorts fun q =>
    planWriteOp_badValue (s := { s with ports := q }) (stepSubject_plan p) within written free

end

theorem writeResponds_stepNumber {q : NumField Step} (hq : q ∈ stepFields) (index : c = q.index.toNat) :
    WriteResponds ⟨stepSubject p, n, v⟩ (if q.least ≤ v.toNat ∧ v.toNat ≤ q.most then .done else .badValue) s
      (if q.least ≤ v.toNat ∧ v.toNat ≤ q.most then
        modPlan s p fun r => { r with steps := r.steps.set k (q.put v.toNat r.steps[k]), state := .opened }
       else s) := by
  have field := stepField_numeric v s.plans.plans[p].steps[k] q hq
  rw [← index] at field
  by_cases inside : q.least ≤ v.toNat ∧ v.toNat ≤ q.most
  · rw [if_pos inside, if_pos inside]
    exact writeResponds_stepField within free slot hn q.put field (valueIn_within inside)
  · rw [if_neg inside, if_neg inside]
    exact writeResponds_stepBadValue within free slot hn q.put field (valueIn_outside inside)

end

/-- Settles O30: the field a subject and index name, the roles, and each field's value by its coding. -/
theorem planWriteStoresOneField : Obligations.PlanWriteStoresOneField := by
  intro p v s
  refine ⟨fun beyond n => ?_, fun within => ⟨fun n hn => ?_, fun n hn => ?_,
    fun used => ⟨fun n hn => ?_, fun n hc hk => ?_⟩,
    fun free => ⟨fun q hq => writeResponds_planNumber within free v hq, writeResponds_mode within free v,
      fun k slot => ⟨fun q hq n hn => writeResponds_stepNumber within free slot hn hq rfl,
        fun n hn => ?stage, fun n hn => ?demand, fun n hn => ?forceOff⟩⟩⟩⟩
  · have missing : planNamed s ((planSubject p).toNat % 32) = none :=
      (planSubject_plan p).symm ▸ planNamed_beyond beyond
    exact writeResponds_onAnyPorts (f := ⟨planSubject p, n, v⟩) fun q =>
      planWriteOp_unnamed (s := { s with ports := q }) missing
  · exact writeResponds_onAnyPorts (f := ⟨planSubject p, n, v⟩) fun q =>
      planWriteOp_noField (s := { s with ports := q }) (planSubject_plan p) within
        ((planWritten_plan s p n v).trans (planField_none hn))
  · exact writeResponds_onAnyPorts (f := ⟨stepSubject p, n, v⟩) fun q =>
      planWriteOp_noField (s := { s with ports := q }) (stepSubject_plan p) within (planWritten_stepBeyond p v hn)
  · obtain ⟨o, field⟩ := planField_some (slot := slotSize s.plans.layout) v s.plans.plans[p] hn
    exact writeResponds_used within (planSubject_plan p) ((planWritten_plan s p n v).trans field) used
  · let k : StepNo := ⟨n.toNat % 32, hk.trans_le (slotSize_le _)⟩
    obtain ⟨o, field⟩ := stepField_some v s.plans.plans[p].steps[k] hc
    exact writeResponds_used within (stepSubject_plan p)
      ((planWritten_step (k := k) p v rfl hk).trans (congrArg (Option.map _) field)) used
  case stage =>
    have index : n.toNat = 32 * 0 + k.val := by omega
    have stored {x : Option StageId} :=
      writeResponds_stepField within free slot (v := v) index (fun x r => { r with stage := x }) rfl (a := x)
    refine ⟨fun absent => stored (absent ▸ rfl), fun g named => stored (valueStage_named named), fun beyond => ?_⟩
    exact writeResponds_stepBadValue within free slot index (fun x r => { r with stage := x }) rfl
      (valueStage_beyond beyond)
  case demand =>
    refine ⟨fun b bit => ?_, fun beyond => ?_⟩
    · exact writeResponds_stepField within free slot (c := 3) hn (fun x r => { r with demandDependent := x }) rfl
        ((congrArg valueBool bit).trans (valueBool_bit b))
    · exact writeResponds_stepBadValue within free slot (c := 3) hn (fun x r => { r with demandDependent := x }) rfl
        (valueBool_beyond beyond)
  case forceOff =>
    refine ⟨fun x coded => ?_, fun beyond given => ?_⟩
    · have value : valueForceOff v = some x := by
        rcases coded with ⟨rfl, rfl⟩ | ⟨rfl, second⟩
        · rfl
        · exact valueForceOff_second second
      exact writeResponds_stepField within free slot (c := 4) hn (fun x r => { r with forceOff := x }) rfl value
    · exact writeResponds_stepBadValue within free slot (c := 4) hn (fun x r => { r with forceOff := x }) rfl
        (valueForceOff_beyond beyond given)

end Sys2Proof.Machine
end

section
/-! PROOFS. Chapter 7, the sequencer's requests and expiries: DEMAND, EXTEND, PRIORITY CALL, CANCEL PRIORITY, and the counts
that bring a decision. -/

namespace Sys2Proof.Machine

/-! ### What a decision leaves (R137, R145, R156) -/

/-- Settles O33: a decision, a completion and a change of red status are operations that Stays is about. -/
theorem decisionsKeepTheOtherBlocks : Obligations.DecisionsKeepTheOtherBlocks := fun s =>
  ⟨(stays_decision s).toDecisionKeeps, (stays_settled s).toDecisionKeeps, (stays_redStatusChanged s).toDecisionKeeps⟩

/-! ### A sequencer request answered -/

/-- A granted request whose handling leaves the ports as the frame left them. -/
theorem responds_keepingPorts {i : Instr} {l : Link} {code : Byte} {f : Fields} {handle : State → Answer} {s u : State}
    {r : Result} {v : Word16} (row : exec i s = .next (takeRequest l code f handle s)) (right : granted l code = true)
    (kept : u.ports = (receive l code f s).ports)
    (answers : handle (receive l code f s) = { result := r, value := v, state := u }) : Responds i l code f r v s u :=
  responds_of_handled i l code f handle s u r v row right (by rw [withPorts_self kept, answers])

theorem subject16_named {b : Byte} {n : Fin 16} (h : b.toNat = number n) : subject16 b = some n := by
  rw [subject16, h, oneBased_number]

/-! ### DEMAND (R139) -/

theorem runsNow_iff {s : State} {n : StageId} : runsNow s n = true ↔ s.seq.phase = .stage ∧ runningStage s = some n := by
  simp [runsNow]

section
variable {f : Fields} {s : State} {n : StageId}

theorem takeDemand_dropped (h : runsNow s n = true ∨ has s.seq.latches n = true) : takeDemand n s = s :=
  if_pos (Bool.or_eq_true _ _ ▸ h)

theorem takeDemand_latches (waiting : runsNow s n = false) (clear : has s.seq.latches n = false) :
    takeDemand n s = decision (modSeq s fun q => { q with latches := setAdd q.latches n }) := by
  simp only [takeDemand, waiting, clear, Bool.or_self, Bool.false_eq_true, if_false]

theorem demandOp_refused (h : s.service.state = .handedOver) : demandOp f s = refuse .refusedState 0 s :=
  if_pos (beq_iff_eq.mpr h)

variable (awake : s.service.state ≠ .handedOver) (named : f.subject.toNat = number n)
include awake named

theorem demandOp_undefined (h : s.stages[n].defined = false) : demandOp f s = refuse .badValue 0 s := by
  simp [-Fin.getElem_fin, demandOp, awake, subject16_named named, h]

theorem demandOp_defined (h : s.stages[n].defined = true) :
    demandOp f s = done (wordBool (runsNow s n)) (takeDemand n s) := by
  simp [-Fin.getElem_fin, demandOp, awake, subject16_named named, h]

theorem demandOp_running (defined : s.stages[n].defined = true) (runs : runsNow s n = true) :
    demandOp f s = done 1 s := by
  rw [demandOp_defined awake named defined, takeDemand_dropped (.inl runs), runs]
  rfl

theorem demandOp_held (defined : s.stages[n].defined = true) (waiting : runsNow s n = false)
    (held : has s.seq.latches n = true) : demandOp f s = done 0 s := by
  rw [demandOp_defined awake named defined, takeDemand_dropped (.inr held), waiting]
  rfl

theorem demandOp_latches (defined : s.stages[n].defined = true) (waiting : runsNow s n = false)
    (clear : has s.seq.latches n = false) :
    demandOp f s = done 0 (decision (modSeq s fun q => { q with latches := setAdd q.latches n })) := by
  rw [demandOp_defined awake named defined, takeDemand_latches waiting clear, waiting]
  rfl

end

/-! ### EXTEND (R140) -/

section
variable {f : Fields} {s : State} {g : GroupId}

theorem extendOp_refused (h : s.service.state = .handedOver) : extendOp f s = refuse .refusedState 0 s :=
  if_pos (beq_iff_eq.mpr h)

variable (awake : s.service.state ≠ .handedOver) (named : f.subject.toNat = number g)
include awake named

theorem extendOp_undefined (h : (groupRec s g).defined = false) : extendOp f s = refuse .badSubject 0 s := by
  simp [extendOp, awake, subject16_named named, h]

variable (defined : (groupRec s g).defined = true)
include defined

theorem extendOp_holds (h : f.value ≠ 0) :
    extendOp f s =
      done (word (min 100 f.value.toNat)) (modGroup s g fun r => { r with hold := min 100 f.value.toNat }) := by
  have given : f.value.toNat ≠ 0 := fun zero => h (BitVec.eq_of_toNat_eq zero)
  have held : min 100 f.value.toNat ≠ 0 := by omega
  simp [-Nat.min_eq_zero_iff, extendOp, awake, subject16_named named, defined, held]

theorem extendOp_ends (h : f.value = 0) :
    extendOp f s = done 0 (decision (modGroup s g fun r => { r with hold := 0 })) := by
  simp [extendOp, awake, subject16_named named, defined, h, word]

end

/-- Settles O34: the cases of demandOp and extendOp. -/
theorem demandAndExtend : Obligations.DemandAndExtend := by
  refine ⟨fun n f s => ⟨fun handed => ?_, fun awake named => ⟨fun undefined => ?_, fun defined =>
      ⟨fun stage running => ?_, fun elsewhere => ⟨fun held => ?_, fun clear => ?_⟩⟩⟩⟩,
    fun g f s => ⟨fun handed => ?_, fun awake named => ⟨fun undefined => ?_, fun defined given => ?_,
      fun defined zero => ?_⟩⟩⟩
  · exact responds_onAnyPorts rfl rfl fun q => demandOp_refused (s := { s with ports := q }) handed
  · exact responds_onAnyPorts rfl rfl fun q => demandOp_undefined (s := { s with ports := q }) awake named undefined
  · exact responds_onAnyPorts rfl rfl fun q =>
      demandOp_running (s := { s with ports := q }) awake named defined (runsNow_iff.mpr ⟨stage, running⟩)
  · have waiting : runsNow s n = false := Bool.eq_false_iff.mpr fun runs => elsewhere (runsNow_iff.mp runs)
    exact responds_onAnyPorts rfl rfl fun q =>
      demandOp_held (s := { s with ports := q }) awake named defined waiting held
  · have waiting : runsNow s n = false := Bool.eq_false_iff.mpr fun runs => elsewhere (runsNow_iff.mp runs)
    exact responds_keepingPorts rfl rfl (stays_decision _).ports
      (demandOp_latches (s := receive .plan 0x30 f s) awake named defined waiting clear)
  · exact responds_onAnyPorts rfl rfl fun q => extendOp_refused (s := { s with ports := q }) handed
  · exact responds_onAnyPorts rfl rfl fun q => extendOp_undefined (s := { s with ports := q }) awake named undefined
  · exact responds_onAnyPorts rfl rfl fun q =>
      extendOp_holds (s := { s with ports := q }) awake named defined given
  · exact responds_keepingPorts rfl rfl (stays_decision _).ports
      (extendOp_ends (s := receive .plan 0x31 f s) awake named defined zero)

/-! ### Priority calls (R141 to R143) -/

section
variable {q : Sequencer} {n : StageId} {d : Nat}

/-- The call list with a stage's duration replaced (R141). -/
def redurated (n : StageId) (d : Nat) (calls : List Call) : List Call :=
  calls.map fun c => if c.stage = n then { c with duration := d } else c

theorem redurated_eq_self : redurated n d q.calls = q.calls ↔ ∀ c ∈ q.calls, c.stage = n → c.duration = d := by
  refine (iff_of_eq (congrArg _ q.calls.map_id.symm)).trans (List.map_inj_left.trans (forall₂_congr fun c _ => ?_))
  show (if c.stage = n then _ else c) = c ↔ _
  by_cases same : c.stage = n
  · rw [if_pos same, Call.mk.injEq]
    exact ⟨fun ⟨_, e, _⟩ _ => e.symm, fun e => ⟨rfl, (e same).symm, rfl⟩⟩
  · rw [if_neg same]
    exact ⟨fun _ e => absurd e same, fun _ => rfl⟩

theorem placeCall_running : placeCall n d q true = some { q with service := some { stage := n, units := d } } := rfl

theorem placeCall_listed (listed : ∃ c ∈ q.calls, c.stage = n) :
    placeCall n d q false = some { q with calls := redurated n d q.calls } := by
  simp [placeCall, redurated, listed]

theorem placeCall_new (unlisted : ∀ c ∈ q.calls, c.stage ≠ n) (room : q.calls.length < 4) :
    placeCall n d q false = some { q with calls := q.calls ++ [{ stage := n, duration := d, wait := 0 }] } := by
  have absent : (q.calls.any (·.stage == n)) = false := by simpa using unlisted
  simp [placeCall, absent, room]

theorem placeCall_full (unlisted : ∀ c ∈ q.calls, c.stage ≠ n) (full : 4 ≤ q.calls.length) :
    placeCall n d q false = none := by
  have absent : (q.calls.any (·.stage == n)) = false := by simpa using unlisted
  simp [placeCall, absent, Nat.not_lt.mpr full]

end

section
variable {f : Fields} {s : State} {n : StageId}

theorem priorityCallOp_refused (h : s.service.state = .handedOver) : priorityCallOp f s = refuse .refusedState 0 s :=
  if_pos (beq_iff_eq.mpr h)

theorem cancelPriorityOp_refused (h : s.service.state = .handedOver) :
    cancelPriorityOp f s = refuse .refusedState 0 s :=
  if_pos (beq_iff_eq.mpr h)

variable (awake : s.service.state ≠ .handedOver) (named : f.subject.toNat = number n)
include awake named

theorem priorityCallOp_undefined (h : s.stages[n].defined = false) : priorityCallOp f s = refuse .badValue 0 s := by
  simp [-Fin.getElem_fin, priorityCallOp, awake, subject16_named named, h]

theorem cancelPriorityOp_undefined (h : s.stages[n].defined = false) :
    cancelPriorityOp f s = refuse .badValue 0 s := by
  simp [-Fin.getElem_fin, cancelPriorityOp, awake, subject16_named named, h]

variable (defined : s.stages[n].defined = true)
include defined

theorem priorityCallOp_full (h : placeCall n (max 50 (min 600 f.value.toNat)) s.seq (runsNow s n) = none) :
    priorityCallOp f s = refuse .full 0 s := by
  simp [-Fin.getElem_fin, priorityCallOp, awake, subject16_named named, defined, h]

theorem priorityCallOp_same (h : placeCall n (max 50 (min 600 f.value.toNat)) s.seq (runsNow s n) = some s.seq) :
    priorityCallOp f s = done 0 s := by
  simp [-Fin.getElem_fin, priorityCallOp, awake, subject16_named named, defined, h]

theorem priorityCallOp_changes {q : Sequencer} (changed : q ≠ s.seq)
    (h : placeCall n (max 50 (min 600 f.value.toNat)) s.seq (runsNow s n) = some q) :
    priorityCallOp f s = done 0 (decision { s with seq := q }) := by
  simp [-Fin.getElem_fin, priorityCallOp, awake, subject16_named named, defined, h, changed]

theorem cancelPriorityOp_same (h : cancelCall n s.seq = s.seq) : cancelPriorityOp f s = done 0 s := by
  simp [-Fin.getElem_fin, cancelPriorityOp, awake, subject16_named named, defined, h]

theorem cancelPriorityOp_changes (h : cancelCall n s.seq ≠ s.seq) :
    cancelPriorityOp f s = done 0 (decision { s with seq := cancelCall n s.seq }) := by
  simp [-Fin.getElem_fin, cancelPriorityOp, awake, subject16_named named, defined, h]

end

theorem cancelCall_eq (n : StageId) (q : Sequencer) :
    cancelCall n q =
      { q with
        calls := q.calls.filter fun c => c.stage != n
        service := q.service.map fun c => if c.stage = n then { stage := c.stage, units := 0 } else c } := by
  simp [cancelCall]

/-- A cancellation finds nothing where the stage has no listed call and no call service with units left (R142). -/
theorem cancelCall_eq_self {n : StageId} {q : Sequencer} :
    cancelCall n q = q ↔
      (∀ c ∈ q.calls, c.stage ≠ n) ∧ ∀ c, q.service = some c → c.stage = n → c.units = 0 := by
  have fields : cancelCall n q = q ↔ (cancelCall n q).calls = q.calls ∧ (cancelCall n q).service = q.service :=
    ⟨fun e => ⟨congrArg _ e, congrArg _ e⟩, fun ⟨calls, service⟩ => by
      show { q with calls := (cancelCall n q).calls, service := (cancelCall n q).service } = q
      rw [calls, service]⟩
  rw [fields, cancelCall_eq]
  refine and_congr (by simp [List.filter_eq_self]) ?_
  cases q.service with
  | none => simp
  | some c =>
    obtain ⟨stage, units⟩ := c
    by_cases same : stage = n
    · simp [same, eq_comm]
    · simp [same]

/-- Settles O35: the cases of placeCall and cancelCall, each as the request's answer. -/
theorem priorityCallsListServeAndCancel : Obligations.PriorityCallsListServeAndCancel := by
  refine ⟨fun n f s => ⟨fun handed => ?_, fun awake named => ⟨fun undefined => ?_,
      fun defined waiting unlisted => ⟨fun room => ?_, fun full => ?_⟩, fun defined waiting listed => ?_,
      fun defined waiting listed same => ?_, fun defined runs changed => ?_, fun defined runs same => ?_⟩⟩,
    fun n f s => ⟨fun handed => ?_, fun awake named undefined => ?_, fun awake named defined =>
      ⟨fun unlisted spent => ?_, fun found => ?_⟩⟩⟩
  · exact responds_onAnyPorts rfl rfl fun q => priorityCallOp_refused (s := { s with ports := q }) handed
  · exact responds_onAnyPorts rfl rfl fun q =>
      priorityCallOp_undefined (s := { s with ports := q }) awake named undefined
  · refine responds_keepingPorts rfl rfl (stays_decision _).ports
      (priorityCallOp_changes (s := receive .plan 0x32 f s) awake named defined (fun e => ?_)
        (waiting ▸ placeCall_new unlisted room))
    exact absurd (congrArg (fun q : Sequencer => q.calls) e) (by simp)
  · exact responds_onAnyPorts rfl rfl fun q =>
      priorityCallOp_full (s := { s with ports := q }) awake named defined (waiting ▸ placeCall_full unlisted full)
  · obtain ⟨c, mem, same, other⟩ := listed
    refine responds_keepingPorts rfl rfl (stays_decision _).ports
      (priorityCallOp_changes (s := receive .plan 0x32 f s) awake named defined (fun e => ?_)
        (waiting ▸ placeCall_listed ⟨c, mem, same⟩))
    exact other (redurated_eq_self.mp (congrArg (fun q : Sequencer => q.calls) e) c mem same)
  · have kept : placeCall n (max 50 (min 600 f.value.toNat)) s.seq false = some s.seq := by
      rw [placeCall_listed listed, redurated_eq_self.mpr same]
    exact responds_onAnyPorts rfl rfl fun q =>
      priorityCallOp_same (s := { s with ports := q }) awake named defined (waiting ▸ kept)
  · exact responds_keepingPorts rfl rfl (stays_decision _).ports
      (priorityCallOp_changes (s := receive .plan 0x32 f s) awake named defined
        (fun e => changed (congrArg (fun q : Sequencer => q.service) e).symm) (runs ▸ placeCall_running))
  · have kept : placeCall n (max 50 (min 600 f.value.toNat)) s.seq true = some s.seq := by
      rw [placeCall_running, ← same]
    exact responds_onAnyPorts rfl rfl fun q =>
      priorityCallOp_same (s := { s with ports := q }) awake named defined (runs ▸ kept)
  · exact responds_onAnyPorts rfl rfl fun q => cancelPriorityOp_refused (s := { s with ports := q }) handed
  · exact responds_onAnyPorts rfl rfl fun q =>
      cancelPriorityOp_undefined (s := { s with ports := q }) awake named undefined
  · exact responds_onAnyPorts rfl rfl fun q =>
      cancelPriorityOp_same (s := { s with ports := q }) awake named defined
        (cancelCall_eq_self.mpr ⟨unlisted, spent⟩)
  · rw [← cancelCall_eq]
    refine responds_keepingPorts rfl rfl (stays_decision _).ports
      (cancelPriorityOp_changes (s := receive .plan 0x33 f s) awake named defined fun same => ?_)
    obtain ⟨unlisted, spent⟩ := cancelCall_eq_self.mp same
    rcases found with ⟨c, mem, stage⟩ | ⟨c, serves, stage, left⟩
    · exact unlisted c mem stage
    · exact absurd (spent c serves stage) (Nat.ne_of_gt left)

/-! ### Counts that have come to their end (R140, R142, R143) -/

/-- Settles O40: the three expiries by whether their count has come. -/
theorem sequencerExpiriesDecide : Obligations.SequencerExpiriesDecide := by
  intro g n s
  refine ⟨?_, fun c served => ?_, fun unserved => ?_, fun early => ?_, fun due => ?_⟩
  · show Host.Outcome.next _ = _
    exact congrArg _ (if_congr beq_iff_eq rfl rfl)
  · show execCallServiceExpiry s = _
    rw [execCallServiceExpiry, served]
  · show execCallServiceExpiry s = _
    rw [execCallServiceExpiry, unserved]
  · refine congrArg Host.Outcome.next (if_neg fun any => ?_)
    obtain ⟨c, mem, hc⟩ := List.any_eq_true.mp any
    obtain ⟨stage, waited⟩ := (Bool.and_eq_true _ _).mp hc
    exact absurd (of_decide_eq_true waited) (Nat.not_le.mpr (early c mem (beq_iff_eq.mp stage)))
  · obtain ⟨c, mem, stage, waited⟩ := due
    refine congrArg Host.Outcome.next (if_pos (List.any_eq_true.mpr ⟨c, mem, ?_⟩))
    simp [stage, Config.callWaitUnits, waited]

end Sys2Proof.Machine
end

section
/-! PROOFS. Chapter 7, the junction clock and the cycle position: force-off points, ALL RED, SET CLOCK and the timing unit. -/

namespace Sys2Proof.Machine

/-! ### Floors and decisions -/

theorem floorsElapsed_iff {s : State} {x : Set16} : floorsElapsed s x = true ↔ FloorsOver s x := by
  rw [floorsElapsed, all16_all]
  refine forall_congr' fun g => ?_
  cases has x g with
  | false => simp
  | true => cases s.seq.groups[g].greenStart <;> simp

theorem minElapsed_iff {s : State} {r : Step} : minElapsed s r = true ↔ max 1 r.minGreen ≤ s.seq.minCount :=
  decide_eq_true_iff

theorem decideOnce_idle {next : State → State} {s : State} (h : s.seq.phase ≠ .stage) : decideOnce next s = s :=
  (decideOnce_eq next s).trans (if_neg fun e => h (beq_iff_eq.mp e))

/-- A decision happens in phase STAGE alone (R137). -/
theorem decision_idle {s : State} (h : s.seq.phase ≠ .stage) : decision s = s := decideOnce_idle h

/-! ### Force-off points (R138) -/

section
variable {passed : Nat → Bool} {s : State}

/-- The state in which a force-off point of the running step has been reached (R138). -/
def forceOffReached (r : Step) (s : State) : State :=
  modSeq s fun q =>
    { q with
      forceOff := .reached q.units
      overrun := q.overrun || !(minElapsed s r && floorsElapsed s q.current) }

theorem passPoints_taken {r : Step} {f : Nat} (runs : runningStep s = some r) (waits : s.seq.forceOff = .waiting)
    (point : r.forceOff = some f) (hit : passed (10 * f) = true) : passPoints passed s = forceOffReached r s := by
  simp only [passPoints, runs, waits, point, hit, if_true, forceOffReached]

theorem passPoints_kept
    (h : s.seq.forceOff ≠ .waiting ∨
      ∀ r f, runningStep s = some r → r.forceOff = some f → ¬passed (10 * f) = true) :
    passPoints passed s = s := by
  unfold passPoints
  split
  case h_2 => rfl
  case h_1 r runs waits =>
    split
    case h_2 => rfl
    case h_1 f point => exact if_neg (h.resolve_left (fun e => e waits) r f runs point)

/-- A passage of points changes the force-off state and the overrun flag alone. -/
theorem passPoints_frame (passed : Nat → Bool) (s : State) :
    ∃ f b, passPoints passed s = modSeq s fun q => { q with forceOff := f, overrun := b } := by
  unfold passPoints
  split
  case h_2 => exact ⟨_, _, rfl⟩
  case h_1 =>
    split
    case h_2 => exact ⟨_, _, rfl⟩
    case h_1 => split <;> exact ⟨_, _, rfl⟩

theorem forceOffPasses_passPoints (passed : Nat → Bool) (s : State) :
    ForceOffPasses (fun x => passed x = true) s (passPoints passed s) where
  taken r f runs waits point hit := by
    rw [passPoints_taken runs waits point hit]
    refine ⟨rfl, ?_⟩
    show (s.seq.overrun || !(minElapsed s r && floorsElapsed s s.seq.current)) = true ↔
      s.seq.overrun = true ∨ ¬(max 1 r.minGreen ≤ s.seq.minCount ∧ FloorsOver s s.seq.current)
    simp only [Bool.or_eq_true, Bool.not_eq_true', ← Bool.not_eq_true, Bool.and_eq_true, floorsElapsed_iff,
      minElapsed_iff]
  kept h := by
    rw [passPoints_kept h]
    exact ⟨rfl, rfl⟩

/-- What passes the points of a state passes those of one with the same running step and force-off state. -/
theorem ForceOffPasses.of_same {p q : Nat → Prop} {t u : State} (h : ForceOffPasses p t u) (test : ∀ x, q x ↔ p x)
    (step : runningStep t = runningStep s) (forceOff : t.seq.forceOff = s.seq.forceOff)
    (overrun : t.seq.overrun = s.seq.overrun) : ForceOffPasses q s u := by
  obtain rfl : q = p := funext fun x => propext (test x)
  obtain ⟨taken, kept⟩ := h
  rw [step, forceOff, overrun] at taken kept
  exact ⟨taken, kept⟩

theorem stays_passPoints (passed : Nat → Bool) (s : State) : Stays s (passPoints passed s) := by
  obtain ⟨f, b, e⟩ := passPoints_frame passed s
  rw [e]
  exact stays_modSeq s _ rfl rfl

theorem stays_reportWrap (s : State) : Stays s (reportWrap s) := stays_modPlans s _ rfl rfl rfl

end

/-! ### ALL RED (R144) -/

section
variable {f : Fields} {s : State} {b : Bool}

theorem allRedOp_refused (h : s.service.state = .handedOver) : allRedOp f s = refuse .refusedState 0 s :=
  if_pos (beq_iff_eq.mpr h)

theorem allRedOp_badValue (awake : s.service.state ≠ .handedOver) (beyond : 1 < f.value.toNat) :
    allRedOp f s = refuse .badValue 0 s := by
  simp only [allRedOp, beq_eq_false_iff_ne.mpr awake, Bool.false_eq_true, if_false, valueBool_beyond beyond]

theorem allRedOp_sets (awake : s.service.state ≠ .handedOver) (bit : f.value = if b then 1 else 0) :
    allRedOp f s = done 0 (holdJudged (holdActive s) (modSeq s fun q => { q with allRed := b })) := by
  simp only [allRedOp, beq_eq_false_iff_ne.mpr awake, Bool.false_eq_true, if_false, bit, valueBool_bit]

theorem holdJudged_same (h : holdActive s = b) : holdJudged b s = s := if_pos (beq_iff_eq.mpr h)

theorem holdJudged_changed (h : holdActive s ≠ b) : holdJudged b s = decision s := if_neg (by simpa using h)

end

/-! ### SET CLOCK (R124, R150) -/

/-- The cycle position recomputed from the clock (R149). -/
def positioned (s : State) : State := modSeq s fun q => { q with position := positionNow s }

theorem stays_positioned (s : State) : Stays s (positioned s) := stays_modSeq s _ rfl rfl

theorem positionNow_active {s : State} {r : Plan} (h : activePlan s = some r) :
    positionNow s = if r.mode = .linked then some (positionIn r s.seq.clock) else none := by
  simp [positionNow, h]

section
variable {f : Fields} {s : State} {n : Nat}

theorem setClockOp_badValue (h : 863999 < 65536 * f.index.toNat + f.value.toNat) :
    setClockOp f s = refuse .badValue 0 s :=
  if_neg (Nat.not_lt.mpr h)

theorem setClockOp_sets (value : n = 65536 * f.index.toNat + f.value.toNat) (h : n ≤ 863999) :
    setClockOp f s = done 0 (setClock n s) := by
  subst value
  exact if_pos (Nat.lt_succ_of_le h)

theorem stays_clockMoved (cycle old new : Nat) (p : PlanId) (s : State) : Stays s (clockMoved cycle old new p s) := by
  unfold clockMoved
  dsimp only
  split
  · split
    · exact (stays_reportWrap s).trans (stays_passPoints _ _)
    · exact stays_passPoints _ _
  · exact stays_post _ _ _ _ s

/-- Beside the clock, SET CLOCK changes no more than a decision may. -/
theorem stays_setClock (n : Nat) (s : State) : Stays (modSeq s fun q => { q with clock := n }) (setClock n s) := by
  unfold setClock
  dsimp only
  refine (stays_positioned _).trans ?_
  split
  · split
    · exact (stays_clockMoved _ _ _ _ _).trans (stays_decision _)
    · exact stays_clockMoved _ _ _ _ _
  · exact Stays.refl _

theorem setClock_noPlan (h : s.plans.active = none) :
    setClock n s = { s with seq := { s.seq with clock := n, position := none } } := by
  have absent : positionNow (modSeq s fun q => { q with clock := n }) = none := positionNow_none h
  simp only [setClock, absent, modSeq_plans, h]
  rfl

variable {p : PlanId} {r : Plan} {a : Nat}

/-- SET CLOCK under a LINKED plan: the clock and the position set, then what the move of the position brings (R150). -/
theorem setClock_linked {b : Nat} {v : State} (active : s.plans.active = some p) (plan : r = s.plans.plans[p])
    (linked : r.mode = .linked) (position : s.seq.position = some a) (new : b = positionIn r n)
    (moved : v = clockMoved r.cycle a b p { s with seq := { s.seq with clock := n, position := some b } }) :
    setClock n s =
      if v.seq.forceOff ≠ s.seq.forceOff ∨ transferDue v = true ∧ transferDue s = false then decision v else v := by
  have held : activePlan s = some r := by rw [activePlan, active, plan]; rfl
  have now : positionNow (modSeq s fun q => { q with clock := n }) = some b :=
    (positionNow_active (s := modSeq s fun q => { q with clock := n }) held).trans
      ((if_pos linked).trans (congrArg some new.symm))
  have step : setClock n s =
      if (v.seq.forceOff != s.seq.forceOff || (transferDue v && !transferDue s)) = true then decision v else v := by
    simp only [setClock, now, modSeq_plans, active, position]
    rw [show activePlan (modSeq (modSeq s fun q => { q with clock := n }) fun q => { q with position := some b }) = some r
      from held]
    rw [moved]
    rfl
  rw [step]
  refine if_congr ?_ rfl rfl
  simp

theorem clockMoved_far {cycle old new : Nat} (h : 10 * cycle ≤ 2 * ((new + 10 * cycle - old) % (10 * cycle))) :
    clockMoved cycle old new p s = post .planResync (.plan p) false (some [word old, word new]) s :=
  if_neg (by omega)

theorem clockMoved_near {cycle old new : Nat} (h : 2 * ((new + 10 * cycle - old) % (10 * cycle)) < 10 * cycle) :
    clockMoved cycle old new p s =
      passPoints
        (fun x => decide (1 ≤ (x + 10 * cycle - old) % (10 * cycle) ∧
          (x + 10 * cycle - old) % (10 * cycle) ≤ (new + 10 * cycle - old) % (10 * cycle)))
        (if new < old then reportWrap s else s) :=
  if_pos (by omega)

/-- A wrap reported, or not, as a change of the pending plan alone. -/
theorem reportWrap_ite (c : Prop) [Decidable c] (s : State) :
    (if c then reportWrap s else s) =
      modPlans s fun m =>
        { m with pending := if c then m.pending.map fun q => { q with wrap := true } else m.pending } := by
  split <;> rfl

/-- The position of a clock value, in natural numbers, for an offset inside the cycle (R149). -/
theorem positionIn_eq (h : r.offset < r.cycle) :
    positionIn r n = (n + 10 * r.cycle - 10 * r.offset) % (10 * r.cycle) := by
  have shifted : ((n : Int) - 10 * r.offset) + 10 * r.cycle = ((n + 10 * r.cycle - 10 * r.offset : Nat) : Int) := by
    omega
  rw [positionIn, ← Int.add_emod_right, shifted]
  exact Int.toNat_natCast _

end

/-- Settles O36: ALL RED by its value and the hold it makes, SET CLOCK by the active plan and the distance moved. -/
theorem allRedAndSetClock : Obligations.AllRedAndSetClock := by
  intro f s
  refine ⟨fun handed => ?_, fun awake beyond => ?_, fun b awake bit => ⟨fun same => ?_, fun changed => ?_⟩,
    fun beyond => ?_, fun within => ?_, fun p r n a b c d value within active plan linked position new cycle distance =>
      ⟨fun far => ?_, fun near => ?_⟩, fun r n => positionIn_eq⟩
  · exact responds_onAnyPorts rfl rfl fun q => allRedOp_refused (s := { s with ports := q }) handed
  · exact responds_onAnyPorts rfl rfl fun q => allRedOp_badValue (s := { s with ports := q }) awake beyond
  · exact responds_onAnyPorts rfl rfl fun q =>
      (allRedOp_sets (s := { s with ports := q }) awake bit).trans (congrArg (done 0) (holdJudged_same same))
  · exact responds_keepingPorts rfl rfl (stays_decision _).ports
      ((allRedOp_sets (s := receive .plan 0x34 f s) awake bit).trans (congrArg (done 0) (holdJudged_changed changed)))
  · exact responds_onAnyPorts rfl rfl fun q => setClockOp_badValue (s := { s with ports := q }) beyond
  · have keeps := stays_setClock (65536 * f.index.toNat + f.value.toNat) (receive .plan 0x35 f s)
    obtain ⟨t, next, answered, state⟩ :=
      responds_keepingPorts (i := .setClock .plan f) rfl rfl keeps.ports (setClockOp_sets rfl within)
    refine ⟨t, next, answered, ?_, ?_, ?_, ?_, ?_, ?_, ?_, ?_, ?_, fun inactive => ?_⟩
    all_goals rw [state]
    · exact keeps.clock
    · exact keeps.units
    · exact keeps.safety
    · exact keeps.stages
    · exact keeps.line
    · exact keeps.engine
    · exact keeps.inputs
    · exact keeps.plans
    · exact keeps.pending
    · rw [setClock_noPlan (s := receive .plan 0x35 f s) inactive]
      rfl
  · subst cycle distance
    refine responds_onAnyPorts rfl rfl fun q => (setClockOp_sets value within).trans (congrArg (done 0) ?_)
    rw [setClock_linked (s := { s with ports := q }) active plan linked position new (clockMoved_far far).symm]
    refine if_neg ?_
    rintro (moved | ⟨due, undue⟩)
    · exact moved rfl
    · exact Bool.false_ne_true (undue.symm.trans due)
  · subst cycle distance
    let x := { receive .plan 0x35 f s with seq := { s.seq with clock := n, position := some b } }
    let w := modPlans x fun m =>
      { m with pending := if b < a then m.pending.map fun q => { q with wrap := true } else m.pending }
    let passed := fun x => decide (1 ≤ (x + 10 * r.cycle - a) % (10 * r.cycle) ∧
      (x + 10 * r.cycle - a) % (10 * r.cycle) ≤ (b + 10 * r.cycle - a) % (10 * r.cycle))
    have moved : passPoints passed w = clockMoved r.cycle a b p x := by
      rw [clockMoved_near near, reportWrap_ite]
    have ports : (passPoints passed w).ports = (receive .plan 0x35 f s).ports := (stays_passPoints passed w).ports
    refine ⟨passPoints passed w, ?_, (forceOffPasses_passPoints passed w).of_same (fun _ => decide_eq_true_iff.symm)
      rfl rfl rfl, ?_⟩
    · obtain ⟨g, o, e⟩ := passPoints_frame passed w
      rw [e]
      rfl
    · refine responds_keepingPorts rfl rfl ?_ ((setClockOp_sets value within).trans (congrArg (done 0)
        (setClock_linked (s := receive .plan 0x35 f s) active plan linked position new moved)))
      split
      · exact (stays_decision _).ports.trans ports
      · exact ports

/-! ### The timing unit (R122, R124, R149) -/

/-- Every timer and count one unit on, before the cycle position (log entry 3). -/
def ticked (s : State) : State :=
  { s with
    seq := tickSequencer s.seq
    service := tickService s.service
    cable := { s.cable with cards := vgen fun c => tickCable s.cable.cards[c] } }

theorem timingUnit_eq (s : State) : timingUnit s = decision (advancePosition (ticked s)) := rfl

theorem tickSequencer_eq (q : Sequencer) :
    tickSequencer q =
      { q with
        clock := (q.clock + 1) % 864000
        units := q.units + 1
        groups := vgen fun g => { q.groups[g] with hold := q.groups[g].hold - 1 }
        calls :=
          if q.phase = .stopped then q.calls else q.calls.map fun c => { c with wait := min 1200 (c.wait + 1) }
        service := q.service.map fun c => { c with units := c.units - 1 }
        minCount := if q.phase = .stage ∧ q.designation = some .step then min 2400 (q.minCount + 1) else q.minCount
        maxCount := if q.phase = .stage ∧ q.designation = some .step then min 2400 (q.maxCount + 1) else q.maxCount } := by
  simp [tickSequencer, Config.dayUnits, Config.callWaitUnits]

/-- Whether the cycle position, recomputed, is lower than it was (R149). -/
def wraps (s : State) : Bool :=
  match s.seq.position, positionNow s with
  | some a, some b => decide (b < a)
  | _, _ => false

theorem wraps_of_lower {s : State} {a b : Nat} (old : s.seq.position = some a) (new : positionNow s = some b)
    (lower : b < a) : wraps s = true := by
  simp [wraps, old, new, lower]

theorem wraps_of_notLower {s : State} (h : ∀ a b, s.seq.position = some a → positionNow s = some b → a ≤ b) :
    wraps s = false := by
  unfold wraps
  split
  case h_1 a b old new => exact decide_eq_false (Nat.not_lt.mpr (h a b old new))
  case h_2 => rfl

/-- The cycle position recomputed, with a wrap reported, before the force-off point it takes (R149). -/
def turned (s : State) : State := if wraps s then reportWrap (positioned s) else positioned s

theorem turned_eq (s : State) :
    turned s =
      modPlans (positioned s) fun m =>
        { m with pending := if wraps s then m.pending.map fun q => { q with wrap := true } else m.pending } :=
  reportWrap_ite _ _

theorem advancePosition_eq (s : State) :
    advancePosition s = passPoints (fun x => positionNow s == some x) (turned s) := by
  cases new : positionNow s with
  | none =>
    have level : wraps s = false := wraps_of_notLower fun a b _ absurd => by rw [new] at absurd; cases absurd
    rw [passPoints_kept (.inr fun _ _ _ _ => Bool.false_ne_true), turned, level]
    simp only [advancePosition, new]
    rw [positioned, new]
    rfl
  | some b =>
    have test : (fun x => x == b) = fun x => some b == some x := funext fun x => by
      rw [Option.some_beq_some, BEq.comm]
    cases old : s.seq.position with
    | none => simp only [advancePosition, turned, wraps, positioned, new, old, test, Bool.false_eq_true, if_false]
    | some a => simp only [advancePosition, turned, wraps, positioned, new, old, test, decide_eq_true_iff]

/-- What an advance of the position changes, with the pending plan's wrap flag told (R117, R149). -/
theorem advancePosition_frame (s : State) :
    ∃ f b, advancePosition s =
      { s with
        plans :=
          { s.plans with
            pending := if wraps s then s.plans.pending.map fun q => { q with wrap := true } else s.plans.pending }
        seq := { s.seq with position := positionNow s, forceOff := f, overrun := b } } := by
  obtain ⟨f, b, e⟩ := passPoints_frame (fun x => positionNow s == some x) (turned s)
  refine ⟨f, b, ?_⟩
  rw [advancePosition_eq, e, turned_eq]
  rfl

theorem forceOffPasses_advancePosition (s : State) :
    ForceOffPasses (fun x => positionNow s = some x) s (advancePosition s) := by
  rw [advancePosition_eq]
  have passes := forceOffPasses_passPoints (fun x => positionNow s == some x) (turned s)
  rw [turned_eq] at passes ⊢
  exact passes.of_same (fun _ => beq_iff_eq.symm) rfl rfl rfl

theorem tickCable_get (s : State) (c : CardId) :
    (ticked s).cable.cards[c] =
      { s.cable.cards[c] with
        retryTimer := s.cable.cards[c].retryTimer.map (· - 1)
        watchTimer := s.cable.cards[c].watchTimer.map (· - 1) } :=
  vgen_get _ c

/-- Settles O37: the ticks field by field, the cycle position by advancePosition, and what the decision leaves. -/
theorem timingUnitCountsDown : Obligations.TimingUnitCountsDown := by
  intro s
  have passes := forceOffPasses_advancePosition (ticked s)
  obtain ⟨f, b, frame⟩ := advancePosition_frame (ticked s)
  have keeps := stays_decision (advancePosition (ticked s))
  refine ⟨_, advancePosition (ticked s), rfl, timingUnit_eq s, ?_⟩
  rw [timingUnit_eq]
  generalize advancePosition (ticked s) = u at passes frame keeps ⊢
  have seq : u.seq = { tickSequencer s.seq with position := positionNow (ticked s), forceOff := f, overrun := b } := by
    rw [frame]; rfl
  have position : u.seq.position = positionNow (ticked s) := by rw [seq]
  have pending : u.plans.pending =
      if wraps (ticked s) then s.plans.pending.map fun q => { q with wrap := true } else s.plans.pending := by
    rw [frame]; rfl
  have cards : u.cable.cards = (ticked s).cable.cards := by rw [frame]
  refine ⟨by rw [frame]; rfl, by rw [frame]; rfl, by rw [frame]; rfl, fun c => by rw [cards, tickCable_get], ?_,
    fun g => by rw [seq]; exact vgen_get _ g, fun inactive => ?_, fun r active => ?_, by rw [frame]; rfl,
    fun a b old new lower => ?_, fun level => ?_, ?_, ?_⟩
  · rw [seq, tickSequencer_eq]
  · rw [position, positionNow, show activePlan (ticked s) = none from inactive]
  · rw [position, positionNow_active (show activePlan (ticked s) = some r from active)]
    rfl
  · rw [pending, if_pos (wraps_of_lower (s := ticked s) old (position ▸ new) lower)]
  · rw [pending, wraps_of_notLower (s := ticked s) fun a b old new => level a b old (position ▸ new)]
    rfl
  · exact passes.of_same (fun x => by rw [position]) rfl rfl rfl
  · refine ⟨keeps.clock.trans (by rw [seq]; rfl), keeps.units.trans (by rw [seq]; rfl),
      keeps.offer.trans (by rw [frame]; rfl), keeps.checkPeriod.trans (by rw [frame]; rfl),
      keeps.flsel.trans (by rw [frame]; rfl), keeps.cards, keeps.ports.trans (by rw [frame]; rfl),
      keeps.safety.trans (by rw [frame]; rfl), keeps.stages.trans (by rw [frame]; rfl),
      keeps.line.trans (by rw [frame]; rfl), keeps.engine.trans (by rw [frame]; rfl),
      keeps.inputs.trans (by rw [frame]; rfl), keeps.plans.trans (by rw [frame]; rfl),
      keeps.feeders.trans (by rw [frame]; rfl), keeps.pending.trans (by rw [frame]; rfl), fun _ stopped _ => ?_⟩
    have idle : u.seq.phase ≠ .stage := by
      rw [seq, show (tickSequencer s.seq).phase = s.seq.phase from rfl, stopped]
      decide
    rw [decision_idle idle]
    refine ⟨by rw [frame]; rfl, ?_, by rw [frame]; rfl⟩
    rw [seq, tickSequencer_eq]
    exact if_pos stopped

end Sys2Proof.Machine
end

section
/-! PROOFS. Chapter 7, the groups of an interstage: a change of aspect, a green ended, a group scheduled, and rows of such
changes seen at one group. -/

namespace Sys2Proof.Machine

/-! ### A change of aspect (R127) -/

/-- A group's fields after a change of its aspect at a unit count (R127). -/
def aspected (units : Nat) (a : Aspect) (r : GroupSeq) : GroupSeq :=
  { r with
    aspect := a
    greenStart := if a = .green ∧ r.aspect ≠ .green then some units else r.greenStart
    lastEnd := if r.aspect = .green ∧ a ≠ .green then some units else r.lastEnd }

theorem setAspect_seq (g : GroupId) (a : Aspect) (s : State) :
    (setAspect g a s).seq = { s.seq with groups := vmod s.seq.groups g (aspected s.seq.units a) } := by
  refine congrArg (fun v => { s.seq with groups := v }) (vmod_congr ?_)
  simp [aspected]

theorem setAspect_output (g : GroupId) (a : Aspect) (s : State) (o : OutputId) :
    (setAspect g a s).proving.outputs[o] =
      if (outRec s o).group = g then { s.proving.outputs[o] with commanded := commandOf (setAspect g a s) o }
      else s.proving.outputs[o] := by
  show (vgen _)[o] = _
  rw [vgen_get]
  exact if_congr beq_iff_eq rfl rfl

theorem setAspect_groupProof (g : GroupId) (a : Aspect) (s : State) (k : GroupId) :
    (setAspect g a s).proving.groups[k] =
      if g = k then { s.proving.groups[k] with exposed := exposedNow (setAspect g a s) k }
      else s.proving.groups[k] := by
  have shown := setAspect_exposed g a s k
  have red := (stays_setAspect g a s).reds k
  show GroupProof.mk (setAspect g a s).proving.groups[k].red (setAspect g a s).proving.groups[k].exposed = _
  rw [shown, red]
  split <;> rfl

/-! ### Changes of groups alone -/

/-- A change of the aspects and times of groups, and of what R66 and R79 make of them. -/
structure GroupsMoved (s t : State) : Prop extends Stays s t where
  seq : t.seq = { s.seq with groups := t.seq.groups }
  memory : t.plans = s.plans

/-- A change of groups other than g. -/
structure OthersMoved (g : GroupId) (s t : State) : Prop extends GroupsMoved s t where
  group : t.seq.groups[g] = s.seq.groups[g]

theorem GroupsMoved.refl (s : State) : GroupsMoved s s := ⟨.refl s, rfl, rfl⟩

theorem GroupsMoved.trans {s t u : State} (a : GroupsMoved s t) (b : GroupsMoved t u) : GroupsMoved s u :=
  ⟨a.toStays.trans b.toStays, by rw [b.seq, a.seq], b.memory.trans a.memory⟩

theorem OthersMoved.refl (g : GroupId) (s : State) : OthersMoved g s s := ⟨.refl s, rfl⟩

theorem OthersMoved.trans {g : GroupId} {s t u : State} (a : OthersMoved g s t) (b : OthersMoved g t u) :
    OthersMoved g s u :=
  ⟨a.toGroupsMoved.trans b.toGroupsMoved, b.group.trans a.group⟩

theorem GroupsMoved.groupRec {s t : State} (h : GroupsMoved s t) (g : GroupId) : groupRec t g = groupRec s g := by
  rw [Machine.groupRec, Machine.groupRec, activeTable_congr (congrArg SafetyUnit.active h.safety)]

theorem GroupsMoved.conflict {s t : State} (h : GroupsMoved s t) (l g : GroupId) : conflict t l g = conflict s l g :=
  conflict_congr (congrArg SafetyUnit.active h.safety) l g

/-- Which groups face a RED_LOSS reads the active table and the red statuses (R145). -/
theorem GroupsMoved.facesLoss {s t : State} (h : GroupsMoved s t) (g : GroupId) : facesLoss t g = facesLoss s g := by
  simp only [Machine.facesLoss, h.conflict, h.reds]

theorem groupsMoved_modGroup (s : State) (g : GroupId) (f : GroupSeq → GroupSeq) : GroupsMoved s (modGroup s g f) :=
  ⟨stays_modGroup s g f, rfl, rfl⟩

theorem groupsMoved_setAspect (g : GroupId) (a : Aspect) (s : State) : GroupsMoved s (setAspect g a s) :=
  ⟨stays_setAspect g a s, by rw [setAspect_seq], setAspect_plans g a s⟩

theorem modGroup_group (s : State) (g k : GroupId) (f : GroupSeq → GroupSeq) :
    (modGroup s g f).seq.groups[k] = if g = k then f s.seq.groups[k] else s.seq.groups[k] :=
  vmod_get _ _ _ _

theorem setAspect_group (g k : GroupId) (a : Aspect) (s : State) :
    (setAspect g a s).seq.groups[k] =
      if g = k then aspected s.seq.units a s.seq.groups[k] else s.seq.groups[k] := by
  rw [setAspect_seq]
  exact vmod_get _ _ _ _

/-- A group taken to an aspect, with its times changed by f. -/
def takeAspect (g : GroupId) (a : Aspect) (f : GroupSeq → GroupSeq) (s : State) : State := modGroup (setAspect g a s) g f

theorem groupsMoved_takeAspect (g : GroupId) (a : Aspect) (f : GroupSeq → GroupSeq) (s : State) :
    GroupsMoved s (takeAspect g a f s) :=
  (groupsMoved_setAspect g a s).trans (groupsMoved_modGroup _ g f)

theorem takeAspect_own (g : GroupId) (a : Aspect) (f : GroupSeq → GroupSeq) (s : State) :
    (takeAspect g a f s).seq.groups[g] = f (aspected s.seq.units a s.seq.groups[g]) := by
  rw [takeAspect, modGroup_group, if_pos rfl, setAspect_group, if_pos rfl]

theorem othersMoved_takeAspect {g k : GroupId} (ne : k ≠ g) (a : Aspect) (f : GroupSeq → GroupSeq) (s : State) :
    OthersMoved g s (takeAspect k a f s) :=
  ⟨groupsMoved_takeAspect k a f s, by rw [takeAspect, modGroup_group, if_neg ne, setAspect_group, if_neg ne]⟩

/-- A row of changes, one for each group, seen at one group: the others come before and after its own. -/
theorem eachOf_group {g : GroupId} {op : GroupId → State → State} (miss : ∀ k t, k ≠ g → OthersMoved g t (op k t))
    (s : State) : ∃ t, OthersMoved g s t ∧ OthersMoved g (op g t) (eachOf all16 op s) :=
  eachOf_once (OthersMoved.refl g) OthersMoved.trans miss (List.nodup_finRange 16) (all16_mem g) s

theorem groupsMoved_eachOf {op : GroupId → State → State} (h : ∀ k t, GroupsMoved t (op k t)) (s : State) :
    GroupsMoved s (eachOf all16 op s) :=
  eachOf_rel GroupsMoved.refl GroupsMoved.trans (fun k _ t => h k t) s

/-! ### A green ended (R129) -/

/-- The aspect that ends a group's green, and the unit at which its ending period ends (R129). -/
def greenEnd (r : GroupRec) (units : Nat) : Aspect × Option Nat :=
  match r.kind with
  | .vehicle => (.amber, some (units + r.amber))
  | .crossing => if r.blackout = 0 then (.red, none) else (.blackout, some (units + r.blackout))

theorem endGreen_eq (g : GroupId) (s : State) :
    endGreen g s =
      takeAspect g (greenEnd (groupRec s g) s.seq.units).1
        (fun q => { q with endAt := (greenEnd (groupRec s g) s.seq.units).2 }) s := by
  cases kind : (groupRec s g).kind with
  | vehicle =>
    simp only [endGreen, greenEnd, endingPeriod, kind]
    rfl
  | crossing =>
    simp only [endGreen, greenEnd, endingPeriod, kind]
    split <;> rfl

theorem groupsMoved_endGreen (g : GroupId) (s : State) : GroupsMoved s (endGreen g s) := by
  rw [endGreen_eq]
  exact groupsMoved_takeAspect _ _ _ s

theorem othersMoved_endGreen {g k : GroupId} (ne : k ≠ g) (s : State) : OthersMoved g s (endGreen k s) := by
  rw [endGreen_eq]
  exact othersMoved_takeAspect ne _ _ s

theorem greenEnd_notGreen (r : GroupRec) (units : Nat) : (greenEnd r units).1 ≠ .green := by
  unfold greenEnd
  split
  · exact nofun
  · split <;> exact nofun

theorem endsGreen_endGreen (g : GroupId) (s : State) : EndsGreen s (endGreen g s) g := by
  have own : (endGreen g s).seq.groups[g] =
      { aspected s.seq.units (greenEnd (groupRec s g) s.seq.units).1 s.seq.groups[g] with
        endAt := (greenEnd (groupRec s g) s.seq.units).2 } := by
    rw [endGreen_eq, takeAspect_own]
  refine ⟨fun vehicle => ?_, fun crossing => ⟨fun zero => ?_, fun lasting => ?_⟩, fun green => ?_⟩
  · rw [own, greenEnd, vehicle]
    exact ⟨rfl, rfl⟩
  · rw [own, greenEnd, crossing]
    dsimp only
    rw [if_pos zero]
    exact ⟨rfl, rfl⟩
  · rw [own, greenEnd, crossing]
    dsimp only
    rw [if_neg (Nat.ne_of_gt lasting)]
    exact ⟨rfl, rfl⟩
  · rw [own]
    exact if_pos ⟨green, greenEnd_notGreen _ _⟩

/-- A green that ends between states with the same group before and after. -/
theorem EndsGreen.of_same {g : GroupId} {s t v u : State} (h : EndsGreen t v g) (before : OthersMoved g s t)
    (after : u.seq.groups[g] = v.seq.groups[g]) : EndsGreen s u g := by
  obtain ⟨vehicle, crossing, lastEnd⟩ := h
  rw [before.groupRec, before.units] at vehicle crossing
  rw [before.group, before.units] at lastEnd
  rw [← after] at vehicle crossing lastEnd
  exact ⟨vehicle, crossing, lastEnd⟩

/-! ### A group scheduled (R130) -/

/-- What remains of the intergreen from a conflicting group's last green end; 0 where there is none (R130). -/
def intergreenLeft (s : State) (g l : GroupId) : Nat :=
  if conflict s l g then
    match s.seq.groups[l].lastEnd with
    | some e => e + (activeTable s).intergreens[l][g] - s.seq.units
    | none => 0
  else 0

theorem delayOf_eq (s : State) (g : GroupId) :
    delayOf s g = all16.foldl (fun d l => max d (intergreenLeft s g l)) (redAmberTimeOf (groupRec s g)) := by
  unfold delayOf
  congr 1
  funext d l
  unfold intergreenLeft
  split
  · cases s.seq.groups[l].lastEnd with
    | none => exact (Nat.max_zero d).symm
    | some e => rfl
  · exact (Nat.max_zero d).symm

/-- The largest of a start and the terms of a row bounds each of them and is one of them. -/
theorem foldl_max_spec {α : Type} (f : α → Nat) (xs : List α) (d : Nat) :
    d ≤ xs.foldl (fun d x => max d (f x)) d ∧ (∀ x ∈ xs, f x ≤ xs.foldl (fun d x => max d (f x)) d) ∧
      (xs.foldl (fun d x => max d (f x)) d = d ∨ ∃ x ∈ xs, xs.foldl (fun d x => max d (f x)) d = f x) := by
  induction xs generalizing d with
  | nil => exact ⟨Nat.le_refl d, nofun, .inl rfl⟩
  | cons x xs ih =>
    obtain ⟨start, terms, reached⟩ := ih (max d (f x))
    refine ⟨(Nat.le_max_left _ _).trans start,
      List.forall_mem_cons.mpr ⟨(Nat.le_max_right _ _).trans start, terms⟩, ?_⟩
    rcases reached with e | ⟨y, mem, e⟩
    · rcases Nat.le_total (f x) d with low | high
      · exact .inl (e.trans (Nat.max_eq_left low))
      · exact .inr ⟨x, List.mem_cons_self, e.trans (Nat.max_eq_right high)⟩
    · exact .inr ⟨y, List.mem_cons_of_mem _ mem, e⟩

theorem intergreenLeft_of_end {s : State} {g l : GroupId} {e : Nat} (c : conflict s l g = true)
    (ended : s.seq.groups[l].lastEnd = some e) :
    intergreenLeft s g l = e + (activeTable s).intergreens[l][g] - s.seq.units := by
  rw [intergreenLeft, if_pos c, ended]

theorem end_of_intergreenLeft {s : State} {g l : GroupId} (left : 0 < intergreenLeft s g l) :
    ∃ e, conflict s l g = true ∧ s.seq.groups[l].lastEnd = some e ∧
      e + (activeTable s).intergreens[l][g] = s.seq.units + intergreenLeft s g l := by
  have c : conflict s l g = true := by
    by_contra apart
    rw [intergreenLeft, if_neg apart] at left
    exact absurd left (Nat.lt_irrefl 0)
  cases ended : s.seq.groups[l].lastEnd with
  | none =>
    rw [intergreenLeft, if_pos c, ended] at left
    exact absurd left (Nat.lt_irrefl 0)
  | some e =>
    rw [intergreenLeft_of_end c ended] at left ⊢
    exact ⟨e, c, rfl, by omega⟩

/-- A group's fields once scheduled with a delay (R130). -/
def scheduledGroup (s : State) (g : GroupId) (delay : Nat) (r : GroupSeq) : GroupSeq :=
  { r with
    redAmberAt :=
      if redAmberTimeOf (groupRec s g) = 0 then none
      else some (s.seq.units + delay - redAmberTimeOf (groupRec s g))
    greenAt := some (s.seq.units + delay)
    deadline := some (s.seq.units + delay + 20) }

theorem schedule_eq (g : GroupId) (s : State) :
    schedule g s = modGroup s g (scheduledGroup s g (delayOf s g)) := rfl

/-- A scheduling changes groups other than g, and no last green end. -/
structure SchedulesOthers (g : GroupId) (s t : State) : Prop extends OthersMoved g s t where
  lastEnds : ∀ l : GroupId, t.seq.groups[l].lastEnd = s.seq.groups[l].lastEnd

theorem SchedulesOthers.refl (g : GroupId) (s : State) : SchedulesOthers g s s := ⟨.refl g s, fun _ => rfl⟩

theorem SchedulesOthers.trans {g : GroupId} {s t u : State} (a : SchedulesOthers g s t) (b : SchedulesOthers g t u) :
    SchedulesOthers g s u :=
  ⟨a.toOthersMoved.trans b.toOthersMoved, fun l => (b.lastEnds l).trans (a.lastEnds l)⟩

theorem schedule_lastEnd (g l : GroupId) (s : State) :
    (schedule g s).seq.groups[l].lastEnd = s.seq.groups[l].lastEnd := by
  rw [schedule_eq, modGroup_group]
  split <;> rfl

theorem schedulesOthers_schedule {g k : GroupId} (ne : k ≠ g) (s : State) : SchedulesOthers g s (schedule k s) :=
  ⟨⟨groupsMoved_modGroup s k _, by rw [schedule_eq, modGroup_group, if_neg ne]⟩, fun l => schedule_lastEnd k l s⟩

theorem scheduled_schedule (g : GroupId) (s : State) : Scheduled s (schedule g s) g := by
  obtain ⟨start, terms, reached⟩ := foldl_max_spec (intergreenLeft s g) all16 (redAmberTimeOf (groupRec s g))
  rw [← delayOf_eq] at start terms reached
  refine ⟨delayOf s g, ?_, start, fun l e c ended => ?_, ?_⟩
  · rw [schedule_eq, modGroup_group, if_pos rfl]
    rfl
  · rw [schedule_lastEnd] at ended
    have term := terms l (all16_mem l)
    rw [intergreenLeft_of_end c ended] at term
    omega
  · by_cases least : delayOf s g = redAmberTimeOf (groupRec s g)
    · exact .inl least
    · obtain ⟨l, -, term⟩ := reached.resolve_left least
      obtain ⟨e, c, ended, sum⟩ := end_of_intergreenLeft (s := s) (g := g) (l := l) (by omega)
      exact .inr ⟨l, e, c, (schedule_lastEnd g l s).trans ended, term ▸ sum⟩

/-- A group scheduled between states with the same group and last green ends before and after. -/
theorem Scheduled.of_same {g : GroupId} {s t v u : State} (h : Scheduled t v g) (before : OthersMoved g s t)
    (after : u.seq.groups[g] = v.seq.groups[g])
    (lastEnds : ∀ l : GroupId, u.seq.groups[l].lastEnd = v.seq.groups[l].lastEnd) : Scheduled s u g := by
  unfold Scheduled at h ⊢
  simp only [before.groupRec, before.group, before.conflict, before.units, ← after, ← lastEnds,
    activeTable_congr (congrArg SafetyUnit.active before.safety)] at h
  exact h

end Sys2Proof.Machine
end

section
/-! PROOFS. Chapter 7, the times of an interstage, its completion, and the effect of a change of red status. -/

namespace Sys2Proof.Machine

/-! ### Times that have come (R129 to R131) -/

theorem reached_of_le {t : Option Nat} {n units : Nat} (time : t = some n) (h : n ≤ units) : reached t units = true := by
  subst time
  exact decide_eq_true h

theorem not_reached {t : Option Nat} {units : Nat} (early : ∀ n, t = some n → units < n) : ¬reached t units = true := by
  cases t with
  | none => exact Bool.false_ne_true
  | some n => exact fun come => Nat.not_lt.mpr (of_decide_eq_true come) (early n rfl)

theorem conflictsDark_iff {s : State} {g : GroupId} :
    conflictsDark s g = true ↔ ∀ l : GroupId, conflict s l g = true → s.proving.groups[l].exposed = false := by
  rw [conflictsDark, all16_all]
  refine forall_congr' fun l => ?_
  rw [Bool.not_eq_true', and_false_of_left]

theorem not_conflictsDark {s : State} {g : GroupId}
    (lit : ∃ l : GroupId, conflict s l g = true ∧ s.proving.groups[l].exposed = true) : ¬conflictsDark s g = true := by
  obtain ⟨l, c, exposed⟩ := lit
  exact fun dark => Bool.false_ne_true ((conflictsDark_iff.mp dark l c).symm.trans exposed)

theorem tryGreen_green {s : State} {g : GroupId} {n : Nat} (time : s.seq.groups[g].greenAt = some n)
    (come : n ≤ s.seq.units)
    (dark : ∀ l : GroupId, conflict s l g = true → s.proving.groups[l].exposed = false) :
    tryGreen g s =
      conflictCheck
        (takeAspect g .green (fun r => { r with redAmberAt := none, greenAt := none, deadline := none }) s) :=
  if_pos ((Bool.and_eq_true _ _).mpr ⟨reached_of_le time come, conflictsDark_iff.mpr dark⟩)

theorem tryGreen_waits {s : State} {g : GroupId}
    (lit : ∃ l : GroupId, conflict s l g = true ∧ s.proving.groups[l].exposed = true) : tryGreen g s = s :=
  if_neg fun both => not_conflictsDark lit ((Bool.and_eq_true _ _).mp both).2

/-! ### A call taken into service and a step begun (R132, R138, R143) -/

theorem callIntoService_frame (g : StageId) (s : State) :
    ∃ calls service, callIntoService g s = modSeq s fun q => { q with calls := calls, service := service } := by
  unfold callIntoService
  split <;> exact ⟨_, _, rfl⟩

theorem callTaken_callIntoService {s v : State} (g : StageId) (calls : v.seq.calls = s.seq.calls) :
    CallTaken s g v.seq.service (callIntoService g v).seq where
  listed c before after row first named := by
    have found : v.seq.calls.find? (·.stage == g) = some c :=
      List.find?_eq_some_iff_append.mpr
        ⟨by simpa using named, before, after, calls.trans row, fun d mem => by simpa using first d mem⟩
    rw [callIntoService, found, ← calls]
    exact ⟨rfl, rfl⟩
  unlisted absent := by
    have missing : v.seq.calls.find? (·.stage == g) = none :=
      List.find?_eq_none.mpr fun d mem => by simpa using absent d (calls ▸ mem)
    rw [callIntoService, missing]
    exact ⟨calls, rfl⟩

section
variable {p : Plan} {r : Step} {position : Option Nat} {units : Nat}

theorem forceOffAtStart_plain (h : p.mode = .isolated ∨ r.forceOff = none) :
    forceOffAtStart p r position units = (.none, false) := by
  unfold forceOffAtStart
  split
  case h_1 f linked point =>
    rcases h with isolated | pointless
    · exact nomatch linked.symm.trans isolated
    · exact nomatch point.symm.trans pointless
  case h_2 => rfl

theorem forceOffAtStart_waiting {f : Nat} (linked : p.mode = .linked) (point : r.forceOff = some f)
    (away : position ≠ some (10 * f)) : forceOffAtStart p r position units = (.waiting, false) := by
  simp only [forceOffAtStart, linked, point]
  exact if_neg (by simpa using away)

theorem forceOffAtStart_reached {f : Nat} (linked : p.mode = .linked) (point : r.forceOff = some f)
    (there : position = some (10 * f)) : forceOffAtStart p r position units = (.reached units, true) := by
  simp only [forceOffAtStart, linked, point]
  exact if_pos (by simpa using there)

end

/-- The sequencer at a step that starts running for its stage, but for its call (R132, R133, R138, R139). -/
def stepBegun (p : Plan) (n : StepNo) (g : StageId) (q : Sequencer) : Sequencer :=
  { q with
    designation := some .step, stepIndex := some n, resume := none, minCount := 0, maxCount := 0
    forceOff := (forceOffAtStart p p.steps[n] q.position q.units).1
    overrun := (forceOffAtStart p p.steps[n] q.position q.units).2
    latches := setDrop q.latches g }

theorem startStep_active {s : State} {p : Plan} (n : StepNo) (g : StageId) (h : activePlan s = some p) :
    (modSeq (startStep n s) fun q => { q with latches := setDrop q.latches g }) = modSeq s (stepBegun p n g) := by
  rw [startStep, h]
  rfl

theorem startStep_inactive {s : State} (n : StepNo) (h : activePlan s = none) : startStep n s = s := by
  rw [startStep, h]

theorem stepBegins_stepBegun {s v : State} {p : Plan} {n : StepNo} {g : StageId} {q : Sequencer}
    (state : v.seq = stepBegun p n g q) (latches : q.latches = s.seq.latches) (units : q.units = s.seq.units) :
    StepBegins s p n g (callIntoService g v).seq := by
  obtain ⟨calls, service, e⟩ := callIntoService_frame g v
  rw [e, modSeq_seq, state]
  refine ⟨⟨rfl, rfl, rfl, rfl, rfl⟩, fun h => ?_, fun plain => ?_, fun f linked point away => ?_,
    fun f linked point there => ?_⟩
  · exact (has_setDrop _ _ _).trans ((Bool.and_comm _ _).trans (by rw [latches]))
  · exact Prod.mk.inj (forceOffAtStart_plain (units := q.units) plain)
  · exact Prod.mk.inj (forceOffAtStart_waiting (units := q.units) linked point away)
  · obtain ⟨forceOff, overrun⟩ := Prod.mk.inj (forceOffAtStart_reached (units := q.units) linked point there)
    exact ⟨forceOff.trans (congrArg _ units), overrun⟩

/-! ### Completion (R132, R147) -/

/-- Phase STAGE entered with the target's set (R132). -/
def arrived (t : Target) (s : State) : State :=
  modSeq s fun q => { q with phase := .stage, current := targetSet s t, target := none }

theorem complete_step {s : State} {p : Plan} (n : StepNo) (g : StageId) (h : activePlan s = some p) :
    complete (.step n g) s = callIntoService g (modSeq (arrived (.step n g) s) (stepBegun p n g)) :=
  congrArg (callIntoService g) (startStep_active (s := arrived (.step n g) s) n g h)

theorem complete_stepless {s : State} (n : StepNo) (g : StageId) (h : activePlan s = none) :
    complete (.step n g) s =
      callIntoService g (modSeq (arrived (.step n g) s) fun q => { q with latches := setDrop q.latches g }) := by
  have kept : startStep n (arrived (.step n g) s) = arrived (.step n g) s := startStep_inactive n h
  exact congrArg (fun v => callIntoService g (modSeq v fun q => { q with latches := setDrop q.latches g })) kept

theorem complete_call (g : StageId) (s : State) :
    complete (.call g) s =
      callIntoService g
        (modSeq (arrived (.call g) s) fun q =>
          { q with
            designation := some .call
            service := some { stage := g, units := 0 }
            latches := setDrop q.latches g }) := rfl

/-- A completion changes of the sequencer only what starts to run. -/
theorem complete_frame (t : Target) (s : State) :
    complete t s =
      { s with
        seq :=
          { (complete t s).seq with
            phase := .stage, current := targetSet s t, target := none, groups := s.seq.groups, allRed := s.seq.allRed
            bars := s.seq.bars, clock := s.seq.clock, units := s.seq.units, position := s.seq.position } } := by
  cases t with
  | s0 => rfl
  | call g =>
    obtain ⟨calls, service, e⟩ := callIntoService_frame g (modSeq (arrived (.call g) s) fun q =>
      { q with designation := some .call, service := some { stage := g, units := 0 }, latches := setDrop q.latches g })
    rw [complete_call, e]
    rfl
  | step n g =>
    cases active : activePlan s with
    | none =>
      obtain ⟨calls, service, e⟩ := callIntoService_frame g
        (modSeq (arrived (.step n g) s) fun q => { q with latches := setDrop q.latches g })
      rw [complete_stepless n g active, e]
      rfl
    | some p =>
      obtain ⟨calls, service, e⟩ := callIntoService_frame g (modSeq (arrived (.step n g) s) (stepBegun p n g))
      rw [complete_step n g active, e]
      rfl

theorem completes_complete (t : Target) (s : State) : Completes s t (complete t s) where
  rest := complete_frame t s
  s0 := by
    rintro rfl
    rfl
  call := by
    rintro g rfl
    have taken := callTaken_callIntoService (s := s) (v := modSeq (arrived (.call g) s) fun q =>
      { q with designation := some .call, service := some { stage := g, units := 0 }, latches := setDrop q.latches g })
      g rfl
    rw [← complete_call] at taken
    refine ⟨?_, fun h => ?_, taken⟩
    all_goals
      obtain ⟨calls, service, e⟩ := callIntoService_frame g (modSeq (arrived (.call g) s) fun q =>
        { q with designation := some .call, service := some { stage := g, units := 0 }, latches := setDrop q.latches g })
      rw [complete_call, e]
    · rfl
    · exact (has_setDrop _ _ _).trans (Bool.and_comm _ _)
  step := by
    rintro n g p rfl active
    rw [complete_step n g active]
    exact ⟨stepBegins_stepBegun rfl rfl rfl,
      callTaken_callIntoService (v := modSeq (arrived (.step n g) s) (stepBegun p n g)) g rfl⟩

theorem completeResidual_current (s : State) (g : GroupId) :
    has (completeResidual s).seq.current g = (s.seq.groups[g].aspect == .green) := by
  rw [completeResidual, modSeq_seq, has_setOf]

theorem decisionDue_iff (a b : Sequencer) :
    decisionDue a b = true ↔
      ¬(b.latches = a.latches ∧ b.calls = a.calls ∧ b.service = a.service ∧ b.forceOff = a.forceOff) := by
  simp only [decisionDue, Bool.or_eq_true, bne_iff_ne, ne_comm (a := a.latches), ne_comm (a := a.calls),
    ne_comm (a := a.service), ne_comm (a := a.forceOff), ne_eq, ← not_and_or, and_assoc]

theorem allSettled_iff {q : Sequencer} :
    allSettled q = true ↔ ∀ g : GroupId, q.groups[g].greenAt = none ∧ q.groups[g].endAt = none := by
  simp only [allSettled, all16_all, Bool.and_eq_true, Option.isNone_iff_eq_none]

theorem noneEnding_iff {q : Sequencer} : noneEnding q = true ↔ ∀ g : GroupId, q.groups[g].endAt = none := by
  simp only [noneEnding, all16_all, Option.isNone_iff_eq_none]

section
variable {decide : State → State} {s : State}

theorem settle_idle (h : s.seq.phase ≠ .interstage) : settle decide s = s := if_neg fun e => h (beq_iff_eq.mp e)

variable (phase : s.seq.phase = .interstage)
include phase

theorem settle_target {t : Target} (target : s.seq.target = some t) :
    settle decide s =
      if allSettled s.seq then
        if decisionDue s.seq (complete t s).seq then decide (complete t s) else complete t s
      else s := by
  simp only [settle, phase, target, beq_self_eq_true, if_true]

theorem settle_withdrawn (target : s.seq.target = none) :
    settle decide s = if noneEnding s.seq then decide (completeResidual s) else s := by
  simp only [settle, phase, target, beq_self_eq_true, if_true]

end

/-! ### Bars (R145 to R147) -/

/-- A group's green ended where it faces a RED_LOSS (R145). -/
def endFacingGroup (g : GroupId) (s : State) : State :=
  if s.seq.groups[g].aspect == .green && facesLoss s g then endGreen g s else s

theorem endFacing_eq (s : State) : endFacing s = eachOf all16 endFacingGroup s := rfl

theorem groupsMoved_endFacing (s : State) : GroupsMoved s (endFacing s) :=
  groupsMoved_eachOf (op := endFacingGroup) (fun k t => by
    unfold endFacingGroup
    split
    · exact groupsMoved_endGreen k t
    · exact .refl t) s

theorem othersMoved_endFacingGroup {g k : GroupId} (ne : k ≠ g) (s : State) : OthersMoved g s (endFacingGroup k s) := by
  unfold endFacingGroup
  split
  · exact othersMoved_endGreen ne s
  · exact .refl g s

section
variable {s : State} {g : GroupId}

theorem endFacing_ends (green : s.seq.groups[g].aspect = .green) (faces : facesLoss s g = true) :
    EndsGreen s (endFacing s) g := by
  obtain ⟨t, before, after⟩ := eachOf_group (g := g) (fun k t ne => othersMoved_endFacingGroup ne t) s
  have own : endFacingGroup g t = endGreen g t := if_pos (by rw [before.group, before.facesLoss, green, faces]; rfl)
  rw [own, ← endFacing_eq] at after
  exact (endsGreen_endGreen g t).of_same before after.group

theorem endFacing_keeps (h : s.seq.groups[g].aspect ≠ .green ∨ facesLoss s g = false) :
    (endFacing s).seq.groups[g] = s.seq.groups[g] := by
  obtain ⟨t, before, after⟩ := eachOf_group (g := g) (fun k t ne => othersMoved_endFacingGroup ne t) s
  have own : endFacingGroup g t = t := by
    refine if_neg fun both => ?_
    rw [before.group, before.facesLoss, Bool.and_eq_true, beq_iff_eq] at both
    exact h.elim (fun other => other both.1) fun safe => Bool.false_ne_true (safe.symm.trans both.2)
  rw [own, ← endFacing_eq] at after
  exact (before.trans after).group

/-- Every gaining group withdrawn before its green (R147). -/
def withdrawGroups (s : State) : State := eachOf all16 withdrawGroup s

/-- A group's fields once withdrawn (R147). -/
def withdrawnGroup (r : GroupSeq) : GroupSeq := { r with redAmberAt := none, greenAt := none, deadline := none }

theorem withdrawGroup_waiting (h : s.seq.groups[g].greenAt ≠ none) :
    withdrawGroup g s = takeAspect g .red withdrawnGroup s :=
  if_pos (Option.isSome_iff_ne_none.mpr h)

theorem withdrawGroup_other (h : s.seq.groups[g].greenAt = none) : withdrawGroup g s = s :=
  if_neg (by rw [h]; exact Bool.false_ne_true)

theorem othersMoved_withdrawGroup {k : GroupId} (ne : k ≠ g) (s : State) : OthersMoved g s (withdrawGroup k s) := by
  by_cases h : s.seq.groups[k].greenAt = none
  · rw [withdrawGroup_other h]
    exact .refl g s
  · rw [withdrawGroup_waiting h]
    exact othersMoved_takeAspect ne _ _ s

theorem groupsMoved_withdrawGroups (s : State) : GroupsMoved s (withdrawGroups s) :=
  groupsMoved_eachOf (fun k t => by
    by_cases h : t.seq.groups[k].greenAt = none
    · rw [withdrawGroup_other h]
      exact .refl t
    · rw [withdrawGroup_waiting h]
      exact groupsMoved_takeAspect _ _ _ t) s

theorem withdrawGroups_waiting (h : s.seq.groups[g].greenAt ≠ none) :
    (withdrawGroups s).seq.groups[g] = withdrawnGroup (aspected s.seq.units .red s.seq.groups[g]) := by
  obtain ⟨t, before, after⟩ := eachOf_group (g := g) (fun k t ne => othersMoved_withdrawGroup ne t) s
  rw [withdrawGroup_waiting (before.group ▸ h)] at after
  rw [withdrawGroups, after.group, takeAspect_own, before.group, before.units]

theorem othersMoved_withdrawGroups (h : s.seq.groups[g].greenAt = none) : OthersMoved g s (withdrawGroups s) := by
  obtain ⟨t, before, after⟩ := eachOf_group (g := g) (fun k t ne => othersMoved_withdrawGroup ne t) s
  rw [withdrawGroup_other (before.group ▸ h)] at after
  exact before.trans after

end

/-- An interstage's groups once withdrawn, before its target is (R147). -/
def fallenBack (s : State) : State := endFacing (withdrawGroups s)

theorem withdraw_eq (t : Target) (s : State) :
    withdraw t s = modSeq (resumeAfterBar t (fallenBack s)) fun q => { q with target := none } := rfl

theorem groupsMoved_fallenBack (s : State) : GroupsMoved s (fallenBack s) :=
  (groupsMoved_withdrawGroups s).trans (groupsMoved_endFacing _)

theorem resumeAfterBar_frame (t : Target) (s : State) :
    ∃ r, resumeAfterBar t s = modSeq s fun q => { q with resume := r } := by
  unfold resumeAfterBar
  split <;> exact ⟨_, rfl⟩

theorem modSeq_modSeq (s : State) (f h : Sequencer → Sequencer) : modSeq (modSeq s f) h = modSeq s fun q => h (f q) :=
  rfl

/-- A withdrawn interstage has its groups fallen back, and no target (R147). -/
theorem withdraw_frame (t : Target) (s : State) :
    ∃ r, withdraw t s = modSeq (fallenBack s) fun q => { q with resume := r, target := none } := by
  obtain ⟨r, e⟩ := resumeAfterBar_frame t (fallenBack s)
  exact ⟨r, by rw [withdraw_eq, e, modSeq_modSeq]⟩

theorem withdraw_groups (t : Target) (s : State) :
    (withdraw t s).seq.groups = (endFacing (withdrawGroups s)).seq.groups := by
  obtain ⟨r, e⟩ := withdraw_frame t s
  rw [e, modSeq_seq, fallenBack]

/-- The step after n, counted from 0 (R134). -/
theorem stepAfter_eq {p : Plan} {n m : StepNo} (steps : 1 ≤ p.stepCount) (h : m.val = (n.val + 1) % p.stepCount) :
    stepAfter p n = m := by
  refine Fin.ext ?_
  show (n.val + 1) % max 1 p.stepCount % 32 = m.val
  rw [Nat.max_eq_right steps, ← h]
  exact Nat.mod_eq_of_lt m.isLt

theorem withdraw_resume {s : State} {n m : StepNo} {g : StageId} {p : Plan} (active : activePlan s = some p)
    (steps : 1 ≤ p.stepCount) (next : m.val = (n.val + 1) % p.stepCount) :
    (withdraw (.step n g) s).seq.resume = some (s.seq.resume.getD m) := by
  have moved := groupsMoved_fallenBack s
  have held : activePlan (fallenBack s) = some p := by rw [activePlan, moved.memory]; exact active
  have resume : (fallenBack s).seq.resume = s.seq.resume := by rw [moved.seq]
  simp only [withdraw_eq, resumeAfterBar, held, modSeq_seq, stepAfter_eq steps next, resume]
  cases s.seq.resume <;> rfl

theorem withdraw_waiting {s : State} {g : GroupId} (t : Target) (h : s.seq.groups[g].greenAt ≠ none) :
    (withdraw t s).seq.groups[g] = withdrawnGroup (aspected s.seq.units .red s.seq.groups[g]) := by
  rw [withdraw_groups]
  refine (endFacing_keeps (.inl ?_)).trans (withdrawGroups_waiting h)
  rw [withdrawGroups_waiting h]
  exact nofun

theorem withdraw_ends {s : State} {g : GroupId} (t : Target) (h : s.seq.groups[g].greenAt = none)
    (green : s.seq.groups[g].aspect = .green) (faces : facesLoss s g = true) : EndsGreen s (withdraw t s) g := by
  have before := othersMoved_withdrawGroups h
  have ends : EndsGreen (withdrawGroups s) (endFacing (withdrawGroups s)) g :=
    endFacing_ends (by rw [before.group, green]) (by rw [before.facesLoss, faces])
  exact ends.of_same before (by rw [withdraw_groups])

theorem withdraw_keeps {s : State} {g : GroupId} (t : Target) (h : s.seq.groups[g].greenAt = none)
    (idle : s.seq.groups[g].aspect ≠ .green ∨ facesLoss s g = false) :
    (withdraw t s).seq.groups[g] = s.seq.groups[g] := by
  have before := othersMoved_withdrawGroups h
  rw [withdraw_groups]
  refine (endFacing_keeps ?_).trans before.group
  rw [before.group, before.facesLoss]
  exact idle

theorem targetBarred_iff {s : State} {t : Target} :
    targetBarred s t = true ↔ ∃ n, targetStage t = some n ∧ has s.seq.bars n = true := by
  unfold targetBarred
  cases targetStage t <;> simp

section
variable {s : State}

theorem redStatusChanged_idle (h : s.seq.phase = .stopped ∨ s.seq.phase = .startRed) :
    redStatusChanged s = recomputeBars s := by
  rw [redStatusChanged_eq, afterBars]
  rcases h with e | e <;> rw [show (recomputeBars s).seq.phase = _ from e]

theorem redStatusChanged_stage (h : s.seq.phase = .stage) :
    redStatusChanged s =
      if (recomputeBars s).seq.bars ≠ s.seq.bars ∨ barredSet (recomputeBars s) (recomputeBars s).seq.current = true then
        decision (recomputeBars s)
      else recomputeBars s := by
  rw [redStatusChanged_eq, afterBars, show (recomputeBars s).seq.phase = _ from h]
  refine if_congr ?_ rfl rfl
  rw [Bool.or_eq_true, bne_iff_ne, ne_comm]

variable (h : s.seq.phase = .interstage)
include h

theorem redStatusChanged_barred {t : Target} (target : s.seq.target = some t)
    (barred : targetBarred (recomputeBars s) t = true) :
    redStatusChanged s = settled (withdraw t (recomputeBars s)) := by
  rw [redStatusChanged_eq, afterBars, show (recomputeBars s).seq.phase = _ from h,
    show (recomputeBars s).seq.target = _ from target]
  exact congrArg settled (if_pos barred)

theorem redStatusChanged_unbarred (free : ∀ t, s.seq.target = some t → ¬targetBarred (recomputeBars s) t = true) :
    redStatusChanged s = settled (endFacing (recomputeBars s)) := by
  rw [redStatusChanged_eq, afterBars, show (recomputeBars s).seq.phase = _ from h]
  cases target : s.seq.target with
  | none => rw [show (recomputeBars s).seq.target = _ from target]
  | some t =>
    rw [show (recomputeBars s).seq.target = _ from target]
    exact congrArg settled (if_neg (free t target))

end

/-- What a change of red status leaves of an interstage, before its completion is judged (R145, R147): s before the bars
are recomputed, w after, with whether the target is barred. -/
structure FallsBack (barred : Prop) (s w : State) : Prop where
  phase : w.seq.phase = s.seq.phase
  bars : w.seq.bars = barsNow s
  units : w.seq.units = s.seq.units
  withdrawn : barred → w.seq.target = none
  kept : ¬barred → w.seq.target = s.seq.target ∧ w.seq.resume = s.seq.resume
  resume :
    ∀ (n m : StepNo) (g : StageId) (p : Plan), barred → s.seq.target = some (.step n g) → activePlan s = some p →
      1 ≤ p.stepCount → m.val = (n.val + 1) % p.stepCount → w.seq.resume = some (s.seq.resume.getD m)
  waiting :
    ∀ g : GroupId, barred → s.seq.groups[g].greenAt ≠ none →
      w.seq.groups[g].aspect = .red ∧ w.seq.groups[g].redAmberAt = none ∧ w.seq.groups[g].greenAt = none ∧
        w.seq.groups[g].deadline = none
  ends :
    ∀ g : GroupId, ¬barred ∨ s.seq.groups[g].greenAt = none → s.seq.groups[g].aspect = .green →
      facesLoss s g = true → EndsGreen s w g
  idle :
    ∀ g : GroupId, ¬barred ∨ s.seq.groups[g].greenAt = none →
      s.seq.groups[g].aspect ≠ .green ∨ facesLoss s g = false → w.seq.groups[g] = s.seq.groups[g]

theorem fallsBack_withdraw {s : State} {t : Target} (target : s.seq.target = some t) :
    FallsBack True s (withdraw t (recomputeBars s)) := by
  have moved := groupsMoved_fallenBack (recomputeBars s)
  obtain ⟨r, frame⟩ := withdraw_frame t (recomputeBars s)
  refine ⟨?_, ?_, ?_, fun _ => by rw [frame]; rfl, fun no => absurd trivial no, fun n m g p _ step active steps next => ?_,
    fun g _ waits => ?_, fun g other green faces => ?_, fun g other still => ?_⟩
  · rw [frame, modSeq_seq, moved.seq]
    rfl
  · rw [frame, modSeq_seq, moved.seq]
    rfl
  · rw [frame, modSeq_seq, moved.seq]
    rfl
  · obtain rfl : t = .step n g := Option.some.inj (target.symm.trans step)
    exact withdraw_resume (s := recomputeBars s) active steps next
  · rw [withdraw_waiting (s := recomputeBars s) t waits]
    exact ⟨rfl, rfl, rfl, rfl⟩
  · have rests := other.resolve_left fun no => no trivial
    have ends := withdraw_ends (s := recomputeBars s) t rests green faces
    exact ⟨ends.vehicle, ends.crossing, ends.lastEnd⟩
  · have rests := other.resolve_left fun no => no trivial
    exact withdraw_keeps (s := recomputeBars s) t rests still

theorem fallsBack_endFacing (s : State) : FallsBack False s (endFacing (recomputeBars s)) := by
  have moved := groupsMoved_endFacing (recomputeBars s)
  refine ⟨?_, ?_, ?_, nofun, fun _ => ?_, fun _ _ _ _ yes => yes.elim, fun _ yes => yes.elim,
    fun g _ green faces => ?_, fun g _ => endFacing_keeps (s := recomputeBars s)⟩
  · rw [moved.seq]
    rfl
  · rw [moved.seq]
    rfl
  · rw [moved.seq]
    rfl
  · rw [moved.seq]
    exact ⟨rfl, rfl⟩
  · have ends := endFacing_ends (s := recomputeBars s) green faces
    exact ⟨ends.vehicle, ends.crossing, ends.lastEnd⟩

/-- In INTERSTAGE a change of red status withdraws a barred target, and ends the greens that face a RED_LOSS (R147). -/
theorem redStatusChanged_interstage {s : State} (phase : s.seq.phase = .interstage) {barred : Prop}
    (iff : barred ↔ ∃ t n, s.seq.target = some t ∧ targetStage t = some n ∧ has (recomputeBars s).seq.bars n = true) :
    ∃ w, redStatusChanged s = settled w ∧ FallsBack barred s w := by
  by_cases yes : barred
  · obtain ⟨t, n, target, stage, bar⟩ := iff.mp yes
    obtain rfl : barred = True := eq_true yes
    exact ⟨_, redStatusChanged_barred phase target (targetBarred_iff.mpr ⟨n, stage, bar⟩), fallsBack_withdraw target⟩
  · obtain rfl : barred = False := eq_false yes
    refine ⟨_, redStatusChanged_unbarred phase fun t target bars => yes ?_, fallsBack_endFacing s⟩
    obtain ⟨n, stage, bar⟩ := targetBarred_iff.mp bars
    exact iff.mpr ⟨t, n, target, stage, bar⟩

/-- Settles O38: each time by whether it has come, a completion by its target, a change of red status by the phase. -/
theorem interstageTimes : Obligations.InterstageTimes := by
  refine ⟨fun g s => ⟨fun n time come => ?_, fun n time come => ?_, fun n time come => ⟨fun dark => ?_, fun lit => ?_⟩,
      fun early => ?_, fun early => ?_, fun early => ?_⟩,
    fun g s => ⟨fun early => ?_, fun n time come lit => ?_⟩, fun s => settle_idle,
    fun t s phase target => ⟨fun ⟨g, waits⟩ => ?_, fun rest => ?_⟩,
    fun s phase target => ⟨fun ⟨g, ends⟩ => ?_, fun rest => ?_⟩, fun s u bars => ?_⟩
  · exact congrArg Host.Outcome.next (if_pos (reached_of_le time come))
  · exact congrArg Host.Outcome.next (if_pos (reached_of_le time come))
  · exact congrArg Host.Outcome.next
      ((if_pos (reached_of_le time come)).trans (congrArg settled (tryGreen_green time come dark)))
  · exact congrArg Host.Outcome.next
      ((if_pos (reached_of_le time come)).trans (congrArg settled (tryGreen_waits lit)))
  · exact congrArg Host.Outcome.next (if_neg (not_reached early))
  · exact congrArg Host.Outcome.next (if_neg (not_reached early))
  · exact congrArg Host.Outcome.next (if_neg (not_reached early))
  · exact congrArg Host.Outcome.next (if_neg (not_reached early))
  · refine congrArg Host.Outcome.next ((if_pos (reached_of_le time come)).trans (if_neg fun both => ?_))
    exact not_conflictsDark lit ((Bool.and_eq_true _ _).mp both).2
  · refine (settle_target phase target).trans (if_neg fun rest => ?_)
    obtain ⟨green, ended⟩ := allSettled_iff.mp rest g
    exact waits.elim (fun waits => waits green) fun ends => ends ended
  · refine ⟨complete t s, completes_complete t s, ?_⟩
    rw [settled, settle_target phase target, if_pos (allSettled_iff.mpr rest),
      if_congr (decisionDue_iff _ _) rfl rfl, ite_not]
  · exact (settle_withdrawn phase target).trans (if_neg fun rest => ends (noneEnding_iff.mp rest g))
  · refine ⟨completeResidual s, ?_, rfl, completeResidual_current s⟩
    rw [settled, settle_withdrawn phase target, if_pos (noneEnding_iff.mpr rest)]
  · obtain rfl : u = recomputeBars s := bars
    refine ⟨redStatusChanged_idle, redStatusChanged_stage, fun phase => ?_⟩
    obtain ⟨w, settles, falls⟩ := redStatusChanged_interstage phase Iff.rfl
    refine ⟨w, settles, falls.phase.trans phase, falls.bars, falls.units, fun barred iff => ?_⟩
    obtain rfl := propext iff
    exact ⟨falls.withdrawn, falls.kept, falls.resume, fun g => ⟨falls.waiting g, fun other =>
      ⟨falls.ends g other, falls.idle g other⟩⟩⟩

end Sys2Proof.Machine
end

section
/-! PROOFS. Chapter 7, the choice of a target: the all-red hold, the listed calls, the scan, and when what runs may end. -/

namespace Sys2Proof.Machine

/-! ### The choice of a target (R135) -/

section
variable {s : State}

theorem choose_hold (h : holdActive s = true) :
    choose s = if s.seq.designation = some .s0 then none else some .s0 := by
  rw [choose, if_pos h]
  exact if_congr beq_iff_eq rfl rfl

theorem choose_call {n : StageId} (h : holdActive s = false) (head : headCall s = some n) :
    choose s = some (.call n) := by
  simp only [choose, h, head, Bool.false_eq_true, if_false]

theorem choose_scan (h : holdActive s = false) (headless : headCall s = none) : choose s = scan s := by
  simp only [choose, h, headless, Bool.false_eq_true, if_false]

/-- The test of a listed call that may be the target: its stage is neither barred nor running (R135). -/
theorem mayHead_iff {c : Call} :
    (!has s.seq.bars c.stage && runningStage s != some c.stage) = true ↔
      has s.seq.bars c.stage = false ∧ runningStage s ≠ some c.stage := by
  rw [Bool.and_eq_true, Bool.not_eq_true', bne_iff_ne]

theorem headCall_first {c : Call} {before after : List Call} (row : s.seq.calls = before ++ c :: after)
    (skipped : ∀ d ∈ before, has s.seq.bars d.stage = true ∨ runningStage s = some d.stage)
    (free : has s.seq.bars c.stage = false) (waits : runningStage s ≠ some c.stage) :
    headCall s = some c.stage := by
  have found : s.seq.calls.find? (fun c => !has s.seq.bars c.stage && runningStage s != some c.stage) = some c :=
    List.find?_eq_some_iff_append.mpr ⟨mayHead_iff.mpr ⟨free, waits⟩, before, after, row, fun d mem => by
      rcases skipped d mem with barred | runs
      · simp [barred]
      · simp [runs]⟩
  rw [headCall, found]
  rfl

theorem headCall_none (skipped : ∀ d ∈ s.seq.calls, has s.seq.bars d.stage = true ∨ runningStage s = some d.stage) :
    headCall s = none := by
  refine (congrArg _ (List.find?_eq_none.mpr fun d mem heads => ?_)).trans (Option.map_none _)
  obtain ⟨free, waits⟩ := mayHead_iff.mp heads
  exact (skipped d mem).elim (fun barred => Bool.false_ne_true (free.symm.trans barred)) waits

end

/-! ### The scan (R134) -/

theorem qualifies_iff {s : State} {p : Plan} {n : StepNo} :
    qualifies s p.steps[n] = true ↔ ∃ g, StepQualifies s p n g := by
  unfold qualifies StepQualifies
  cases p.steps[n].stage with
  | none => simp
  | some g => cases p.steps[n].demandDependent <;> simp

/-- The step i places after a start in a plan's cyclic order (R134). -/
def cyclicStep (p : Plan) (start i : Nat) : StepNo := ⟨(start + i) % (max 1 p.stepCount) % 32, by omega⟩

theorem cyclicSteps_eq (p : Plan) (start count : Nat) :
    cyclicSteps p start count = (List.range count).map (cyclicStep p start) := rfl

theorem cyclicStep_val {p : Plan} (steps : 1 ≤ p.stepCount) (few : p.stepCount ≤ 32) (start i : Nat) :
    (cyclicStep p start i).val = (start + i) % p.stepCount := by
  show (start + i) % max 1 p.stepCount % 32 = _
  rw [Nat.max_eq_right steps]
  exact Nat.mod_eq_of_lt ((Nat.mod_lt _ steps).trans_le few)

section
variable {s : State} {p : Plan} {start count : Nat}

/-- A scan over steps in cyclic order finds the first that qualifies (R134). -/
theorem scanGives_of_order (steps : 1 ≤ p.stepCount) (few : p.stepCount ≤ 32)
    (order : scanOrder s = some (p, cyclicSteps p start count)) : ScanGives s p start count where
  found k n g within place fits first := by
    obtain rfl : cyclicStep p start k = n := Fin.ext ((cyclicStep_val steps few start k).trans place.symm)
    have hit : (List.range count).find? ((fun n => qualifies s p.steps[n]) ∘ cyclicStep p start) = some k := by
      refine List.find?_range_eq_some.mpr ⟨qualifies_iff.mpr ⟨g, fits⟩, List.mem_range.mpr within, fun j lt => ?_⟩
      refine Bool.not_eq_true' _ ▸ Bool.eq_false_iff.mpr fun earlier => ?_
      obtain ⟨h, fits⟩ := qualifies_iff.mp earlier
      exact first j _ h lt (cyclicStep_val steps few start j) fits
    have target : (cyclicSteps p start count).find? (fun n => qualifies s p.steps[n]) =
        some (cyclicStep p start k) := by
      rw [cyclicSteps_eq, List.find?_map, hit]
      rfl
    obtain ⟨stage, -, -⟩ := fits
    simp only [scan, order, target, stage]
    rfl
  missed unfit := by
    have miss : (cyclicSteps p start count).find? (fun n => qualifies s p.steps[n]) = none := by
      refine List.find?_eq_none.mpr fun n mem fits => ?_
      obtain ⟨k, within, rfl⟩ := List.mem_map.mp mem
      obtain ⟨g, fits⟩ := qualifies_iff.mp fits
      exact unfit k _ g (List.mem_range.mp within) (cyclicStep_val steps few start k) fits
    simp only [scan, order, miss]

theorem scanOrder_due {q : PendingPlan} (due : transferDue s = true) (pending : s.plans.pending = some q)
    (plan : p = s.plans.plans[q.plan]) : scanOrder s = some (p, cyclicSteps p 0 p.stepCount) := by
  subst plan
  simp only [scanOrder, due, pending, if_true]
  rfl

variable (undue : transferDue s = false) (active : activePlan s = some p)
include undue active

theorem scanOrder_running {n : StepNo} (step : s.seq.designation = some .step) (index : s.seq.stepIndex = some n) :
    scanOrder s = some (p, cyclicSteps p (n.val + 1) (p.stepCount - 1)) := by
  simp only [scanOrder, undue, active, step, index, Bool.false_eq_true, if_false]
  rfl

theorem scanOrder_resuming {n : StepNo} (step : s.seq.designation ≠ some .step) (resume : s.seq.resume = some n) :
    scanOrder s = some (p, cyclicSteps p n.val p.stepCount) := by
  simp only [scanOrder, undue, active, resume, Bool.false_eq_true, if_false, Option.map_some]
  split
  case h_1 runs _ => exact absurd runs step
  case h_2 => rfl

theorem scanOrder_fresh (step : s.seq.designation ≠ some .step) (resume : s.seq.resume = none) :
    scanOrder s = some (p, cyclicSteps p 0 p.stepCount) := by
  simp only [scanOrder, undue, active, resume, Bool.false_eq_true, if_false, Option.map_some]
  split
  case h_1 runs _ => exact absurd runs step
  case h_2 => rfl

end

/-! ### Conditions of a termination (R136) -/

section
variable {s : State}

theorem noCallHolds_iff : (!callHolds s) = true ↔ NoCallHolds s := by
  unfold callHolds NoCallHolds
  cases s.seq.service <;> simp

theorem unextended_iff :
    (!extended s) = true ↔ ∀ g : GroupId, has s.seq.current g = true → s.seq.groups[g].hold = 0 := by
  rw [extended, Bool.not_eq_true', all16_any_false]
  refine forall_congr' fun g => ?_
  rw [and_false_of_left, decide_eq_false_iff_not, Nat.not_lt, Nat.le_zero]

theorem runningStep_some {p : Plan} {n : StepNo} (step : s.seq.designation = some .step)
    (active : activePlan s = some p) (index : s.seq.stepIndex = some n) : runningStep s = some p.steps[n] := by
  rw [runningStep, step, active, index]

theorem maxElapsed_iff {r : Step} : maxElapsed s r = true ↔ r.maxGreen ≤ s.seq.maxCount := decide_eq_true_iff

theorem forcedOff_iff {p : Plan} {r : Step} {losing : Set16} (runs : runningStep s = some r)
    (active : activePlan s = some p) :
    forcedOff s losing = true ↔
      (p.mode = .linked ∧ (∃ u, s.seq.forceOff = .reached u) ∧ max 1 r.minGreen ≤ s.seq.minCount) ∧
        FloorsOver s losing ∧ NoCallHolds s := by
  simp only [forcedOff, runs, active]
  cases s.seq.forceOff with
  | none => simp
  | waiting => simp
  | reached u =>
    simp only [Bool.and_eq_true, beq_iff_eq, minElapsed_iff, floorsElapsed_iff, noCallHolds_iff,
      ForceOff.reached.injEq, exists_eq', true_and, and_assoc]

/-- When a running step may end toward a target (R136). -/
theorem mayEnd_step {p : Plan} {n : StepNo} {t : Target} {losing : Set16} (step : s.seq.designation = some .step)
    (active : activePlan s = some p) (index : s.seq.stepIndex = some n) :
    mayEnd s t losing = true ↔
      NoCallHolds s ∧ FloorsOver s losing ∧
        ((∀ k g, t ≠ .step k g) ∧ max 1 p.steps[n].minGreen ≤ s.seq.minCount ∨
          (∃ k g, t = .step k g) ∧
            (max 1 p.steps[n].minGreen ≤ s.seq.minCount ∧
                (∀ g : GroupId, has s.seq.current g = true → s.seq.groups[g].hold = 0) ∨
              p.steps[n].maxGreen ≤ s.seq.maxCount ∨
              p.mode = .linked ∧ (∃ u, s.seq.forceOff = .reached u) ∧
                max 1 p.steps[n].minGreen ≤ s.seq.minCount)) := by
  have runs := runningStep_some step active index
  simp only [mayEnd, step, runs, Bool.and_eq_true, noCallHolds_iff, floorsElapsed_iff, and_assoc]
  refine and_congr_right fun quiet => and_congr_right fun elapsed => ?_
  cases t with
  | s0 => simp [minElapsed_iff]
  | call g => simp [minElapsed_iff]
  | step k g =>
    simp only [Bool.or_eq_true, Bool.and_eq_true, minElapsed_iff, maxElapsed_iff, unextended_iff,
      forcedOff_iff runs active, or_assoc]
    simp [quiet, elapsed]

theorem mayEnd_stepless {t : Target} {losing : Set16} (step : s.seq.designation = some .step)
    (idle : runningStep s = none) : mayEnd s t losing = false := by
  simp only [mayEnd, step, idle]

theorem mayEnd_iff {t : Target} {losing : Set16} : mayEnd s t losing = true ↔ MayEnd s t losing := by
  unfold MayEnd
  cases kind : s.seq.designation with
  | none => simp [mayEnd, kind]
  | some d =>
    cases d with
    | s0 => simp [mayEnd, kind]
    | residual => simp [mayEnd, kind, floorsElapsed_iff]
    | call => simp only [mayEnd, kind, Bool.and_eq_true, noCallHolds_iff, floorsElapsed_iff]; simp
    | step =>
      cases active : activePlan s with
      | none =>
        rw [mayEnd_stepless kind (by rw [runningStep, kind, active])]
        simp
      | some p =>
        cases index : s.seq.stepIndex with
        | none =>
          rw [mayEnd_stepless kind (by rw [runningStep, kind, active, index])]
          simp
        | some n =>
          rw [mayEnd_step kind active index]
          simp

end

end Sys2Proof.Machine
end

section
/-! PROOFS. Chapter 7, decisions: the interstage a decision starts, and the step it takes without one. -/

namespace Sys2Proof.Machine

/-! ### What a decision does with its target (R135 to R137, R146) -/

theorem set16_ext {x y : Set16} (h : ∀ g : Fin 16, has x g = has y g) : x = y :=
  BitVec.eq_of_getLsbD_eq fun i hi => h ⟨i, hi⟩

theorem has_losingSet (s : State) (t : Target) (g : GroupId) :
    has (losingSet s t) g = (has s.seq.current g && !has (targetSet s t) g) := has_setOf _ g

theorem losingSet_same {s : State} {t : Target} (same : targetSet s t = s.seq.current) : losingSet s t = 0 :=
  set16_eq_zero.mpr fun g => by rw [has_losingSet, same, Bool.and_not_self]

/-- The state with another resume point. -/
def resuming (r : Option StepNo) (s : State) : State := modSeq s fun q => { q with resume := r }

theorem holdResume_frame (t : Target) (barred : Bool) (s : State) : ∃ r, holdResume t barred s = resuming r s := by
  unfold holdResume
  split
  · split
    · split <;> exact ⟨_, rfl⟩
    · exact ⟨_, rfl⟩
  · exact ⟨_, rfl⟩

theorem mayEnd_resuming (r : Option StepNo) (s : State) (t : Target) (losing : Set16) :
    mayEnd (resuming r s) t losing = mayEnd s t losing :=
  Bool.eq_iff_iff.mpr (mayEnd_iff.trans mayEnd_iff.symm)

section
variable {s : State} (phase : s.seq.phase = .stage)
include phase

theorem decision_eq : decision s = afterChoice (decideUpTo 7) (choose s) s :=
  (decideOnce_eq (decideUpTo 7) s).trans (if_pos (beq_iff_eq.mpr phase))

theorem decision_none (chosen : choose s = none) :
    decision s = if barredSet s s.seq.current then handover .redLossNoStage [s.seq.current] s else s := by
  rw [decision_eq phase, chosen, afterChoice]

variable {t : Target} (chosen : choose s = some t)
include chosen

/-- Before it ends what runs, a decision changes no more than the resume point (R135, R146). -/
theorem decision_some :
    ∃ r, decision s =
      endToward (decideUpTo 7) (barredSet s s.seq.current) t (losingSet s t) (resuming r s) := by
  obtain ⟨r, e⟩ := holdResume_frame t (barredSet s s.seq.current) s
  refine ⟨r, ?_⟩
  rw [decision_eq phase, chosen, afterChoice, decideToward, e]
  rfl

section
variable (other : targetSet s t ≠ s.seq.current)
include other

theorem decision_other :
    ∃ r, decision s =
      if (barredSet s s.seq.current || mayEnd s t (losingSet s t)) = true then
        settle (decideUpTo 7) (terminate t (losingSet s t) (resuming r s))
      else resuming r s := by
  obtain ⟨r, e⟩ := decision_some phase chosen
  refine ⟨r, e.trans ?_⟩
  unfold endToward
  rw [mayEnd_resuming]
  exact if_neg fun same => other (beq_iff_eq.mp same)

end

section
variable (same : targetSet s t = s.seq.current)
include same

theorem decision_sameStep {n : StepNo} {g : StageId} (step : t = .step n g) :
    ∃ r, decision s = if mayEnd s t 0 then takeStep n g (resuming r s) else resuming r s := by
  obtain ⟨r, e⟩ := decision_some phase chosen
  refine ⟨r, e.trans ?_⟩
  unfold endToward
  rw [mayEnd_resuming, losingSet_same same, step]
  exact if_pos (beq_iff_eq.mpr (step ▸ same))

theorem decision_sameStepless (stepless : ∀ n g, t ≠ .step n g) : ∃ r, decision s = resuming r s := by
  obtain ⟨r, e⟩ := decision_some phase chosen
  refine ⟨r, e.trans ?_⟩
  unfold endToward
  cases t with
  | s0 => exact if_pos (beq_iff_eq.mpr same)
  | call g => exact if_pos (beq_iff_eq.mpr same)
  | step n g => exact absurd rfl (stepless n g)

end
end

/-- A state that differs in its resume point alone. -/
theorem eq_resuming {s u : State} {r : Option StepNo} (h : u = resuming r s) :
    u = { s with seq := { s.seq with resume := u.seq.resume } } := by
  subst h
  rfl

/-! ### The interstage (R129, R130) -/

/-- The green of each losing group ended (R129). -/
def endGreens (current goal : Set16) (s : State) : State :=
  eachOf all16 (fun g u => if has current g && !has goal g then endGreen g u else u) s

/-- Each gaining group scheduled (R130). -/
def schedules (current goal : Set16) (s : State) : State :=
  eachOf all16 (fun g u => if has goal g && !has current g then schedule g u else u) s

/-- The interstage toward a target begun, before the times already here are taken. -/
def departed (t : Target) (s : State) : State :=
  schedules s.seq.current (targetSet s t) (endGreens s.seq.current (targetSet s t) (modSeq s (enterInterstage t)))

theorem runInterstage_eq (t : Target) (s : State) :
    runInterstage t s = tryGreens (eachOf all16 tryRedAmber (departed t s)) := rfl

section
variable {current goal : Set16} {s : State} {g : GroupId}

theorem othersMoved_ifEndGreen {k : GroupId} (ne : k ≠ g) (c : Bool) (s : State) :
    OthersMoved g s (if c then endGreen k s else s) := by
  split
  · exact othersMoved_endGreen ne s
  · exact .refl g s

theorem schedulesOthers_ifSchedule {k : GroupId} (ne : k ≠ g) (c : Bool) (s : State) :
    SchedulesOthers g s (if c then schedule k s else s) := by
  split
  · exact schedulesOthers_schedule ne s
  · exact .refl g s

theorem groupsMoved_endGreens (current goal : Set16) (s : State) : GroupsMoved s (endGreens current goal s) :=
  groupsMoved_eachOf (fun k t => by
    split
    · exact groupsMoved_endGreen k t
    · exact .refl t) s

theorem groupsMoved_schedules (current goal : Set16) (s : State) : GroupsMoved s (schedules current goal s) :=
  groupsMoved_eachOf (fun k t => by
    split
    · exact groupsMoved_modGroup t k _
    · exact .refl t) s

/-- A row of greens ended seen at one group: the others come before and after its own. -/
theorem endGreens_group (current goal : Set16) (s : State) (g : GroupId) :
    ∃ t, OthersMoved g s t ∧
      OthersMoved g (if has current g && !has goal g then endGreen g t else t) (endGreens current goal s) :=
  eachOf_group (op := fun g u => if has current g && !has goal g then endGreen g u else u)
    (fun _ t ne => othersMoved_ifEndGreen ne _ t) s

theorem endGreens_losing (losing : (has current g && !has goal g) = true) : EndsGreen s (endGreens current goal s) g := by
  obtain ⟨t, before, after⟩ := endGreens_group current goal s g
  rw [if_pos losing] at after
  exact (endsGreen_endGreen g t).of_same before after.group

theorem endGreens_other (stays : (has current g && !has goal g) = false) :
    OthersMoved g s (endGreens current goal s) := by
  obtain ⟨t, before, after⟩ := endGreens_group current goal s g
  rw [if_neg (Bool.eq_false_iff.mp stays)] at after
  exact before.trans after

/-- A row of schedulings seen at one group: the others come before and after its own. -/
theorem schedules_group (current goal : Set16) (s : State) (g : GroupId) :
    ∃ t, SchedulesOthers g s t ∧
      SchedulesOthers g (if has goal g && !has current g then schedule g t else t) (schedules current goal s) :=
  eachOf_once (op := fun g u => if has goal g && !has current g then schedule g u else u) (SchedulesOthers.refl g)
    SchedulesOthers.trans (fun _ t ne => schedulesOthers_ifSchedule ne _ t) (List.nodup_finRange 16) (all16_mem g) s

theorem schedules_gaining (gaining : (has goal g && !has current g) = true) :
    Scheduled s (schedules current goal s) g := by
  obtain ⟨t, before, after⟩ := schedules_group current goal s g
  rw [if_pos gaining] at after
  exact (scheduled_schedule g t).of_same before.toOthersMoved after.group after.lastEnds

theorem schedules_other (stays : (has goal g && !has current g) = false) :
    OthersMoved g s (schedules current goal s) := by
  obtain ⟨t, before, after⟩ := schedules_group current goal s g
  rw [if_neg (Bool.eq_false_iff.mp stays)] at after
  exact before.toOthersMoved.trans after.toOthersMoved

end

section
variable {t : Target} {s : State} {g : GroupId}

theorem groupsMoved_departed (t : Target) (s : State) :
    GroupsMoved (modSeq s (enterInterstage t)) (departed t s) :=
  (groupsMoved_endGreens _ _ _).trans (groupsMoved_schedules _ _ _)

theorem departed_losing (loses : (has s.seq.current g && !has (targetSet s t) g) = true) :
    EndsGreen (modSeq s (enterInterstage t)) (departed t s) g := by
  have stays : (has (targetSet s t) g && !has s.seq.current g) = false := by
    rw [Bool.and_eq_true] at loses
    rw [loses.1, Bool.not_true, Bool.and_false]
  exact (endGreens_losing loses).of_same (.refl g _) (schedules_other stays).group

theorem departed_gaining (gains : has (targetSet s t) g = true) (new : has s.seq.current g = false) :
    Scheduled (modSeq s (enterInterstage t)) (departed t s) g := by
  have before : OthersMoved g (modSeq s (enterInterstage t))
      (endGreens s.seq.current (targetSet s t) (modSeq s (enterInterstage t))) :=
    endGreens_other (by rw [new, Bool.false_and])
  have scheduled : Scheduled (endGreens s.seq.current (targetSet s t) (modSeq s (enterInterstage t)))
      (departed t s) g :=
    schedules_gaining (by rw [gains, new]; rfl)
  exact scheduled.of_same before rfl fun _ => rfl

theorem departed_same (same : has (targetSet s t) g = has s.seq.current g) :
    (departed t s).seq.groups[g] = s.seq.groups[g] :=
  ((endGreens_other (by rw [same, Bool.and_not_self])).trans
    (schedules_other (by rw [same, Bool.and_not_self]))).group

end

/-! ### A termination (R118, R129, R138) -/

/-- The due transfer taken, and no other (R118). -/
def transferred (s : State) : State := if transferDue s then takeTransfer s else s

/-- What a termination does before the interstage: CYCLE_OVERRUN posted, and a due transfer taken with a plan step. -/
def leaving (t : Target) (losing : Set16) (s : State) : State :=
  match t with
  | .step _ _ => transferred (postOverrun t losing s)
  | _ => postOverrun t losing s

theorem terminate_eq (t : Target) (losing : Set16) (s : State) :
    terminate t losing s = tryGreens (eachOf all16 tryRedAmber (departed t (leaving t losing s))) := by
  rw [← runInterstage_eq]
  cases t <;> rfl

/-- The state with another fault table, plan memory and cycle position. -/
def replanned (faults : FaultTable) (plans : PlanMemory) (position : Option Nat) (s : State) : State :=
  { s with faults := faults, plans := plans, seq := { s.seq with position := position } }

theorem postOverrun_frame (t : Target) (losing : Set16) (s : State) :
    ∃ faults, postOverrun t losing s = replanned faults s.plans s.seq.position s := by
  unfold postOverrun
  split
  · split <;> exact ⟨_, rfl⟩
  · exact ⟨_, rfl⟩

theorem transferred_frame (s : State) : ∃ plans position, transferred s = replanned s.faults plans position s := by
  unfold transferred takeTransfer
  split
  · split <;> exact ⟨_, _, rfl⟩
  · exact ⟨_, _, rfl⟩

theorem leaving_frame (t : Target) (losing : Set16) (s : State) :
    ∃ faults plans position, leaving t losing s = replanned faults plans position s := by
  obtain ⟨faults, posted⟩ := postOverrun_frame t losing s
  cases t with
  | s0 => exact ⟨faults, _, _, posted⟩
  | call g => exact ⟨faults, _, _, posted⟩
  | step n g =>
    obtain ⟨plans, position, taken⟩ := transferred_frame (postOverrun (.step n g) losing s)
    exact ⟨faults, plans, position, by rw [leaving, taken, posted]; rfl⟩

/-- The interstage that a decision starts, as it stands before the times already here are taken (R129, R130). -/
structure Departs (s : State) (t : Target) (u : State) : Prop where
  toward :
    u.seq.phase = .interstage ∧ u.seq.target = some t ∧ u.seq.designation = none ∧ u.seq.service = none ∧
      u.seq.units = s.seq.units ∧ u.safety = s.safety
  loses : ∀ g : GroupId, (has s.seq.current g && !has (targetSet s t) g) = true → EndsGreen s u g
  gains : ∀ g : GroupId, has (targetSet s t) g = true → has s.seq.current g = false → Scheduled s u g
  stays : ∀ g : GroupId, has (targetSet s t) g = has s.seq.current g → u.seq.groups[g] = s.seq.groups[g]

theorem departs_departed (t : Target) (s : State) : Departs s t (departed t s) where
  toward := by
    have moved := groupsMoved_departed t s
    rw [moved.seq]
    exact ⟨rfl, rfl, rfl, rfl, rfl, moved.safety⟩
  loses g h := by
    have ends := departed_losing h
    exact ⟨ends.vehicle, ends.crossing, ends.lastEnd⟩
  gains g gain new := departed_gaining gain new
  stays g same := departed_same same

/-- An interstage starts alike from another resume point, fault table, plan memory and cycle position. -/
theorem Departs.of_replanned {s u : State} {t : Target} {faults : FaultTable} {plans : PlanMemory}
    {position : Option Nat} {r : Option StepNo} (h : Departs (replanned faults plans position (resuming r s)) t u) :
    Departs s t u where
  toward := h.toward
  loses g losing := by
    have ends := h.loses g (by cases t <;> exact losing)
    exact ⟨ends.vehicle, ends.crossing, ends.lastEnd⟩
  gains g gain new := h.gains g (by cases t <;> exact gain) new
  stays g same := h.stays g (by cases t <;> exact same)

theorem terminate_departs (t : Target) (losing : Set16) (r : Option StepNo) (s : State) :
    ∃ u, terminate t losing (resuming r s) = tryGreens (eachOf all16 tryRedAmber u) ∧ Departs s t u := by
  obtain ⟨faults, plans, position, e⟩ := leaving_frame t losing (resuming r s)
  refine ⟨departed t (leaving t losing (resuming r s)), terminate_eq _ _ _, ?_⟩
  rw [e]
  exact (departs_departed t _).of_replanned

/-! ### A step of the same set (R118, R133) -/

/-- A step taken without interstage begins, and its stage's call is taken into service, once a due transfer is taken. -/
theorem takeStep_eq {s : State} {p : Plan} (n : StepNo) (g : StageId) (active : activePlan (transferred s) = some p) :
    takeStep n g s =
      callIntoService g
        (modSeq (transferred s) fun q =>
          stepBegun p n g { q with service := q.service.filter fun c => c.stage == g }) := by
  show callIntoService g (modSeq (startStep n (transferred s)) fun q =>
    { q with latches := setDrop q.latches g, service := q.service.filter fun c => c.stage == g }) = _
  rw [startStep, active]
  rfl

theorem transferred_undue {s : State} (undue : transferDue s = false) : transferred s = s :=
  if_neg (Bool.eq_false_iff.mp undue)

theorem transferred_due {s : State} {q : PendingPlan} {p : Plan} (due : transferDue s = true)
    (pending : s.plans.pending = some q) (plan : p = s.plans.plans[q.plan]) :
    transferred s =
      replanned s.faults { s.plans with active := some q.plan, pending := none }
        (if p.mode = .linked then some (positionIn p s.seq.clock) else none) s := by
  subst plan
  rw [transferred, if_pos due, takeTransfer, pending]
  dsimp only
  rw [positionNow_active (r := s.plans.plans[q.plan]) rfl]
  rfl

/-- The plan whose step is taken, with the plan memory and the cycle position it leaves (R118, R149). -/
def TakesFrom (s : State) (p : Plan) (m : PlanMemory) (x : Option Nat) : Prop :=
  transferDue s = false ∧ activePlan s = some p ∧ m = s.plans ∧ x = s.seq.position ∨
    ∃ q, transferDue s = true ∧ s.plans.pending = some q ∧ p = s.plans.plans[q.plan] ∧
      m = { s.plans with active := some q.plan, pending := none } ∧
      x = if p.mode = .linked then some (positionIn p s.seq.clock) else none

theorem TakesFrom.transferred {s : State} {p : Plan} {m : PlanMemory} {x : Option Nat} (h : TakesFrom s p m x)
    (r : Option StepNo) :
    transferred (resuming r s) = replanned s.faults m x (resuming r s) ∧
      activePlan (replanned s.faults m x (resuming r s)) = some p := by
  rcases h with ⟨undue, active, rfl, rfl⟩ | ⟨q, due, pending, rfl, rfl, rfl⟩
  · exact ⟨transferred_undue undue, active⟩
  · exact ⟨transferred_due (s := resuming r s) due pending rfl, rfl⟩

/-- What a step taken without interstage leaves (R133): the sequencer but for what starts to run. -/
theorem takeStep_takes {s : State} {p : Plan} {m : PlanMemory} {x : Option Nat} (h : TakesFrom s p m x) (n : StepNo)
    (g : StageId) (r : Option StepNo) :
    ∃ u, takeStep n g (resuming r s) = u ∧
      u =
        { s with
          plans := m
          seq :=
            { u.seq with
              phase := s.seq.phase, current := s.seq.current, target := s.seq.target, groups := s.seq.groups
              allRed := s.seq.allRed, bars := s.seq.bars, clock := s.seq.clock, units := s.seq.units
              position := x } } ∧
      StepBegins s p n g u.seq ∧ CallTaken s g (s.seq.service.filter fun c => c.stage == g) u.seq := by
  obtain ⟨state, active⟩ := h.transferred r
  rw [takeStep_eq n g (state ▸ active), state]
  refine ⟨_, rfl, ?_, stepBegins_stepBegun rfl rfl rfl,
    callTaken_callIntoService (v := modSeq (replanned s.faults m x (resuming r s)) fun q =>
      stepBegun p n g { q with service := q.service.filter fun c => c.stage == g }) g rfl⟩
  obtain ⟨calls, service, e⟩ := callIntoService_frame g (modSeq (replanned s.faults m x (resuming r s)) fun q =>
    stepBegun p n g { q with service := q.service.filter fun c => c.stage == g })
  rw [e]
  rfl

/-- Settles O39: a change of aspect by its group, the target and the scan by what applies first, and the decision by
whether its target has the set that runs. -/
theorem aspectsTargetsAndInterstages : Obligations.AspectsTargetsAndInterstages := by
  refine ⟨fun g a s => ⟨?_, fun h ne => ⟨?_, ?_⟩, ?_, fun o => setAspect_output g a s o, ?_⟩,
    fun s => ⟨choose_hold, fun free c before after row skipped unbarred waits => ?_, fun free skipped => ?_⟩,
    fun p s steps few => ⟨fun q due pending plan => ?_, fun undue active =>
      ⟨fun n step index => ?_, fun n step resume => ?_, fun step resume => ?_⟩⟩,
    fun s t losing => mayEnd_iff,
    fun s => ⟨decision_idle, decision_none, fun t losing phase chosen other loses => ?_⟩,
    fun s t phase chosen same => ⟨fun stays => ?_, fun n g p m x step ends plan => ?_⟩⟩
  · exact (setAspect_group g g a s).trans (if_pos rfl)
  · exact (setAspect_group g h a s).trans (if_neg ne.symm)
  · exact (setAspect_groupProof g a s h).trans (if_neg ne.symm)
  · exact (setAspect_groupProof g a s g).trans (if_pos rfl)
  · rfl
  · exact choose_call free (headCall_first row skipped unbarred waits)
  · exact choose_scan free (headCall_none skipped)
  · exact scanGives_of_order steps few (scanOrder_due due pending plan)
  · exact scanGives_of_order steps few (scanOrder_running undue active step index)
  · exact scanGives_of_order steps few (scanOrder_resuming undue active step resume)
  · exact scanGives_of_order steps few (scanOrder_fresh undue active step resume)
  · obtain rfl : losing = losingSet s t := set16_ext fun g => (loses g).trans (has_losingSet s t g).symm
    obtain ⟨r, e⟩ := decision_other phase chosen other
    refine ⟨fun free holds => ?_, fun ends => ?_⟩
    · rw [free, holds] at e
      exact eq_resuming e
    · rw [if_pos ((Bool.or_eq_true _ _).mpr ends)] at e
      obtain ⟨u, state, departs⟩ := terminate_departs t (losingSet s t) r s
      obtain ⟨toward, target, undesignated, unserved, units, safety⟩ := departs.toward
      exact ⟨u, e.trans (congrArg _ state), toward, target, undesignated, unserved, units, safety, fun g =>
        ⟨fun h => departs.loses g ((has_losingSet s t g).symm.trans h), departs.gains g, departs.stays g⟩⟩
  · by_cases stepless : ∀ n g, t ≠ .step n g
    · obtain ⟨r, e⟩ := decision_sameStepless phase chosen same stepless
      exact eq_resuming e
    · have holds : ¬mayEnd s t 0 = true := Bool.eq_false_iff.mp (stays.resolve_left stepless)
      obtain ⟨n, g, step⟩ : ∃ n g, t = .step n g := by simpa using stepless
      obtain ⟨r, e⟩ := decision_sameStep phase chosen same step
      exact eq_resuming (e.trans (if_neg holds))
  · obtain ⟨r, e⟩ := decision_sameStep phase chosen same step
    obtain ⟨u, state, frame, begins, taken⟩ := takeStep_takes (s := s) plan n g r
    rw [phase] at frame
    exact ⟨u, (e.trans (if_pos ends)).trans state, frame, begins, taken⟩

end Sys2Proof.Machine
end

section
/-! PROOFS. Chapter 8, the service controller: what every step keeps of it, its requests, and the expiries of its
timers. -/

namespace Sys2Proof.Machine

/-! ### What holds at reset and after every step (R145, R153, R154) -/

/-- Settles O3: the whole invariant at the one reset state. -/
theorem invariantsHoldAtReset : Obligations.InvariantsHoldAtReset := reset_partOk

/-- Settles O56: HOLD and FLSEL are part of the invariant that every step keeps. -/
theorem stepKeepsHoldAndFlsel : Obligations.StepKeepsHoldAndFlsel := fun _ _ h e => (step_keeps_partOk h e).outputs

/-- Settles O57: the service state's demands on the blocks, the roles, the calls and the bars are parts of the invariant
that every step keeps. -/
theorem stepKeepsServicePlansAndCalls : Obligations.StepKeepsServicePlansAndCalls := by
  intro s t h e
  have kept := step_keeps_partOk h e
  exact ⟨kept.service, kept.roles, kept.calls, kept.bars⟩

/-! ### RESTORE OFFER (R161) -/

section
variable {f : Fields} {s : State}

theorem restoreOfferOp_refused (h : s.service.state ≠ .handedOver) :
    restoreOfferOp f s = refuse .refusedState 0 s :=
  if_pos (bne_iff_ne.mpr h)

theorem restoreOfferOp_keepsPeriod (h : s.service.state = .handedOver) (zero : f.value = 0) :
    restoreOfferOp f s =
      done (word s.service.checkPeriod)
        (modService s fun r => { r with checkPeriod := s.service.checkPeriod, offer := some Config.offerUnits }) := by
  simp only [restoreOfferOp, h, zero, bne_self_eq_false, Bool.false_eq_true, if_false, beq_self_eq_true, if_true]

theorem restoreOfferOp_setsPeriod (h : s.service.state = .handedOver) (low : 2 ≤ f.value.toNat)
    (high : f.value.toNat ≤ 20) :
    restoreOfferOp f s =
      done f.value
        (modService s fun r => { r with checkPeriod := f.value.toNat, offer := some Config.offerUnits }) := by
  have given : f.value ≠ 0 := fun zero => by rw [zero] at low; exact absurd low (by decide)
  have named : valueIn 2 20 f.value = some f.value.toNat := if_pos ⟨low, high⟩
  have value : word f.value.toNat = f.value := (BitVec.ofNat_toNat 16 f.value).trans (BitVec.setWidth_eq f.value)
  simp only [restoreOfferOp, h, beq_eq_false_iff_ne.mpr given, bne_self_eq_false, Bool.false_eq_true, if_false, named,
    value]

theorem restoreOfferOp_badValue (h : s.service.state = .handedOver) (out : f.value.toNat = 1 ∨ 20 < f.value.toNat) :
    restoreOfferOp f s = refuse .badValue 0 s := by
  have given : f.value ≠ 0 := fun zero => by rw [zero] at out; exact absurd out (by decide)
  have unnamed : valueIn 2 20 f.value = none := valueIn_outside (by omega)
  simp only [restoreOfferOp, h, beq_eq_false_iff_ne.mpr given, bne_self_eq_false, Bool.false_eq_true, if_false, unnamed]

end

/-- Settles O41: the cases of restoreOfferOp, and the right that the plan link has not. -/
theorem restoreOfferOpensTheWindow : Obligations.RestoreOfferOpensTheWindow := by
  intro f s
  refine ⟨responds_of_noRight _ _ _ _ _ _ rfl rfl, fun h => ?_,
    fun h => ⟨fun zero => ?_, fun low high => ?_, fun out => ?_⟩⟩
  · exact responds_onAnyPorts rfl rfl fun q => restoreOfferOp_refused (s := { s with ports := q }) h
  · exact responds_onAnyPorts rfl rfl fun q => restoreOfferOp_keepsPeriod (s := { s with ports := q }) h zero
  · exact responds_onAnyPorts rfl rfl fun q => restoreOfferOp_setsPeriod (s := { s with ports := q }) h low high
  · exact responds_onAnyPorts rfl rfl fun q => restoreOfferOp_badValue (s := { s with ports := q }) h out

/-! ### The conditions of RESTORE (R163) -/

/-- The start plan is present and READY (R163, condition 2). -/
theorem readyStart_ne_none {s : State} :
    readyStart s ≠ none ↔ ∃ p, s.plans.start = some p ∧ s.plans.plans[p].state = .ready := by
  cases e : s.plans.start <;> simp [readyStart, e, Option.filter]

/-- No latched record stands that is not CLEARED (R163, condition 3). -/
theorem latchedSlot_none {t : FaultTable} :
    latchedSlot t = none ↔ ∀ (i : SlotId) (r : Record), t.slots[i] = some r → ¬(r.latched = true ∧ r.active = true) := by
  have free (i : SlotId) : (¬(match t.slots[i] with | some r => r.latched && r.active | none => false) = true) ↔
      ∀ r, t.slots[i] = some r → ¬(r.latched = true ∧ r.active = true) := by
    cases t.slots[i] <;> simp
  exact List.find?_eq_none.trans ⟨fun h i => (free i).mp (h i (List.mem_finRange i)), fun h i _ => (free i).mpr (h i)⟩

/-- Every configured card is ONLINE (R163, condition 5). -/
theorem cardOffline_none {s : State} :
    (allCards.find? fun c => s.line.cards[c].configured && !s.line.cards[c].online) = none ↔
      ∀ c : CardId, s.line.cards[c].configured = true → s.line.cards[c].online = true := by
  simp [allCards]

theorem agrees_iff {s : State} {i : InputId} :
    agrees s i = true ↔ (s.inputs[i].level = .closed ↔ s.service.hold = true) := by
  unfold agrees
  cases s.inputs[i].level <;> cases s.service.hold <;> decide

/-- Settles O42: the conditions one after another, in the order in which they are tested. -/
theorem restoreConditions : Obligations.RestoreConditions := by
  intro s
  rw [← latchedSlot_none, ← readyStart_ne_none, ← cardOffline_none]
  unfold restoreFails
  cases s.safety.active with
  | none => simp
  | some a =>
    cases readyStart s with
    | none => simp
    | some p =>
      cases latchedSlot s.faults with
      | some i => simp
      | none =>
        cases s.line.mains.state with
        | lost => simp
        | valid =>
          cases allCards.find? fun c => s.line.cards[c].configured && !s.line.cards[c].online with
          | some c => simp
          | none =>
            cases feedbackInput s with
            | none => simp
            | some i => simpa using agrees_iff

/-! ### HANDOVER and VOUCH (R157, R167) -/

theorem handoverOp_withdraws {l : Link} {s : State} (h : s.service.state = .handedOver) :
    handoverOp l s = done 0 (modService s fun r => { r with offer := none }) :=
  if_pos (beq_iff_eq.mpr h)

theorem handoverOp_handsOver {l : Link} {s : State} (h : s.service.state ≠ .handedOver) :
    handoverOp l s = done 0 (handover (requestCause l) [] s) :=
  if_neg (by simpa using h)

theorem handover_ports (c : Cause) (detail : List Word16) (s : State) : (handover c detail s).ports = s.ports :=
  (stays_handover c detail s).ports

/-- Settles O45: the cases of handoverOp, from each link. -/
theorem handoverRequest : Obligations.HandoverRequest := by
  intro f s
  refine ⟨fun l h => ?_, fun h => ⟨?_, ?_⟩⟩
  · exact responds_onAnyPorts rfl (by cases l <;> rfl) fun q => handoverOp_withdraws (s := { s with ports := q }) h
  · exact responds_keepingPorts rfl rfl (handover_ports _ _ _)
      (handoverOp_handsOver (l := .plan) (s := receive .plan 0x42 f s) h)
  · exact responds_keepingPorts rfl rfl (handover_ports _ _ _)
      (handoverOp_handsOver (l := .check) (s := receive .check 0x42 f s) h)

section
variable {f : Fields} {s : State}

theorem vouchOp_ignored (h : s.service.state = .handedOver) : vouchOp f s = done 0 s :=
  if_pos (beq_iff_eq.mpr h)

theorem vouchOp_equal (h : s.service.state ≠ .handedOver) (equal : f.value = s.safety.signature) :
    vouchOp f s = done (word s.service.checkPeriod) (modService s fun r => { r with vouch := some r.checkPeriod }) :=
  (if_neg (by simpa using h)).trans (if_pos (beq_iff_eq.mpr equal))

theorem vouchOp_different (h : s.service.state ≠ .handedOver) (different : f.value ≠ s.safety.signature) :
    vouchOp f s = { result := .mismatch, value := 0, state := handover .signatureMismatch [f.value] s } :=
  (if_neg (by simpa using h)).trans (if_neg (by simpa using different))

end

/-- Settles O46: the cases of vouchOp, and the right that the plan link has not. -/
theorem vouchKeepsThePartInService : Obligations.VouchKeepsThePartInService := by
  intro f s
  refine ⟨responds_of_noRight _ _ _ _ _ _ rfl rfl, fun h => ?_, fun h => ⟨fun equal => ?_, fun different => ?_⟩⟩
  · exact responds_onAnyPorts rfl rfl fun q => vouchOp_ignored (s := { s with ports := q }) h
  · exact responds_onAnyPorts rfl rfl fun q => vouchOp_equal (s := { s with ports := q }) h equal
  · exact responds_keepingPorts rfl rfl (handover_ports _ _ _)
      (vouchOp_different (s := receive .check 0x43 f s) h different)

/-! ### The expiries of the timers (R160, R162, R168, R169) -/

theorem changeoverFault_handsOver {s : State} (i : InputId) (h : s.service.state ≠ .handedOver) :
    changeoverFault i s =
      handover .changeoverFault (changeoverDetail s i) { s with service := { s.service with changeover := none } } :=
  if_neg (by simpa using h)

theorem changeoverFault_posts {s : State} (i : InputId) (h : s.service.state = .handedOver) :
    changeoverFault i s =
      post .handover (.cause .changeoverFault) true (some (changeoverDetail s i ++ [0]))
        { s with service := { s.service with changeover := none } } := by
  have code : word (stateCode s.service.state) = 0 := by rw [h]; rfl
  exact (if_pos (beq_iff_eq.mpr h)).trans
    (congrArg (fun w => post .handover (.cause .changeoverFault) true (some (changeoverDetail s i ++ [w])) _) code)

theorem execChangeoverTimerExpiry_due {s : State} (due : s.service.changeover = some 0) :
    execChangeoverTimerExpiry s =
      .next
        (match feedbackInput s with
        | some i => changeoverFault i s
        | none => { s with service := { s.service with changeover := none } }) :=
  congrArg Host.Outcome.next (if_pos (beq_iff_eq.mpr due))

/-- Settles O47: each expiry by whether its timer stands at 0, and the changeover timer's by its input and by the service
state. -/
theorem serviceTimersExpire : Obligations.ServiceTimersExpire := by
  intro s
  refine ⟨?_, ?_, ?_, fun early => ?_, fun due absent => ?_, fun i due fed => ⟨fun awake => ?_, fun stopped => ?_⟩⟩
  · exact congrArg Host.Outcome.next (if_congr beq_iff_eq rfl rfl)
  · exact congrArg Host.Outcome.next (if_congr beq_iff_eq rfl rfl)
  · exact congrArg Host.Outcome.next (if_congr beq_iff_eq rfl rfl)
  · exact congrArg Host.Outcome.next (if_neg (by simpa using early))
  · refine (execChangeoverTimerExpiry_due due).trans ?_
    rw [absent]
  · refine (execChangeoverTimerExpiry_due due).trans ?_
    rw [fed]
    exact congrArg Host.Outcome.next (changeoverFault_handsOver i awake)
  · refine (execChangeoverTimerExpiry_due due).trans ?_
    rw [fed]
    exact congrArg Host.Outcome.next (changeoverFault_posts i stopped)

end Sys2Proof.Machine
end

section
/-! PROOFS. Chapter 8, the changes of service state: HOLD and the timers that follow it, RESTORE, and what a handover
leaves in every block. -/

namespace Sys2Proof.Machine

/-! ### HOLD and the timers that follow it (R154, R160, R169) -/

section
variable {s : State}

theorem feedbackInput_none (h : ∀ i : InputId, s.inputs[i].function ≠ .changeover) : feedbackInput s = none :=
  List.find?_eq_none.mpr fun i _ => by simpa using h i

theorem feedbackInput_only {i : InputId} (h : s.inputs[i].function = .changeover)
    (only : ∀ j : InputId, s.inputs[j].function = .changeover → j = i) : feedbackInput s = some i := by
  cases e : feedbackInput s with
  | none => exact absurd (beq_iff_eq.mpr h) (List.find?_eq_none.mp e i (all16_mem i))
  | some j =>
    have found : (s.inputs[j].function == .changeover) = true :=
      List.find?_some (p := fun k : InputId => s.inputs[k].function == .changeover) e
    rw [only j (beq_iff_eq.mp found)]

/-- With no feedback input the changeover timer is absent whatever HOLD is (R160). -/
theorem driveHold_unfed (b : Bool) (h : ∀ i : InputId, s.inputs[i].function ≠ .changeover) :
    (driveHold b s).service.changeover = none := by
  have unfed : feedbackInput (modService s fun r => { r with hold := b }) = none := feedbackInput_none h
  simp only [driveHold, judgeFeedback, modService_service, unfed]

/-- HOLD driven starts the changeover timer where the one feedback input disagrees with it (R160). -/
theorem driveHold_fed (b : Bool) {i : InputId} (h : s.inputs[i].function = .changeover)
    (only : ∀ j : InputId, s.inputs[j].function = .changeover → j = i) :
    (driveHold b s).service.changeover =
      if (s.inputs[i].level == .closed) == b then none else some Config.changeoverUnits := by
  have fed : feedbackInput (modService s fun r => { r with hold := b }) = some i := feedbackInput_only h only
  simp only [driveHold, judgeFeedback, modService_service, fed]
  rfl

/-- The two-key timer outside HANDED_OVER (R169; log entry 35). -/
theorem judgeKeys_awake (h : s.service.state ≠ .handedOver) :
    (judgeKeys s).service.twoKey =
      if keysClosed s = true then some (s.service.twoKey.getD Config.twoKeyUnits) else none := by
  have awake : (s.service.state != .handedOver) = true := bne_iff_ne.mpr h
  simp only [judgeKeys, modService_service, awake, Bool.true_and]
  cases s.service.twoKey <;> rfl

end

/-! ### Commands and exposures composed afresh (R66, R79) -/

theorem recomposeAll_commanded (s : State) (o : OutputId) :
    (recomposeAll s).proving.outputs[o].commanded = commandOf s o := recompose_commanded rfl s

theorem reexposeAll_exposed (s : State) (g : GroupId) :
    (reexposeAll s).proving.groups[g].exposed = exposedNow (reexposeAll s) g := by
  simp only [reexposeAll, vgen_get]
  rfl

/-! ### RESTORE (R163, R164) -/

section
variable {s : State}

theorem restoreOp_refused (h : s.service.state ≠ .handedOver) : restoreOp s = refuse .refusedState 0 s :=
  if_pos (bne_iff_ne.mpr h)

theorem restoreOp_noOffer (h : s.service.state = .handedOver) (unoffered : s.service.offer = none) :
    restoreOp s = refuse .noOffer 0 s :=
  (if_neg (by simpa using h)).trans (if_pos (by rw [unoffered]; rfl))

theorem restoreOp_offered (h : s.service.state = .handedOver) (offered : s.service.offer ≠ none) :
    restoreOp s =
      match restoreFails s with
      | some (r, v) => refuse r v (modService s fun r => { r with offer := none })
      | none => done 0 (conflictCheck (enterStarting s)) :=
  (if_neg (by simpa using h)).trans ((if_neg (by simpa using offered)).trans rfl)

theorem restoreOp_fails {r : Result} {v : Word16} (h : s.service.state = .handedOver) (offered : s.service.offer ≠ none)
    (fails : restoreFails s = some (r, v)) :
    restoreOp s = refuse r v (modService s fun r => { r with offer := none }) := by
  rw [restoreOp_offered h offered, fails]

theorem restoreOp_starts (h : s.service.state = .handedOver) (offered : s.service.offer ≠ none)
    (met : restoreFails s = none) : restoreOp s = done 0 (conflictCheck (enterStarting s)) := by
  rw [restoreOp_offered h offered, met]

theorem conflictCheck_apart (h : exposedPair s = none) : conflictCheck s = s := by
  unfold conflictCheck
  rw [h]
  split <;> rfl

end

/-- What the entry to STARTING leaves (R164): s before, t after. -/
structure Starts (s t : State) : Prop where
  state : t.service.state = .starting
  hold : t.service.hold = true
  offer : t.service.offer = none
  start : t.service.start = some (activeTable s).startPeriod
  vouch : t.service.vouch = some s.service.checkPeriod
  flsel : t.service.flsel = s.service.flsel
  plans : t.plans = { s.plans with active := s.plans.start }
  unfed : (∀ i : InputId, s.inputs[i].function ≠ .changeover) → t.service.changeover = none
  fed :
    ∀ i : InputId, s.inputs[i].function = .changeover →
      (∀ j : InputId, s.inputs[j].function = .changeover → j = i) →
        t.service.changeover = if s.inputs[i].level = .closed then none else some 5
  keys : t.service.twoKey = if keysClosed s = true then some (s.service.twoKey.getD 10) else none
  phase : t.seq.phase = .startRed
  red : ∀ g : GroupId, t.seq.groups[g].aspect = .red
  commands : ∀ o : OutputId, t.proving.outputs[o].commanded = commandOf t o
  safety : t.safety = s.safety
  stages : t.stages = s.stages
  line : t.line = s.line
  engine : t.engine = s.engine
  cable : t.cable = s.cable
  inputs : t.inputs = s.inputs
  faults : t.faults = s.faults
  pending : t.pending = s.pending

/-- The blocks at the entry to STARTING before they are composed and exposed afresh, with the changeover timer x and the
cycle position y (R164). -/
def startingBlocks (x y : Option Nat) (s : State) : State :=
  { s with
    service :=
      { s.service with
        state := .starting, offer := none, start := some (activeTable s).startPeriod
        vouch := some s.service.checkPeriod, hold := true, changeover := x }
    plans := { s.plans with active := s.plans.start }
    seq := { sequencerStartRed s.seq with position := y } }

/-- The blocks composed and exposed afresh, with the panel keys judged. -/
def startingWith (x y : Option Nat) (s : State) : State :=
  judgeKeys (reexposeAll (recomposeAll (startingBlocks x y s)))

theorem enterStarting_eq (s : State) : ∃ y, enterStarting s = startingWith (driveHold true s).service.changeover y s :=
  ⟨_, rfl⟩

theorem startingWith_commands (x y : Option Nat) (s : State) (o : OutputId) :
    (startingWith x y s).proving.outputs[o].commanded = commandOf (startingWith x y s) o :=
  recomposeAll_commanded (startingBlocks x y s) o

theorem startingWith_keys (x y : Option Nat) (s : State) :
    (startingWith x y s).service.twoKey = if keysClosed s = true then some (s.service.twoKey.getD 10) else none :=
  judgeKeys_awake (s := reexposeAll (recomposeAll (startingBlocks x y s))) nofun

theorem starts_startingWith {x y : Option Nat} {s : State}
    (unfed : (∀ i : InputId, s.inputs[i].function ≠ .changeover) → x = none)
    (fed : ∀ i : InputId, s.inputs[i].function = .changeover →
      (∀ j : InputId, s.inputs[j].function = .changeover → j = i) →
        x = if s.inputs[i].level = .closed then none else some 5) : Starts s (startingWith x y s) where
  state := rfl
  hold := rfl
  offer := rfl
  start := rfl
  vouch := rfl
  flsel := rfl
  plans := rfl
  unfed := unfed
  fed := fed
  keys := startingWith_keys x y s
  phase := rfl
  red g := by
    show (sequencerStartRed s.seq).groups[g].aspect = .red
    simp only [sequencerStartRed, vgen_get]
    rfl
  commands := startingWith_commands x y s
  safety := rfl
  stages := rfl
  line := rfl
  engine := rfl
  cable := rfl
  inputs := rfl
  faults := rfl
  pending := rfl

theorem starts_enterStarting (s : State) : Starts s (enterStarting s) := by
  obtain ⟨y, e⟩ := enterStarting_eq s
  rw [e]
  exact starts_startingWith (driveHold_unfed true) fun i h only =>
    (driveHold_fed true h only).trans (if_congr (by simp) rfl rfl)

/-- Settles O43: the cases of restoreOp, and the entry to STARTING, which the conflict check leaves where no two
conflicting groups are exposed. -/
theorem restoreStartsThePart : Obligations.RestoreStartsThePart := by
  intro f s
  refine ⟨fun h => ?_, fun h unoffered => ?_, fun h offered => ⟨fun r v fails => ?_, fun met => ?_⟩⟩
  · exact responds_onAnyPorts rfl rfl fun q => restoreOp_refused (s := { s with ports := q }) h
  · exact responds_onAnyPorts rfl rfl fun q => restoreOp_noOffer (s := { s with ports := q }) h unoffered
  · exact responds_onAnyPorts rfl rfl fun q => restoreOp_fails (s := { s with ports := q }) h offered fails
  · have handled : restoreOp (receive .plan 0x41 f s) = done 0 (conflictCheck (enterStarting (receive .plan 0x41 f s))) :=
      restoreOp_starts (s := receive .plan 0x41 f s) h offered met
    obtain ⟨t, row, answered, rest⟩ :=
      responds_keepingPorts (i := .restore .plan f) (handle := restoreOp) rfl rfl
        (stays_conflictCheck (enterStarting (receive .plan 0x41 f s))).ports handled
    refine ⟨⟨t, row, answered⟩, fun apart => ⟨t, row, answered, ?_⟩⟩
    have stayed : conflictCheck (enterStarting (receive .plan 0x41 f s)) = enterStarting (receive .plan 0x41 f s) :=
      conflictCheck_apart (s := enterStarting (receive .plan 0x41 f s)) apart
    rw [stayed] at rest
    have e := starts_enterStarting (receive .plan 0x41 f s)
    rw [rest]
    exact ⟨e.state, e.hold, e.offer, e.start, e.vouch, e.flsel, e.plans, e.unfed, e.fed, e.keys, e.phase, e.red,
      e.commands, e.safety, e.stages, e.line, e.engine, e.cable, e.inputs, e.faults, e.pending⟩

end Sys2Proof.Machine
end

section
/-! PROOFS. Chapter 8, the handover: the records it posts, and what it leaves in every block. -/

namespace Sys2Proof.Machine

/-! ### The kind and subject of each slot's record (R184 to R191) -/

/-- What a slot's record is of. -/
def nameAt (t : FaultTable) (i : SlotId) : Option (FaultKind × Subject) := t.slots[i].map fun r => (r.kind, r.subject)

theorem nameAt_congr {t u : FaultTable} (h : u.slots = t.slots) (i : SlotId) : nameAt u i = nameAt t i := by
  rw [nameAt, h, nameAt]

/-- A record of a kind and subject is found exactly where a slot's is of them. -/
theorem findRecord_ne_none {t : FaultTable} {k : FaultKind} {x : Subject} :
    findRecord t k x ≠ none ↔ ∃ i, nameAt t i = some (k, x) := by
  constructor
  · intro found
    obtain ⟨i, at_⟩ := Option.ne_none_iff_exists'.mp found
    obtain ⟨r, held, rfl, rfl⟩ := findRecord_some at_
    exact ⟨i, by rw [nameAt, held]; rfl⟩
  · rintro ⟨i, named⟩ missing
    obtain ⟨r, held, name⟩ := Option.map_eq_some_iff.mp named
    exact findRecord_none missing i r held (Prod.mk.inj name)

theorem nameAt_modRecord {f : Record → Record} (h : ∀ r, (f r).kind = r.kind ∧ (f r).subject = r.subject)
    (t : FaultTable) (i j : SlotId) : nameAt (modRecord t i f) j = nameAt t j := by
  rw [nameAt, modRecord_get, nameAt]
  split
  · cases t.slots[j] with
    | none => rfl
    | some r =>
      obtain ⟨kind, subject⟩ := h r
      simp [kind, subject]
  · rfl

theorem nameAt_settleRecord (clock : Nat) (i : SlotId) (t : FaultTable) (j : SlotId) :
    nameAt (settleRecord clock i t) j = nameAt t j := by
  unfold settleRecord
  split
  · rfl
  · split
    · exact nameAt_modRecord (f := fun r => { r with active := false, lastTime := clock, seen := ⟨false, false⟩ })
        (fun _ => ⟨rfl, rfl⟩) t i j
    · rfl

theorem nameAt_endSlot (clock : Nat) (i : SlotId) (t : FaultTable) (j : SlotId) :
    nameAt (endSlot clock i t) j = nameAt t j :=
  (nameAt_settleRecord clock i _ j).trans (nameAt_modRecord (fun r => by split <;> exact ⟨rfl, rfl⟩) t i j)

/-- The end of a condition changes what no slot's record is of (R188). -/
theorem nameAt_endRecord (clock : Nat) (k : FaultKind) (x : Subject) (t : FaultTable) (j : SlotId) :
    nameAt (endRecord clock k x t) j = nameAt t j := by
  unfold endRecord
  split
  · exact nameAt_endSlot clock _ t j
  · rfl

/-- What a posting makes of the slots (R186, R187, R191): one holds its record and every other is as it was, or there is
none for it and the table overflows. -/
structure PostedAt (k : FaultKind) (x : Subject) (t u : FaultTable) (i : SlotId) : Prop where
  own : nameAt u i = some (k, x)
  others : ∀ j, j ≠ i → nameAt u j = nameAt t j

theorem postRecord_names (clock : Nat) (k : FaultKind) (x : Subject) (latched : Bool) (detail : Option (List Word16))
    (t : FaultTable) :
    (∃ i, PostedAt k x t (postRecord clock k x latched detail t) i) ∨
      postRecord clock k x latched detail t = { t with overflow := true } := by
  have ended (i j : SlotId) (u : FaultTable) :
      nameAt (judgeLines (if endsAtPosting k then endSlot clock i u else u)) j = nameAt u j := by
    split
    · exact nameAt_endSlot clock i u j
    · rfl
  unfold postRecord
  cases found : findRecord t k x with
  | some i =>
    obtain ⟨r, held, kind, subject⟩ := findRecord_some found
    have kept (j : SlotId) := nameAt_modRecord (f := reoccurred clock latched detail) (fun _ => ⟨rfl, rfl⟩) t i j
    refine Or.inl ⟨i, (ended i i _).trans ((kept i).trans ?_), fun j _ => (ended i j _).trans (kept j)⟩
    rw [nameAt, held, ← kind, ← subject]
    rfl
  | none =>
    dsimp only
    split
    case h_1 i _ =>
      have placed (j : SlotId) := vset_get t.slots i j (some (newRecord clock k x latched (detail.getD [])))
      refine Or.inl ⟨i, (ended i i _).trans ?_, fun j ne => (ended i j _).trans ?_⟩
      · rw [nameAt, placed, if_pos rfl]
        rfl
      · rw [nameAt, placed, if_neg ne.symm, nameAt]
    case h_2 => exact Or.inr rfl

/-- After a posting its record stands, or the table has overflowed (R191). -/
theorem postRecord_stands (clock : Nat) (k : FaultKind) (x : Subject) (latched : Bool) (detail : Option (List Word16))
    (t : FaultTable) :
    findRecord (postRecord clock k x latched detail t) k x ≠ none ∨
      (postRecord clock k x latched detail t).overflow = true := by
  rcases postRecord_names clock k x latched detail t with ⟨i, posted⟩ | dropped
  · exact Or.inl (findRecord_ne_none.mpr ⟨i, posted.own⟩)
  · exact Or.inr (by rw [dropped])

/-! ### The handover (R155, R156) -/

section
variable {s : State}

/-- With no output in LIT_UNWANTED no HANDOVER_UNPROVEN is posted (R159). -/
theorem postAllUnproven_none (h : ∀ o : OutputId, s.proving.outputs[o].state ≠ .litUnwanted) :
    postAllUnproven s = s := by
  refine eachOf_keeps (P := fun u => u = s) _ _ (fun o u hu => ?_) s rfl
  rw [hu]
  exact if_neg (by simpa using h o)

theorem handover_record (c : Cause) (detail : List Word16) (h : s.service.state ≠ .handedOver)
    (proven : ∀ o : OutputId, s.proving.outputs[o].state ≠ .litUnwanted) :
    findRecord (handover c detail s).faults .handover (.cause c) ≠ none ∨
      (handover c detail s).faults.overflow = true := by
  unfold handover
  rw [if_neg (by simpa using h), postAllUnproven_none fun o => ?_]
  · exact postRecord_stands _ _ _ _ _ _
  · have kept := (stays_handoverBlocks s).trans (stays_abandonAll _)
    rw [post_proving, kept.outputs o]
    exact proven o

/-- The blocks as a handover stops them, with the changeover timer x, before they are composed and exposed afresh. -/
def stoppedBlocks (x : Option Nat) (s : State) : State :=
  { s with
    service :=
      { s.service with
        state := .handedOver, hold := false, start := none, vouch := none, twoKey := none, changeover := x }
    seq := sequencerStopped s.seq
    plans := { s.plans with active := none, pending := none } }

theorem handoverBlocks_eq (s : State) :
    handoverBlocks s = reexposeAll (recomposeAll (stoppedBlocks (driveHold false s).service.changeover s)) := rfl

theorem handover_service (c : Cause) (detail : List Word16) (h : s.service.state ≠ .handedOver) :
    (handover c detail s).service =
      { s.service with
        state := .handedOver, hold := false, start := none, vouch := none, twoKey := none
        changeover := (driveHold false s).service.changeover } := by
  rw [handover_eq c detail s h]
  rfl

theorem handover_proving (c : Cause) (detail : List Word16) (h : s.service.state ≠ .handedOver) :
    (handover c detail s).proving =
      (reexposeAll (recomposeAll (stoppedBlocks (driveHold false s).service.changeover s))).proving := by
  rw [handover_eq c detail s h]
  rfl

theorem handover_commanded (c : Cause) (detail : List Word16) (h : s.service.state ≠ .handedOver) (o : OutputId) :
    (handover c detail s).proving.outputs[o].commanded = false := by
  rw [handover_proving c detail h]
  generalize (driveHold false s).service.changeover = x
  exact (recomposeAll_commanded (stoppedBlocks x s) o).trans (commandOf_handedOver (s := stoppedBlocks x s) rfl o)

theorem handover_exposed (c : Cause) (detail : List Word16) (h : s.service.state ≠ .handedOver) (g : GroupId) :
    (handover c detail s).proving.groups[g].exposed = exposedNow (handover c detail s) g := by
  have proving := handover_proving c detail h
  generalize (driveHold false s).service.changeover = x at proving
  rw [proving, reexposeAll_exposed]
  refine (exposedNow_congr (s := reexposeAll (recomposeAll (stoppedBlocks x s))) (handover_state c detail s)
    (congrArg SafetyUnit.active (stays_handover c detail s).safety) g ?_ fun o => ?_).symm
  · rw [handover_seq c detail s h]
    rfl
  · rw [proving]

/-- Each group as a handover leaves it (R126). -/
theorem handover_group (c : Cause) (detail : List Word16) (h : s.service.state ≠ .handedOver) (g : GroupId) :
    (handover c detail s).seq.groups[g] = { groupStopped s.seq.units s.seq.groups[g] with hold := 0 } := by
  rw [handover_seq c detail s h]
  exact vgen_get _ g

end

/-- Settles O44: what handover_eq keeps of each block, and the HANDOVER record that it posts last where every output is
proven off. -/
theorem handoverTakesEveryBlock : Obligations.HandoverTakesEveryBlock := by
  rintro c detail s t rfl
  refine ⟨handover_same c detail s, fun h => ?_⟩
  have kept := stays_handover c detail s
  have service := handover_service c detail h
  have seq := handover_seq c detail s h
  rw [service, seq]
  refine ⟨rfl, rfl, rfl, rfl, rfl, rfl, rfl, driveHold_unfed false, fun i fed only => ?_, handover_commanded c detail h,
    fun g => ⟨handover_exposed c detail h g, kept.reds g⟩, rfl, fun g => ?_, rfl, rfl, rfl, rfl, rfl, rfl,
    handover_plans c detail s h, handover_free c detail s h, handover_record c detail h, kept.safety, kept.stages,
    kept.inputs, kept.line, kept.engine, kept.cards, kept.feeders, kept.ports, kept.pending⟩
  · refine (driveHold_fed false fed only).trans ?_
    cases s.inputs[i].level <;> rfl
  · rw [← seq, handover_group c detail h g]
    exact ⟨rfl, rfl, rfl, rfl⟩

end Sys2Proof.Machine
end

section
/-! PROOFS. Chapter 8, the start check: without a RED_LOSS and with no two conflicting groups exposed, nothing in the start
of service hands over. -/

namespace Sys2Proof.Machine

/-! ### A part in SERVICE that nothing hands over (R80, R146) -/

/-- In SERVICE, with no two conflicting groups exposed and no group in RED_LOSS. -/
structure Quiet (s : State) : Prop where
  live : Live (fun _ => True) s
  lossless : ∀ g : GroupId, s.proving.groups[g].red ≠ .loss

section
variable {s : State}

/-- What a decision event leaves, and a state still in SERVICE with its invariant, is quiet again. -/
theorem Quiet.stays {t : State} (h : Quiet s) (k : Stays s t) (l : Live (fun _ => True) t) : Quiet t :=
  ⟨l, fun g => k.reds g ▸ h.lossless g⟩

/-- A decision event that ends in SERVICE has left the service controller as it was. -/
theorem Quiet.service {t : State} (h : Quiet t) (k : Stays s t) : t.service = s.service :=
  k.handed.resolve_right fun e => by rw [h.live.state] at e; cases e

theorem PartOn.quiet {t : State} (p : PartOn (fun _ => True) t) (h : Quiet s) (k : Stays s t)
    (same : t.service = s.service) : Quiet t :=
  h.stays k (p.live (same ▸ h.live.state))

theorem exposedPair_none (h : ∀ l g : GroupId, l ≠ g → conflict s l g = true →
    ¬(s.proving.groups[l].exposed = true ∧ s.proving.groups[g].exposed = true)) : exposedPair s = none := by
  refine List.find?_eq_none.mpr fun p _ both => ?_
  simp only [Bool.and_eq_true, decide_eq_true_eq] at both
  obtain ⟨⟨⟨below, conflicts⟩, first⟩, second⟩ := both
  exact h p.1 p.2 (ne_of_lt below) conflicts ⟨first, second⟩

/-- With no group in RED_LOSS no set is barred (R136). -/
theorem barredSet_lossless (h : ∀ g : GroupId, s.proving.groups[g].red ≠ .loss) (x : Set16) : barredSet s x = false := by
  have clear (g : GroupId) : facesLoss s g = false := by
    simp [facesLoss, -Fin.getElem_fin, h]
  simp [barredSet, clear]

/-! ### Greens (R130, R131) -/

/-- A group taken to GREEN while every group in conflict with it is dark exposes no conflicting pair (R131). -/
theorem Live.green {Q : OutputId → Prop} {g : GroupId} (h : Live Q s) (dark : conflictsDark s g = true) :
    Live Q (Machine.setAspect g .green s) := by
  refine ⟨h.toLiveBut.setAspect g .green, fun l k ne conflicts both => ?_⟩
  have conflicts : conflict s l k = true := (conflict_congr (by simp) l k).symm.trans conflicts
  have hidden {m : GroupId} (against : conflict s m g = true) : s.proving.groups[m].exposed ≠ true := fun shown => by
    have free := List.all_eq_true.mp dark m (all16_mem m)
    rw [against, shown] at free
    cases free
  rw [setAspect_exposed, setAspect_exposed] at both
  by_cases left : g = l
  · subst left
    rw [if_neg ne] at both
    exact hidden (conflict_symm s k g ▸ conflicts) both.2
  · rw [if_neg left] at both
    by_cases right : g = k
    · subst right
      exact hidden conflicts both.1
    · rw [if_neg right] at both
      exact h.apart l k ne conflicts both

theorem Quiet.tryGreen (h : Quiet s) (g : GroupId) : Quiet (tryGreen g s) := by
  refine h.stays (stays_tryGreen g s) ?_
  unfold Machine.tryGreen
  split
  case isFalse => exact h.live
  case isTrue due =>
    obtain ⟨-, dark⟩ := Bool.and_eq_true_iff.mp due
    have green := (h.live.green dark).modGroup g
      (fun r => { r with redAmberAt := none, greenAt := none, deadline := none }) fun _ => rfl
    rw [conflictCheck_apart (exposedPair_none green.apart)]
    exact green

theorem Quiet.tryRedAmber (h : Quiet s) (g : GroupId) : Quiet (tryRedAmber g s) := by
  refine h.stays (stays_tryRedAmber g s) ?_
  unfold Machine.tryRedAmber
  split
  · exact (h.live.setAspect g .redAmber (by decide)).modGroup g _ fun _ => rfl
  · exact h.live

/-! ### Interstages and completions (R129 to R132) -/

theorem Quiet.departed (h : Quiet s) (t : Target) : Quiet (departed t s) := by
  have entered : Quiet (modSeq s (enterInterstage t)) :=
    h.stays (stays_modSeq s _ rfl rfl) (h.live.modSeq _ (fun _ => rfl) h.live.calls)
  refine eachOf_keeps (P := Quiet) _ _ (fun g u hu => ?_) _ (eachOf_keeps (P := Quiet) _ _ (fun g u hu => ?_) _ entered)
  · split
    · exact hu.stays (stays_schedule g u) (hu.live.modGroup g _ fun _ => rfl)
    · exact hu
  · split
    · exact hu.stays (stays_endGreen g u) (hu.live.endGreen g)
    · exact hu

theorem Quiet.runInterstage (h : Quiet s) (t : Target) : Quiet (runInterstage t s) :=
  eachOf_keeps _ _ (fun g _ hu => hu.tryGreen g) _
    (eachOf_keeps _ _ (fun g _ hu => hu.tryRedAmber g) _ (h.departed t))

theorem Quiet.leaving (h : Quiet s) (t : Target) (losing : Set16) : Quiet (leaving t losing s) := by
  have posted : Quiet (postOverrun t losing s) := h.stays (stays_postOverrun t losing s) (h.live.postOverrun t losing)
  cases t with
  | s0 => exact posted
  | call g => exact posted
  | step n g =>
    change Quiet (if transferDue _ then takeTransfer _ else _)
    split
    · exact posted.stays (stays_takeTransfer _) posted.live.takeTransfer
    · exact posted

theorem Quiet.terminate (h : Quiet s) (t : Target) (losing : Set16) : Quiet (terminate t losing s) := by
  rw [terminate_eq, ← runInterstage_eq]
  exact (h.leaving t losing).runInterstage t

theorem Quiet.complete (h : Quiet s) (t : Target) : Quiet (complete t s) :=
  (h.live.complete t).quiet h (stays_complete t s) (by rw [complete_frame])

theorem Quiet.settle (h : Quiet s) (decide : State → State) (hd : ∀ u, Quiet u → Quiet (decide u)) :
    Quiet (settle decide s) := by
  unfold Machine.settle
  split
  · split
    · split
      · dsimp only
        split
        · exact hd _ (h.complete _)
        · exact h.complete _
      · exact h
    · split
      · exact hd _ (h.live.completeResidual.quiet h (stays_completeResidual s) rfl)
      · exact h
  · exact h

/-! ### Decisions (R133 to R137) -/

theorem takeStep_service (n : StepNo) (g : StageId) (s : State) : (takeStep n g s).service = s.service := by
  obtain ⟨plans, position, taken⟩ := transferred_frame s
  have started : (startStep n (transferred s)).service = s.service := by
    rw [taken, startStep]
    split <;> rfl
  obtain ⟨calls, service, e⟩ := callIntoService_frame g (modSeq (startStep n (transferred s)) fun q =>
    { q with latches := setDrop q.latches g, service := q.service.filter (·.stage == g) })
  exact (congrArg State.service e).trans started

theorem Quiet.endToward (h : Quiet s) (phase : s.seq.phase = .stage) (next : State → State)
    (hn : ∀ u, Quiet u → Quiet (next u)) (barred : Bool) (t : Target) (losing : Set16) :
    Quiet (endToward next barred t losing s) := by
  unfold Machine.endToward
  split
  · split
    · split
      · exact (h.live.takeStep phase _ _).quiet h (stays_takeStep _ _ _) (takeStep_service _ _ _)
      · exact h
    · exact h
  · split
    · exact (h.terminate t losing).settle next hn
    · exact h

theorem Quiet.decideOnce (h : Quiet s) (next : State → State) (hn : ∀ u, Quiet u → Quiet (next u)) :
    Quiet (decideOnce next s) := by
  rw [decideOnce_eq]
  split
  case isFalse => exact h
  case isTrue phase =>
    unfold afterChoice
    split
    · rw [barredSet_lossless h.lossless]
      exact h
    case h_2 t _ =>
      obtain ⟨r, e⟩ := holdResume_frame t (barredSet s s.seq.current) s
      have resumed : Quiet (resuming r s) :=
        h.stays (stays_modSeq s _ rfl rfl) (h.live.modSeq _ (fun _ => rfl) h.live.calls)
      rw [decideToward, e]
      exact resumed.endToward (eq_of_beq phase) next hn _ t _

theorem Quiet.decision (h : Quiet s) : Quiet (decision s) := by
  have upTo (n : Nat) : ∀ u, Quiet u → Quiet (decideUpTo n u) := by
    induction n with
    | zero => exact fun _ hu => hu
    | succ n ih => exact fun u hu => hu.decideOnce _ ih
  exact upTo 8 s h

theorem Quiet.settled (h : Quiet s) : Quiet (settled s) := h.settle _ fun _ hu => hu.decision

/-! ### The start of service (R151, R165) -/

theorem Quiet.startService (h : Quiet s) : Quiet (startService s) := by
  have emptied : Quiet (modSeq s fun q => { q with current := 0, resume := some 0 }) :=
    h.stays (stays_modSeq s _ rfl rfl) (h.live.modSeq _ (fun _ => rfl) h.live.calls)
  unfold Machine.startService
  dsimp only
  split
  · exact (emptied.runInterstage _).settled
  · exact emptied.stays (stays_modSeq _ _ rfl rfl) (emptied.live.modSeq _ (fun _ => rfl) emptied.live.calls)

theorem stays_startService (s : State) : Stays s (startService s) := by
  unfold startService
  dsimp only
  refine (stays_modSeq s (fun q => { q with current := 0, resume := some 0 }) rfl rfl).trans ?_
  split
  · exact (stays_runInterstage _ _).trans (stays_settled _)
  · exact stays_modSeq _ _ rfl rfl

/-- The service controller as the passed start check leaves it, before the sequencer starts (R165). -/
def servedState (s : State) : State := { s with service := { s.service with start := none, state := .service } }

theorem stays_afresh (s : State) : Stays s (reexposeAll (recomposeAll s)) :=
  (stays_recompose _ s).trans (stays_reexposeAll _)

theorem quiet_served (h : PartOk s) (starting : s.service.state = .starting)
    (lossless : ∀ g : GroupId, s.proving.groups[g].red ≠ .loss) : Quiet (reexposeAll (recomposeAll (servedState s))) :=
  ⟨h.served starting rfl, fun g => by
    rw [(stays_afresh (servedState s)).reds g]
    exact lossless g⟩

/-! ### The start check (R165) -/

theorem startFails_none (h : ∀ g : GroupId, redCount s g = 0 ∨ s.proving.groups[g].red = .ok) : startFails s = none := by
  refine List.find?_eq_none.mpr fun g _ failing => ?_
  obtain ⟨used, unproved⟩ := Bool.and_eq_true_iff.mp failing
  have used : 0 < redCount s g := of_decide_eq_true used
  exact (h g).elim (fun none => absurd used (none ▸ Nat.lt_irrefl 0)) fun ok => by rw [ok] at unproved; cases unproved

theorem startFails_first {g : GroupId} (used : 0 < redCount s g) (unproved : s.proving.groups[g].red ≠ .ok)
    (before : ∀ h : GroupId, h < g → redCount s h = 0 ∨ s.proving.groups[h].red = .ok) : startFails s = some g := by
  refine List.find?_eq_some_iff_getElem.mpr ⟨by simp [-Fin.getElem_fin, used, unproved], g.val, by simp [all16],
    by simp [all16], fun j below => ?_⟩
  have earlier := before ⟨j, by omega⟩ below
  simp only [all16, List.getElem_finRange, Fin.cast_mk]
  rcases earlier with none | ok
  · simp [none]
  · rw [ok]
    simp

theorem startCheck_fails {g : GroupId} (fails : startFails s = some g) :
    startCheck s =
      handover .startFailed [word (number g), word (redCode s.proving.groups[g].red)]
        { s with service := { s.service with start := none } } := by
  have fails : startFails (modService s fun r => { r with start := none }) = some g := fails
  simp only [startCheck, fails]
  rfl

theorem startCheck_passes (passes : startFails s = none) :
    startCheck s = startService (reexposeAll (recomposeAll (servedState s))) := by
  have passes : startFails (modService s fun r => { r with start := none }) = none := passes
  simp only [startCheck, passes]
  rfl

theorem execStartTimerExpiry_due (starting : s.service.state = .starting) (due : s.service.start = some 0) :
    exec .startTimerExpiry s = .next (startCheck s) := by
  have met : (s.service.state == .starting && s.service.start == some 0) = true := by rw [starting, due]; decide
  exact congrArg Host.Outcome.next (if_pos met)

end

/-- Settles O48: the first red not proved decides a failed check; a passed one starts the service from a quiet state, and
what follows stays quiet. -/
theorem startCheckDecidesTheService : Obligations.StartCheckDecidesTheService := by
  intro s
  refine ⟨fun early => ?_, fun starting due => ⟨fun g used unproved before => ?_, fun h proved => ?_⟩⟩
  · refine congrArg Host.Outcome.next (if_neg fun met => ?_)
    obtain ⟨starting, due⟩ := Bool.and_eq_true_iff.mp met
    exact early.elim (fun n => n (eq_of_beq starting)) fun n => n (eq_of_beq due)
  · rw [execStartTimerExpiry_due starting due, startCheck_fails (startFails_first used unproved before)]
  · have checked : startCheck s = startService (reexposeAll (recomposeAll (servedState s))) :=
      startCheck_passes (startFails_none fun g => (proved g).2)
    have quiet := (quiet_served h starting fun g => (proved g).1).startService
    have kept := (stays_afresh (servedState s)).trans (stays_startService _)
    have service : (startCheck s).service = { s.service with state := .service, start := none } := by
      rw [checked]
      exact quiet.service kept
    have part : PartOk (startCheck s) := h.startCheck starting
    refine ⟨startCheck s, execStartTimerExpiry_due starting due, service, ?_, part.service.serving (by rw [service]), ?_⟩
    · rw [part.outputs.1, service]
      rfl
    · rw [checked]
      exact ⟨kept.ports, kept.safety, kept.stages, kept.line, kept.engine, kept.inputs, kept.plans, kept.pending⟩

end Sys2Proof.Machine
end

section
/-! PROOFS. Chapter 8, SERVICE RESTART: the records it leaves, and the outputs of SILENT cards that it takes to
SENSE_LOST. -/

namespace Sys2Proof.Machine

/-! ### Records posted afresh (R48, R182, R197) -/

/-- The kinds of the records that stand after SERVICE RESTART. -/
def PostedAfresh (k : FaultKind) : Prop :=
  k = .lineDegraded ∨ k = .lineJammed ∨ k = .doorOpen ∨ k = .redLoss ∨ k = .redDegraded

/-- A table of such records alone, with the thresholds of t. -/
structure AfreshTable (t u : FaultTable) : Prop where
  kinds : ∀ i k x, nameAt u i = some (k, x) → PostedAfresh k
  thresholds : ∀ l, (u.attention.get l).threshold = (t.attention.get l).threshold

theorem judgeLines_threshold (t : FaultTable) (l : Link) :
    ((judgeLines t).attention.get l).threshold = (t.attention.get l).threshold := by rw [judgeLines_attention]

theorem endSlot_attention (clock : Nat) (i : SlotId) (t : FaultTable) : (endSlot clock i t).attention = t.attention := by
  unfold endSlot settleRecord
  split
  · rfl
  · split <;> rfl

theorem endRecord_threshold (clock : Nat) (k : FaultKind) (x : Subject) (t : FaultTable) (l : Link) :
    ((endRecord clock k x t).attention.get l).threshold = (t.attention.get l).threshold := by
  unfold endRecord
  split
  · rw [judgeLines_threshold, endSlot_attention]
  · rfl

theorem postRecord_threshold (clock : Nat) (k : FaultKind) (x : Subject) (latched : Bool)
    (detail : Option (List Word16)) (t : FaultTable) (l : Link) :
    ((postRecord clock k x latched detail t).attention.get l).threshold = (t.attention.get l).threshold := by
  have ended (i : SlotId) (u : FaultTable) :
      ((judgeLines (if endsAtPosting k then endSlot clock i u else u)).attention.get l).threshold =
        (u.attention.get l).threshold := by
    rw [judgeLines_threshold]
    split
    · rw [endSlot_attention]
    · rfl
  unfold postRecord
  cases findRecord t k x with
  | some i => exact ended i _
  | none =>
    dsimp only
    split
    · exact ended _ _
    · rfl

section
variable {t u : FaultTable}

theorem AfreshTable.post (h : AfreshTable t u) {k : FaultKind} (afresh : PostedAfresh k) (clock : Nat) (x : Subject)
    (latched : Bool) (detail : Option (List Word16)) : AfreshTable t (postRecord clock k x latched detail u) := by
  refine ⟨fun j m y named => ?_, fun l => (postRecord_threshold clock k x latched detail u l).trans (h.thresholds l)⟩
  rcases postRecord_names clock k x latched detail u with ⟨i, posted⟩ | dropped
  · by_cases own : j = i
    · rw [own, posted.own] at named
      obtain ⟨rfl, -⟩ := Prod.mk.inj (Option.some.inj named)
      exact afresh
    · exact h.kinds j m y ((posted.others j own).symm.trans named)
  · rw [dropped] at named
    exact h.kinds j m y named

theorem AfreshTable.ended (h : AfreshTable t u) (clock : Nat) (k : FaultKind) (x : Subject) :
    AfreshTable t (endRecord clock k x u) :=
  ⟨fun j m y named => h.kinds j m y ((nameAt_endRecord clock k x u j).symm.trans named),
    fun l => (endRecord_threshold clock k x u l).trans (h.thresholds l)⟩

theorem afreshTable_empty (t : FaultTable) : AfreshTable (emptyTable t) (emptyTable t) where
  kinds i k x named := by
    have free : (emptyTable t).slots[i] = none := replicate_get _ i
    rw [nameAt, free] at named
    cases named
  thresholds _ := rfl

/-- The records of a change of red status are such records (R78). -/
theorem AfreshTable.redRecords {s : State} (h : AfreshTable t s.faults) (g : GroupId) (old new : RedStatus) :
    AfreshTable t (redRecords g old new s).faults := by
  have degraded : PostedAfresh .redDegraded := Or.inr (Or.inr (Or.inr (Or.inr rfl)))
  have loss : PostedAfresh .redLoss := Or.inr (Or.inr (Or.inr (Or.inl rfl)))
  cases new with
  | untested => exact (h.ended _ _ _).ended _ _ _
  | ok => exact (h.ended _ _ _).ended _ _ _
  | degraded =>
    rw [redRecords_degraded]
    split
    · exact (h.post degraded _ _ _ _).ended _ _ _
    · exact h.post degraded _ _ _ _
  | loss =>
    rw [redRecords_loss]
    split
    · exact (h.post loss _ _ _ _).ended _ _ _
    · exact h.post loss _ _ _ _

end

/-! ### A red status set while the sequencer is stopped (R78, R145) -/

/-- The state with other proving fields, bars and fault table. -/
def reproved (p : Proving) (bars : Set16) (faults : FaultTable) (s : State) : State :=
  { s with proving := p, seq := { s.seq with bars := bars }, faults := faults }

theorem setRed_stopped {g : GroupId} {r : RedStatus} {s : State} (stopped : s.seq.phase = .stopped) :
    ∃ bars, setRed g r s =
      reproved { s.proving with groups := vmod s.proving.groups g fun q => { q with red := r } } bars
        (setRed g r s).faults s := by
  by_cases held : r = s.proving.groups[g].red
  · have same : vmod s.proving.groups g (fun q => { q with red := r }) = s.proving.groups :=
      vmod_id (by rw [held])
    rw [setRed_held held, same]
    exact ⟨s.seq.bars, rfl⟩
  · rw [setRed_changed held, redRecords_eq, redStatusChanged_stopped (by exact stopped)]
    exact ⟨_, rfl⟩

theorem AfreshTable.setRed {t : FaultTable} {s : State} (h : AfreshTable t s.faults) (stopped : s.seq.phase = .stopped)
    (g : GroupId) (r : RedStatus) : AfreshTable t (setRed g r s).faults := by
  by_cases held : r = s.proving.groups[g].red
  · rw [setRed_held held]
    exact h
  · rw [setRed_changed held, redStatusChanged_stopped (by rw [redRecords_eq]; exact stopped)]
    exact AfreshTable.redRecords (s := modGroupProof s g fun q => { q with red := r }) h g _ r

/-! ### The red statuses that SERVICE RESTART leaves (R77, R82) -/

/-- A group's red status where no red has been tested since: by how many of its used reds are dark. -/
def redByDark (s : State) (g : GroupId) : RedStatus :=
  if redDark s g = 0 then .untested else if redDark s g = redCount s g then .loss else .degraded

theorem redOutputs_congr {s t : State} (h : t.safety.active = s.safety.active) (g : GroupId) :
    redOutputs t g = redOutputs s g := by
  unfold redOutputs serves
  simp only [outRec_congr h]

theorem redByDark_congr {s t : State} {g : GroupId} (h : t.safety.active = s.safety.active)
    (same : ∀ o ∈ redOutputs s g, isDark t o = isDark s o) : redByDark t g = redByDark s g := by
  have dark : redDark t g = redDark s g := by
    rw [redDark, darkReds, redOutputs_congr h, List.filter_congr same, redDark, darkReds]
  have count : redCount t g = redCount s g := congrArg List.length (redOutputs_congr h g)
  rw [redByDark, dark, count, redByDark]

/-- A dark red decides its group's evaluation (R76). -/
theorem redOutcome_dark {s : State} {g : GroupId} {o : OutputId} (red : o ∈ redOutputs s g) (dark : isDark s o = true) :
    redOutcome s g = redByDark s g := by
  have used : redCount s g ≠ 0 := Nat.ne_of_gt (List.length_pos_of_mem red)
  have shown : redDark s g ≠ 0 := Nat.ne_of_gt (List.length_pos_of_mem (List.mem_filter.mpr ⟨red, dark⟩))
  rw [redOutcome, if_neg used, redByDark, if_neg shown]
  exact if_congr Iff.rfl rfl (if_pos (Nat.pos_of_ne_zero shown))

/-! ### Outputs of SILENT cards (R74, R82) -/

/-- What holds while SERVICE RESTART takes the outputs of SILENT cards to SENSE_LOST, from the state v of its restarts: the
sequencer stopped, every output UNPROVED or in SENSE_LOST, the exposures and the red statuses of the groups that meet a
test as these give them, and no more than the records posted afresh. -/
structure Restarting (G : GroupId → Prop) (v t : State) : Prop where
  stopped : t.seq.phase = .stopped
  frame : ∃ bars, t = reproved t.proving bars t.faults v
  outputs : ∀ o : OutputId,
    t.proving.outputs[o] = { v.proving.outputs[o] with state := t.proving.outputs[o].state }
  states : ∀ o : OutputId, t.proving.outputs[o].state = .unproved ∨ t.proving.outputs[o].state = .senseLost
  exposed : ∀ g : GroupId, t.proving.groups[g].exposed = exposedNow t g
  reds : ∀ g : GroupId, G g → t.proving.groups[g].red = redByDark t g
  table : AfreshTable v.faults t.faults

section
variable {G : GroupId → Prop} {v t : State} {o : OutputId}

/-- An output's proving state lost, before what follows from it. -/
def outputLost (o : OutputId) (t : State) : State := modProof t o fun r => { r with state := .senseLost }

theorem outputLost_state (o p : OutputId) (t : State) :
    (outputLost o t).proving.outputs[p].state = if o = p then .senseLost else t.proving.outputs[p].state := by
  rw [outputLost, modProof_output]
  split <;> rfl

/-- A lost output exposes as an UNPROVED one does (R79). -/
theorem exposedNow_outputLost (h : Restarting G v t) (g : GroupId) :
    exposedNow (outputLost o t) g = exposedNow t g := by
  have same (p : OutputId) :
      exposing (outputLost o t).proving.outputs[p].state = exposing t.proving.outputs[p].state := by
    rw [outputLost_state]
    split
    · rcases h.states p with e | e
      · rw [e]; rfl
      · rw [e]
    · rfl
  unfold exposedNow
  simp only [same]
  rfl

theorem isDark_outputLost_other {p : OutputId} (ne : o ≠ p) (t : State) : isDark (outputLost o t) p = isDark t p := by
  have same : (outputLost o t).proving.outputs[p] = t.proving.outputs[p] :=
    (modProof_output o p _ t).trans (if_neg ne)
  rw [isDark, same, isDark]

/-- A lost output that is no red of a group leaves the group's reds as they were (R76). -/
theorem redByDark_outputLost_other {g : GroupId} (unred : o ∉ redOutputs t g) :
    redByDark (outputLost o t) g = redByDark t g :=
  redByDark_congr (s := t) (t := outputLost o t) rfl fun p red =>
    isDark_outputLost_other (fun e : o = p => unred (e ▸ red)) t

theorem outputLost_same (h : t.proving.outputs[o].state = .senseLost) : outputLost o t = t := by
  have same : vmod t.proving.outputs o (fun r => { r with state := .senseLost }) = t.proving.outputs :=
    vmod_id (by rw [← h])
  show { t with proving := { t.proving with outputs := vmod t.proving.outputs o _ } } = t
  rw [same]

/-- An output lost keeps what holds, but for the statuses of the groups whose red it is. -/
theorem Restarting.lost (h : Restarting (fun _ => True) v t) (others : ∀ g, G g → o ∉ redOutputs t g) :
    Restarting G v (outputLost o t) where
  stopped := h.stopped
  frame := by
    obtain ⟨bars, e⟩ := h.frame
    exact ⟨bars, by rw [e]; rfl⟩
  outputs p := by
    have own := h.outputs p
    rw [outputLost, modProof_output]
    split
    · rw [own]
    · exact own
  states p := by
    rw [outputLost_state]
    split
    · exact Or.inr rfl
    · exact h.states p
  exposed g := (h.exposed g).trans (exposedNow_outputLost h g).symm
  reds g in_ := (h.reds g trivial).trans (redByDark_outputLost_other (others g in_)).symm
  table := h.table

/-- A red status set as the dark reds give it. -/
theorem Restarting.setRed {g : GroupId} (h : Restarting (· ≠ g) v t) :
    Restarting (fun _ => True) v (setRed g (redByDark t g) t) := by
  have table := h.table.setRed h.stopped g (redByDark t g)
  obtain ⟨bars, e⟩ := setRed_stopped (g := g) (r := redByDark t g) h.stopped
  generalize (Machine.setRed g (redByDark t g) t).faults = faults at e table
  obtain ⟨_, frame⟩ := h.frame
  rw [e]
  refine ⟨h.stopped, ⟨bars, by rw [frame]; rfl⟩, h.outputs, h.states, fun k => ?_, fun k _ => ?_, table⟩
  · have kept : (vmod t.proving.groups g fun q => { q with red := redByDark t g })[k].exposed =
        t.proving.groups[k].exposed := by
      rw [vmod_get]
      split <;> rfl
    exact kept.trans (h.exposed k)
  · have set : (vmod t.proving.groups g fun q => { q with red := redByDark t g })[k].red = redByDark t k := by
      rw [vmod_get]
      split
      case isTrue own => rw [own]
      case isFalse other => exact h.reds k fun e => other e.symm
    exact set

/-- An exposure recomputed that is as it should be changes nothing (R79). -/
theorem reexpose_same {g : GroupId} {s : State} (h : s.proving.groups[g].exposed = exposedNow s g) :
    reexpose g s = s := by
  have same : vmod s.proving.groups g (fun r => { r with exposed := exposedNow s g }) = s.proving.groups :=
    vmod_id (by rw [← h])
  show { s with proving := { s.proving with groups := vmod s.proving.groups g _ } } = s
  rw [same]

/-- Where every exposure is as it should be, a change of proving state of any but a used RED brings nothing (R79). -/
theorem stateChanged_fresh {s : State} {o : OutputId} (unred : ¬((outRec s o).used = true ∧ (outRec s o).colour = .red))
    (fresh : ∀ g : GroupId, s.proving.groups[g].exposed = exposedNow s g) (old : ProvingState) :
    stateChanged o old s = s := by
  cases used : (outRec s o).used with
  | false => exact stateChanged_plain (Or.inl used) old
  | true =>
    cases colour : (outRec s o).colour with
    | red => exact absurd ⟨used, colour⟩ unred
    | amber => exact stateChanged_plain (Or.inr colour) old
    | green => rw [stateChanged_green used colour, reexpose_same (fresh _), afterExposure_eq, if_pos rfl]

/-- An output's proving state lost, with what follows from it, keeps what holds (R74, R77, R79): a red evaluates its group,
whose dark reds it has joined; any other output exposes as before. -/
theorem Restarting.loseOutput (h : Restarting (fun _ => True) v t) (o : OutputId) :
    Restarting (fun _ => True) v (setProving o (fun r => { r with state := .senseLost }) t) := by
  show Restarting _ v (stateChanged o t.proving.outputs[o].state (outputLost o t))
  have now : (outputLost o t).proving.outputs[o].state = .senseLost := (outputLost_state o o t).trans (if_pos rfl)
  by_cases red : (outRec t o).used = true ∧ (outRec t o).colour = .red
  · obtain ⟨used, colour⟩ := red
    rw [stateChanged_red (s := outputLost o t) used colour]
    split
    case isTrue =>
      have mem : o ∈ redOutputs t (outRec t o).group := (mem_redOutputs t _ o).mpr ⟨used, colour, rfl⟩
      have dark : isDark (outputLost o t) o = true := (isDark_iff _ o).mpr (Or.inr (Or.inl now))
      show Restarting _ v (evalRed (outRec t o).group (outputLost o t))
      rw [evalRed, redOutcome_dark (s := outputLost o t) mem dark]
      exact Restarting.setRed (h.lost fun g ne red => by
        obtain ⟨-, -, own⟩ := (mem_redOutputs t g o).mp red
        exact ne own.symm)
    case isFalse held =>
      have before : t.proving.outputs[o].state = .senseLost :=
        Decidable.byContradiction fun ne => held ⟨Or.inr now, by rw [now]; exact fun e => ne e.symm⟩
      rw [outputLost_same before]
      exact h
  · have kept : Restarting (fun _ => True) v (outputLost o t) := h.lost fun g _ mem => by
      obtain ⟨used, colour, -⟩ := (mem_redOutputs t g o).mp mem
      exact red ⟨used, colour⟩
    rw [stateChanged_fresh (s := outputLost o t) red kept.exposed]
    exact kept

/-- A card lost where it is SILENT. -/
def loseSilent (c : CardId) (t : State) : State := if t.line.cards[c].online then t else senseLoseCard c t

theorem Restarting.loseSilent (h : Restarting (fun _ => True) v t) (c : CardId) :
    Restarting (fun _ => True) v (loseSilent c t) := by
  unfold Machine.loseSilent
  split
  · exact h
  · refine eachOf_keeps _ _ (fun o u hu => ?_) t h
    split
    · exact hu
    · exact hu.loseOutput o

end

/-! ### Which outputs are lost -/

/-- Whether an output's card is ONLINE, and its proving state. -/
def seenAt (o : OutputId) (s : State) : Bool × ProvingState := (s.line.cards[cardOf o].online, provingState o s)

theorem senseLoseCard_other {c : CardId} {o : OutputId} (ne : c ≠ cardOf o) (s : State) :
    provingState o (senseLoseCard c s) = provingState o s := by
  have kept := (ofCard_senseLoseCard c s).states o ne.symm
  exact kept

/-- Over all cards, the outputs of those that are SILENT are in SENSE_LOST, but for the ISOLATED ones (R82). -/
theorem eachSilent_state (o : OutputId) (s : State) :
    provingState o (eachOf allCards loseSilent s) =
      if s.line.cards[cardOf o].online then provingState o s else senseLost (provingState o s) := by
  have hit (t : State) : seenAt o (loseSilent (cardOf o) t) =
      ((seenAt o t).1, if (seenAt o t).1 then (seenAt o t).2 else senseLost (seenAt o t).2) := by
    by_cases online : t.line.cards[cardOf o].online = true
    · have kept : loseSilent (cardOf o) t = t := if_pos online
      rw [kept, if_pos (show (seenAt o t).1 = true from online)]
    · have left : loseSilent (cardOf o) t = senseLoseCard (cardOf o) t := if_neg online
      rw [left, if_neg (show ¬(seenAt o t).1 = true from online), seenAt, (keeps_senseLoseCard (cardOf o) t).line,
        senseLoseCard_state (cardOf o) o rfl t]
      rfl
  have miss (c : CardId) (t : State) (ne : c ≠ cardOf o) : seenAt o (loseSilent c t) = seenAt o t := by
    by_cases online : t.line.cards[c].online = true
    · have kept : loseSilent c t = t := if_pos online
      rw [kept]
    · have left : loseSilent c t = senseLoseCard c t := if_neg online
      rw [left, seenAt, (keeps_senseLoseCard c t).line, senseLoseCard_other ne t]
      rfl
  have row := eachOf_at (f := fun x : Bool × ProvingState => (x.1, if x.1 then x.2 else senseLost x.2)) hit miss
    (xs := allCards) (List.nodup_finRange 8) s
  rw [if_pos (show cardOf o ∈ allCards from List.mem_finRange _)] at row
  exact (Prod.mk.inj row).2

end Sys2Proof.Machine
end

section
/-! PROOFS. Chapter 8, SERVICE RESTART: the restarts of the blocks, and what it leaves in each. -/

namespace Sys2Proof.Machine

/-! ### The restarts (R48, R64, R82, R103, R197) -/

/-- The part with its table emptied, its trips and investigations cancelled, its cards and accumulations restarted and its
offer withdrawn, before the proving unit is restarted. -/
def cleared (s : State) : State :=
  { s with
    faults := emptyTable s.faults
    cable :=
      { cards := vgen fun c => cableCancelled s.cable.cards[c]
        feeders := Vector.replicate 64 { count := 0, opened := false }
        investigations := Vector.replicate 4 none }
    line := { s.line with cards := vgen fun c => cardRestarted s.line.cards[c] }
    engine :=
      { cores := vgen fun o => { s.engine.cores[o] with acc := restartAccum s.engine.cores[o].acc }
        residuals := vgen fun c => { s.engine.residuals[c] with acc := restartAccum s.engine.residuals[c].acc } }
    service := { s.service with offer := none } }

/-- The lines' and doors' records posted afresh. -/
def reposted (s : State) : State := eachOf all16 repostDoor (repostLine .b (repostLine .a s))

theorem serviceRestart_eq (s : State) :
    serviceRestart s = eachOf allCards loseSilent (reposted (provingRestarted (cleared s))) := rfl

/-- A card record at SERVICE RESTART (R48; log entry 52). -/
theorem cardRestarted_eq (r : CardRec) :
    cardRestarted r =
      if r.configured ∧ r.lastSlotTook then { r with mismatch := false, online := true, missing := 0, goodRun := 0 }
      else if r.configured ∧ r.online = false then { r with mismatch := false, missing := 0 }
      else { r with mismatch := false } := by
  unfold cardRestarted
  exact if_congr (Bool.and_eq_true_iff) rfl (if_congr (by simp) rfl rfl)

/-- The outputs UNPROVED and the groups RED_UNTESTED, before exposures and bars are recomputed (R82). -/
def untested (s : State) : State :=
  { s with
    proving :=
      { outputs := vgen fun o => { unproved s.proving.outputs[o] with echo := false }
        groups := vgen fun g => { s.proving.groups[g] with red := .untested } } }

theorem provingRestarted_eq (s : State) : provingRestarted s = recomputeBars (reexposeAll (untested s)) := rfl

/-- An output's proving fields restarted (R82). -/
theorem provingRestarted_output (s : State) (o : OutputId) :
    (provingRestarted s).proving.outputs[o] =
      { s.proving.outputs[o] with state := .unproved, failing := 0, sense := 0, echo := false } := by
  show (vgen fun o => { unproved s.proving.outputs[o] with echo := false })[o] = _
  rw [vgen_get]
  rfl

theorem provingRestarted_red (s : State) (g : GroupId) : (provingRestarted s).proving.groups[g].red = .untested := by
  have kept := (stays_reexposeAll (untested s)).trans (stays_recomputeBars _)
  rw [provingRestarted_eq, kept.reds g]
  show (vgen fun g => { s.proving.groups[g] with red := RedStatus.untested })[g].red = _
  rw [vgen_get]

theorem provingRestarted_exposed (s : State) (g : GroupId) :
    (provingRestarted s).proving.groups[g].exposed = exposedNow (provingRestarted s) g := by
  rw [provingRestarted_eq]
  exact reexposeAll_exposed (untested s) g

/-- With every output UNPROVED no red is dark (R76). -/
theorem redByDark_unproved {s : State} (h : ∀ o : OutputId, s.proving.outputs[o].state = .unproved) (g : GroupId) :
    redByDark s g = .untested := by
  have bright (o : OutputId) : isDark s o = false := by rw [isDark, h o]
  have none : redDark s g = 0 := by simp [redDark, darkReds, bright]
  rw [redByDark, if_pos none]

/-- The restarted proving unit is where the loss of the SILENT cards' outputs begins. -/
theorem restarting_provingRestarted {s : State} (stopped : s.seq.phase = .stopped)
    (table : AfreshTable s.faults s.faults) :
    Restarting (fun _ => True) (provingRestarted s) (provingRestarted s) where
  stopped := stopped
  frame := ⟨_, rfl⟩
  outputs _ := rfl
  states o := Or.inl (by rw [provingRestarted_output])
  exposed := provingRestarted_exposed s
  reds g _ := by rw [redByDark_unproved (fun o => by rw [provingRestarted_output]), provingRestarted_red]
  table := table

section
variable {v t : State}

/-- Records posted afresh keep what holds. -/
theorem Restarting.post (h : Restarting (fun _ => True) v t) {k : FaultKind} (afresh : PostedAfresh k) (x : Subject)
    (latched : Bool) (detail : Option (List Word16)) : Restarting (fun _ => True) v (post k x latched detail t) where
  stopped := h.stopped
  frame := by
    obtain ⟨bars, e⟩ := h.frame
    exact ⟨bars, by rw [e]; rfl⟩
  outputs := h.outputs
  states := h.states
  exposed := h.exposed
  reds := h.reds
  table := h.table.post afresh _ x latched detail

theorem Restarting.repostLine (h : Restarting (fun _ => True) v t) (l : LineId) :
    Restarting (fun _ => True) v (repostLine l t) := by
  unfold Machine.repostLine
  split
  · exact h
  · exact h.post (Or.inl rfl) _ _ _
  · exact h.post (Or.inr (Or.inl rfl)) _ _ _

theorem Restarting.repostDoor (h : Restarting (fun _ => True) v t) (i : InputId) :
    Restarting (fun _ => True) v (repostDoor i t) := by
  unfold Machine.repostDoor
  split
  · exact h.post (Or.inr (Or.inr (Or.inl rfl))) _ _ _
  · exact h

theorem Restarting.reposted (h : Restarting (fun _ => True) v t) : Restarting (fun _ => True) v (reposted t) :=
  eachOf_keeps _ _ (fun i _ hu => hu.repostDoor i) _ ((h.repostLine .a).repostLine .b)

end

/-- Posting afresh takes no output anywhere. -/
theorem reposted_frame (s : State) : reposted s = { s with faults := (reposted s).faults } := by
  have line (l : LineId) (u : State) (hu : u = { s with faults := u.faults }) :
      repostLine l u = { s with faults := (repostLine l u).faults } := by
    unfold repostLine
    rw [hu]
    split <;> rfl
  refine eachOf_keeps (P := fun u => u = { s with faults := u.faults }) _ _ (fun i u hu => ?_) _
    (line .b _ (line .a s rfl))
  unfold repostDoor
  rw [hu]
  split <;> rfl

/-! ### What SERVICE RESTART leaves (R170) -/

/-- What SERVICE RESTART leaves in every block: s before, t after. -/
structure Restarted (s t : State) : Prop where
  ports : t.ports = s.ports
  service : t.service = { s.service with offer := none }
  trips : ∀ c : CardId, t.cable.cards[c] = { CableCard.initial with lastL := s.cable.cards[c].lastL }
  residuals : ∀ c : CardId,
    t.engine.residuals[c] = { s.engine.residuals[c] with acc := restartAccum s.engine.residuals[c].acc }
  cards : ∀ c : CardId,
    t.line.cards[c] =
      if s.line.cards[c].configured ∧ s.line.cards[c].lastSlotTook then
        { s.line.cards[c] with mismatch := false, online := true, missing := 0, goodRun := 0 }
      else if s.line.cards[c].configured ∧ s.line.cards[c].online = false then
        { s.line.cards[c] with mismatch := false, missing := 0 }
      else { s.line.cards[c] with mismatch := false }
  investigations : ∀ i : InvSlot, t.cable.investigations[i] = none
  outputs : ∀ o : OutputId,
    t.proving.outputs[o] =
      { s.proving.outputs[o] with
        state := if t.line.cards[cardOf o].online then .unproved else .senseLost
        failing := 0, sense := 0, echo := false }
  feeders : ∀ o : OutputId, t.cable.feeders[o] = { count := 0, opened := false }
  cores : ∀ o : OutputId, t.engine.cores[o] = { s.engine.cores[o] with acc := restartAccum s.engine.cores[o].acc }
  exposed : ∀ g : GroupId, t.proving.groups[g].exposed = exposedNow t g
  reds : ∀ g : GroupId, t.proving.groups[g].red = redByDark t g
  seq : t.seq = { s.seq with bars := barsNow t }
  records : ∀ (i : SlotId) (r : Record), t.faults.slots[i] = some r → PostedAfresh r.kind
  thresholds : ∀ l : Link, (t.faults.attention.get l).threshold = (s.faults.attention.get l).threshold
  safety : t.safety = s.safety
  stages : t.stages = s.stages
  plans : t.plans = s.plans
  inputs : t.inputs = s.inputs
  lines : t.line.lines = s.line.lines
  mains : t.line.mains = s.line.mains
  patterns : t.line.patterns = s.line.patterns
  exchange : t.line.exchange = s.line.exchange
  pending : t.pending = s.pending

theorem restarting_serviceRestart {s : State} (stopped : s.seq.phase = .stopped) :
    Restarting (fun _ => True) (provingRestarted (cleared s)) (serviceRestart s) := by
  have begun : Restarting (fun _ => True) (provingRestarted (cleared s)) (provingRestarted (cleared s)) :=
    restarting_provingRestarted (s := cleared s) stopped (afreshTable_empty s.faults)
  rw [serviceRestart_eq]
  exact eachOf_keeps _ _ (fun c _ hu => hu.loseSilent c) _ begun.reposted

/-- Every output is UNPROVED or in SENSE_LOST as its card is ONLINE or SILENT (R82). -/
theorem serviceRestart_state (s : State) (o : OutputId) :
    (serviceRestart s).proving.outputs[o].state =
      if (cleared s).line.cards[cardOf o].online then .unproved else .senseLost := by
  have before : provingState o (reposted (provingRestarted (cleared s))) = .unproved := by
    rw [reposted_frame]
    exact congrArg OutputProof.state (provingRestarted_output (cleared s) o)
  have cards : (reposted (provingRestarted (cleared s))).line = (cleared s).line := by
    rw [reposted_frame]
    rfl
  have lost := eachSilent_state o (reposted (provingRestarted (cleared s)))
  rw [before, cards] at lost
  rw [serviceRestart_eq]
  exact lost

/-- What no loss of an output touches is as the restarts leave it (R170). -/
theorem serviceRestart_kept {s : State} (stopped : s.seq.phase = .stopped) :
    ∃ p bars faults, serviceRestart s = reproved p bars faults (cleared s) := by
  obtain ⟨bars, e⟩ := (restarting_serviceRestart stopped).frame
  exact ⟨_, bars, _, e⟩

theorem restarted_serviceRestart {s : State} (h : PartOk s) (handed : s.service.state = .handedOver) :
    Restarted s (serviceRestart s) := by
  have stopped : s.seq.phase = .stopped := by
    rw [← (h.service.stopped handed).1]
    rfl
  have restarting := restarting_serviceRestart stopped
  have bars : (serviceRestart s).seq.bars = barsNow (serviceRestart s) := (h.serviceRestart handed).bars
  obtain ⟨p, b, faults, e⟩ := serviceRestart_kept stopped
  have cable : (serviceRestart s).cable = (cleared s).cable := by rw [e]; rfl
  have engine : (serviceRestart s).engine = (cleared s).engine := by rw [e]; rfl
  have line : (serviceRestart s).line = (cleared s).line := by rw [e]; rfl
  have seq : (serviceRestart s).seq = { s.seq with bars := b } := congrArg State.seq e
  constructor
  case ports => rw [e]; rfl
  case service => rw [e]; rfl
  case trips => intro c; rw [cable]; exact vgen_get _ c
  case residuals => intro c; rw [engine]; exact vgen_get _ c
  case cards => intro c; rw [line]; exact (vgen_get _ c).trans (cardRestarted_eq _)
  case investigations => intro i; rw [cable]; exact replicate_get _ i
  case outputs =>
    intro o
    rw [restarting.outputs o, provingRestarted_output, serviceRestart_state, line]
    rfl
  case feeders => intro o; rw [cable]; exact replicate_get _ o
  case cores => intro o; rw [engine]; exact vgen_get _ o
  case exposed => exact restarting.exposed
  case reds => exact fun g => restarting.reds g trivial
  case seq => rw [← bars, seq]
  case records =>
    intro i r held
    exact restarting.table.kinds i r.kind r.subject (by rw [nameAt, held]; rfl)
  case thresholds => exact fun l => (restarting.table.thresholds l).trans (judgeLines_threshold _ l)
  case safety => rw [e]; rfl
  case stages => rw [e]; rfl
  case plans => rw [e]; rfl
  case inputs => rw [e]; rfl
  case lines => rw [line]; rfl
  case mains => rw [line]; rfl
  case patterns => rw [line]; rfl
  case exchange => rw [line]; rfl
  case pending => rw [e]; rfl

section
variable {s : State}

theorem serviceRestartOp_refused (h : s.service.state ≠ .handedOver) :
    serviceRestartOp s = refuse .refusedState 0 s :=
  if_pos (bne_iff_ne.mpr h)

theorem serviceRestartOp_restarts (h : s.service.state = .handedOver) :
    serviceRestartOp s = done 0 (serviceRestart s) :=
  if_neg (by simpa using h)

end

/-- Settles O49: the cases of serviceRestartOp, and the restarts with the loss of the SILENT cards' outputs. -/
theorem serviceRestartCancelsTheFaults : Obligations.ServiceRestartCancelsTheFaults := by
  intro f s
  refine ⟨responds_of_noRight _ _ _ _ _ _ rfl rfl, fun h => ?_, fun h part => ?_⟩
  · exact responds_onAnyPorts rfl rfl fun q => serviceRestartOp_refused (s := { s with ports := q }) h
  · have received : PartOk (receive .check 0x44 f s) := (part.whole.modPort .check _).ok
    have left : Restarted (receive .check 0x44 f s) (serviceRestart (receive .check 0x44 f s)) :=
      restarted_serviceRestart received h
    have handled : serviceRestartOp (receive .check 0x44 f s) = done 0 (serviceRestart (receive .check 0x44 f s)) :=
      serviceRestartOp_restarts (s := receive .check 0x44 f s) h
    obtain ⟨t, row, answered, rest⟩ :=
      responds_keepingPorts (i := .serviceRestart .check f) (handle := serviceRestartOp) rfl rfl left.ports handled
    refine ⟨t, row, answered, ?_⟩
    generalize serviceRestart (receive .check 0x44 f s) = u at left rest
    rw [rest]
    exact ⟨left.service, fun c => ⟨left.trips c, left.residuals c, left.cards c⟩, left.investigations,
      fun o => ⟨left.outputs o, left.feeders o, left.cores o⟩, fun g => ⟨left.exposed g, left.reds g⟩, left.seq,
      left.records, left.thresholds, left.safety, left.stages, left.plans, left.inputs, left.lines, left.mains,
      left.patterns, left.exchange, left.pending⟩

end Sys2Proof.Machine
end

section
/-! PROOFS. Chapter 9, the contact inputs: a sample and its edge handed to each function, the timers and the hold that
read inputs, and the wetting. -/

namespace Sys2Proof.Machine

/-! ### One input changed -/

section
variable {i : InputId} {s : State} {f g : Input → Input}

theorem modInput_congr (h : f s.inputs[i] = g s.inputs[i]) : modInput s i f = modInput s i g :=
  congrArg (fun v => { s with inputs := v }) (vmod_congr h)

theorem modInput_self (h : f s.inputs[i] = s.inputs[i]) : modInput s i f = s :=
  congrArg (fun v => { s with inputs := v }) (vmod_id h)

theorem modInput_modInput : modInput (modInput s i f) i g = modInput s i fun r => g (f r) :=
  congrArg (fun v => { s with inputs := v }) (vmod_vmod s.inputs i f g)

theorem modInput_input : (modInput s i f).inputs[i] = f s.inputs[i] := vmod_same s.inputs i f

/-- A field written that changes nothing where it holds the value already. -/
theorem modInput_unless {n : Nat} {field : Input → Nat} :
    (modInput s i fun r => if n = field r then r else g r) = if n = field s.inputs[i] then s else modInput s i g := by
  split
  case isTrue same => exact modInput_self (if_pos same)
  case isFalse new => exact modInput_congr (if_neg new)

end

/-! ### The filter (R172 to R174) -/

theorem wettingFor_eq (x : Level) : wettingFor x = if x = .closed then .holding else .openSense := by
  cases x <;> rfl

section
variable {x : Level} {r : Input}

theorem filtered_agrees (h : x = r.level) :
    filtered x r = { r with lastSample := some x, sampleCount := 0, cleaning := r.cleaning.map (· - r.interval) } := by
  simp only [filtered, beq_iff_eq, h, if_true]

theorem filtered_counts (against : x ≠ r.level) (few : r.sampleCount + 1 < r.filter) :
    filtered x r =
      { r with
        lastSample := some x, sampleCount := r.sampleCount + 1, cleaning := r.cleaning.map (· - r.interval) } := by
  simp only [filtered, beq_iff_eq, against, few, if_true, if_false]

theorem filtered_edge (against : x ≠ r.level) (full : r.filter ≤ r.sampleCount + 1) :
    filtered x r =
      { r with
        lastSample := some x, sampleCount := 0, level := x, cleaning := r.cleaning.map (· - r.interval) } := by
  simp only [filtered, beq_iff_eq, against, Nat.not_lt.mpr full, if_false]

end

/-- An input at a filtered edge, its wetting and its PLAIN count moved (R174 to R176). -/
def edgeTaken (x : Level) (r : Input) : Input :=
  { r with
    lastSample := some x, sampleCount := 0, level := x
    wetting := if x = .closed then .cleaning else .openSense
    cleaning := if x = .closed then some 20 else none
    edgeCount := if r.function = .plain then (r.edgeCount + 1) % 256 else r.edgeCount }

/-- The filter and the wetting move all of an input that an edge moves but the count of PLAIN. -/
theorem edgeWetting_filtered {x : Level} {r : Input} (against : x ≠ r.level) (full : r.filter ≤ r.sampleCount + 1) :
    edgeWetting (filtered x r) = { edgeTaken x r with edgeCount := r.edgeCount } := by
  rw [filtered_edge against full]
  cases x <;> rfl

section
variable {i : InputId} {x : Level} {s : State}

theorem sampleInput_first (first : s.inputs[i].lastSample = none) :
    sampleInput i x s = modInput s i (filterReset x) :=
  if_pos (Option.isNone_iff_eq_none.mpr first)

section
variable (later : s.inputs[i].lastSample ≠ none)
include later

theorem sampleInput_level (kept : (filtered x s.inputs[i]).level = s.inputs[i].level) :
    sampleInput i x s = modInput s i fun _ => filtered x s.inputs[i] :=
  (if_neg (mt Option.isNone_iff_eq_none.mp later)).trans (if_pos (beq_iff_eq.mpr kept))

theorem sampleInput_changed (changed : (filtered x s.inputs[i]).level ≠ s.inputs[i].level) :
    sampleInput i x s = handEdge i (holdActive s) (modInput s i fun _ => edgeWetting (filtered x s.inputs[i])) :=
  (if_neg (mt Option.isNone_iff_eq_none.mp later)).trans (if_neg (mt beq_iff_eq.mp changed))

theorem sampleInput_agrees (h : x = s.inputs[i].level) :
    sampleInput i x s =
      modInput s i fun r =>
        { r with lastSample := some x, sampleCount := 0, cleaning := r.cleaning.map (· - r.interval) } := by
  have new := filtered_agrees h
  exact (sampleInput_level later (by rw [new])).trans (modInput_congr new)

variable (against : x ≠ s.inputs[i].level)
include against

theorem sampleInput_counts (few : s.inputs[i].sampleCount + 1 < s.inputs[i].filter) :
    sampleInput i x s =
      modInput s i fun r =>
        { r with
          lastSample := some x, sampleCount := r.sampleCount + 1, cleaning := r.cleaning.map (· - r.interval) } := by
  have new := filtered_counts against few
  exact (sampleInput_level later (by rw [new])).trans (modInput_congr new)

variable (full : s.inputs[i].filter ≤ s.inputs[i].sampleCount + 1)
include full

theorem sampleInput_edge :
    sampleInput i x s =
      handEdge i (holdActive s) (modInput s i fun r => { edgeTaken x r with edgeCount := r.edgeCount }) := by
  have new := edgeWetting_filtered against full
  have level : (filtered x s.inputs[i]).level = x := by rw [filtered_edge against full]
  rw [sampleInput_changed later (by rwa [level])]
  exact congrArg (handEdge i (holdActive s)) (modInput_congr new)

end

end

/-! ### Edges handed to the functions (R176 to R179) -/

section
variable {i : InputId} {b : Bool} {s : State}

theorem handEdge_none (h : s.inputs[i].function = .none) : handEdge i b s = s := by
  simp only [handEdge, h]

theorem handEdge_plain (h : s.inputs[i].function = .plain) :
    handEdge i b s = modInput s i fun r => { r with edgeCount := (r.edgeCount + 1) % 256 } := by
  simp only [handEdge, h]

theorem handEdge_demand (h : s.inputs[i].function = .demand) :
    handEdge i b s =
      if s.inputs[i].level = s.inputs[i].edge ∧ s.service.state ≠ .handedOver then takeDemand s.inputs[i].stage s
      else s := by
  simp only [handEdge, h, Bool.and_eq_true, beq_iff_eq, bne_iff_ne]

theorem handEdge_allRed (h : s.inputs[i].function = .allRed) : handEdge i b s = holdJudged b s := by
  simp only [handEdge, h]

theorem handEdge_panelKey (h : s.inputs[i].function = .panelKey) : handEdge i b s = judgeKeys s := by
  simp only [handEdge, h]

theorem handEdge_changeover (h : s.inputs[i].function = .changeover) : handEdge i b s = judgeFeedback s := by
  simp only [handEdge, h]

theorem handEdge_door (h : s.inputs[i].function = .door) :
    handEdge i b s =
      { s with
        faults :=
          if s.inputs[i].level = .opened then postRecord s.seq.clock .doorOpen (.input i) false none s.faults
          else endRecord s.seq.clock .doorOpen (.input i) s.faults } := by
  simp only [handEdge, h]
  cases s.inputs[i].level <;> rfl

end

/-- What the function of an input leaves of the part at an edge: no function reaches these blocks (R176 to R179). -/
structure EdgeKeeps (s t : State) : Prop where
  inputs : t.inputs = s.inputs
  ports : t.ports = s.ports
  safety : t.safety = s.safety
  stages : t.stages = s.stages
  line : t.line = s.line
  pending : t.pending = s.pending

theorem EdgeKeeps.refl (s : State) : EdgeKeeps s s := ⟨rfl, rfl, rfl, rfl, rfl, rfl⟩

theorem Stays.edgeKeeps {s t : State} (h : Stays s t) : EdgeKeeps s t :=
  ⟨h.inputs, h.ports, h.safety, h.stages, h.line, h.pending⟩

theorem stays_takeDemand (n : StageId) (s : State) : Stays s (takeDemand n s) := by
  unfold takeDemand
  split
  · exact .refl s
  · exact (stays_modSeq s _ rfl rfl).trans (stays_decision _)

theorem stays_holdJudged (b : Bool) (s : State) : Stays s (holdJudged b s) := by
  unfold holdJudged
  split
  · exact .refl s
  · exact stays_decision s

theorem handEdge_keeps {i : InputId} {s : State} (b : Bool) (h : s.inputs[i].function ≠ .plain) :
    EdgeKeeps s (handEdge i b s) := by
  cases fn : s.inputs[i].function with
  | none => rw [handEdge_none fn]; exact .refl s
  | plain => exact absurd fn h
  | demand =>
    rw [handEdge_demand fn]
    split
    · exact (stays_takeDemand _ s).edgeKeeps
    · exact .refl s
  | allRed => rw [handEdge_allRed fn]; exact (stays_holdJudged b s).edgeKeeps
  | panelKey => rw [handEdge_panelKey fn]; exact ⟨rfl, rfl, rfl, rfl, rfl, rfl⟩
  | changeover => rw [handEdge_changeover fn]; exact ⟨rfl, rfl, rfl, rfl, rfl, rfl⟩
  | door => rw [handEdge_door fn]; exact ⟨rfl, rfl, rfl, rfl, rfl, rfl⟩

section
variable {i : InputId} {x : Level} {s : State} (later : s.inputs[i].lastSample ≠ none)
  (against : x ≠ s.inputs[i].level) (full : s.inputs[i].filter ≤ s.inputs[i].sampleCount + 1)
include later against full

/-- A PLAIN input's edge moves its own record alone (R176). -/
theorem sampleInput_plain (plain : s.inputs[i].function = .plain) :
    sampleInput i x s = modInput s i (edgeTaken x) := by
  rw [sampleInput_edge later against full, handEdge_plain (by rw [modInput_input]; exact plain), modInput_modInput]
  refine modInput_congr ?_
  simp only [edgeTaken, plain, if_true]

/-- Every other function is handed the edge once the input's record has taken it (R174, R175). -/
theorem sampleInput_hands (other : s.inputs[i].function ≠ .plain) :
    sampleInput i x s = handEdge i (holdActive s) (modInput s i (edgeTaken x)) := by
  have uncounted : edgeTaken x s.inputs[i] = { edgeTaken x s.inputs[i] with edgeCount := s.inputs[i].edgeCount } := by
    simp only [edgeTaken, other, if_false]
  rw [sampleInput_edge later against full]
  exact congrArg (handEdge i (holdActive s)) (modInput_congr uncounted.symm)

theorem sampleInput_keeps : EdgeKeeps (modInput s i (edgeTaken x)) (sampleInput i x s) := by
  by_cases plain : s.inputs[i].function = .plain
  · rw [sampleInput_plain later against full plain]
    exact .refl _
  · rw [sampleInput_hands later against full plain]
    exact handEdge_keeps _ (by rw [modInput_input]; exact plain)

variable {fn : InputFunction} (named : s.inputs[i].function = fn)
include named

/-- An edge of an input with a function other than PLAIN, by what the function makes of it. -/
theorem sampleInput_handed (other : fn ≠ .plain) {t : State}
    (handed : (modInput s i (edgeTaken x)).inputs[i].function = fn →
      handEdge i (holdActive s) (modInput s i (edgeTaken x)) = t) : sampleInput i x s = t :=
  (sampleInput_hands later against full (named ▸ other)).trans (handed (by rw [modInput_input]; exact named))

end

section
variable {i : InputId} {x : Level} {s : State}

/-- A demand that its input does not select, or that the sequencer drops, changes nothing (R139, R177). -/
theorem handEdge_demand_dropped (b : Bool) (named : (modInput s i (edgeTaken x)).inputs[i].function = .demand)
    (drops : x ≠ s.inputs[i].edge ∨ s.service.state = .handedOver ∨ has s.seq.latches s.inputs[i].stage = true ∨
      s.seq.phase = .stage ∧ runningStage s = some s.inputs[i].stage) :
    handEdge i b (modInput s i (edgeTaken x)) = modInput s i (edgeTaken x) := by
  rw [handEdge_demand named, modInput_input]
  have dropped (h : runsNow s s.inputs[i].stage = true ∨ has s.seq.latches s.inputs[i].stage = true) :
      takeDemand s.inputs[i].stage (modInput s i (edgeTaken x)) = modInput s i (edgeTaken x) := takeDemand_dropped h
  rcases drops with unselected | handed | held | runs
  · exact if_neg fun h => unselected h.1
  · exact if_neg fun h => h.2 handed
  · exact ite_eq_right_iff.mpr fun _ => dropped (.inr held)
  · exact ite_eq_right_iff.mpr fun _ => dropped (.inl (runsNow_iff.mpr runs))

/-- A selected demand for a stage that neither runs nor is latched sets the latch and brings a decision (R137, R139). -/
theorem handEdge_demand_latches (b : Bool) (named : (modInput s i (edgeTaken x)).inputs[i].function = .demand)
    (selected : x = s.inputs[i].edge) (awake : s.service.state ≠ .handedOver)
    (clear : has s.seq.latches s.inputs[i].stage = false)
    (waiting : s.seq.phase = .stage → runningStage s ≠ some s.inputs[i].stage) :
    handEdge i b (modInput s i (edgeTaken x)) =
      decision
        { modInput s i (edgeTaken x) with
          seq := { s.seq with latches := setAdd s.seq.latches s.inputs[i].stage } } := by
  have idle : runsNow s s.inputs[i].stage = false :=
    Bool.eq_false_iff.mpr fun runs => waiting (runsNow_iff.mp runs).1 (runsNow_iff.mp runs).2
  rw [handEdge_demand named, modInput_input]
  exact (if_pos ⟨selected, awake⟩).trans (takeDemand_latches idle clear)

end

/-! ### What reads the inputs by level (R144, R160, R169, R178) -/

theorem holdJudged_eq (b : Bool) (s : State) : holdJudged b s = if holdActive s = b then s else decision s := by
  simp only [holdJudged, beq_iff_eq]

theorem holdActive_iff {s : State} :
    holdActive s = true ↔
      s.seq.allRed = true ∨ ∃ i : InputId, s.inputs[i].function = .allRed ∧ s.inputs[i].level = .closed := by
  simp only [holdActive, allRedInput, Bool.or_eq_true, all16_any, Bool.and_eq_true, beq_iff_eq]

/-- Two members of G, S or I meet a test exactly where it keeps two of the sixteen. -/
theorem two_le_all16_filter {p : Fin 16 → Bool} :
    2 ≤ (all16.filter p).length ↔ ∃ i j, i ≠ j ∧ p i = true ∧ p j = true := by
  have distinct : (all16.filter p).Nodup := (List.nodup_finRange 16).filter p
  have member (i : Fin 16) : i ∈ (all16.filter p).toFinset ↔ p i = true := by
    simp only [List.mem_toFinset, List.mem_filter, all16_mem, true_and]
  rw [← List.toFinset_card_of_nodup distinct]
  refine Finset.one_lt_card_iff.trans ⟨?_, ?_⟩
  · rintro ⟨i, j, hi, hj, ne⟩
    exact ⟨i, j, ne, (member i).mp hi, (member j).mp hj⟩
  · rintro ⟨i, j, ne, hi, hj⟩
    exact ⟨i, j, (member i).mpr hi, (member j).mpr hj, ne⟩

theorem keysClosed_iff {s : State} :
    keysClosed s = true ↔
      (∃ i j : InputId, i ≠ j ∧ s.inputs[i].function = .panelKey ∧ s.inputs[j].function = .panelKey) ∧
        ∀ i : InputId, s.inputs[i].function = .panelKey → s.inputs[i].level = .closed := by
  simp only [keysClosed, panelKeys, Bool.and_eq_true, decide_eq_true_eq, two_le_all16_filter, beq_iff_eq,
    List.all_eq_true, List.mem_filter, all16_mem, true_and]

section
variable {s : State}

theorem judgeKeys_runs (awake : s.service.state ≠ .handedOver) (closed : keysClosed s = true) :
    judgeKeys s = { s with service := { s.service with twoKey := some (s.service.twoKey.getD 10) } } := by
  have timer := (judgeKeys_awake awake).trans (if_pos closed)
  exact congrArg (fun n => { s with service := { s.service with twoKey := n } }) timer

theorem judgeKeys_absent (h : s.service.state = .handedOver ∨ keysClosed s = false) :
    judgeKeys s = { s with service := { s.service with twoKey := none } } := by
  have timer : (judgeKeys s).service.twoKey = none := by
    by_cases handed : s.service.state = .handedOver
    · exact judgeKeys_stopped handed
    · exact (judgeKeys_awake handed).trans (if_neg (Bool.eq_false_iff.mp (h.resolve_left handed)))
  exact congrArg (fun n => { s with service := { s.service with twoKey := n } }) timer

theorem judgeFeedback_fed {i : InputId} (h : s.inputs[i].function = .changeover)
    (only : ∀ j : InputId, s.inputs[j].function = .changeover → j = i) :
    judgeFeedback s =
      { s with
        service :=
          { s.service with
            changeover := if (s.inputs[i].level = .closed ↔ s.service.hold = true) then none else some 5 } } := by
  simp only [judgeFeedback, feedbackInput_only h only, agrees_iff]
  rfl

theorem judgeFeedback_unfed (h : ∀ i : InputId, s.inputs[i].function ≠ .changeover) :
    judgeFeedback s = { s with service := { s.service with changeover := none } } := by
  simp only [judgeFeedback, feedbackInput_none h]
  rfl

end

/-! ### Wetting (R173, R175) -/

theorem cleaningTimerExpiry_runs {i : InputId} {s : State} (h : s.inputs[i].cleaning ≠ none) :
    exec (.cleaningTimerExpiry i) s = .next (modInput s i fun r => { r with wetting := .holding, cleaning := none }) :=
  congrArg Host.Outcome.next (if_pos (Option.isSome_iff_ne_none.mpr h))

theorem cleaningTimerExpiry_absent {i : InputId} {s : State} (h : s.inputs[i].cleaning = none) :
    exec (.cleaningTimerExpiry i) s = .next s :=
  congrArg Host.Outcome.next (if_neg (by rw [h]; exact Bool.false_ne_true))

end Sys2Proof.Machine
end

section
/-! PROOFS. Chapter 9, INPUT SET: the fields of an input, and a change of its function handed on. -/

namespace Sys2Proof.Machine

/-! ### Values of the fields (R172, R205) -/

theorem valueFunction_eq (v : Word16) :
    valueFunction v =
      ([.none, .plain, .demand, .allRed, .panelKey, .door, .changeover] : List InputFunction)[v.toNat]? := by
  unfold valueFunction
  match v.toNat with
  | 0 | 1 | 2 | 3 | 4 | 5 | 6 => rfl
  | _ + 7 => rfl

theorem valueFunction_beyond {v : Word16} (h : 6 < v.toNat) : valueFunction v = none :=
  (valueFunction_eq v).trans (List.getElem?_eq_none h)

/-- An edge selection is coded as a field of two values (R205). -/
theorem valueEdge_eq_valueBool (v : Word16) :
    valueEdge v = (valueBool v).map fun b => if b then .opened else .closed := by
  unfold valueEdge valueBool
  match v.toNat with
  | 0 | 1 => rfl
  | _ + 2 => rfl

theorem valueInterval_eq (v : Word16) :
    valueInterval v = if v.toNat ∈ [1, 2, 4, 8, 16] then some v.toNat else none := by
  unfold valueInterval
  split
  case h_6 n1 n2 n4 n8 n16 =>
    have outside : v.toNat ∉ [1, 2, 4, 8, 16] := by
      simp only [List.mem_cons, List.not_mem_nil, or_false, not_or]
      exact ⟨n1, n2, n4, n8, n16⟩
    rw [if_neg outside]
  all_goals simp [*]

/-! ### One field written (R180) -/

section
variable {i : InputId} (v : Word16) (x : Level) (ms : Nat) (s : State)

theorem inputSetOp_stage :
    inputSetOp ⟨BitVec.ofNat 8 (number i), 1, v⟩ x ms s =
      setInputField i (oneBased 16 v.toNat) (fun n r => { r with stage := n }) s := by
  simp only [inputSetOp, subject16_number]
  rfl

theorem inputSetOp_edge :
    inputSetOp ⟨BitVec.ofNat 8 (number i), 2, v⟩ x ms s =
      setInputField i (valueEdge v) (fun y r => { r with edge := y }) s := by
  simp only [inputSetOp, subject16_number]
  rfl

theorem inputSetOp_interval :
    inputSetOp ⟨BitVec.ofNat 8 (number i), 3, v⟩ x ms s =
      setInputField i (valueInterval v) (fun n r => setInterval n ms r) s := by
  simp only [inputSetOp, subject16_number]
  rfl

theorem inputSetOp_filter :
    inputSetOp ⟨BitVec.ofNat 8 (number i), 4, v⟩ x ms s = setInputField i (valueIn 2 15 v) setFilter s := by
  simp only [inputSetOp, subject16_number]
  rfl

end

/-- Check 1 of INPUT SET: a field beyond the five is refused. -/
theorem inputSetOp_beyond {i : InputId} {n : Byte} (h : 4 < n.toNat) (v : Word16) (reading : Level) (ms : Nat)
    (s : State) :
    inputSetOp ⟨BitVec.ofNat 8 (number i), n, v⟩ reading ms s = refuse .badSubject 0 s := by
  simp only [inputSetOp, subject16_number]
  split
  case h_6 => rfl
  all_goals omega

/-- Check 2 of INPUT SET: a value out of its field's range is refused. -/
theorem inputSetOp_badValue {i : InputId} {n : Byte} {v : Word16}
    (h : n = 0 ∧ 6 < v.toNat ∨ n = 1 ∧ (v = 0 ∨ 16 < v.toNat) ∨ n = 2 ∧ 1 < v.toNat ∨
      n = 3 ∧ v.toNat ∉ [1, 2, 4, 8, 16] ∨ n = 4 ∧ (v.toNat < 2 ∨ 15 < v.toNat)) (reading : Level) (ms : Nat)
    (s : State) :
    inputSetOp ⟨BitVec.ofNat 8 (number i), n, v⟩ reading ms s = refuse .badValue 0 s := by
  rcases h with ⟨rfl, function⟩ | ⟨rfl, stage⟩ | ⟨rfl, edge⟩ | ⟨rfl, interval⟩ | ⟨rfl, filter⟩
  · simp only [inputSetOp, subject16_number, valueFunction_beyond function]
    rfl
  · rw [inputSetOp_stage, oneBased_none (stage.imp_left (congrArg BitVec.toNat))]
    rfl
  · rw [inputSetOp_edge, valueEdge_eq_valueBool, valueBool_beyond edge]
    rfl
  · rw [inputSetOp_interval, valueInterval_eq, if_neg interval]
    rfl
  · rw [inputSetOp_filter, valueIn_outside (by omega)]
    rfl

/-- INPUT SET over the plan link of a value in its field's range answers DONE, and one input's record has changed. -/
theorem responds_inputField {α : Type} {i : InputId} {n : Byte} {v : Word16} {reading : Level} {ms : Nat} {s u : State}
    {value : Option α} {a : α} {put : α → Input → Input}
    (field : ∀ t : State, inputSetOp ⟨BitVec.ofNat 8 (number i), n, v⟩ reading ms t = setInputField i value put t)
    (inRange : value = some a) (stored : modInput s i (put a) = u) :
    Responds (.inputSet .plan ⟨BitVec.ofNat 8 (number i), n, v⟩ reading ms) .plan 0x19 ⟨BitVec.ofNat 8 (number i), n, v⟩
      .done 0 s u := by
  subst inRange stored
  exact responds_onAnyPorts rfl rfl fun q => field { s with ports := q }

/-! ### The function written (R180, R181) -/

section
variable {i : InputId} {fn : InputFunction} {x : Level} {s : State}

theorem inputSetOp_function {v : Word16} (named : valueFunction v = some fn) (ms : Nat) :
    inputSetOp ⟨BitVec.ofNat 8 (number i), 0, v⟩ x ms s = setFunctionOp i fn x s := by
  simp only [inputSetOp, subject16_number, named]
  rfl

/-- Check 3 of INPUT SET passes: no other input holds CHANGEOVER_FEEDBACK. -/
theorem setFunctionOp_sets
    (free : fn = .changeover → ∀ j : InputId, j ≠ i → s.inputs[j].function ≠ .changeover) :
    setFunctionOp i fn x s = done 0 (setFunction i fn x s) := by
  have unheld : (if fn == .changeover then otherFeedback s i else none) = none := by
    split
    case isFalse => rfl
    case isTrue feedback =>
      refine List.find?_eq_none.mpr fun j _ held => ?_
      obtain ⟨other, holds⟩ := Bool.and_eq_true_iff.mp held
      exact free (beq_iff_eq.mp feedback) j (bne_iff_ne.mp other) (beq_iff_eq.mp holds)
  simp only [setFunctionOp, unheld]

/-- Check 3 of INPUT SET: CHANGEOVER_FEEDBACK is refused with the other input that holds it. -/
theorem setFunctionOp_refuses {j : InputId} (held : otherFeedback s i = some j) :
    setFunctionOp i .changeover x s = refuse .badValue (word (number j)) s := by
  simp only [setFunctionOp, beq_self_eq_true, if_true, held]

theorem setFunction_held (h : s.inputs[i].function = fn) : setFunction i fn x s = s :=
  if_pos (beq_iff_eq.mpr h)

end

/-- An input after a change of its function: the filter reset with the sample taken at the request (R181). -/
def functionGiven (fn : InputFunction) (x : Level) (r : Input) : Input :=
  { r with
    function := fn, lastSample := some x, sampleCount := 0, level := x, cleaning := none
    wetting := if x = .closed then .holding else .openSense
    edgeCount := if fn = .plain then 0 else r.edgeCount }

theorem setFunction_changes {i : InputId} {fn : InputFunction} {x : Level} {s : State}
    (h : s.inputs[i].function ≠ fn) :
    setFunction i fn x s =
      functionHanded i s.inputs[i] (holdActive s) (modInput s i (functionGiven fn x)) := by
  refine (if_neg (mt beq_iff_eq.mp h)).trans (congrArg (functionHanded i _ _) (modInput_congr ?_))
  simp only [filterReset, wettingFor_eq, beq_iff_eq, functionGiven]

/-- A change of an input's function told to what reads it, but for the all-red hold: the door's record, the changeover
timer and the two-key timer (R181; log entry 69). -/
def readersTold (i : InputId) (old new : Input) (w : State) : State :=
  { w with
    faults :=
      if old.function = .door ∧ old.level = .opened then endRecord w.seq.clock .doorOpen (.input i) w.faults
      else if new.function = .door ∧ new.level = .opened then
        postRecord w.seq.clock .doorOpen (.input i) false none w.faults
      else w.faults
    service :=
      { w.service with
        changeover :=
          if old.function = .changeover ∨ new.function = .changeover then (judgeFeedback w).service.changeover
          else w.service.changeover
        twoKey :=
          if old.function = .panelKey ∨ new.function = .panelKey then (judgeKeys w).service.twoKey
          else w.service.twoKey } }

section
variable {i : InputId} {u : State} {p q : Prop} [Decidable p] [Decidable q]

/-- A door that leaves ends its record, and one that joins posts it; no change of function does both (R179, R181). -/
theorem doorTold_eq (oneDoor : p → ¬q) :
    (if q then post .doorOpen (.input i) false none (if p then endFault .doorOpen (.input i) u else u)
      else if p then endFault .doorOpen (.input i) u else u) =
      { u with
        faults :=
          if p then endRecord u.seq.clock .doorOpen (.input i) u.faults
          else if q then postRecord u.seq.clock .doorOpen (.input i) false none u.faults
          else u.faults } := by
  by_cases left : p
  · simp only [left, oneDoor left, if_true, if_false]
    rfl
  · simp only [left, if_false]
    split <;> rfl

theorem feedbackTold_eq :
    (if p then judgeFeedback u else u) =
      { u with
        service :=
          { u.service with
            changeover := if p then (judgeFeedback u).service.changeover else u.service.changeover } } := by
  split <;> rfl

theorem keysTold_eq :
    (if p then judgeKeys u else u) =
      { u with
        service := { u.service with twoKey := if p then (judgeKeys u).service.twoKey else u.service.twoKey } } := by
  split <;> rfl

end

/-- A change of function is handed on to its readers, and last to the all-red hold (R181; log entry 69). -/
theorem functionHanded_eq {i : InputId} {old new : Input} {w : State} (b : Bool) (given : w.inputs[i] = new)
    (changed : old.function ≠ new.function) :
    functionHanded i old b w = holdJudged b (readersTold i old new w) := by
  have oneDoor : old.function = .door ∧ old.level = .opened → ¬(new.function = .door ∧ new.level = .opened) :=
    fun left joined => changed (left.1.trans joined.1.symm)
  subst given
  refine congrArg (holdJudged b) ?_
  simp only [Bool.and_eq_true, Bool.or_eq_true, beq_iff_eq]
  rw [doorTold_eq oneDoor, feedbackTold_eq, keysTold_eq]
  rfl

section
variable {i : InputId} {v : Word16} {fn : InputFunction} {x : Level} {ms : Nat} {s : State}

/-- INPUT SET of a function that the input does not hold, over the plan link (R180, R181). -/
theorem responds_functionChanged (named : valueFunction v = some fn) (changed : s.inputs[i].function ≠ fn)
    (free : fn = .changeover → ∀ j : InputId, j ≠ i → s.inputs[j].function ≠ .changeover) {w : State}
    (given : w = modInput (receive .plan 0x19 ⟨BitVec.ofNat 8 (number i), 0, v⟩ s) i (functionGiven fn x)) :
    Responds (.inputSet .plan ⟨BitVec.ofNat 8 (number i), 0, v⟩ x ms) .plan 0x19 ⟨BitVec.ofNat 8 (number i), 0, v⟩ .done
      0 s (holdJudged (holdActive s) (readersTold i s.inputs[i] (functionGiven fn x s.inputs[i]) w)) := by
  subst given
  refine responds_keepingPorts rfl rfl (stays_holdJudged _ _).ports ?_
  rw [inputSetOp_function named, setFunctionOp_sets (s := receive .plan 0x19 _ s) free,
    setFunction_changes (s := receive .plan 0x19 _ s) changed]
  exact congrArg (done 0) (functionHanded_eq _ modInput_input changed)

/-- A function that no other block reads. -/
def Unread (fn : InputFunction) : Prop := fn = .none ∨ fn = .plain

theorem Unread.ne {fn g : InputFunction} (h : Unread fn) (hn : g ≠ .none) (hp : g ≠ .plain) : fn ≠ g := by
  rcases h with rfl | rfl
  · exact hn.symm
  · exact hp.symm

theorem readersTold_unread {old new : Input} {w : State} (left : Unread old.function) (joined : Unread new.function) :
    readersTold i old new w = w := by
  simp only [readersTold, left.ne (g := .door) nofun nofun, joined.ne (g := .door) nofun nofun,
    left.ne (g := .changeover) nofun nofun, joined.ne (g := .changeover) nofun nofun,
    left.ne (g := .panelKey) nofun nofun, joined.ne (g := .panelKey) nofun nofun, false_and, or_self, if_false]

/-- A change of an input that is an ALL_RED input neither before nor after leaves the all-red hold (R144). -/
theorem holdActive_modInput {f : Input → Input} (before : s.inputs[i].function ≠ .allRed)
    (after : (f s.inputs[i]).function ≠ .allRed) : holdActive (modInput s i f) = holdActive s := by
  have same (j : InputId) :
      (modInput s i f).inputs[j].function = .allRed ∧ (modInput s i f).inputs[j].level = .closed ↔
        s.inputs[j].function = .allRed ∧ s.inputs[j].level = .closed := by
    rw [modInput_inputs, vmod_get]
    split
    case isTrue here =>
      subst here
      exact iff_of_false (fun h => after h.1) (fun h => before h.1)
    case isFalse => rfl
  rw [Bool.eq_iff_iff, holdActive_iff, holdActive_iff]
  simp only [same, modInput_seq]

/-- Between NONE and PLAIN a change of function moves the input's record alone (R176). -/
theorem responds_functionUnread (named : valueFunction v = some fn) (changed : s.inputs[i].function ≠ fn)
    (left : Unread s.inputs[i].function) (joined : Unread fn) :
    Responds (.inputSet .plan ⟨BitVec.ofNat 8 (number i), 0, v⟩ x ms) .plan 0x19 ⟨BitVec.ofNat 8 (number i), 0, v⟩ .done
      0 s (modInput s i (functionGiven fn x)) := by
  have told := responds_functionChanged (x := x) (ms := ms) named changed
    (fun feedback => absurd feedback (joined.ne nofun nofun)) rfl
  have hold :
      holdActive (modInput (receive .plan 0x19 ⟨BitVec.ofNat 8 (number i), 0, v⟩ s) i (functionGiven fn x)) =
        holdActive s :=
    holdActive_modInput (left.ne nofun nofun) (joined.ne nofun nofun)
  rw [readersTold_unread left joined, holdJudged_same hold] at told
  exact told

end

/-! ### The statement -/

/-- Settles O50: the cases of sampleInput by the filter and by the function, what judges the timers and the hold, and
the fields of inputSetOp with the change of function handed on. -/
theorem inputSamplesAndInputSet : Obligations.InputSamplesAndInputSet := by
  refine ⟨fun i x s => ⟨fun first => ?_, fun later same => ?_, fun later against few => ?_⟩,
    fun i x s later against full => ?_, fun s t => ⟨?_, ?_, keysClosed_iff, holdActive_iff⟩,
    fun i s => ⟨cleaningTimerExpiry_runs, cleaningTimerExpiry_absent⟩, fun us => ⟨rfl, rfl, rfl⟩,
    fun i n v x ms s => ?_⟩
  · rw [← wettingFor_eq]
    exact congrArg Host.Outcome.next (sampleInput_first first)
  · exact congrArg Host.Outcome.next (sampleInput_agrees later same)
  · exact congrArg Host.Outcome.next (sampleInput_counts later against few)
  · have keeps := sampleInput_keeps later against full
    have handed {fn : InputFunction} (named : s.inputs[i].function = fn) (other : fn ≠ .plain) {t : State} :=
      sampleInput_handed later against full named other (t := t)
    refine ⟨sampleInput i x s, modInput s i (edgeTaken x), rfl, rfl, keeps.inputs, keeps.ports, keeps.safety,
      keeps.stages, keeps.line, keeps.pending, ?_, fun door => handed door nofun fun named => ?_,
      fun demand => ⟨fun drops => ?_, fun selected awake clear waiting => ?_⟩,
      fun allRed => handed allRed nofun fun named => ?_, fun key => handed key nofun handEdge_panelKey,
      fun feedback => handed feedback nofun handEdge_changeover⟩
    · rintro (plain | none)
      · exact sampleInput_plain later against full plain
      · exact handed none nofun handEdge_none
    · rw [handEdge_door named, modInput_input]
      rfl
    · exact handed demand nofun fun named => handEdge_demand_dropped _ named drops
    · exact handed demand nofun fun named => handEdge_demand_latches _ named selected awake clear waiting
    · rw [handEdge_allRed named, holdJudged_eq]
  · rintro rfl
    exact ⟨judgeKeys_runs, judgeKeys_absent⟩
  · rintro rfl
    exact ⟨fun i => judgeFeedback_fed, judgeFeedback_unfed⟩
  · refine ⟨fun f => responds_of_noRight _ _ _ _ _ _ rfl rfl, fun beyond => ?_, fun out => ?_, fun g named => ?_, ?_,
      ?_, fun within => ?_, fun low high => ?_, fun named free => ?_, fun none => ?_, fun plain => ?_,
      fun fn f w u named changed free hf given told => ?_, fun j held => ?_⟩
    · exact responds_onAnyPorts rfl rfl fun q => inputSetOp_beyond beyond v x ms _
    · exact responds_onAnyPorts rfl rfl fun q => inputSetOp_badValue out x ms _
    · exact responds_inputField (inputSetOp_stage v x ms) (by rw [named]; exact oneBased_number g) rfl
    · exact responds_inputField (inputSetOp_edge 0 x ms) rfl rfl
    · exact responds_inputField (inputSetOp_edge 1 x ms) rfl rfl
    · have inRange : valueInterval v = some v.toNat := (valueInterval_eq v).trans (if_pos within)
      exact responds_inputField (inputSetOp_interval v x ms) inRange modInput_unless
    · exact responds_inputField (inputSetOp_filter v x ms) (valueIn_within ⟨low, high⟩) modInput_unless
    · exact responds_onAnyPorts rfl rfl fun q =>
        (inputSetOp_function ((valueFunction_eq v).trans named) ms).trans
          ((setFunctionOp_sets (s := { s with ports := q }) free).trans (congrArg (done 0) (setFunction_held rfl)))
    · exact responds_functionUnread (v := 1) rfl (none ▸ nofun) (.inl none) (.inr rfl)
    · exact responds_functionUnread (v := 0) rfl (plain ▸ nofun) (.inr plain) (.inl rfl)
    · subst hf told
      have changes :=
        responds_functionChanged (x := x) (ms := ms) ((valueFunction_eq v).trans named) changed.symm free given
      rw [holdJudged_eq] at changes
      subst given
      exact changes
    · exact responds_onAnyPorts rfl rfl fun q =>
        (inputSetOp_function (v := 6) rfl ms).trans (setFunctionOp_refuses (s := { s with ports := q }) held)

end Sys2Proof.Machine
end

section
/-! PROOFS. Chapter 10, what the fault table's operations make of one slot's record, and what every step keeps of the
table. -/

namespace Sys2Proof.Machine

/-- Settles O60: the fault table, the investigations and the sent patterns are parts of the invariant that every step
keeps. -/
theorem stepKeepsTheFaultTableAndLists : Obligations.StepKeepsTheFaultTableAndLists :=
  ⟨fun _ _ h e => (step_keeps_partOk h e).table, fun _ _ h e =>
    ⟨(step_keeps_partOk h e).investigations, (step_keeps_partOk h e).patterns⟩⟩

/-! ### One slot's record replaced -/

/-- A slot's record replaced, or the slot made FREE, and nothing else of the slots. -/
structure SlotBecomes (i : SlotId) (o : Option Record) (t u : FaultTable) : Prop where
  own : u.slots[i] = o
  others : ∀ j : SlotId, j ≠ i → u.slots[j] = t.slots[j]
  overflow : u.overflow = t.overflow

section
variable {i : SlotId} {r : Record} {o p : Option Record} {t u v : FaultTable} {clock : Nat}

theorem SlotBecomes.trans (a : SlotBecomes i o t u) (b : SlotBecomes i p u v) : SlotBecomes i p t v where
  own := b.own
  others j ne := (b.others j ne).trans (a.others j ne)
  overflow := b.overflow.trans a.overflow

theorem SlotBecomes.judged (h : SlotBecomes i o t u) : SlotBecomes i o t (judgeLines u) := ⟨h.own, h.others, h.overflow⟩

theorem SlotBecomes.reordered (h : SlotBecomes i o t u) (order : List SlotId) :
    SlotBecomes i o t { u with order := order } := ⟨h.own, h.others, h.overflow⟩

theorem slotBecomes_same (held : t.slots[i] = o) : SlotBecomes i o t t := ⟨held, fun _ _ => rfl, rfl⟩

theorem slotBecomes_set (t : FaultTable) (i : SlotId) (o : Option Record) :
    SlotBecomes i o t { t with slots := t.slots.set i o } where
  own := (vset_get t.slots i i o).trans (if_pos rfl)
  others j ne := (vset_get t.slots i j o).trans (if_neg ne.symm)
  overflow := rfl

theorem slotBecomes_modRecord (held : t.slots[i] = some r) (f : Record → Record) :
    SlotBecomes i (some (f r)) t (modRecord t i f) where
  own := by rw [modRecord_get, if_pos rfl, held]; rfl
  others j ne := by rw [modRecord_get, if_neg ne.symm]
  overflow := rfl

/-! ### A record settled, ended, marked and seen (R188 to R193) -/

/-- A record become CLEARED (R188, R189). -/
def clearedRecord (clock : Nat) (r : Record) : Record :=
  { r with active := false, lastTime := clock, seen := ⟨false, false⟩ }

/-- A record as R188 and R189 settle it. -/
def settledRecord (clock : Nat) (r : Record) : Record := if clearsNow r then clearedRecord clock r else r

/-- A record whose condition has ended, not yet settled (R188). -/
def endingRecord (r : Record) : Record := if r.active then { r with ended := true } else r

/-- A record with a link's clear mark set (R190). -/
def markedRecord (l : Link) (r : Record) : Record := { r with clear := r.clear.set l true }

theorem settleRecord_held (held : t.slots[i] = some r) (clock : Nat) :
    settleRecord clock i t =
      if clearsNow r then
        { modRecord t i (clearedRecord clock) with order := asNewest t.order i }
      else t := by
  unfold settleRecord
  rw [held]
  rfl

theorem slotBecomes_settleRecord (held : t.slots[i] = some r) (clock : Nat) :
    SlotBecomes i (some (settledRecord clock r)) t (settleRecord clock i t) := by
  rw [settleRecord_held held, settledRecord]
  split
  · exact (slotBecomes_modRecord held (clearedRecord clock)).reordered _
  · exact slotBecomes_same held

theorem settleRecord_order (held : t.slots[i] = some r) (clock : Nat) :
    (settleRecord clock i t).order = if clearsNow r then asNewest t.order i else t.order := by
  rw [settleRecord_held held]
  split <;> rfl

theorem slotBecomes_endSlot (held : t.slots[i] = some r) (clock : Nat) :
    SlotBecomes i (some (settledRecord clock (endingRecord r))) t (endSlot clock i t) :=
  have ending := slotBecomes_modRecord held endingRecord
  ending.trans (slotBecomes_settleRecord ending.own clock)

theorem endSlot_order (held : t.slots[i] = some r) (clock : Nat) :
    (endSlot clock i t).order = if clearsNow (endingRecord r) then asNewest t.order i else t.order :=
  settleRecord_order (slotBecomes_modRecord held endingRecord).own clock

/-- The newest slot made the newest again stays where it is (R185). -/
theorem asNewest_asNewest (order : List SlotId) (i : SlotId) : asNewest (asNewest order i) i = asNewest order i := by
  simp [asNewest]

theorem slotBecomes_clearSlot (held : t.slots[i] = some r) (clock : Nat) (l : Link) :
    SlotBecomes i (some (settledRecord clock (markedRecord l r))) t (clearSlot clock l i t) :=
  have marked := slotBecomes_modRecord held (markedRecord l)
  (marked.trans (slotBecomes_settleRecord marked.own clock)).judged

theorem clearSlot_order (held : t.slots[i] = some r) (clock : Nat) (l : Link) :
    (clearSlot clock l i t).order = if clearsNow (markedRecord l r) then asNewest t.order i else t.order :=
  settleRecord_order (slotBecomes_modRecord held (markedRecord l)).own clock

theorem slotBecomes_seeSlot (held : t.slots[i] = some r) (l : Link) :
    SlotBecomes i
      (if r.active = false ∧ r.seen.get (otherLink l) = true then none else some { r with seen := r.seen.set l true })
      t (seeSlot l i t) := by
  have seen := slotBecomes_modRecord held fun r => { r with seen := r.seen.set l true }
  have both : (!r.active && (r.seen.set l true).plan && (r.seen.set l true).check) = true ↔
      r.active = false ∧ r.seen.get (otherLink l) = true := by
    cases l <;> simp [PerLink.set, PerLink.get, otherLink]
  unfold seeSlot
  dsimp only
  rw [seen.own]
  dsimp only
  rw [if_congr both rfl rfl]
  split
  · exact seen.trans ((slotBecomes_set _ i none).reordered _)
  · exact seen

end

end Sys2Proof.Machine
end

section
/-! PROOFS. Chapter 10, postings: the slot that a new record takes, the first of the best in the change order, and the
record that a posting leaves. -/

namespace Sys2Proof.Machine

/-! ### The first of the best of a list (R191, R192) -/

section
variable {α β : Type} {cand : α → Option β} {key : β → Int}

/-- One step of a search for the first of the candidates with the lowest key. -/
def pickStep (cand : α → Option β) (key : β → Int) (best : Option (α × β)) (x : α) : Option (α × β) :=
  match cand x, best with
  | none, _ => best
  | some b, none => some (x, b)
  | some b, some c => if key b < key c.2 then some (x, b) else best

/-- The first of the candidates with the lowest key. -/
def pickFirst (cand : α → Option β) (key : β → Int) (xs : List α) : Option (α × β) :=
  xs.foldl (pickStep cand key) none

theorem pickStep_skips {best : Option (α × β)} {x : α} (h : cand x = none) : pickStep cand key best x = best := by
  simp only [pickStep, h]

theorem pickStep_starts {x : α} {b : β} (h : cand x = some b) : pickStep cand key none x = some (x, b) := by
  simp only [pickStep, h]

theorem pickStep_meets {c : α × β} {x : α} {b : β} (h : cand x = some b) :
    pickStep cand key (some c) x = if key b < key c.2 then some (x, b) else some c := by
  simp only [pickStep, h]

theorem pickFirst_concat (xs : List α) (x : α) :
    pickFirst cand key (xs ++ [x]) = pickStep cand key (pickFirst cand key xs) x := List.foldl_concat ..

theorem pickFirst_none {xs : List α} (h : pickFirst cand key xs = none) : ∀ x ∈ xs, cand x = none := by
  induction xs using List.reverseRecOn with
  | nil => exact fun _ mem => absurd mem List.not_mem_nil
  | append_singleton ys z ih =>
    rw [pickFirst_concat] at h
    cases last : cand z with
    | none =>
      rw [pickStep_skips last] at h
      exact List.forall_mem_append.mpr ⟨ih h, List.forall_mem_singleton.mpr last⟩
    | some b =>
      cases before : pickFirst cand key ys with
      | none => rw [before, pickStep_starts last] at h; cases h
      | some c => rw [before, pickStep_meets last] at h; split at h <;> cases h

/-- Where a candidate stands in a list such that it is the first of those with the lowest key. -/
structure FirstBest (cand : α → Option β) (key : β → Int) (x : α) (b : β) (before after : List α) : Prop where
  candidate : cand x = some b
  lower : ∀ y ∈ before, ∀ c, cand y = some c → key b < key c
  lowest : ∀ y ∈ after, ∀ c, cand y = some c → key b ≤ key c

theorem FirstBest.le {x : α} {b : β} {before after : List α} (h : FirstBest cand key x b before after) :
    ∀ y ∈ before ++ x :: after, ∀ c, cand y = some c → key b ≤ key c := by
  intro y mem c held
  rcases List.mem_append.mp mem with early | late
  · exact (h.lower y early c held).le
  · rcases List.mem_cons.mp late with rfl | later
    · rw [Option.some.inj (h.candidate.symm.trans held)]
    · exact h.lowest y later c held

/-- What is picked is the first of the best. -/
theorem pickFirst_some {xs : List α} {x : α} {b : β} (h : pickFirst cand key xs = some (x, b)) :
    ∃ before after, xs = before ++ x :: after ∧ FirstBest cand key x b before after := by
  induction xs using List.reverseRecOn generalizing x b with
  | nil => cases h
  | append_singleton ys z ih =>
    have kept (earlier : pickFirst cand key ys = some (x, b)) (no : ∀ c, cand z = some c → key b ≤ key c) :
        ∃ before after, ys ++ [z] = before ++ x :: after ∧ FirstBest cand key x b before after := by
      obtain ⟨before, after, rfl, best⟩ := ih earlier
      exact ⟨before, after ++ [z], by simp, best.candidate, best.lower,
        List.forall_mem_append.mpr ⟨best.lowest, List.forall_mem_singleton.mpr no⟩⟩
    rw [pickFirst_concat] at h
    cases last : cand z with
    | none =>
      rw [pickStep_skips last] at h
      exact kept h fun c held => by rw [last] at held; cases held
    | some d =>
      cases earlier : pickFirst cand key ys with
      | none =>
        rw [earlier, pickStep_starts last] at h
        cases h
        refine ⟨ys, [], rfl, last, fun y mem c held => ?_, fun _ mem => absurd mem List.not_mem_nil⟩
        rw [pickFirst_none earlier y mem] at held
        cases held
      | some e =>
        rw [earlier, pickStep_meets last] at h
        split at h
        case isTrue beats =>
          cases h
          obtain ⟨before, after, rfl, best⟩ := ih earlier
          exact ⟨_, [], rfl, last, fun y mem c held => lt_of_lt_of_le beats (best.le y mem c held),
            fun _ mem => absurd mem List.not_mem_nil⟩
        case isFalse holds =>
          cases h
          exact kept earlier fun c held => by
            rw [← Option.some.inj (last.symm.trans held)]
            exact not_lt.mp holds

/-- The first of the best is picked. -/
theorem FirstBest.picked {x : α} {b : β} {before after : List α} (h : FirstBest cand key x b before after) :
    pickFirst cand key (before ++ x :: after) = some (x, b) := by
  obtain ⟨candidate, lower, lowest⟩ := h
  induction after using List.reverseRecOn with
  | nil =>
    rw [pickFirst_concat]
    cases earlier : pickFirst cand key before with
    | none => exact pickStep_starts candidate
    | some c =>
      obtain ⟨_, _, rfl, best⟩ := pickFirst_some earlier
      rw [pickStep_meets candidate, if_pos (lower c.1 (by simp) c.2 best.candidate)]
  | append_singleton ys z ih =>
    obtain ⟨earlier, last⟩ := List.forall_mem_append.mp lowest
    have row : before ++ x :: (ys ++ [z]) = before ++ x :: ys ++ [z] := by simp
    rw [row, pickFirst_concat, ih earlier]
    cases held : cand z with
    | none => exact pickStep_skips held
    | some c =>
      rw [pickStep_meets held]
      exact if_neg (not_lt.mpr (List.forall_mem_singleton.mp last c held))

end

/-! ### The slot for a new record (R186, R191) -/

section
variable {t : FaultTable} {i : SlotId} {r : Record} {n : Nat}

theorem freeSlot_lowest (free : t.slots[i] = none) (lowest : ∀ j : SlotId, j < i → t.slots[j] ≠ none) :
    freeSlot t = some i := by
  refine Fin.find?_eq_find?_finRange.symm.trans (Fin.find?_eq_some_iff.mpr ⟨by rw [free]; rfl, fun j before => ?_⟩)
  exact Option.isNone_eq_false_iff.mpr (Option.isSome_iff_ne_none.mpr (lowest j before))

theorem freeSlot_full (full : ∀ j : SlotId, t.slots[j] ≠ none) : freeSlot t = none :=
  List.find?_eq_none.mpr fun j _ => by simpa using full j

/-- Whether a slot holds a CLEARED record (R191, choice 1). -/
def holdsCleared (t : FaultTable) (i : SlotId) : Bool := t.slots[i].any fun r => !r.active

theorem oldestCleared_eq (t : FaultTable) : oldestCleared t = t.order.find? (holdsCleared t) := by
  refine congrArg (fun p => t.order.find? p) (funext fun i => ?_)
  cases held : t.slots[i] <;> simp [holdsCleared, held]

theorem not_holdsCleared (h : ∀ q, t.slots[i] = some q → q.active = true) : holdsCleared t i = false := by
  cases held : t.slots[i] with
  | none => simp [holdsCleared, held]
  | some q => simp [holdsCleared, held, h q held]

theorem oldestCleared_some {before after : List SlotId} (order : t.order = before ++ i :: after)
    (held : t.slots[i] = some r) (cleared : r.active = false)
    (older : ∀ j ∈ before, ∀ q, t.slots[j] = some q → q.active = true) : oldestCleared t = some i := by
  rw [oldestCleared_eq, order]
  refine List.find?_eq_some_iff_append.mpr ⟨by simp [holdsCleared, held, cleared], before, after, rfl, fun j mem => ?_⟩
  rw [not_holdsCleared (older j mem)]
  rfl

theorem oldestCleared_none (h : ∀ j ∈ t.order, ∀ q, t.slots[j] = some q → q.active = true) : oldestCleared t = none := by
  rw [oldestCleared_eq]
  exact List.find?_eq_none.mpr fun j mem => by simp [not_holdsCleared (h j mem)]

/-- The level of a slot's record where it is ACTIVE and unlatched (R191, choice 2). -/
def looseLevel (t : FaultTable) (i : SlotId) : Option Nat :=
  (t.slots[i].filter fun r => r.active && !r.latched).map Record.level

theorem lightestActive_eq (t : FaultTable) : lightestActive t = pickFirst (looseLevel t) Int.ofNat t.order := by
  refine congrArg (fun f => t.order.foldl f none) (funext fun best => funext fun i => ?_)
  cases held : t.slots[i] with
  | none => simp [looseLevel, pickStep, held]
  | some r =>
    cases loose : r.active && !r.latched <;> cases best <;>
      simp [looseLevel, pickStep, held, loose, Option.filter]

theorem looseLevel_some : looseLevel t i = some n ↔
    ∃ q, t.slots[i] = some q ∧ q.active = true ∧ q.latched = false ∧ q.level = n := by
  simp [looseLevel, Option.filter_eq_some_iff, and_assoc]

theorem lightestActive_some {before after : List SlotId} (order : t.order = before ++ i :: after)
    (held : t.slots[i] = some r) (active : r.active = true) (loose : r.latched = false)
    (older : ∀ j ∈ before, ∀ q, t.slots[j] = some q → q.latched = false → r.level < q.level)
    (newer : ∀ j ∈ after, ∀ q, t.slots[j] = some q → q.latched = false → r.level ≤ q.level) :
    lightestActive t = some (i, r.level) := by
  rw [lightestActive_eq, order]
  refine FirstBest.picked ⟨looseLevel_some.mpr ⟨r, held, active, loose, rfl⟩, fun j mem n level => ?_,
    fun j mem n level => ?_⟩
  · obtain ⟨q, heldJ, -, looseJ, rfl⟩ := looseLevel_some.mp level
    exact Int.ofNat_lt.mpr (older j mem q heldJ looseJ)
  · obtain ⟨q, heldJ, -, looseJ, rfl⟩ := looseLevel_some.mp level
    exact Int.ofNat_le.mpr (newer j mem q heldJ looseJ)

theorem lightestActive_mem {m : Nat} (h : lightestActive t = some (i, m)) :
    i ∈ t.order ∧ ∃ q, t.slots[i] = some q ∧ q.latched = false ∧ q.level = m := by
  rw [lightestActive_eq] at h
  obtain ⟨before, after, order, best⟩ := pickFirst_some h
  obtain ⟨q, held, -, loose, level⟩ := looseLevel_some.mp best.candidate
  exact ⟨by simp [order], q, held, loose, level⟩

theorem slotForNew_free (free : t.slots[i] = none) (lowest : ∀ j : SlotId, j < i → t.slots[j] ≠ none) :
    slotForNew t n = some i := by
  simp only [slotForNew, freeSlot_lowest free lowest]

theorem slotForNew_cleared (full : ∀ j : SlotId, t.slots[j] ≠ none) (cleared : oldestCleared t = some i) :
    slotForNew t n = some i := by
  simp only [slotForNew, freeSlot_full full, cleared]

theorem slotForNew_lightest {m : Nat} (full : ∀ j : SlotId, t.slots[j] ≠ none)
    (active : ∀ j ∈ t.order, ∀ q, t.slots[j] = some q → q.active = true) (lightest : lightestActive t = some (i, m))
    (lighter : m < n) : slotForNew t n = some i := by
  simp only [slotForNew, freeSlot_full full, oldestCleared_none active, lightest, lighter, if_true]

theorem slotForNew_none (full : ∀ j : SlotId, t.slots[j] ≠ none)
    (heavier : ∀ j ∈ t.order, ∀ q, t.slots[j] = some q → q.active = true ∧ (q.latched = false → n ≤ q.level)) :
    slotForNew t n = none := by
  have none_cleared := oldestCleared_none fun j mem q held => (heavier j mem q held).1
  cases lightest : lightestActive t with
  | none => simp only [slotForNew, freeSlot_full full, none_cleared, lightest]
  | some c =>
    obtain ⟨mem, q, held, loose, level⟩ := lightestActive_mem lightest
    have least : ¬c.2 < n := Nat.not_lt.mpr (level ▸ (heavier c.1 mem q held).2 loose)
    simp only [slotForNew, freeSlot_full full, none_cleared, lightest, if_neg least]

end

/-! ### What a posting leaves (R186 to R189) -/

/-- A slot's record posted: nothing else of the slots changes, and the slot is the newest. -/
structure SlotPosted (i : SlotId) (r : Record) (t u : FaultTable) : Prop extends SlotBecomes i (some r) t u where
  order : u.order = asNewest t.order i

/-- A record written at its posting: lit unless its condition ends there and it is unlatched or has both clear marks (R186
to R189). -/
def litRecord (k : FaultKind) (r : Record) : Record :=
  { r with
    active := !endsAtPosting k || r.latched && !(r.clear.plan && r.clear.check)
    ended := endsAtPosting k }

/-- A record as a posting first writes it, before its condition can end there (R186, R187). -/
structure Written (clock : Nat) (r : Record) : Prop where
  active : r.active = true
  ended : r.ended = false
  time : r.lastTime = clock
  seen : r.seen = ⟨false, false⟩

section
variable {t u : FaultTable} {k : FaultKind} {x : Subject} {i : SlotId} {r : Record} {clock : Nat}

theorem Written.lit (h : Written clock r) (stays : endsAtPosting k = false) : litRecord k r = r := by
  have same : { r with active := true, ended := false } = r := by rw [← h.active, ← h.ended]
  rw [litRecord, stays]
  exact same

theorem Written.settled (h : Written clock r) (ends : endsAtPosting k = true) :
    settledRecord clock (endingRecord r) = litRecord k r := by
  have clears : clearsNow (endingRecord r) = !(r.latched && !(r.clear.plan && r.clear.check)) := by
    simp [clearsNow, endingRecord, h.active]
  rw [settledRecord, clears, litRecord, ends]
  cases r.latched && !(r.clear.plan && r.clear.check) <;>
    simp [clearedRecord, endingRecord, h.active, ← h.time, ← h.seen]

/-- A slot's record posted has ended where its kind's condition does (R188). -/
theorem SlotPosted.lit (h : SlotPosted i r t u) (written : Written clock r) (k : FaultKind) :
    SlotPosted i (litRecord k r) t (judgeLines (if endsAtPosting k then endSlot clock i u else u)) := by
  cases ends : endsAtPosting k with
  | false =>
    rw [written.lit ends]
    exact ⟨h.judged, h.order⟩
  | true =>
    rw [← written.settled ends]
    refine ⟨(h.trans (slotBecomes_endSlot h.own clock)).judged, ?_⟩
    rw [if_pos rfl, judgeLines_order, endSlot_order h.own clock, h.order, asNewest_asNewest, ite_self]

theorem postRecord_new (missing : findRecord t k x = none) (slot : slotForNew t (levelOf k x) = some i) (clock : Nat)
    (latched : Bool) (detail : Option (List Word16)) :
    SlotPosted i (litRecord k (newRecord clock k x latched (detail.getD []))) t
      (postRecord clock k x latched detail t) := by
  have placed : SlotPosted i (newRecord clock k x latched (detail.getD [])) t
      { t with
        slots := t.slots.set i (some (newRecord clock k x latched (detail.getD [])))
        order := asNewest t.order i } := ⟨(slotBecomes_set t i _).reordered _, rfl⟩
  simp only [postRecord, missing, slot]
  exact placed.lit ⟨rfl, rfl, rfl, rfl⟩ k

theorem postRecord_again (found : findRecord t k x = some i) (held : t.slots[i] = some r) (clock : Nat) (latched : Bool)
    (detail : Option (List Word16)) :
    SlotPosted i (litRecord k (reoccurred clock latched detail r)) t (postRecord clock k x latched detail t) := by
  have again : SlotPosted i (reoccurred clock latched detail r) t
      { modRecord t i (reoccurred clock latched detail) with order := asNewest t.order i } :=
    ⟨(slotBecomes_modRecord held _).reordered _, rfl⟩
  simp only [postRecord, found]
  exact again.lit ⟨rfl, rfl, rfl, rfl⟩ k

theorem postRecord_dropped (missing : findRecord t k x = none) (slot : slotForNew t (levelOf k x) = none) (clock : Nat)
    (latched : Bool) (detail : Option (List Word16)) :
    postRecord clock k x latched detail t = { t with overflow := true } := by
  simp only [postRecord, missing, slot]

end

/-- Settles O52: the slot that R191 gives, and the record that the posting leaves there. -/
theorem postingCreatesOrReoccurs : Obligations.PostingCreatesOrReoccurs := by
  constructor
  · rintro clock k x latched detail i r before after t _ _ rfl missing rfl
    refine ⟨fun takes => ?_, fun full heavier => postRecord_dropped missing (slotForNew_none full heavier) _ _ _⟩
    have slot : slotForNew t (levelOf k x) = some i := by
      rcases takes with ⟨free, lowest⟩ | ⟨full, order, held, ⟨cleared, older⟩ | ⟨active, loose, lighter, older, newer⟩⟩
      · exact slotForNew_free free lowest
      · exact slotForNew_cleared full (oldestCleared_some order held cleared older)
      · have lit := active i (by simp [order]) r held
        exact slotForNew_lightest full active (lightestActive_some order held lit loose older newer) lighter
    have posted := postRecord_new missing slot clock latched detail
    have unmarked : (!endsAtPosting k || latched && true) = (!endsAtPosting k || latched) := by rw [Bool.and_true]
    rw [← unmarked]
    exact ⟨posted.own, posted.others, posted.overflow, posted.order⟩
  · rintro clock k x latched _ detail i r _ t _ rfl found held rfl rfl
    have posted := postRecord_again found held clock latched detail
    exact ⟨posted.own, posted.others, posted.overflow, posted.order⟩

end Sys2Proof.Machine
end

section
/-! PROOFS. Chapter 10, READ NEXT NOTICE and the attention lines: the notice chosen, what its reading leaves, the thresholds
and the end of a release. -/

namespace Sys2Proof.Machine

/-! ### The notice chosen (R192) -/

section
variable {t : FaultTable} {l : Link} {i : SlotId} {r : Record}

/-- The record of a slot that a link has not seen. -/
def unseenAt (l : Link) (t : FaultTable) (i : SlotId) : Option Record := t.slots[i].filter fun r => !r.seen.get l

/-- A search for the lowest of these is one for the highest level. -/
def weight (r : Record) : Int := -r.level

theorem nextNotice_eq (t : FaultTable) (l : Link) : nextNotice t l = pickFirst (unseenAt l t) weight t.order := by
  refine congrArg (fun f => t.order.foldl f none) (funext fun best => funext fun i => ?_)
  cases held : t.slots[i] with
  | none => simp [unseenAt, pickStep, held]
  | some r =>
    cases seen : r.seen.get l <;> cases best <;> simp [unseenAt, pickStep, weight, held, seen, Option.filter]

theorem unseenAt_some : unseenAt l t i = some r ↔ t.slots[i] = some r ∧ r.seen.get l = false := by
  simp [unseenAt, Option.filter_eq_some_iff]

theorem nextNotice_none (h : nextNotice t l = none) {j : SlotId} {q : Record} (mem : j ∈ t.order)
    (held : t.slots[j] = some q) : q.seen.get l = true := by
  rw [nextNotice_eq] at h
  refine Bool.eq_true_of_not_eq_false fun unseen => ?_
  have missing := pickFirst_none h j mem
  rw [unseenAt_some.mpr ⟨held, unseen⟩] at missing
  cases missing

/-- The notice chosen is the first of the highest level in the change order (R192). -/
theorem nextNotice_some (h : nextNotice t l = some (i, r)) :
    ∃ before after, t.order = before ++ i :: after ∧ FirstBest (unseenAt l t) weight i r before after :=
  pickFirst_some ((nextNotice_eq t l).symm.trans h)

end

/-! ### Word 0 (R192, R193, R195) -/

/-- A line released by READ NEXT NOTICE is off, and its release runs (R195). -/
theorem releaseLine_attention (l : Link) (t : FaultTable) :
    ((releaseLine l t).attention.get l).line = false ∧ ((releaseLine l t).attention.get l).released = true := by
  rw [releaseLine, judgeLines_attention, PerLink.get_set]
  exact ⟨Bool.and_false _, rfl⟩

/-- The first word of a notice read: what the link's port then holds, and the fault table. -/
structure NoticeRead (l : Link) (u : Byte) (v : Word16) (x : Option Snapshot) (w : FaultTable) (s t : State) : Prop where
  answered : ReadAnswered l 0x89 ⟨u, 0, 0⟩ .done v x s t
  frame : t = { s with ports := t.ports, faults := releaseLine l w }

section
variable {l : Link} {u : Byte} {v : Word16} {x : Option Snapshot} {w : FaultTable} {s t : State}

theorem NoticeRead.faults (h : NoticeRead l u v x w s t) : t.faults = releaseLine l w := congrArg State.faults h.frame

theorem NoticeRead.blocks (h : NoticeRead l u v x w s t) : t = { s with ports := t.ports, faults := t.faults } := by
  rw [h.faults]
  exact h.frame

theorem NoticeRead.slots (h : NoticeRead l u v x w s t) : t.faults.slots = w.slots := by
  rw [h.faults]
  rfl

theorem NoticeRead.line (h : NoticeRead l u v x w s t) :
    (t.faults.attention.get l).line = false ∧ (t.faults.attention.get l).released = true := by
  rw [h.faults]
  exact releaseLine_attention l w

/-- The answer of a word 0 that leaves a snapshot and a fault table. -/
def noticeAnswer (l : Link) (v : Word16) (x : Option Snapshot) (w : FaultTable) (s : State) : Answer :=
  done v (setSnapshot l x { s with faults := releaseLine l w })

theorem readsNotice
    (answers : nextNoticeOp l ⟨u, 0, 0⟩ (receive l 0x89 ⟨u, 0, 0⟩ s) =
      noticeAnswer l v x w (receive l 0x89 ⟨u, 0, 0⟩ s)) :
    ∃ t, exec (.readNextNotice l ⟨u, 0, 0⟩) s = .next t ∧ NoticeRead l u v x w s t := by
  have taken : takeRequest l 0x89 ⟨u, 0, 0⟩ (readNextNoticeOp l ⟨u, 0, 0⟩) s =
      compose l 0x89 (nextNoticeOp l ⟨u, 0, 0⟩ (receive l 0x89 ⟨u, 0, 0⟩ s)) := by
    cases l <;> rfl
  rw [answers] at taken
  exact ⟨_, congrArg Host.Outcome.next taken,
    compose_readAnswered l 0x89 ⟨u, 0, 0⟩ (noticeAnswer l v x w (receive l 0x89 ⟨u, 0, 0⟩ s)) x s rfl, rfl⟩

theorem readsNotice_none (unseen : nextNotice s.faults l = none) (u : Byte) :
    ∃ t, exec (.readNextNotice l ⟨u, 0, 0⟩) s = .next t ∧ NoticeRead l u 0xFFFF none s.faults s t := by
  refine readsNotice ?_
  simp only [nextNoticeOp, receive_faults, unseen]
  rfl

theorem readsNotice_some {i : SlotId} {r : Record} (chosen : nextNotice s.faults l = some (i, r)) (u : Byte) :
    ∃ t, exec (.readNextNotice l ⟨u, 0, 0⟩) s = .next t ∧
      NoticeRead l u (word i.val) (some { code := 0x89, subject := u, index := 0, words := noticeWords i r })
        (seeSlot l i s.faults) s t := by
  refine readsNotice ?_
  simp only [nextNoticeOp, receive_faults, chosen]
  rfl

end

/-! ### Later words (R206) -/

section
variable {l : Link} {u n : Byte} {v : Word16} {s : State}

/-- A word of READ NEXT NOTICE that takes no notice answers and changes nothing. -/
theorem reads_keepingSnapshot {r : Result} {w : Word16}
    (answers : readNextNoticeOp l ⟨u, n, v⟩ (receive l 0x89 ⟨u, n, v⟩ s) =
      { result := r, value := w, state := receive l 0x89 ⟨u, n, v⟩ s }) :
    Reads (.readNextNotice l ⟨u, n, v⟩) l 0x89 ⟨u, n, v⟩ r w (s.ports.get l).snapshot s := by
  refine reads_of_handled _ l 0x89 ⟨u, n, v⟩ (readNextNoticeOp l ⟨u, n, v⟩) s r w _ rfl (by cases l <;> rfl) ?_
  rw [answers]
  refine congrArg _ ?_
  cases l <;> rfl

theorem snapshotWord_receive (code : Byte) (f : Fields) :
    snapshotWord l code f (receive l code f s) = snapshotWord l code f s := by
  cases l <;> rfl

theorem snapshotWord_held {code : Byte} {f : Fields} {x : Snapshot} (held : (s.ports.get l).snapshot = some x)
    (hc : x.code = code) (hs : x.subject = f.subject) (hi : x.index = f.index) :
    snapshotWord l code f s = x.words[f.value.toNat]? := by
  simp [snapshotWord, held, hc, hs, hi]

theorem snapshotWord_none {code : Byte} {f : Fields}
    (h : ∀ x, (s.ports.get l).snapshot = some x → x.code = code → x.subject = f.subject → x.index = f.index →
      x.words[f.value.toNat]? = none) : snapshotWord l code f s = none := by
  cases held : (s.ports.get l).snapshot with
  | none => simp only [snapshotWord, held]
  | some x =>
    by_cases fits : x.code = code ∧ x.subject = f.subject ∧ x.index = f.index
    · obtain ⟨hc, hs, hi⟩ := fits
      rw [snapshotWord_held held hc hs hi, h x held hc hs hi]
    · simpa [snapshotWord, held, and_assoc] using fun hc hs hi => absurd ⟨hc, hs, hi⟩ fits

theorem readNextNoticeOp_word {w : Word16} (later : v ≠ 0) (held : snapshotWord l 0x89 ⟨u, n, v⟩ s = some w) :
    readNextNoticeOp l ⟨u, n, v⟩ s = done w s := by
  have notFirst : (v == 0) = false := beq_eq_false_iff_ne.mpr later
  simp only [readNextNoticeOp, notFirst, held, Bool.false_eq_true, if_false]

theorem readNextNoticeOp_wordless (later : v ≠ 0) (missing : snapshotWord l 0x89 ⟨u, n, v⟩ s = none) :
    readNextNoticeOp l ⟨u, n, v⟩ s = refuse (if n = 0 then .badValue else .badSubject) 0 s := by
  have notFirst : (v == 0) = false := beq_eq_false_iff_ne.mpr later
  simp only [readNextNoticeOp, notFirst, missing, Bool.false_eq_true, if_false, beq_iff_eq]

theorem readNextNoticeOp_badIndex (bad : n ≠ 0) : readNextNoticeOp l ⟨u, n, 0⟩ s = refuse .badSubject 0 s :=
  (if_pos rfl).trans (if_neg fun e => bad (beq_iff_eq.mp e))

end

/-- Settles O55: word 0 by the notice chosen, later words by the snapshot. -/
theorem nextNoticeReadsTheWeightiest : Obligations.NextNoticeReadsTheWeightiest := by
  constructor
  · intro l u s
    cases chosen : nextNotice s.faults l with
    | none =>
      obtain ⟨t, e, read⟩ := readsNotice_none chosen u
      obtain ⟨line, released⟩ := read.line
      exact ⟨t, e, read.blocks, line, released,
        fun _ => ⟨read.answered, read.slots, fun i r mem held => nextNotice_none chosen mem held⟩,
        fun i r none_ => absurd none_.symm (Option.some_ne_none (i, r))⟩
    | some c =>
      obtain ⟨t, e, read⟩ := readsNotice_some chosen u
      obtain ⟨line, released⟩ := read.line
      refine ⟨t, e, read.blocks, line, released, fun some_ => absurd some_ (Option.some_ne_none c), fun i r same => ?_⟩
      cases same
      obtain ⟨before, after, order, best⟩ := nextNotice_some chosen
      obtain ⟨held, unseen⟩ := unseenAt_some.mp best.candidate
      have seen := slotBecomes_seeSlot held l
      rw [read.slots]
      refine ⟨held, unseen, fun j q mem heldJ unseenJ => ?_, ⟨before, after, order, fun j mem q heldJ unseenJ => ?_⟩,
        read.answered, seen.others, seen.own⟩
      · exact Int.ofNat_le.mp (Int.neg_le_neg_iff.mp (best.le j (order ▸ mem) q (unseenAt_some.mpr ⟨heldJ, unseenJ⟩)))
      · exact Int.ofNat_lt.mp (Int.neg_lt_neg_iff.mp (best.lower j mem q (unseenAt_some.mpr ⟨heldJ, unseenJ⟩)))
  · refine fun l u n s => ⟨fun bad => reads_keepingSnapshot (readNextNoticeOp_badIndex bad), fun v later =>
      ⟨fun x w held hc hs hi word => ?_, fun missing => ?_⟩⟩
    · rw [← held]
      refine reads_keepingSnapshot (readNextNoticeOp_word later ?_)
      rw [snapshotWord_receive, snapshotWord_held held hc hs hi, word]
    · exact reads_keepingSnapshot
        (readNextNoticeOp_wordless later ((snapshotWord_receive _ _).trans (snapshotWord_none missing)))

/-! ### SET ATTENTION and the end of a release (R195, R196) -/

section
variable {l : Link} {f : Fields} {s : State}

/-- A request that changes the fault table alone. -/
theorem Responds.faults {i : Instr} {code : Byte} {r : Result} {v : Word16} {w : FaultTable}
    (h : Responds i l code f r v s { s with faults := w }) :
    ∃ t, exec i s = .next t ∧ Answered l code f r v s t ∧ t = { s with ports := t.ports, faults := t.faults } ∧
      t.faults = w := by
  obtain ⟨t, e, answered, frame⟩ := h
  have faults : t.faults = w := congrArg State.faults frame
  exact ⟨t, e, answered, by rw [faults]; exact frame, faults⟩

/-- The table with a link's threshold set and its line judged again (R196). -/
def thresholdSet (l : Link) (n : Nat) (t : FaultTable) : FaultTable :=
  judgeLine { t with attention := t.attention.set l { t.attention.get l with threshold := n } } l

theorem thresholdSet_own (l : Link) (n : Nat) (t : FaultTable) :
    (thresholdSet l n t).attention.get l =
      { threshold := n
        line := attentionDue (thresholdSet l n t) l && !(t.attention.get l).released
        released := (t.attention.get l).released } := by
  rw [thresholdSet, attentionDue_judgeLine, judgeLine_line, PerLink.get_set]

theorem thresholdSet_other (l : Link) (n : Nat) (t : FaultTable) :
    (thresholdSet l n t).attention.get (otherLink l) = t.attention.get (otherLink l) := by
  rw [thresholdSet, judgeLine_other, PerLink.get_set_other]

theorem setAttentionOp_high (h : 7 < f.value.toNat) : setAttentionOp l f s = refuse .badValue 0 s := by
  simp only [setAttentionOp, valueIn_outside (lo := 0) (hi := 7) (v := f.value) (by omega)]

theorem setAttentionOp_within (h : f.value.toNat ≤ 7) :
    setAttentionOp l f s = done 0 { s with faults := thresholdSet l f.value.toNat s.faults } := by
  simp only [setAttentionOp, valueIn_within (lo := 0) (hi := 7) (v := f.value) ⟨Nat.zero_le _, h⟩]
  rfl

theorem endRelease_own (l : Link) (t : FaultTable) :
    (endRelease l t).attention.get l =
      { threshold := (t.attention.get l).threshold, line := attentionDue t l, released := false } := by
  have due : attentionDue { t with attention := t.attention.set l { t.attention.get l with released := false } } l =
      attentionDue t l := attentionDue_congr t _ l (by rw [PerLink.get_set]) fun _ => rfl
  rw [endRelease, judgeLine_line, due, PerLink.get_set, Bool.not_false, Bool.and_true]

theorem endRelease_other (l : Link) (t : FaultTable) :
    (endRelease l t).attention.get (otherLink l) = t.attention.get (otherLink l) := by
  rw [endRelease, judgeLine_other, PerLink.get_set_other]

end

/-- Settles O54: a threshold set and a release ended touch the link's own attention alone. -/
theorem attentionThresholdAndRelease : Obligations.AttentionThresholdAndRelease := by
  intro l f s
  have right : granted l 0x51 = true := by cases l <;> rfl
  refine ⟨fun high => responds_onAnyPorts rfl right fun q => setAttentionOp_high (s := { s with ports := q }) high, fun low => ?_, ?_⟩
  · have answers : Responds (.setAttention l f) l 0x51 f .done 0 s
        { s with faults := thresholdSet l f.value.toNat s.faults } :=
      responds_onAnyPorts rfl right fun q => setAttentionOp_within (s := { s with ports := q }) low
    obtain ⟨t, e, answered, frame, faults⟩ := answers.faults
    refine ⟨t, e, answered, frame, ?_⟩
    rw [faults, thresholdSet_own, thresholdSet_other]
    exact ⟨rfl, rfl, rfl, rfl, rfl, rfl⟩
  · exact ⟨_, rfl, rfl, endRelease_own l s.faults, endRelease_other l s.faults, rfl, rfl, rfl⟩

end Sys2Proof.Machine
end

section
/-! PROOFS. Chapter 10, the record of a latched trip: once CLEARED it stays so, whatever the release of its card's outputs
brings. -/

namespace Sys2Proof.Machine

/-! ### The records of one kind and subject CLEARED (R188) -/

/-- No record of a kind and subject is ACTIVE. -/
def ClearedAll (k : FaultKind) (x : Subject) (t : FaultTable) : Prop :=
  ∀ (i : SlotId) (r : Record), t.slots[i] = some r → r.kind = k → r.subject = x → r.active = false

section
variable {k m : FaultKind} {x y : Subject} {i : SlotId} {r : Record} {t u : FaultTable}

/-- A slot's record replaced by one that is CLEARED, or of another kind. -/
theorem ClearedAll.becomes (h : ClearedAll k x t) (b : SlotBecomes i (some r) t u)
    (new : r.kind = k → r.subject = x → r.active = false) : ClearedAll k x u := by
  intro j q held kind subject
  by_cases own : j = i
  · subst own
    obtain rfl := Option.some.inj (b.own.symm.trans held)
    exact new kind subject
  · exact h j q ((b.others j own).symm.trans held) kind subject

theorem settledRecord_kind (clock : Nat) (r : Record) : (settledRecord clock r).kind = r.kind := by
  unfold settledRecord
  split <;> rfl

theorem settledRecord_subject (clock : Nat) (r : Record) : (settledRecord clock r).subject = r.subject := by
  unfold settledRecord
  split <;> rfl

theorem settledRecord_clear (clock : Nat) (r : Record) : (settledRecord clock r).clear = r.clear := by
  unfold settledRecord
  split <;> rfl

/-- Settling makes no record ACTIVE. -/
theorem settledRecord_cleared {clock : Nat} {r : Record} (h : r.active = false) : (settledRecord clock r).active = false := by
  unfold settledRecord
  split
  · rfl
  · exact h

theorem endingRecord_kind (r : Record) : (endingRecord r).kind = r.kind := by
  unfold endingRecord
  split <;> rfl

theorem endingRecord_subject (r : Record) : (endingRecord r).subject = r.subject := by
  unfold endingRecord
  split <;> rfl

theorem endingRecord_cleared (h : r.active = false) : endingRecord r = r := if_neg (by rw [h]; exact Bool.false_ne_true)

/-- A posting of another kind makes no record of this one ACTIVE (R186, R187, R191). -/
theorem ClearedAll.post (h : ClearedAll k x t) (other : m ≠ k) (clock : Nat) (latched : Bool)
    (detail : Option (List Word16)) : ClearedAll k x (postRecord clock m y latched detail t) := by
  cases found : findRecord t m y with
  | some i =>
    obtain ⟨r, held, kind, -⟩ := findRecord_some found
    exact h.becomes (postRecord_again found held clock latched detail).toSlotBecomes
      fun e => absurd (kind.symm.trans e) other
  | none =>
    cases slot : slotForNew t (levelOf m y) with
    | some i =>
      exact h.becomes (postRecord_new found slot clock latched detail).toSlotBecomes fun e => absurd e other
    | none =>
      rw [postRecord_dropped found slot]
      exact h

/-- The end of a condition makes no record ACTIVE (R188). -/
theorem ClearedAll.ended (h : ClearedAll k x t) (clock : Nat) (m : FaultKind) (y : Subject) :
    ClearedAll k x (endRecord clock m y t) := by
  unfold endRecord
  split
  case h_1 i found =>
    obtain ⟨r, held, -⟩ := findRecord_some found
    refine h.becomes (slotBecomes_endSlot held clock).judged fun kind subject => ?_
    rw [settledRecord_kind, endingRecord_kind] at kind
    rw [settledRecord_subject, endingRecord_subject] at subject
    have cleared := h i r held kind subject
    rw [endingRecord_cleared cleared]
    exact settledRecord_cleared cleared
  case h_2 => exact h

/-- A record with both clear marks is CLEARED by the end of its condition (R189). -/
theorem settledRecord_ended {clock : Nat} (plan : r.clear.plan = true) (check : r.clear.check = true) :
    (settledRecord clock (endingRecord r)).active = false := by
  cases active : r.active with
  | false =>
    rw [endingRecord_cleared active]
    exact settledRecord_cleared active
  | true =>
    have clears : clearsNow (endingRecord r) = true := by simp [clearsNow, endingRecord, active, plan, check]
    rw [settledRecord, if_pos clears]
    rfl

/-- The end of a condition whose record has both clear marks leaves its kind and subject CLEARED (R184, R189). -/
theorem clearedAll_ended (h : TableOk t) (held : t.slots[i] = some r) (plan : r.clear.plan = true)
    (check : r.clear.check = true) (clock : Nat) :
    ClearedAll r.kind r.subject (endRecord clock r.kind r.subject t) := by
  have only {j : SlotId} {q : Record} (heldJ : t.slots[j] = some q) (kind : q.kind = r.kind)
      (subject : q.subject = r.subject) : j = i := h.one j i q r heldJ held kind subject
  have found : findRecord t r.kind r.subject = some i := by
    cases e : findRecord t r.kind r.subject with
    | none => exact absurd ⟨rfl, rfl⟩ (findRecord_none e i r held)
    | some j =>
      obtain ⟨q, heldJ, kind, subject⟩ := findRecord_some e
      rw [only heldJ kind subject]
  have b := (slotBecomes_endSlot held clock).judged
  simp only [endRecord, found]
  intro j q heldJ kind subject
  by_cases own : j = i
  · subst own
    obtain rfl := Option.some.inj (b.own.symm.trans heldJ)
    exact settledRecord_ended plan check
  · exact absurd (only ((b.others j own).symm.trans heldJ) kind subject) own

end

/-! ### What leaves the fault table as it is -/

section
variable (s : State) (t : Target)

theorem startStep_faults (n : StepNo) : (startStep n s).faults = s.faults := by
  unfold startStep
  split <;> rfl

theorem callIntoService_faults (n : StageId) : (callIntoService n s).faults = s.faults := by
  unfold callIntoService
  split <;> rfl

theorem holdResume_faults (barred : Bool) : (holdResume t barred s).faults = s.faults := by
  obtain ⟨r, e⟩ := holdResume_frame t barred s
  rw [e]
  rfl

theorem transferred_faults : (transferred s).faults = s.faults := by
  obtain ⟨plans, position, e⟩ := transferred_frame s
  rw [e]
  rfl

theorem takeStep_faults (n : StepNo) (g : StageId) : (takeStep n g s).faults = s.faults :=
  (callIntoService_faults _ g).trans ((startStep_faults _ n).trans (transferred_faults s))

theorem complete_faults : (complete t s).faults = s.faults := by rw [complete_frame]

theorem endGreen_faults (g : GroupId) : (endGreen g s).faults = s.faults := by
  rw [endGreen_eq]
  rfl

theorem tryRedAmber_faults (g : GroupId) : (tryRedAmber g s).faults = s.faults := by
  unfold tryRedAmber
  split <;> rfl

theorem eachOf_faults {α : Type} {op : α → State → State} (h : ∀ x u, (op x u).faults = u.faults) (xs : List α) :
    (eachOf xs op s).faults = s.faults :=
  eachOf_rel (R := fun u v => v.faults = u.faults) (fun _ => rfl) (fun a b => b.trans a) (fun x _ u => h x u) s

/-- An interstage begun posts and ends nothing, before the times already here are taken (R129, R130). -/
theorem departed_faults : (departed t s).faults = s.faults := by
  refine (eachOf_faults _ (fun g u => ?_) all16).trans (eachOf_faults _ (fun g u => ?_) all16)
  · split <;> rfl
  · split
    · exact endGreen_faults u g
    · rfl

end

/-! ### Decisions (R135 to R137, R156) -/

/-- The record of a card's trip is CLEARED, or there is none. -/
def TripCleared (c : CardId) (s : State) : Prop := ClearedAll .cardTrip (.card c) s.faults

section
variable {c : CardId} {s : State}

theorem TripCleared.same {t : State} (h : TripCleared c s) (faults : t.faults = s.faults) : TripCleared c t := by
  rw [TripCleared, faults]
  exact h

theorem TripCleared.post (h : TripCleared c s) {k : FaultKind} (other : k ≠ .cardTrip) (x : Subject) (latched : Bool)
    (detail : Option (List Word16)) : TripCleared c (post k x latched detail s) :=
  ClearedAll.post h other _ latched detail

theorem TripCleared.abandonSlot (h : TripCleared c s) (i : InvSlot) : TripCleared c (abandonSlot i s) := by
  unfold Machine.abandonSlot
  split
  · exact ClearedAll.ended h _ _ _
  · exact h

theorem TripCleared.postAllUnproven (h : TripCleared c s) : TripCleared c (postAllUnproven s) := by
  refine eachOf_keeps _ _ (fun o u hu => ?_) s h
  split
  · exact hu.post (by decide) _ _ _
  · exact hu

theorem TripCleared.handover (h : TripCleared c s) (cause : Cause) (detail : List Word16) :
    TripCleared c (handover cause detail s) := by
  unfold Machine.handover
  split
  · exact h
  · have stopped : TripCleared c (handoverBlocks s) := h.same (handoverBlocks_faults s)
    have abandoned : TripCleared c (abandonAll (handoverBlocks s)) :=
      eachOf_keeps _ _ (fun i _ hu => hu.abandonSlot i) _ stopped
    exact (abandoned.post (by decide) _ _ _).postAllUnproven

theorem TripCleared.conflictCheck (h : TripCleared c s) : TripCleared c (conflictCheck s) := by
  unfold Machine.conflictCheck
  split
  · exact h
  · split
    · exact h.handover _ _
    · exact h

theorem TripCleared.tryGreen (h : TripCleared c s) (g : GroupId) : TripCleared c (tryGreen g s) := by
  unfold Machine.tryGreen
  split
  · exact TripCleared.conflictCheck (h.same rfl)
  · exact h

theorem TripCleared.tryGreens (h : TripCleared c s) : TripCleared c (tryGreens s) :=
  eachOf_keeps _ _ (fun g _ hu => hu.tryGreen g) s h

theorem TripCleared.postOverrun (h : TripCleared c s) (t : Target) (losing : Set16) :
    TripCleared c (postOverrun t losing s) := by
  unfold Machine.postOverrun
  split
  · split
    · exact h.post (by decide) _ _ _
    · exact h
  · exact h

theorem TripCleared.leaving (h : TripCleared c s) (t : Target) (losing : Set16) : TripCleared c (leaving t losing s) := by
  have posted := h.postOverrun t losing
  cases t with
  | step n g => exact posted.same (transferred_faults _)
  | call g => exact posted
  | s0 => exact posted

theorem TripCleared.terminate (h : TripCleared c s) (t : Target) (losing : Set16) :
    TripCleared c (terminate t losing s) := by
  rw [terminate_eq]
  exact ((h.leaving t losing).same ((eachOf_faults _ (fun g u => tryRedAmber_faults u g) all16).trans
    (departed_faults _ t))).tryGreens

theorem TripCleared.settle (h : TripCleared c s) {decide : State → State}
    (next : ∀ u, TripCleared c u → TripCleared c (decide u)) : TripCleared c (settle decide s) := by
  unfold Machine.settle
  split
  · split
    · split
      · dsimp only
        split
        · exact next _ (h.same (complete_faults s _))
        · exact h.same (complete_faults s _)
      · exact h
    · split
      · exact next _ (h.same rfl)
      · exact h
  · exact h

theorem TripCleared.decideToward (h : TripCleared c s) {next : State → State}
    (after : ∀ u, TripCleared c u → TripCleared c (next u)) (barred : Bool) (t : Target) :
    TripCleared c (decideToward next barred t s) := by
  have resumed := h.same (holdResume_faults s t barred)
  unfold Machine.decideToward endToward
  split
  · split
    · split
      · exact resumed.same (takeStep_faults _ _ _)
      · exact resumed
    · exact resumed
  · split
    · exact (resumed.terminate t _).settle after
    · exact resumed

theorem TripCleared.decideOnce (h : TripCleared c s) {next : State → State}
    (after : ∀ u, TripCleared c u → TripCleared c (next u)) : TripCleared c (decideOnce next s) := by
  rw [decideOnce_eq]
  split
  · unfold afterChoice
    split
    · split
      · exact h.handover _ _
      · exact h
    · exact h.decideToward after _ _
  · exact h

theorem TripCleared.decideUpTo (h : TripCleared c s) (n : Nat) : TripCleared c (decideUpTo n s) := by
  induction n generalizing s with
  | zero => exact h
  | succ k ih => exact h.decideOnce fun _ hu => ih hu

theorem TripCleared.settled (h : TripCleared c s) : TripCleared c (settled s) := h.settle fun _ hu => hu.decideUpTo 8

/-! ### The release of a card's outputs (R75) -/

theorem TripCleared.greenChanged (h : TripCleared c s) (o : OutputId) : TripCleared c (greenChanged o s) := by
  have exposed : TripCleared c (reexpose (outRec s o).group s) := h.same (reexpose_faults _ s)
  rw [greenChanged_eq]
  split
  · rw [afterExposure_eq]
    split
    · exact exposed
    · exact exposed.conflictCheck.tryGreens.settled
  · exact h

theorem TripCleared.releaseCard (h : TripCleared c s) (k : CardId) : TripCleared c (releaseCard k s) := by
  rw [releaseCard_eq]
  have released : TripCleared c (eachOf (outputsOf k) (releaseOutput k) s) := by
    refine eachOf_keeps _ _ (fun o u hu => ?_) s h
    have left := hu.same (modProof_faults u o fun r =>
      if u.line.cards[k].online then unproved r else { r with state := .senseLost })
    exact left.greenChanged o
  exact released.same (recompose_faults _ _)

end

/-- The end of a trip whose record has both clear marks leaves it CLEARED, or evicted (R94; log entry 45). -/
theorem tripCleared_endTrip {c : CardId} {s : State} {i : SlotId} {r : Record} (h : TableOk s.faults)
    (held : s.faults.slots[i] = some r) (kind : r.kind = .cardTrip) (subject : r.subject = .card c)
    (plan : r.clear.plan = true) (check : r.clear.check = true) : TripCleared c (endTrip c s) := by
  have ended := clearedAll_ended h held plan check s.seq.clock
  rw [kind, subject] at ended
  have left : TripCleared c (endFault .cardTrip (.card c) (modCable s c watchedCard)) := ended
  rw [endTrip_eq]
  exact left.releaseCard c

end Sys2Proof.Machine
end

section
/-! PROOFS. Chapter 10, CLEAR RECORD: the slot and kind it names, the mark it sets, and the trip that the second mark
releases. -/

namespace Sys2Proof.Machine

/-! ### The slot and kind named (R190, R205) -/

section
variable {l : Link} {f : Fields} {i : SlotId} {r : Record} {s : State}

theorem subjectSlot_named (i : SlotId) : subjectSlot (BitVec.ofNat 8 i.val) = some i := by
  have small : (BitVec.ofNat 8 i.val).toNat = i.val := Nat.mod_eq_of_lt (by omega)
  rw [subjectSlot, small, zeroBased_val]

theorem subjectSlot_beyond {u : Byte} (h : 47 < u.toNat) : subjectSlot u = none := dif_neg (by omega)

theorem clearRecordOp_beyond (beyond : subjectSlot f.subject = none) :
    clearRecordOp l f s = refuse .badSubject 0 s := by
  simp only [clearRecordOp, beyond]

theorem clearRecordOp_free (slot : subjectSlot f.subject = some i) (free : s.faults.slots[i] = none) :
    clearRecordOp l f s = refuse .badSubject 0 s := by
  simp only [clearRecordOp, slot, free]

theorem clearRecordOp_held (slot : subjectSlot f.subject = some i) (held : s.faults.slots[i] = some r) :
    clearRecordOp l f s =
      if kindCode r.kind = f.index.toNat then clearOp l i r s else refuse .mismatch (word (kindCode r.kind)) s := by
  simp only [clearRecordOp, slot, held]
  by_cases same : kindCode r.kind = f.index.toNat
  · rw [if_pos same, if_neg (by simp [same])]
  · rw [if_neg same, if_pos (bne_iff_ne.mpr same)]

end

/-! ### The state that CLEAR RECORD answers (R190, R204; log entry 45) -/

section
variable {t u : FaultTable} {k : FaultKind} {x : Subject} {i : SlotId} {r : Record} {s : State}

theorem findRecord_eq (t : FaultTable) (k : FaultKind) (x : Subject) :
    findRecord t k x = allSlots.find? fun i => nameAt t i == some (k, x) := by
  refine congrArg (fun p => allSlots.find? p) (funext fun i => ?_)
  cases held : t.slots[i] with
  | none => simp [nameAt, held]
  | some r => exact Bool.eq_iff_iff.mpr (by simp [nameAt, held])

/-- A record is found in the same slot where the slots' records are of the same. -/
theorem findRecord_congr (h : ∀ i, nameAt u i = nameAt t i) (k : FaultKind) (x : Subject) :
    findRecord u k x = findRecord t k x := by
  rw [findRecord_eq, findRecord_eq, funext h]

theorem nameAt_clearSlot (clock : Nat) (l : Link) (i : SlotId) (t : FaultTable) (j : SlotId) :
    nameAt (clearSlot clock l i t) j = nameAt t j :=
  (nameAt_settleRecord clock i _ j).trans (nameAt_modRecord (f := markedRecord l) (fun _ => ⟨rfl, rfl⟩) t i j)

theorem clearedWord_found (found : findRecord s.faults k x = some i) (held : s.faults.slots[i] = some r) :
    clearedWord k x s = wordBool (!r.active) := by
  simp only [clearedWord, found, held]

theorem clearedWord_tripCleared {c : CardId} (h : TripCleared c s) : clearedWord .cardTrip (.card c) s = 1 := by
  cases found : findRecord s.faults .cardTrip (.card c) with
  | none => simp only [clearedWord, found]
  | some i =>
    obtain ⟨r, held, kind, subject⟩ := findRecord_some found
    rw [clearedWord_found found held, h i r held kind subject]
    rfl

end

/-! ### The mark set (R188 to R190) -/

/-- The state with a link's mark set on a slot's record, and R189 applied. -/
def slotMarked (l : Link) (i : SlotId) (s : State) : State :=
  { s with faults := clearSlot s.seq.clock l i s.faults }

section
variable {l : Link} {i : SlotId} {r : Record} {s : State}

theorem clearOp_held (held : s.faults.slots[i] = some r) :
    clearOp l i r s =
      done (clearedWord r.kind r.subject (releaseTrip (settledRecord s.seq.clock (markedRecord l r)) (slotMarked l i s)))
        (releaseTrip (settledRecord s.seq.clock (markedRecord l r)) (slotMarked l i s)) := by
  have own := (slotBecomes_clearSlot held s.seq.clock l).own
  unfold clearOp
  dsimp only
  rw [own]
  rfl

/-- Both marks are set where the other link's was (R189). -/
theorem marks_set (p : PerLink Bool) (l : Link) :
    ((p.set l true).plan = true ∧ (p.set l true).check = true) ↔ p.get (otherLink l) = true := by
  cases l <;> simp [PerLink.set, PerLink.get, otherLink]

/-- The mark releases no trip where no latched trip's record gets its second mark (R94). -/
theorem releaseTrip_none {q : Record}
    (h : ∀ c : CardId, q.kind = .cardTrip → q.subject = .card c → s.cable.cards[c].tripped = true →
      s.cable.cards[c].latched = true → ¬(q.clear.plan = true ∧ q.clear.check = true)) : releaseTrip q s = s := by
  unfold releaseTrip
  split
  case h_1 c kind subject =>
    refine if_neg fun all => ?_
    simp only [Bool.and_eq_true] at all
    obtain ⟨⟨⟨tripped, latched⟩, plan⟩, check⟩ := all
    exact h c kind subject tripped latched ⟨plan, check⟩
  case h_2 => rfl

theorem releaseTrip_latched {q : Record} {c : CardId} (kind : q.kind = .cardTrip) (subject : q.subject = .card c)
    (tripped : s.cable.cards[c].tripped = true) (latched : s.cable.cards[c].latched = true)
    (plan : q.clear.plan = true) (check : q.clear.check = true) : releaseTrip q s = endTrip c s := by
  simp only [releaseTrip, kind, subject, tripped, latched, plan, check, Bool.and_self, if_true]

/-- A mark that releases no trip: what CLEAR RECORD answers, and the table it leaves. -/
theorem clearOp_marks (held : s.faults.slots[i] = some r) (found : findRecord s.faults r.kind r.subject = some i)
    (quiet : ∀ c : CardId, r.kind = .cardTrip → r.subject = .card c → s.cable.cards[c].tripped = true →
      s.cable.cards[c].latched = true → r.clear.get (otherLink l) = false) :
    clearOp l i r s =
      done (wordBool (!(settledRecord s.seq.clock (markedRecord l r)).active)) (slotMarked l i s) := by
  have own := (slotBecomes_clearSlot held s.seq.clock l).own
  have none_released : releaseTrip (settledRecord s.seq.clock (markedRecord l r)) (slotMarked l i s) =
      slotMarked l i s := by
    refine releaseTrip_none fun c kind subject tripped latched both => ?_
    rw [settledRecord_kind] at kind
    rw [settledRecord_subject] at subject
    rw [settledRecord_clear] at both
    have other := (marks_set r.clear l).mp both
    rw [quiet c kind subject tripped latched] at other
    cases other
  have still : findRecord (slotMarked l i s).faults r.kind r.subject = some i :=
    (findRecord_congr (nameAt_clearSlot s.seq.clock l i s.faults) _ _).trans found
  rw [clearOp_held held, none_released, clearedWord_found still own]

/-- The record that a mark leaves ACTIVE or finds CLEARED is changed in that mark alone (R190). -/
theorem settledRecord_marked (clock : Nat) (stays : clearsNow (markedRecord l r) = false) :
    settledRecord clock (markedRecord l r) = markedRecord l r := if_neg (by rw [stays]; exact Bool.false_ne_true)

theorem clearsNow_cleared (cleared : r.active = false) : clearsNow (markedRecord l r) = false := by
  simp [clearsNow, markedRecord, cleared]

theorem clearsNow_waits (h : r.ended = false ∨ r.latched = true ∧ r.clear.get (otherLink l) = false) :
    clearsNow (markedRecord l r) = false := by
  rcases h with lasting | ⟨latched, unmarked⟩
  · simp [clearsNow, markedRecord, lasting]
  · have lacks : ¬((r.clear.set l true).plan = true ∧ (r.clear.set l true).check = true) := fun both => by
      rw [(marks_set r.clear l).mp both] at unmarked
      cases unmarked
    simpa [clearsNow, markedRecord, latched] using fun _ _ plan => Bool.eq_false_iff.mpr fun check => lacks ⟨plan, check⟩

/-- The second mark on an ended latched record: CLEARED and unseen, with both marks (R189). -/
theorem settledRecord_second (clock : Nat) (active : r.active = true) (ended : r.ended = true)
    (other : r.clear.get (otherLink l) = true) :
    clearsNow (markedRecord l r) = true ∧
      settledRecord clock (markedRecord l r) =
        { r with active := false, lastTime := clock, seen := ⟨false, false⟩, clear := ⟨true, true⟩ } := by
  obtain ⟨plan, check⟩ := (marks_set r.clear l).mpr other
  have clears : clearsNow (markedRecord l r) = true := by
    simp [clearsNow, markedRecord, active, ended, plan, check]
  have all {p : PerLink Bool} (plan : p.plan = true) (check : p.check = true) : p = ⟨true, true⟩ := by
    cases p
    cases plan
    cases check
    rfl
  have both : r.clear.set l true = ⟨true, true⟩ := all plan check
  refine ⟨clears, ?_⟩
  rw [settledRecord, if_pos clears, clearedRecord, markedRecord, both]

end

/-! ### The request answered -/

/-- CLEAR RECORD of the record of a slot, by a link. -/
def clearFields (i : SlotId) (n : Byte) (v : Word16) : Fields := ⟨BitVec.ofNat 8 i.val, n, v⟩

section
variable {l : Link} {i : SlotId} {n : Byte} {v : Word16} {r : Record} {s : State}

theorem granted_clearRecord (l : Link) : granted l 0x50 = true := by cases l <;> rfl

theorem clearRecord_badSubject {u : Byte} (h : 47 < u.toNat) :
    Responds (.clearRecord l ⟨u, n, v⟩) l 0x50 ⟨u, n, v⟩ .badSubject 0 s s :=
  responds_onAnyPorts rfl (granted_clearRecord l) fun q =>
    clearRecordOp_beyond (f := ⟨u, n, v⟩) (s := { s with ports := q }) (subjectSlot_beyond h)

theorem clearRecord_free (free : s.faults.slots[i] = none) :
    Responds (.clearRecord l (clearFields i n v)) l 0x50 (clearFields i n v) .badSubject 0 s s :=
  responds_onAnyPorts rfl (granted_clearRecord l) fun q =>
    clearRecordOp_free (f := clearFields i n v) (s := { s with ports := q }) (subjectSlot_named i) free

theorem clearRecord_mismatch (held : s.faults.slots[i] = some r) (other : kindCode r.kind ≠ n.toNat) :
    Responds (.clearRecord l (clearFields i n v)) l 0x50 (clearFields i n v) .mismatch (word (kindCode r.kind)) s s :=
  responds_onAnyPorts rfl (granted_clearRecord l) fun q =>
    (clearRecordOp_held (f := clearFields i n v) (s := { s with ports := q }) (subjectSlot_named i) held).trans
      (if_neg other)

/-- CLEAR RECORD that releases no trip changes the fault table alone. -/
theorem clearRecord_marks (held : s.faults.slots[i] = some r) (named : kindCode r.kind = n.toNat)
    (found : findRecord s.faults r.kind r.subject = some i)
    (quiet : ∀ c : CardId, r.kind = .cardTrip → r.subject = .card c → s.cable.cards[c].tripped = true →
      s.cable.cards[c].latched = true → r.clear.get (otherLink l) = false) :
    Responds (.clearRecord l (clearFields i n v)) l 0x50 (clearFields i n v) .done
      (wordBool (!(settledRecord s.seq.clock (markedRecord l r)).active)) s (slotMarked l i s) :=
  responds_onAnyPorts rfl (granted_clearRecord l) fun q =>
    (clearRecordOp_held (f := clearFields i n v) (s := { s with ports := q }) (subjectSlot_named i) held).trans
      ((if_pos named).trans (clearOp_marks (s := { s with ports := q }) held found quiet))

/-- The second mark on the record of a latched trip ends the trip and answers CLEARED (R94; log entry 45). -/
theorem clearRecord_releases {c : CardId} (held : s.faults.slots[i] = some r) (named : kindCode r.kind = n.toNat)
    (kind : r.kind = .cardTrip) (subject : r.subject = .card c) (other : r.clear.get (otherLink l) = true)
    (tripped : s.cable.cards[c].tripped = true) (latched : s.cable.cards[c].latched = true) (ok : TableOk s.faults) :
    Responds (.clearRecord l (clearFields i n v)) l 0x50 (clearFields i n v) .done 1 s
      (endTrip c (slotMarked l i (receive l 0x50 (clearFields i n v) s))) := by
  obtain ⟨plan, check⟩ := (marks_set r.clear l).mpr other
  have own := (slotBecomes_clearSlot held s.seq.clock l).own
  have kind' := (settledRecord_kind s.seq.clock (markedRecord l r)).trans kind
  have subject' := (settledRecord_subject s.seq.clock (markedRecord l r)).trans subject
  have plan' : (settledRecord s.seq.clock (markedRecord l r)).clear.plan = true := by
    rw [settledRecord_clear]
    exact plan
  have check' : (settledRecord s.seq.clock (markedRecord l r)).clear.check = true := by
    rw [settledRecord_clear]
    exact check
  refine responds_keepingPorts rfl (granted_clearRecord l) (keeps_endTrip c _).ports ?_
  rw [clearRecordOp_held (f := clearFields i n v) (subjectSlot_named i) (by exact held)]
  refine (if_pos named).trans ?_
  generalize received : receive l 0x50 (clearFields i n v) s = w
  have faults : w.faults = s.faults := by rw [← received, receive_faults]
  have cable : w.cable = s.cable := by rw [← received, receive_cable]
  have seq : w.seq = s.seq := by rw [← received, receive_seq]
  have cleared : TripCleared c (endTrip c (slotMarked l i w)) := by
    refine tripCleared_endTrip (i := i) ?_ ?_ kind' subject' plan' check'
    · rw [slotMarked, faults, seq]
      exact ok.cleared _ _ _
    · rw [slotMarked, faults, seq]
      exact own
  rw [clearOp_held (by rw [faults]; exact held), seq,
    releaseTrip_latched kind' subject' (by rw [slotMarked, cable]; exact tripped)
      (by rw [slotMarked, cable]; exact latched) plan' check', kind, subject, clearedWord_tripCleared cleared]
  rfl

/-- CLEAR RECORD that releases no trip, with the table it leaves spelled out. -/
theorem clearRecord_leaves (held : s.faults.slots[i] = some r) (named : kindCode r.kind = n.toNat)
    (found : findRecord s.faults r.kind r.subject = some i)
    (quiet : ∀ c : CardId, r.kind = .cardTrip → r.subject = .card c → s.cable.cards[c].tripped = true →
      s.cable.cards[c].latched = true → r.clear.get (otherLink l) = false) :
    ∃ t, exec (.clearRecord l (clearFields i n v)) s = .next t ∧
      Answered l 0x50 (clearFields i n v) .done
        (wordBool (!(settledRecord s.seq.clock (markedRecord l r)).active)) s t ∧
      t = { s with ports := t.ports, faults := t.faults } ∧
      SlotBecomes i (some (settledRecord s.seq.clock (markedRecord l r))) s.faults t.faults ∧
      t.faults.order = if clearsNow (markedRecord l r) then asNewest s.faults.order i else s.faults.order := by
  obtain ⟨t, e, answered, frame, faults⟩ := Responds.faults (clearRecord_marks (v := v) held named found quiet)
  refine ⟨t, e, answered, frame, ?_⟩
  rw [faults]
  exact ⟨slotBecomes_clearSlot held s.seq.clock l, clearSlot_order held s.seq.clock l⟩

/-- The outputs of a card whose trip has ended (R75). -/
theorem endTrip_output {c : CardId} {o : OutputId} (on : cardOf o = c) (w : State) :
    (endTrip c w).proving.outputs[o].state = (if w.line.cards[c].online then .unproved else .senseLost) ∧
      (endTrip c w).proving.outputs[o].commanded = commandOf (endTrip c w) o := by
  rw [endTrip_eq]
  exact ⟨releaseCard_state on _, releaseCard_commanded on _⟩

/-- What the release of a latched trip by its record's second mark leaves (R75, R94). -/
theorem clearRecord_untrips {c : CardId} (held : s.faults.slots[i] = some r) (named : kindCode r.kind = n.toNat)
    (kind : r.kind = .cardTrip) (subject : r.subject = .card c) (other : r.clear.get (otherLink l) = true)
    (tripped : s.cable.cards[c].tripped = true) (latched : s.cable.cards[c].latched = true) (ok : TableOk s.faults) :
    ∃ t, exec (.clearRecord l (clearFields i n v)) s = .next t ∧ Answered l 0x50 (clearFields i n v) .done 1 s t ∧
      t.cable.cards = s.cable.cards.set c (watchedCard s.cable.cards[c]) ∧
      (∀ o : OutputId, cardOf o = c →
        t.proving.outputs[o].state = (if s.line.cards[c].online then .unproved else .senseLost) ∧
          t.proving.outputs[o].commanded = commandOf t o) ∧
      t.safety = s.safety ∧ t.stages = s.stages ∧ t.line = s.line ∧ t.engine = s.engine ∧ t.inputs = s.inputs ∧
      t.pending = s.pending := by
  obtain ⟨t, e, answered, frame⟩ :=
    clearRecord_releases (v := v) held named kind subject other tripped latched ok
  have kept := keeps_endTrip c (slotMarked l i (receive l 0x50 (clearFields i n v) s))
  have outputs (o : OutputId) (on : cardOf o = c) :=
    endTrip_output on (slotMarked l i (receive l 0x50 (clearFields i n v) s))
  generalize endTrip c (slotMarked l i (receive l 0x50 (clearFields i n v) s)) = u at frame kept outputs
  refine ⟨t, e, answered, ?_⟩
  rw [frame]
  exact ⟨kept.cards, outputs, kept.safety, kept.stages, kept.line, kept.engine,
    kept.inputs, kept.pending⟩

end

/-- Settles O53: the refusals, the mark by what R189 makes of it, and the trip released. -/
theorem clearRecordSetsTheMark : Obligations.ClearRecordSetsTheMark := by
  intro l i n v s
  refine ⟨clearRecord_free, fun u beyond => clearRecord_badSubject beyond, fun r held =>
    ⟨clearRecord_mismatch held, fun named found quiet => ?_, fun c named kind subject found active latched =>
      ⟨fun unmarked => ?_, fun marked tripped latch ok =>
        clearRecord_untrips held named kind subject marked tripped latch ok⟩⟩⟩
  · obtain ⟨t, e, answered, frame, leaves, order⟩ := clearRecord_leaves (v := v) held named found quiet
    refine ⟨t, e, frame, leaves.others, fun active ended _ marked => ?_, fun cleared => ?_, fun active waits => ?_⟩
    · obtain ⟨clears, second⟩ := settledRecord_second s.seq.clock active ended marked
      rw [second] at answered leaves
      rw [if_pos clears] at order
      exact ⟨answered, leaves.own, order⟩
    · have stays := clearsNow_cleared (l := l) cleared
      rw [settledRecord_marked _ stays] at answered leaves
      rw [stays] at order
      have word : wordBool (!(markedRecord l r).active) = 1 := by rw [markedRecord, cleared]; rfl
      exact ⟨word ▸ answered, leaves.own, order⟩
    · have stays := clearsNow_waits waits
      rw [settledRecord_marked _ stays] at answered leaves
      rw [stays] at order
      have word : wordBool (!(markedRecord l r).active) = 0 := by rw [markedRecord, active]; rfl
      exact ⟨word ▸ answered, leaves.own, order⟩
  · obtain ⟨t, e, answered, frame, leaves, -⟩ := clearRecord_leaves (v := v) held named
      (by rw [kind, subject]; exact found) fun _ _ _ _ _ => unmarked
    have stays := clearsNow_waits (Or.inr ⟨latched, unmarked⟩)
    rw [settledRecord_marked _ stays] at answered leaves
    have word : wordBool (!(markedRecord l r).active) = 0 := by rw [markedRecord, active]; rfl
    exact ⟨t, e, word ▸ answered, frame, leaves.own⟩

end Sys2Proof.Machine
end

section
/-! PROOFS. Chapter 11, the frames: a request's 40 bits, and the request that 40 bits spell. -/

namespace Sys2Proof

/-! ### The fields of a frame (R200) -/

theorem frameCode_frameBits (code : Byte) (f : Fields) : frameCode (frameBits code f) = code := by
  unfold frameCode frameBits
  rw [BitVec.extractLsb'_append_eq_of_le (by decide), BitVec.extractLsb'_append_eq_of_le (by decide)]
  exact BitVec.extractLsb'_append_eq_left

theorem frameFields_frameBits (code : Byte) (f : Fields) : frameFields (frameBits code f) = f := by
  have subject : (frameBits code f).extractLsb' 24 8 = f.subject := by
    unfold frameBits
    rw [BitVec.extractLsb'_append_eq_of_le (by decide), BitVec.extractLsb'_append_eq_of_le (by decide)]
    exact BitVec.extractLsb'_append_eq_right
  have index : (frameBits code f).extractLsb' 16 8 = f.index := by
    unfold frameBits
    rw [BitVec.extractLsb'_append_eq_of_le (by decide)]
    exact BitVec.extractLsb'_append_eq_right
  have value : (frameBits code f).extractLsb' 0 16 = f.value := BitVec.extractLsb'_append_eq_right
  rw [frameFields, subject, index, value]

theorem frameBits_frameFields (w : BitVec 40) : frameBits (frameCode w) (frameFields w) = w := by
  unfold frameBits frameCode frameFields
  rw [BitVec.extractLsb'_append_extractLsb'_eq_extractLsb' (by decide),
    BitVec.extractLsb'_append_extractLsb'_eq_extractLsb' (by decide),
    BitVec.extractLsb'_append_extractLsb'_eq_extractLsb' (by decide)]
  exact BitVec.extractLsb'_eq_self

theorem decodeFrame_frameBits (l : Link) (code : Byte) (f : Fields) (reading : Level) (ms : Nat) :
    decodeFrame l (frameBits code f) reading ms =
      if granted l code then requestNamed l code f reading ms else .unknownRequest l code f := by
  rw [decodeFrame, frameCode_frameBits, frameFields_frameBits]

/-! ### Requests and their codes (R203) -/

section
variable {i : Instr} {l : Link} {code : Byte} {f : Fields}

/-- A well-formed request is the one its code names, or UNKNOWN_REQUEST without the right. -/
theorem request_of_wellFormed (wf : WellFormed i = true) (parts : requestParts i = some (l, code, f)) :
    granted l code = true ∧ requestNamed l code f (sideReading i) (sideMs i) = i ∨
      granted l code = false ∧ i = .unknownRequest l code f := by
  cases i
  case unknownRequest =>
    cases parts
    exact Or.inr ⟨Bool.not_eq_true' _ ▸ wf, rfl⟩
  case inputSet =>
    cases parts
    exact Or.inl ⟨(Bool.and_eq_true_iff.mp wf).1, rfl⟩
  case readInput =>
    cases parts
    exact Or.inl ⟨by cases l <;> rfl, rfl⟩
  all_goals cases parts
  all_goals exact Or.inl ⟨wf, rfl⟩

/-- A request other than UNKNOWN_REQUEST is well formed with the right and the ms of a sample interval. -/
theorem wellFormed_of_granted (parts : requestParts i = some (l, code, f)) (right : granted l code = true)
    (known : i ≠ .unknownRequest l code f) (interval : sideMs i < 16) : WellFormed i = true := by
  cases i
  case unknownRequest =>
    cases parts
    exact absurd rfl known
  case inputSet =>
    cases parts
    exact Bool.and_eq_true_iff.mpr ⟨right, decide_eq_true interval⟩
  case readInput => exact decide_eq_true interval
  all_goals cases parts
  all_goals exact right

end

section
variable (l : Link) (code : Byte) (f : Fields) (reading : Level) (ms : Nat)

theorem requestParts_requestNamed :
    requestParts (requestNamed l code f reading ms) = some (l, code, f) := by
  unfold requestNamed
  split
  case h_40 => rfl
  all_goals
    rename_i same
    exact congrArg (fun c => some (l, c, f)) (BitVec.eq_of_toNat_eq same.symm)

theorem sideMs_requestNamed_le : sideMs (requestNamed l code f reading ms) ≤ ms := by
  unfold requestNamed
  split
  all_goals simp [sideMs]

variable {l code}

/-- Every code of the catalogue names a request of its own. -/
theorem requestNamed_known (right : granted l code = true) :
    requestNamed l code f reading ms ≠ .unknownRequest l code f := by
  obtain ⟨row, listed, fits⟩ := List.any_eq_true.mp right
  obtain ⟨same, -⟩ := Bool.and_eq_true_iff.mp fits
  rw [← beq_iff_eq.mp same]
  have all : ∀ r ∈ catalogue, requestNamed l r.code f reading ms ≠ .unknownRequest l r.code f := by
    simp [catalogue, requestNamed]
  exact all row listed

end

theorem encodeFrame_of_parts {i : Instr} {l : Link} {code : Byte} {f : Fields}
    (parts : requestParts i = some (l, code, f)) : encodeFrame i = some (l, frameBits code f) := by
  rw [encodeFrame, parts]
  rfl

/-- Settles O6: the request is the one that its code names, or UNKNOWN_REQUEST. -/
theorem decodeOfEncodedRequestIsTheRequest : Obligations.DecodeOfEncodedRequestIsTheRequest := by
  intro i l w wf encoded
  obtain ⟨⟨l', code, f⟩, parts, same⟩ := Option.map_eq_some_iff.mp encoded
  cases same
  rw [decodeFrame_frameBits]
  obtain ⟨right, named⟩ | ⟨noRight, unknown⟩ := request_of_wellFormed wf parts
  · rw [if_pos right, named]
  · rw [if_neg (by simp [noRight]), unknown]

/-- Settles O7: with the right, by the request that the code names; without it, by UNKNOWN_REQUEST. -/
theorem encodeOfDecodedFrameIsTheFrame : Obligations.EncodeOfDecodedFrameIsTheFrame := by
  intro l w reading ms interval
  unfold decodeFrame
  split
  case isTrue right =>
    have parts := requestParts_requestNamed l (frameCode w) (frameFields w) reading ms
    refine ⟨by rw [encodeFrame_of_parts parts, frameBits_frameFields], ?_⟩
    exact wellFormed_of_granted parts right (requestNamed_known _ _ _ right)
      (Nat.lt_of_le_of_lt (sideMs_requestNamed_le ..) interval)
  case isFalse noRight =>
    refine ⟨by rw [encodeFrame_of_parts rfl, frameBits_frameFields], ?_⟩
    rw [WellFormed, Bool.eq_false_of_not_eq_true noRight]
    rfl

end Sys2Proof
end

section
/-! PROOFS. Chapter 11, the link ports: requests without a right, discarded frames, and reads through the snapshot. -/

namespace Sys2Proof.Machine

/-! ### Requests without a right, and frames discarded (R200, R201, R203) -/

/-- A request without the right comes to its link's port, where the right is judged. -/
theorem exec_withoutRight {i : Instr} {l : Link} {code : Byte} {f : Fields}
    (parts : requestParts i = some (l, code, f)) (noRight : granted l code = false) (s : State) :
    ∃ handle, exec i s = .next (takeRequest l code f handle s) := by
  cases i
  case unknownRequest =>
    cases parts
    exact ⟨refuse .refusedRight 0, if_neg (by simp [noRight])⟩
  all_goals cases parts
  all_goals exact ⟨_, rfl⟩

/-- Settles O5: the port refuses before any block handles the request. -/
theorem requestWithoutRightIsRefused : Obligations.RequestWithoutRightIsRefused := by
  intro i l code f s parts noRight
  obtain ⟨handle, taken⟩ := exec_withoutRight parts noRight s
  exact responds_of_noRight i l code f handle s taken noRight

theorem discard_own (l : Link) (clocks : Nat) (s : State) :
    (discard l clocks s).ports.get l =
      { receiver := { clocks := clocks, bits := (s.ports.get l).receiver.bits }
        response :=
          { result := .frameError, summary := summaryOf l true s, code := 0, value := word (min 65535 clocks) }
        frameError := true
        snapshot := (s.ports.get l).snapshot } := by
  cases l <;> rfl

theorem discard_other (l : Link) (clocks : Nat) (s : State) :
    (discard l clocks s).ports.get (otherLink l) = s.ports.get (otherLink l) := by
  cases l <;> rfl

/-- Settles O4: NOP's handling is empty, and a discarded frame touches its own port alone. -/
theorem nopAndDiscardedFrame : Obligations.NopAndDiscardedFrame := by
  refine ⟨fun l f s => ?_, fun l clocks s odd => ?_⟩
  · have right : granted l 0x00 = true := by cases l <;> rfl
    exact responds_onAnyPorts rfl right fun _ => rfl
  · exact ⟨discard l clocks s, if_neg odd, rfl, discard_other l clocks s, discard_own l clocks s⟩

/-! ### Reads (R206) -/

section
variable {i : Instr} {l : Link} {code : Byte} {f : Fields}

theorem granted_read (read : isRead i = true) (parts : requestParts i = some (l, code, f)) :
    granted l code = true := by
  cases i
  all_goals cases read
  all_goals
    cases parts
    cases l <;> rfl

/-- A read's handling is of the words that it names. -/
theorem exec_read (read : isRead i = true) (parts : requestParts i = some (l, code, f)) (s : State) :
    exec i s = .next (takeRequest l code f (readItem l code f (readWords i)) s) := by
  cases i
  all_goals cases read
  all_goals
    cases parts
    rfl

/-- The words of an item are of the blocks, and not of the ports. -/
theorem readWords_ports (i : Instr) (s : State) (p : PerLink Port) :
    readWords i { s with ports := p } = readWords i s := by
  cases i <;> rfl

theorem readWords_receive (i : Instr) (l : Link) (code : Byte) (f : Fields) (s : State) :
    readWords i (receive l code f s) = readWords i s :=
  readWords_ports i s _

/-- A frame taken leaves the snapshot that its port holds. -/
theorem setSnapshot_receive (l : Link) (code : Byte) (f : Fields) (s : State) :
    setSnapshot l (s.ports.get l).snapshot (receive l code f s) = receive l code f s := by
  cases l <;> rfl

variable {s : State} {w : Word16} {ws : List Word16}

theorem reads_of_readItem {r : Result} {x : Option Snapshot} (read : isRead i = true)
    (parts : requestParts i = some (l, code, f))
    (answers : readItem l code f (readWords i) (receive l code f s) =
      { result := r, value := w, state := setSnapshot l x (receive l code f s) }) :
    Reads i l code f r w x s :=
  reads_of_handled i l code f _ s r w x (exec_read read parts s) (granted_read read parts) answers

/-- Word 0 of an item takes the snapshot. -/
theorem reads_firstWord (read : isRead i = true) (parts : requestParts i = some (l, code, f)) (zero : f.value = 0)
    (item : readWords i s = some (w :: ws)) :
    Reads i l code f .done w (some { code := code, subject := f.subject, index := f.index, words := w :: ws }) s := by
  refine reads_of_readItem read parts ?_
  simp only [readItem_cases, zero, if_true, readWords_receive, item, List.headD_cons]

/-- Word 0 of no item is refused. -/
theorem reads_noItem (read : isRead i = true) (parts : requestParts i = some (l, code, f)) (zero : f.value = 0)
    (item : readWords i s = none) : Reads i l code f .badSubject 0 (s.ports.get l).snapshot s := by
  refine reads_of_readItem read parts ?_
  simp only [readItem_cases, zero, if_true, readWords_receive, item, setSnapshot_receive]

/-- A later word that the snapshot holds. -/
theorem reads_laterWord (read : isRead i = true) (parts : requestParts i = some (l, code, f)) (later : f.value ≠ 0)
    (held : snapshotWord l code f s = some w) : Reads i l code f .done w (s.ports.get l).snapshot s := by
  refine reads_of_readItem read parts ?_
  simp only [readItem_cases, if_neg later, snapshotWord_receive, held, setSnapshot_receive]

/-- A later word that no snapshot holds. -/
theorem reads_missingWord (read : isRead i = true) (parts : requestParts i = some (l, code, f)) (later : f.value ≠ 0)
    (missing : snapshotWord l code f s = none) :
    Reads i l code f (if (readWords i s).isSome then .badValue else .badSubject) 0 (s.ports.get l).snapshot s := by
  refine reads_of_readItem read parts ?_
  simp only [readItem_cases, if_neg later, snapshotWord_receive, missing, readWords_receive, setSnapshot_receive]

end

/-- Settles O8: word 0 by the item, later words by the snapshot. -/
theorem readsAnswerThroughTheSnapshot : Obligations.ReadsAnswerThroughTheSnapshot := by
  intro i l code f s read parts
  refine ⟨fun zero => ⟨fun w ws item => reads_firstWord read parts zero item,
      fun item => reads_noItem read parts zero item⟩,
    fun later => ⟨fun x w held hc hs hi word => ?_,
      fun missing => reads_missingWord read parts later (snapshotWord_none missing)⟩⟩
  rw [← held]
  exact reads_laterWord read parts later ((snapshotWord_held held hc hs hi).trans word)

end Sys2Proof.Machine
end

section
/-! PROOFS. Chapter 11, the items of the reads: the words of each, by the subject and index that name it. -/

namespace Sys2Proof.Machine

section
variable (v : Word16) (s : State)

theorem stageItem_words (n : StageId) :
    stageItem ⟨BitVec.ofNat 8 (number n), 0, v⟩ s = some [wordBool s.stages[n].defined, s.stages[n].members] := by
  rw [stageItem, subject16_number]
  rfl

theorem groupItem_intergreens (g : GroupId) :
    groupItem ⟨BitVec.ofNat 8 (number g), 3, v⟩ s =
      some (all16.map fun h => word (activeTable s).intergreens[g][h]) := by
  rw [groupItem, subject16_number]
  rfl

theorem cardItem_counts (c : CardId) :
    cardItem ⟨BitVec.ofNat 8 (number c), 2, v⟩ s =
      some
        [word s.line.cards[c].missing, word s.line.cards[c].goodRun, word s.line.cards[c].faulted.a,
         word s.line.cards[c].faulted.b] := by
  rw [cardItem, subjectCard_number]
  rfl

theorem investigationItem_free {i : InvSlot} (free : s.cable.investigations[i] = none) :
    investigationItem ⟨BitVec.ofNat 8 i.val, 0, v⟩ s = some [0] := by
  have byte : (BitVec.ofNat 8 i.val).toNat = i.val := byte_toNat (Nat.lt_trans i.isLt (by decide))
  rw [investigationItem, byte, zeroBased_val]
  simp [free]

/-- READ CLOCK: the time as two words, then the cycle position. -/
theorem clockItem_words (u : Byte) :
    clockItem ⟨u, 0, v⟩ s =
      some [word (s.seq.clock / 65536), word (s.seq.clock % 65536), wordOpt s.seq.position] := rfl

theorem safetyStatusItem_signature (l : Link) (u : Byte) :
    safetyStatusItem l ⟨u, 1, v⟩ s = some [wordBool s.safety.active.isSome, s.safety.signature] := rfl

theorem safetyStatusItem_copySignature (l : Link) (u : Byte) :
    safetyStatusItem l ⟨u, 2, v⟩ s = some [crcOf (canonical (s.safety.copies.get l))] := rfl

theorem lineItem_lineA : lineItem ⟨1, 0, v⟩ s = some (lineWords s.line.lines.a) := rfl

theorem planItem_roles :
    planItem ⟨0, 1, v⟩ s =
      some
        [wordOpt (s.plans.start.map number), wordOpt (s.plans.active.map number),
         wordOpt (s.plans.pending.map fun q => number q.plan), wordOpt (s.plans.pending.map fun q => q.wrap.toNat),
         wordBool (transferDue s)] := rfl

theorem sequencerItem_latches (u : Byte) : sequencerItem ⟨u, 3, v⟩ s = some [s.seq.latches] := rfl

end

/-- Settles O9: each item by the words of its own block. -/
theorem itemsHoldTheirWords : Obligations.ItemsHoldTheirWords := fun l v s =>
  ⟨stageItem_words v s, clockItem_words v s,
    fun u => ⟨safetyStatusItem_signature v s l u, safetyStatusItem_copySignature v s l u⟩,
    groupItem_intergreens v s, cardItem_counts v s, lineItem_lineA v s, planItem_roles v s,
    sequencerItem_latches v s, fun _ free => investigationItem_free v s free⟩

end Sys2Proof.Machine
end

section
/-! PROOFS. The queue of commands (log entry 4): what a step makes of a queue with a front command, and of an empty one. -/

namespace Sys2Proof.Machine

theorem step_of_pending_cons {s : State} {c : Instr} {rest : List Instr} (queue : s.pending = c :: rest) :
    step s = exec c { s with pending := rest } := by
  rw [step, queue]

theorem step_of_pending_nil {s : State} (queue : s.pending = []) : step s = .next s := by
  rw [step, queue]

/-- Settles O1, by the two forms of the queue; the state that the front command runs on keeps nothing of the old queue. -/
theorem stepTakesTheFrontCommand : Obligations.StepTakesTheFrontCommand :=
  ⟨fun _ _ _ => step_of_pending_cons rfl, fun _ => step_of_pending_nil⟩

end Sys2Proof.Machine
end
